-- ==== Sys2Proof/Word.lean ====
section
/-! DEFINITION. The machine's words: byte, word, long word, register numbers (spec rules R10, R20, R145). -/

namespace Sys2Proof

/-- 8 bits. -/
abbrev Byte := BitVec 8

/-- 16 bits: the size of every instruction word (R140). -/
abbrev Word := BitVec 16

/-- 32 bits: registers and addresses (R20). -/
abbrev Long := BitVec 32

/-- A 3-bit register number, D0-D7 or A0-A7 as the instruction says (R145). -/
abbrev Reg := BitVec 3

/-- A 4-bit register number, D/A bit above the number: 0-7 are D0-D7, 8-15 are A0-A7 (R145). -/
abbrev Rn := BitVec 4

/-- A 4-bit condition code (R170). -/
abbrev Cond := BitVec 4

/-- A function code, the name of an address space (R70). -/
abbrev Fc := BitVec 3

end Sys2Proof
end

