-- ==== Sys2Proof/Config.lean ====
section
/-! DEFINITION. What an implementation of the MC68020/EC020 fixes, and the free values: constants without a body, of
which nothing can be proved (log 14). -/

namespace Sys2Proof

/-- A bit the spec leaves at any value (93_implementation_defined.md U8, U9), drawn with `State.freeIdx`. -/
opaque Config.freeBit : Nat → Bool

/-- A long word the spec leaves at any value (U8, U12, U14, U18), drawn with `State.freeIdx`. -/
opaque Config.freeLong : Nat → Long

/-- Whether the byte accesses of PACK and UNPK move A7 by 2: not known, a choice of the hardware (U9, log 16). -/
opaque Config.packStepsTwo : Bool

/-- The tracing modes of Table 6-2 (R630). -/
inductive TraceMode where
  | none
  | flow
  | every
  deriving DecidableEq, Repr, Inhabited

/-- The mode that the reserved value T1,T0 = 11 behaves as: one fixed choice of the three defined ones (U4, log 15). -/
opaque Config.reservedTrace : TraceMode

/-- Number of entries of the instruction cache (R43). -/
def Config.cacheEntries : Nat := 64

end Sys2Proof
end

