-- ==== Sys2Proof/Syntax.lean ====
section
/-! DEFINITION. The instructions as data: one constructor of `Instr` for each row of spec/opcode_table.json,
in the table's order, with the operand shapes of 30_encoding.md. -/

namespace Sys2Proof

/-- Operation size (R144). -/
inductive Size where
  | b
  | w
  | l
  deriving DecidableEq, Repr

/-- A base or outer displacement of a full format extension word (R157). -/
inductive Disp where
  | null
  | word (d : Word)
  | long (d : Long)
  deriving DecidableEq, Repr

/-- The memory indirection a full format extension word selects (R157). With the index suppressed, every
indirection is written as `pre`. -/
inductive Indirect where
  | none
  | pre (od : Disp)
  | post (od : Disp)
  deriving DecidableEq, Repr

/-- The index operand: register number with its D/A bit, W/L and SCALE (R156). -/
structure XIndex where
  rn : Rn
  long : Bool
  scale : BitVec 2
  deriving DecidableEq, Repr

/-- The extension words of the indexed and memory indirect modes: brief format (R156) and full format (R157). -/
inductive Index where
  | brief (x : XIndex) (d8 : Byte)
  | full (x : XIndex) (bs is : Bool) (bd : Disp) (ind : Indirect)
  deriving DecidableEq, Repr

/-- The 18 addressing modes of R150: `idx` and `pcIdx` hold five and four of them. -/
inductive Ea where
  | dn (n : Reg)
  | an (n : Reg)
  | ind (n : Reg)
  | postInc (n : Reg)
  | preDec (n : Reg)
  | disp (n : Reg) (d16 : Word)
  | idx (n : Reg) (x : Index)
  | absW (a : Word)
  | absL (a : Long)
  | pcDisp (d16 : Word)
  | pcIdx (x : Index)
  | imm (v : Long)
  deriving DecidableEq, Repr

/-- The displacement of BRA, BSR and Bcc: in the operation word, or one or two extension words (R350). -/
inductive BrDisp where
  | byte (d : Byte)
  | word (d : Word)
  | long (d : Long)
  deriving DecidableEq, Repr

/-- The offset and width fields of a bit field extension word: a value, or (flag set) a register number in the low
three bits (R320). -/
structure BfSpec where
  offReg : Bool
  off : BitVec 5
  widReg : Bool
  wid : BitVec 5
  deriving DecidableEq, Repr

/-- Every instruction and every decode outcome of the opcode table, one constructor per row. Immediates are held as
long words that fit the operation size; fields an extension word does not name are not held. -/
inductive Instr where
  | oriCcr (imm : Byte)
  | oriSr (imm : Word)
  | andiCcr (imm : Byte)
  | andiSr (imm : Word)
  | eoriCcr (imm : Byte)
  | eoriSr (imm : Word)
  | cas2W (rn1 : Rn) (du1 dc1 : Reg) (rn2 : Rn) (du2 dc2 : Reg)
  | cas2L (rn1 : Rn) (du1 dc1 : Reg) (rn2 : Rn) (du2 dc2 : Reg)
  | rtm (rn : Rn)
  | callm (argc : Byte) (ea : Ea)
  | cmp2 (sz : Size) (rn : Rn) (ea : Ea)
  | chk2 (sz : Size) (rn : Rn) (ea : Ea)
  | btst (n : Byte) (ea : Ea)
  | bchg (n : Byte) (ea : Ea)
  | bclr (n : Byte) (ea : Ea)
  | bset (n : Byte) (ea : Ea)
  | cas (sz : Size) (dc du : Reg) (ea : Ea)
  | moves (sz : Size) (rn : Rn) (toMem : Bool) (ea : Ea)
  | movep (long toMem : Bool) (d a : Reg) (d16 : Word)
  | btstDn (d : Reg) (ea : Ea)
  | bchgDn (d : Reg) (ea : Ea)
  | bclrDn (d : Reg) (ea : Ea)
  | bsetDn (d : Reg) (ea : Ea)
  | ori (sz : Size) (imm : Long) (ea : Ea)
  | andi (sz : Size) (imm : Long) (ea : Ea)
  | subi (sz : Size) (imm : Long) (ea : Ea)
  | addi (sz : Size) (imm : Long) (ea : Ea)
  | eori (sz : Size) (imm : Long) (ea : Ea)
  | cmpi (sz : Size) (imm : Long) (ea : Ea)
  | moveB (src dst : Ea)
  | moveaW (a : Reg) (src : Ea)
  | moveW (src dst : Ea)
  | moveaL (a : Reg) (src : Ea)
  | moveL (src dst : Ea)
  | illegal
  | reset
  | nop
  | stop (imm : Word)
  | rte
  | rtd (d16 : Word)
  | rts
  | trapv
  | rtr
  | movec (toCtl : Bool) (rn : Rn) (code : BitVec 12)
  | trap (v : BitVec 4)
  | linkW (a : Reg) (d16 : Word)
  | unlk (a : Reg)
  | moveUsp (fromUsp : Bool) (a : Reg)
  | jsr (ea : Ea)
  | jmp (ea : Ea)
  | swap (d : Reg)
  | bkpt (v : BitVec 3)
  | pea (ea : Ea)
  | linkL (a : Reg) (d32 : Long)
  | nbcd (ea : Ea)
  | extW (d : Reg)
  | extL (d : Reg)
  | extbL (d : Reg)
  | movemToMem (long : Bool) (mask : Word) (ea : Ea)
  | movemToRegs (long : Bool) (mask : Word) (ea : Ea)
  | muluL (quad : Bool) (dl dh : Reg) (ea : Ea)
  | mulsL (quad : Bool) (dl dh : Reg) (ea : Ea)
  | divuL (quad : Bool) (dq dr : Reg) (ea : Ea)
  | divsL (quad : Bool) (dq dr : Reg) (ea : Ea)
  | tas (ea : Ea)
  | tst (sz : Size) (ea : Ea)
  | moveFromSr (ea : Ea)
  | negx (sz : Size) (ea : Ea)
  | moveFromCcr (ea : Ea)
  | clr (sz : Size) (ea : Ea)
  | moveToCcr (ea : Ea)
  | neg (sz : Size) (ea : Ea)
  | moveToSr (ea : Ea)
  | not (sz : Size) (ea : Ea)
  | chkW (d : Reg) (ea : Ea)
  | chkL (d : Reg) (ea : Ea)
  | lea (a : Reg) (ea : Ea)
  | dbcc (cc : Cond) (d : Reg) (d16 : Word)
  | trapccW (cc : Cond) (op : Word)
  | trapccL (cc : Cond) (op : Long)
  | trapcc (cc : Cond)
  | scc (cc : Cond) (ea : Ea)
  | addq (sz : Size) (q : BitVec 3) (ea : Ea)
  | subq (sz : Size) (q : BitVec 3) (ea : Ea)
  | bra (d : BrDisp)
  | bsr (d : BrDisp)
  | bcc (cc : Cond) (d : BrDisp)
  | moveq (d : Reg) (imm : Byte)
  | divuW (d : Reg) (ea : Ea)
  | divsW (d : Reg) (ea : Ea)
  | sbcd (mem : Bool) (src dst : Reg)
  | pack (mem : Bool) (src dst : Reg) (adj : Word)
  | unpk (mem : Bool) (src dst : Reg) (adj : Word)
  | or (sz : Size) (toEa : Bool) (d : Reg) (ea : Ea)
  | suba (long : Bool) (a : Reg) (ea : Ea)
  | subx (sz : Size) (mem : Bool) (src dst : Reg)
  | sub (sz : Size) (toEa : Bool) (d : Reg) (ea : Ea)
  | aline (x : BitVec 12)
  | cmpa (long : Bool) (a : Reg) (ea : Ea)
  | cmpm (sz : Size) (src dst : Reg)
  | eor (sz : Size) (d : Reg) (ea : Ea)
  | cmp (sz : Size) (d : Reg) (ea : Ea)
  | muluW (d : Reg) (ea : Ea)
  | mulsW (d : Reg) (ea : Ea)
  | abcd (mem : Bool) (src dst : Reg)
  | exgDD (x y : Reg)
  | exgAA (x y : Reg)
  | exgDA (x y : Reg)
  | and (sz : Size) (toEa : Bool) (d : Reg) (ea : Ea)
  | adda (long : Bool) (a : Reg) (ea : Ea)
  | addx (sz : Size) (mem : Bool) (src dst : Reg)
  | add (sz : Size) (toEa : Bool) (d : Reg) (ea : Ea)
  | bftst (f : BfSpec) (ea : Ea)
  | bfextu (d : Reg) (f : BfSpec) (ea : Ea)
  | bfchg (f : BfSpec) (ea : Ea)
  | bfexts (d : Reg) (f : BfSpec) (ea : Ea)
  | bfclr (f : BfSpec) (ea : Ea)
  | bfffo (d : Reg) (f : BfSpec) (ea : Ea)
  | bfset (f : BfSpec) (ea : Ea)
  | bfins (d : Reg) (f : BfSpec) (ea : Ea)
  | asrEa (ea : Ea)
  | aslEa (ea : Ea)
  | lsrEa (ea : Ea)
  | lslEa (ea : Ea)
  | roxrEa (ea : Ea)
  | roxlEa (ea : Ea)
  | rorEa (ea : Ea)
  | rolEa (ea : Ea)
  | asr (sz : Size) (byReg : Bool) (c : BitVec 3) (d : Reg)
  | asl (sz : Size) (byReg : Bool) (c : BitVec 3) (d : Reg)
  | lsr (sz : Size) (byReg : Bool) (c : BitVec 3) (d : Reg)
  | lsl (sz : Size) (byReg : Bool) (c : BitVec 3) (d : Reg)
  | roxr (sz : Size) (byReg : Bool) (c : BitVec 3) (d : Reg)
  | roxl (sz : Size) (byReg : Bool) (c : BitVec 3) (d : Reg)
  | ror (sz : Size) (byReg : Bool) (c : BitVec 3) (d : Reg)
  | rol (sz : Size) (byReg : Bool) (c : BitVec 3) (d : Reg)
  | flineCpid0 (x : BitVec 9)
  | cpGen (id mode reg : BitVec 3) (cmd : Word)
  | cpDbcc (id : BitVec 3) (d : Reg) (cond : Word)
  | cpTrapccW (id : BitVec 3) (cond : Word)
  | cpTrapccL (id : BitVec 3) (cond : Word)
  | cpTrapcc (id : BitVec 3) (cond : Word)
  | cpScc (id mode reg : BitVec 3) (cond : Word)
  | cpBccW (id : BitVec 3) (sel : BitVec 6)
  | cpBccL (id : BitVec 3) (sel : BitVec 6)
  | cpSave (id : BitVec 3) (ea : Ea)
  | cpRestore (id : BitVec 3) (ea : Ea)
  | flineBadType (id : BitVec 3) (x : BitVec 7)
  | unassigned (opword : Word)
  deriving DecidableEq, Repr

end Sys2Proof
end

