-- ==== Sys2Proof/Machine/State.lean ====
section
/-! DEFINITION. The machine's state as plain data, the reasons a step can stop, and the state after reset. -/

namespace Sys2Proof.Machine

/-- Why the machine stops for ever. -/
inductive Fault where
  /-- A bus cycle that no device ends (R90, 93_implementation_defined.md U19): raised by the step of a processor that waits
  in one (`RunState.waiting`) when no input is to come, so that no reset can end the wait (R700). Safe: the processor
  itself waits "indefinitely" there. -/
  | busNeverEnds
  deriving DecidableEq, Repr

/-- Why an instruction has no meaning in the model. -/
inductive Refusal where
  /-- The instruction of this mnemonic is not modelled: raised by an arm of `exec` that has no meaning yet. Safe: nothing
  can be proved of what follows. -/
  | notModelled (mnemonic : String)
  deriving DecidableEq, Repr

/-- The condition codes (R31). -/
structure Ccr where
  x : Bool
  n : Bool
  z : Bool
  v : Bool
  c : Bool
  deriving DecidableEq, Repr

/-- The implemented bits of the status register (R30). -/
structure Sr where
  t1 : Bool
  t0 : Bool
  s : Bool
  m : Bool
  mask : BitVec 3
  ccr : Ccr
  deriving DecidableEq, Repr

/-- The general registers and the three stack pointers that A7 names (R20, R23). -/
structure Regs where
  d : Vector Long 8
  a : Vector Long 7
  usp : Long
  isp : Long
  msp : Long
  deriving DecidableEq, Repr

/-- An entry of the instruction cache (R43). -/
structure CacheEntry where
  tag : BitVec 24
  fc2 : Bool
  valid : Bool
  data : Long
  deriving DecidableEq, Repr

/-- The cache holding register (R50, R112). -/
structure Holding where
  valid : Bool
  addr : Long
  fc2 : Bool
  data : Long
  deriving DecidableEq, Repr

/-- A stage of the instruction pipe with its status bit `fault` (R50). -/
structure PipeStage where
  valid : Bool
  addr : Long
  word : Word
  fault : Bool
  deriving DecidableEq, Repr

/-- The instruction pipe (R50). -/
structure Pipe where
  b : PipeStage
  c : PipeStage
  d : PipeStage
  deriving DecidableEq, Repr

/-- The run state (R55); `waiting` in a bus cycle that nothing ends (R90, U19). -/
inductive RunState where
  | normal
  | stopped
  | halted
  | waiting
  deriving DecidableEq, Repr

/-- The interrupt request state (R51). -/
structure Irq where
  sampled : BitVec 3
  prev : BitVec 3
  pending : Bool
  level : BitVec 3
  deriving DecidableEq, Repr

/-- The trace state (R53, R631): trace pending, the latched "trace on change of flow" of the instruction in execution,
and the address of that instruction. -/
structure Trace where
  pending : Bool
  flow : Bool
  addr : Long
  deriving DecidableEq, Repr

/-- What a stack frame holds above its first eight bytes (R641, R643, R648). -/
inductive FrameBody where
  | four
  | six (addr : Long)
  | mid (addr : Long) (internal opword : Word) (ea : Long)
  deriving DecidableEq, Repr

/-- An exception about to be taken (R610): vector number, frame, stacked PC, and the level if it is an interrupt. -/
structure Entry where
  vector : Byte
  body : FrameBody
  pc : Long
  level : Option (BitVec 3)
  deriving DecidableEq, Repr

/-- A bus cycle that ended in bus error: its address, space, direction, the bytes still to be moved and, right
justified, the data of a write (R93, R662, R664). -/
structure BusFault where
  addr : Long
  fc : Fc
  read : Bool
  bytes : Nat
  data : Long
  deriving DecidableEq, Repr

/-- What the instruction in execution has behind it (log 11): a completed read or instruction word and its value, a
completed write, or an interruptible point (R555) passed. -/
inductive BusRec where
  | read (v : Long)
  | write
  | point
  deriving DecidableEq, Repr

/-- What a suspended activity waits for (log 11). -/
inductive SuspKind where
  /-- A word of an instruction of which nothing has been executed; the words before it. -/
  | fetch (words : List Word)
  /-- A word that an instruction fetches while it runs (R482). -/
  | stream
  /-- An operand cycle; `got` holds the bytes that earlier cycles of the same operand delivered. -/
  | access (f : BusFault) (got : Long)
  /-- An odd address that an instruction put into the PC. -/
  | jump (target : Long)
  /-- The processing of another exception, with the SR it was copying; the vector's odd value, if that is the cause;
  what earlier cycles of the vector read delivered. -/
  | entry (e : Entry) (copy : Sr) (odd : Option Long) (got : Long)
  deriving DecidableEq, Repr

/-- Registers, SR, PC, trace state and free value counter at one moment. -/
structure Snapshot where
  regs : Regs
  sr : Sr
  pc : Long
  trace : Trace
  free : Nat
  deriving DecidableEq, Repr

/-- A suspended activity, named by the key its bus fault frame carries (R54, R660, log 11). -/
structure Suspension where
  key : Long
  long : Bool
  kind : SuspKind
  instr : Instr
  locked : Bool
  start : Snapshot
  atFault : Snapshot
  pcNext : Long
  done : List BusRec
  pipe : Pipe
  deriving DecidableEq, Repr

/-- What a restarted instruction finds where it had stopped (log 11): the registers, control registers, cache and pipe as
the handler left them, and the trace state; and where that is: with the last record taken over, or (`late`) at the access
after it. -/
structure Landing where
  late : Bool
  regs : Regs
  sr : Sr
  vbr : Long
  sfc : Fc
  dfc : Fc
  cacrE : Bool
  cacrF : Bool
  caar : Long
  cache : Vector CacheEntry 64
  holding : Holding
  pipe : Pipe
  trace : Trace
  free : Nat
  deriving DecidableEq, Repr

/-- What the next step continues instead of fetching an instruction. -/
inductive Resume where
  /-- The instruction a bus fault suspended, or one that waits for a bus cycle to end. -/
  | instr (i : Instr)
  /-- An instruction suspended while its words were fetched, with the words it has. -/
  | fetch (words : List Word)
  /-- RTE after a throwaway frame (R410). -/
  | rteAgain
  /-- The word a breakpoint acknowledge cycle put into the pipe (R638). -/
  | decode
  deriving DecidableEq, Repr

/-- The two parts (R1, R2). -/
inductive Variant where
  | mc68020
  | mc68ec020
  deriving DecidableEq, Repr

/-- How an interrupt acknowledge cycle ends (R684, 92_eei_decisions.md D10). -/
inductive IackAnswer where
  | vector (n : Byte)
  | autovector
  | busError
  deriving DecidableEq, Repr

/-- How the access-level hardware answers CALLM and RTM (R446). -/
inductive AccessAnswer where
  | granted (changeStack : Bool)
  | denied
  | busError
  deriving DecidableEq, Repr

/-- An answer of the access-level hardware (R446): to a request to decrease or increase the level, for one level or, with
none, for every level. -/
structure AccessRule where
  decrease : Bool
  level : Option Byte
  answer : AccessAnswer
  deriving DecidableEq, Repr

/-- Addresses that answer with a bus error: the function codes whose bit is set in `spaces`, from `first` to `last`. -/
structure FaultRegion where
  spaces : BitVec 8
  first : Nat
  last : Nat
  onRead : Bool
  onWrite : Bool
  deriving DecidableEq, Repr

/-- The width of a port (R90). -/
inductive PortSize where
  | p8
  | p16
  | p32
  deriving DecidableEq, Repr

/-- Addresses of the spaces whose bit is set that answer as a port narrower than 32 bits. -/
structure PortRegion where
  spaces : BitVec 8
  first : Nat
  last : Nat
  size : PortSize
  deriving DecidableEq, Repr

/-- A write to a coprocessor interface register: offset, bytes, data (R466). -/
structure CirWrite where
  offset : BitVec 5
  bytes : Nat
  data : Long
  deriving DecidableEq, Repr

/-- How a coprocessor ends a read cycle (R461): data, right justified, or a bus error. -/
inductive CirAnswer where
  | data (v : Long)
  | busError
  deriving DecidableEq, Repr

/-- A coprocessor (R461, log 10): its answers to successive read cycles (beyond the list it does not end the cycle),
whether successive write cycles end in bus error, whether it ends those beyond the list normally or not at all (R551),
what was written to it, and the answers and refusals it starts again with after an external reset (R705). -/
structure Coprocessor where
  id : BitVec 3
  answers : List CirAnswer
  refusals : List Bool
  acknowledges : Bool
  log : List CirWrite
  onReset : List CirAnswer
  refusalsOnReset : List Bool
  deriving DecidableEq, Repr

/-- A change the outside world makes between two instructions or while a bus cycle waits (log 5). -/
inductive Input where
  | ipl (level : BitVec 3)
  | cdis (asserted : Bool)
  | reset
  | store (key : Nat) (b : Byte)
  | faults (rs : List FaultRegion)
  | silent (rs : List FaultRegion)
  | iack (answers : List (BitVec 3 × IackAnswer))
  | access (rules : List AccessRule)
  | answers (id : BitVec 3) (vs : List CirAnswer)
  | refusals (id : BitVec 3) (bs : List Bool)
  deriving DecidableEq, Repr

/-- What the devices of the platform hold that inputs change: which addresses answer with bus error, which do not answer
at all, the answers to interrupt acknowledge cycles, the access-level rules. -/
structure Devices where
  faults : List FaultRegion
  silent : List FaultRegion
  iack : List (BitVec 3 × IackAnswer)
  access : List AccessRule
  deriving DecidableEq, Repr

/-- Everything outside the processor but memory (92_eei_decisions.md, "Parameters of the model"; log 4). `banks` gives
for each function code the memory it shows; where it is silent, memory 0. `cpuSpace` lists the addresses of CPU space
that the platform answers as memory (R75, U17), first and last. `masters` lists what other bus masters store before
successive bus cycles (R133). `silent` are the addresses whose cycles nothing ends (R90).
`onReset` is what the devices hold again after a reset (R705). -/
structure Platform where
  variant : Variant
  versionNibble : BitVec 4
  resetIplPrev : BitVec 3
  access : List AccessRule
  banks : List Nat
  faults : List FaultRegion
  silent : List FaultRegion
  ports : List PortRegion
  iack : List (BitVec 3 × IackAnswer)
  breakpoints : List (BitVec 3 × Word)
  cpuSpace : List (Nat × Nat)
  coprocessors : List Coprocessor
  ipl : BitVec 3
  cdis : Bool
  inputs : List (List Input)
  masters : List (List (Nat × Byte))
  onReset : Devices
  deviceResets : Nat
  deriving DecidableEq, Repr

/-- The whole machine. INVENTORY.md, "State", names the rule of spec/ for every field. -/
structure State where
  regs : Regs
  pc : Long
  sr : Sr
  vbr : Long
  sfc : Fc
  dfc : Fc
  cacrE : Bool
  cacrF : Bool
  caar : Long
  cache : Vector CacheEntry 64
  holding : Holding
  pipe : Pipe
  run : RunState
  irq : Irq
  trace : Trace
  rmc : Bool
  scanPc : Long
  eaTmp : Long
  eaValid : Bool
  current : Instr
  start : Snapshot
  done : List BusRec
  replay : List BusRec
  landing : Option Landing
  suspended : List Suspension
  serial : Long
  resume : Option Resume
  freeIdx : Nat
  platform : Platform
  mem : List Host.Cell
  deriving DecidableEq, Repr

/-- A cache entry after reset: invalid; tag and data are DESIGN CHOICE (log 2). -/
def CacheEntry.empty : CacheEntry := { tag := 0#24, fc2 := false, valid := false, data := 0#32 }

/-- An empty pipe stage. -/
def PipeStage.empty : PipeStage := { valid := false, addr := 0#32, word := 0#16, fault := false }

/-- A discarded pipe. -/
def Pipe.empty : Pipe := { b := .empty, c := .empty, d := .empty }

/-- A discarded holding register. -/
def Holding.empty : Holding := { valid := false, addr := 0#32, fc2 := false, data := 0#32 }

/-- All flags clear: DESIGN CHOICE for reset (log 2). -/
def Ccr.zero : Ccr := { x := false, n := false, z := false, v := false, c := false }

/-- The status register after reset (R60): $2700, with the flags DESIGN CHOICE 0 (log 2). -/
def Sr.reset : Sr := { t1 := false, t0 := false, s := true, m := false, mask := 7#3, ccr := .zero }

/-- The registers after reset: ISP from a memory that reads as zero (R60, log 1), the others DESIGN CHOICE 0 (log 2). -/
def Regs.reset : Regs :=
  { d := Vector.replicate 8 0#32, a := Vector.replicate 7 0#32, usp := 0#32, isp := 0#32, msp := 0#32 }

/-- No trace pending or latched; the address is DESIGN CHOICE 0 for reset (log 2). -/
def Trace.none : Trace := { pending := false, flow := false, addr := 0#32 }

/-- The default platform of 92_eei_decisions.md (D1, D2, D6, D10, D13, D17, D24; log 4). -/
def Platform.default : Platform :=
  { variant := .mc68020, versionNibble := 0#4, resetIplPrev := 0#3, access := [], banks := [], faults := [], silent := [],
    ports := [], iack := [], breakpoints := [], cpuSpace := [], coprocessors := [], ipl := 0#3, cdis := false, inputs := [],
    masters := [], onReset := { faults := [], silent := [], iack := [], access := [] }, deviceResets := 0 }

/-- The machine right after reset (R60, R701, R704), with nothing placed in memory: ISP and PC are the two long words of
the reset vector, which read as zero there (logs 1, 3). -/
def State.reset : State :=
  { regs := .reset, pc := 0#32, sr := .reset, vbr := 0#32, sfc := 0#3, dfc := 0#3, cacrE := false, cacrF := false,
    caar := 0#32, cache := Vector.replicate 64 .empty, holding := .empty, pipe := .empty, run := .normal,
    irq := { sampled := 0#3, prev := 0#3, pending := false, level := 0#3 },
    trace := .none, rmc := false, scanPc := 0#32, eaTmp := 0#32,
    eaValid := false, current := .nop,
    start := { regs := .reset, sr := .reset, pc := 0#32, trace := .none, free := 0 }, done := [], replay := [],
    landing := none, suspended := [], serial := 0#32, resume := none, freeIdx := 0, platform := .default, mem := [] }

end Sys2Proof.Machine
end

