-- ==== Sys2Proof/Machine/Registers.lean ====
section
/-! DEFINITION. Reading and writing registers: the one home of A7's banking (R23), of the widths of R21 and R22, and of
the words that SR and CCR are (R30, R390); drawing free values (log 14). -/

namespace Sys2Proof.Machine

/-- Low `n` bits of a long word, the others zero. -/
def lowBits (n : Nat) (v : Long) : Long := v &&& BitVec.ofNat 32 (2 ^ n - 1)

/-- The value of an operation's size in a long word, zero-extended. -/
def trunc (sz : Size) (v : Long) : Long :=
  match sz with
  | .b => (v.setWidth 8).setWidth 32
  | .w => (v.setWidth 16).setWidth 32
  | .l => v

/-- Sign extension from the operation's size. -/
def sext (sz : Size) (v : Long) : Long :=
  match sz with
  | .b => (v.setWidth 8).signExtend 32
  | .w => (v.setWidth 16).signExtend 32
  | .l => v

/-- Most significant bit at the operation's size (R10). -/
def msb (sz : Size) (v : Long) : Bool :=
  match sz with
  | .b => v.getLsbD 7
  | .w => v.getLsbD 15
  | .l => v.getLsbD 31

/-- Number of bytes of an operation's size. -/
def bytesOf : Size → Nat
  | .b => 1
  | .w => 2
  | .l => 4

/-- Replaces the part of `old` that an operation of this size writes (R21). -/
def insertLow (sz : Size) (old v : Long) : Long :=
  match sz with
  | .b => old.extractLsb' 8 24 ++ v.setWidth 8
  | .w => old.extractLsb' 16 16 ++ v.setWidth 16
  | .l => v

/-- Sign-extends a displacement word (R10). -/
def sextWord (d : Word) : Long := d.signExtend 32

/-- Sign-extends a displacement byte. -/
def sextByte (d : Byte) : Long := d.signExtend 32

/-! ## The status register -/

/-- The condition code byte: 000 X N Z V C (R30). -/
def Ccr.toByte (f : Ccr) : Byte :=
  0#3 ++ BitVec.ofBool f.x ++ BitVec.ofBool f.n ++ BitVec.ofBool f.z ++ BitVec.ofBool f.v ++ BitVec.ofBool f.c

/-- The flags a condition code byte holds; its upper three bits are ignored (92_eei_decisions.md D4). -/
def Ccr.ofByte (b : Byte) : Ccr :=
  { x := b.getLsbD 4, n := b.getLsbD 3, z := b.getLsbD 2, v := b.getLsbD 1, c := b.getLsbD 0 }

/-- The status register as a word (R30). -/
def Sr.toWord (sr : Sr) : Word :=
  BitVec.ofBool sr.t1 ++ BitVec.ofBool sr.t0 ++ BitVec.ofBool sr.s ++ BitVec.ofBool sr.m ++ 0#1 ++ sr.mask
    ++ sr.ccr.toByte

/-- The status register a word holds; bits 11, 7, 6, 5 are ignored (D4). -/
def Sr.ofWord (w : Word) : Sr :=
  { t1 := w.getLsbD 15, t0 := w.getLsbD 14, s := w.getLsbD 13, m := w.getLsbD 12, mask := w.extractLsb' 8 3,
    ccr := .ofByte (w.extractLsb' 0 8) }

/-- The current flags. -/
def State.ccr (s : State) : Ccr := s.sr.ccr

/-- Replaces the flags. -/
def State.setCcr (s : State) (f : Ccr) : State := { s with sr := { s.sr with ccr := f } }

/-! ## General registers -/

/-- The active stack pointer (R23). -/
def activeSp (r : Regs) (sr : Sr) : Long := if sr.s then (if sr.m then r.msp else r.isp) else r.usp

/-- Replaces the active stack pointer (R23). -/
def setActiveSp (r : Regs) (sr : Sr) (v : Long) : Regs :=
  if sr.s then (if sr.m then { r with msp := v } else { r with isp := v }) else { r with usp := v }

/-- Data register n. -/
def State.d (s : State) (n : Reg) : Long := s.regs.d.get n.toFin

/-- Writes all 32 bits of data register n. -/
def State.setD (s : State) (n : Reg) (v : Long) : State :=
  { s with regs := { s.regs with d := s.regs.d.set n.toNat v n.isLt } }

/-- Address register n; A7 is the active stack pointer (R23). -/
def State.a (s : State) (n : Reg) : Long :=
  if h : n.toNat < 7 then s.regs.a.get ⟨n.toNat, h⟩ else activeSp s.regs s.sr

/-- Writes address register n. -/
def State.setA (s : State) (n : Reg) (v : Long) : State :=
  if h : n.toNat < 7 then { s with regs := { s.regs with a := s.regs.a.set n.toNat v h } }
  else { s with regs := setActiveSp s.regs s.sr v }

/-- The active stack pointer, A7. -/
def State.sp (s : State) : Long := activeSp s.regs s.sr

/-- Writes the active stack pointer. -/
def State.setSp (s : State) (v : Long) : State := { s with regs := setActiveSp s.regs s.sr v }

/-- Writes the part of data register n that an operation of this size writes (R21). -/
def State.setDSized (s : State) (sz : Size) (n : Reg) (v : Long) : State := s.setD n (insertLow sz (s.d n) v)

/-- A register named by a 4-bit number with its D/A bit (R145). -/
def State.rn (s : State) (n : Rn) : Long :=
  if n.getLsbD 3 then s.a (n.extractLsb' 0 3) else s.d (n.extractLsb' 0 3)

/-- Writes all of a register named by a 4-bit number. -/
def State.setRn (s : State) (n : Rn) (v : Long) : State :=
  if n.getLsbD 3 then s.setA (n.extractLsb' 0 3) v else s.setD (n.extractLsb' 0 3) v

/-- Function code of operand accesses (R71). -/
def dataFc (s : State) : Fc := if s.sr.s then 5#3 else 1#3

/-- Function code of instruction fetches and PC-relative operand reads (R71). -/
def progFc (s : State) : Fc := if s.sr.s then 6#3 else 2#3

/-! ## Free values -/

/-- A free long word (log 14). -/
def State.freeLong (s : State) : Long := Config.freeLong s.freeIdx

/-- The free long word `k` places on (log 14). -/
def State.freeAt (s : State) (k : Nat) : Long := Config.freeLong (s.freeIdx + k)

/-- A free bit (log 14). -/
def State.freeBit (s : State) : Bool := Config.freeBit s.freeIdx

/-- The free value at `freeIdx` has been used. -/
def State.tick (s : State) : State := { s with freeIdx := s.freeIdx + 1 }

/-- `k` free values have been used. -/
def State.tickBy (s : State) (k : Nat) : State := { s with freeIdx := s.freeIdx + k }

end Sys2Proof.Machine
end

