-- ==== Sys2Proof/WellFormed.lean ====
section
/-! DEFINITION. Which terms of `Instr` an encoding can hold: effective address categories (R166), immediates that fit
their size (R147), and the register-direct and size restrictions of the opcode table's `where` column. -/

namespace Sys2Proof

/-- The row of Table 1-1 an effective address stands in, with the index formats taken together (R150). -/
inductive EaMode where
  | dn
  | an
  | ind
  | postInc
  | preDec
  | disp
  | idx
  | absW
  | absL
  | pcDisp
  | pcIdx
  | imm
  deriving DecidableEq, Repr

/-- The mode of an effective address. -/
def Ea.mode : Ea → EaMode
  | .dn _ => .dn
  | .an _ => .an
  | .ind _ => .ind
  | .postInc _ => .postInc
  | .preDec _ => .preDec
  | .disp _ _ => .disp
  | .idx _ _ => .idx
  | .absW _ => .absW
  | .absL _ => .absL
  | .pcDisp _ => .pcDisp
  | .pcIdx _ => .pcIdx
  | .imm _ => .imm

/-- Column "data" of R166. -/
def EaMode.isData : EaMode → Bool
  | .an => false
  | _ => true

/-- Column "memory" of R166. -/
def EaMode.isMemory : EaMode → Bool
  | .dn | .an => false
  | _ => true

/-- Column "control" of R166. -/
def EaMode.isControl : EaMode → Bool
  | .dn | .an | .postInc | .preDec | .imm => false
  | _ => true

/-- Column "alterable" of R166. -/
def EaMode.isAlterable : EaMode → Bool
  | .pcDisp | .pcIdx | .imm => false
  | _ => true

/-- The operand categories the opcode table's `where` column uses. -/
inductive EaClass where
  | any
  | data
  | dataNoImm
  | alterable
  | dataAlt
  | memAlt
  | control
  | controlAltOrPre
  | controlOrPost
  | dnOrControl
  | dnOrControlAlt
  deriving DecidableEq, Repr

/-- Membership of a mode in a category: the intersections of R166 and the additions the table names. -/
def EaClass.has : EaClass → EaMode → Bool
  | .any, _ => true
  | .data, m => m.isData
  | .dataNoImm, m => m.isData && m != .imm
  | .alterable, m => m.isAlterable
  | .dataAlt, m => m.isData && m.isAlterable
  | .memAlt, m => m.isMemory && m.isAlterable
  | .control, m => m.isControl
  | .controlAltOrPre, m => (m.isControl && m.isAlterable) || m == .preDec
  | .controlOrPost, m => m.isControl || m == .postInc
  | .dnOrControl, m => m == .dn || m.isControl
  | .dnOrControlAlt, m => m == .dn || (m.isControl && m.isAlterable)

/-- Byte operations never name an address register (R151). -/
def EaMode.sizeOk (m : EaMode) (sz : Size) : Bool := !(m == .an && sz == .b)

/-- Number of bits of an operand of this size. -/
def Size.bits : Size → Nat
  | .b => 8
  | .w => 16
  | .l => 32

/-- A long word that is the zero extension of a value of this size. -/
def Size.fits (sz : Size) (v : Long) : Bool := v.toNat < 2 ^ sz.bits

/-- With the index suppressed there is no postindexing (R157). -/
def Index.wf : Index → Bool
  | .brief _ _ => true
  | .full _ _ true _ (.post _) => false
  | .full _ _ _ _ _ => true

/-- The fields of an effective address are ones its extension words can hold, for an operand of size `sz`. -/
def Ea.fieldsOk (sz : Size) : Ea → Bool
  | .idx _ x => x.wf
  | .pcIdx x => x.wf
  | .imm v => sz.fits v
  | _ => true

/-- A well-formed effective address of an operand of category `c` and size `sz`. -/
def Ea.wf (c : EaClass) (sz : Size) (ea : Ea) : Bool :=
  c.has ea.mode && ea.mode.sizeOk sz && ea.fieldsOk sz

/-- An 8-bit displacement of 0 or $FF announces a 16- or 32-bit one instead (R350). -/
def BrDisp.wf : BrDisp → Bool
  | .byte d => d != 0#8 && d != 0xFF#8
  | _ => true

/-- The mode the 6-bit field of an effective address names; none for mode 111 with register 101, 110, 111 (R150,
R164). -/
def eaMode (mode reg : BitVec 3) : Option EaMode :=
  match mode.toNat with
  | 0 => some .dn
  | 1 => some .an
  | 2 => some .ind
  | 3 => some .postInc
  | 4 => some .preDec
  | 5 => some .disp
  | 6 => some .idx
  | _ =>
    match reg.toNat with
    | 0 => some .absW
    | 1 => some .absL
    | 2 => some .pcDisp
    | 3 => some .pcIdx
    | 4 => some .imm
    | _ => none

/-- The 6-bit field names a mode of the category, for an operand of size `sz`. -/
def eaFieldOk (c : EaClass) (sz : Size) (mode reg : BitVec 3) : Bool :=
  match eaMode mode reg with
  | some m => c.has m && m.sizeOk sz
  | none => false

/-- The source or destination of a two-way instruction: `<ea>,Dn` or `Dn,<ea>` (R144). -/
def dirClass (toEa : Bool) (src : EaClass) : EaClass := if toEa then .memAlt else src

/-- Well-formed instructions: those some words decode to, the `where` column of the opcode table. -/
def Instr.wf : Instr → Bool
  | .oriCcr _ => true
  | .oriSr _ => true
  | .andiCcr _ => true
  | .andiSr _ => true
  | .eoriCcr _ => true
  | .eoriSr _ => true
  | .cas2W _ _ _ _ _ _ => true
  | .cas2L _ _ _ _ _ _ => true
  | .rtm _ => true
  | .callm _ ea => ea.wf .control .l
  | .cmp2 sz _ ea => ea.wf .control sz
  | .chk2 sz _ ea => ea.wf .control sz
  | .btst _ ea => ea.wf .dataNoImm .b
  | .bchg _ ea => ea.wf .dataAlt .b
  | .bclr _ ea => ea.wf .dataAlt .b
  | .bset _ ea => ea.wf .dataAlt .b
  | .cas sz _ _ ea => ea.wf .memAlt sz
  | .moves sz _ _ ea => ea.wf .memAlt sz
  | .movep _ _ _ _ _ => true
  | .btstDn _ ea => ea.wf .data .b
  | .bchgDn _ ea => ea.wf .dataAlt .b
  | .bclrDn _ ea => ea.wf .dataAlt .b
  | .bsetDn _ ea => ea.wf .dataAlt .b
  | .ori sz imm ea => sz.fits imm && ea.wf .dataAlt sz
  | .andi sz imm ea => sz.fits imm && ea.wf .dataAlt sz
  | .subi sz imm ea => sz.fits imm && ea.wf .dataAlt sz
  | .addi sz imm ea => sz.fits imm && ea.wf .dataAlt sz
  | .eori sz imm ea => sz.fits imm && ea.wf .dataAlt sz
  | .cmpi sz imm ea => sz.fits imm && ea.wf .dataNoImm sz
  | .moveB src dst => src.wf .any .b && dst.wf .dataAlt .b
  | .moveaW _ src => src.wf .any .w
  | .moveW src dst => src.wf .any .w && dst.wf .dataAlt .w
  | .moveaL _ src => src.wf .any .l
  | .moveL src dst => src.wf .any .l && dst.wf .dataAlt .l
  | .illegal => true
  | .reset => true
  | .nop => true
  | .stop _ => true
  | .rte => true
  | .rtd _ => true
  | .rts => true
  | .trapv => true
  | .rtr => true
  | .movec _ _ _ => true
  | .trap _ => true
  | .linkW _ _ => true
  | .unlk _ => true
  | .moveUsp _ _ => true
  | .jsr ea => ea.wf .control .l
  | .jmp ea => ea.wf .control .l
  | .swap _ => true
  | .bkpt _ => true
  | .pea ea => ea.wf .control .l
  | .linkL _ _ => true
  | .nbcd ea => ea.wf .dataAlt .b
  | .extW _ => true
  | .extL _ => true
  | .extbL _ => true
  | .movemToMem _ _ ea => ea.wf .controlAltOrPre .l
  | .movemToRegs _ _ ea => ea.wf .controlOrPost .l
  | .muluL _ _ _ ea => ea.wf .data .l
  | .mulsL _ _ _ ea => ea.wf .data .l
  | .divuL _ _ _ ea => ea.wf .data .l
  | .divsL _ _ _ ea => ea.wf .data .l
  | .tas ea => ea.wf .dataAlt .b
  | .tst sz ea => ea.wf .any sz
  | .moveFromSr ea => ea.wf .dataAlt .w
  | .negx sz ea => ea.wf .dataAlt sz
  | .moveFromCcr ea => ea.wf .dataAlt .w
  | .clr sz ea => ea.wf .dataAlt sz
  | .moveToCcr ea => ea.wf .data .w
  | .neg sz ea => ea.wf .dataAlt sz
  | .moveToSr ea => ea.wf .data .w
  | .not sz ea => ea.wf .dataAlt sz
  | .chkW _ ea => ea.wf .data .w
  | .chkL _ ea => ea.wf .data .l
  | .lea _ ea => ea.wf .control .l
  | .dbcc _ _ _ => true
  | .trapccW _ _ => true
  | .trapccL _ _ => true
  | .trapcc _ => true
  | .scc _ ea => ea.wf .dataAlt .b
  | .addq sz _ ea => ea.wf .alterable sz
  | .subq sz _ ea => ea.wf .alterable sz
  | .bra d => d.wf
  | .bsr d => d.wf
  | .bcc cc d => d.wf && cc != 0#4 && cc != 1#4
  | .moveq _ _ => true
  | .divuW _ ea => ea.wf .data .w
  | .divsW _ ea => ea.wf .data .w
  | .sbcd _ _ _ => true
  | .pack _ _ _ _ => true
  | .unpk _ _ _ _ => true
  | .or sz toEa _ ea => ea.wf (dirClass toEa .data) sz
  | .suba long _ ea => ea.wf .any (if long then .l else .w)
  | .subx _ _ _ _ => true
  | .sub sz toEa _ ea => ea.wf (dirClass toEa .any) sz
  | .aline _ => true
  | .cmpa long _ ea => ea.wf .any (if long then .l else .w)
  | .cmpm _ _ _ => true
  | .eor sz _ ea => ea.wf .dataAlt sz
  | .cmp sz _ ea => ea.wf .any sz
  | .muluW _ ea => ea.wf .data .w
  | .mulsW _ ea => ea.wf .data .w
  | .abcd _ _ _ => true
  | .exgDD _ _ => true
  | .exgAA _ _ => true
  | .exgDA _ _ => true
  | .and sz toEa _ ea => ea.wf (dirClass toEa .data) sz
  | .adda long _ ea => ea.wf .any (if long then .l else .w)
  | .addx _ _ _ _ => true
  | .add sz toEa _ ea => ea.wf (dirClass toEa .any) sz
  | .bftst _ ea => ea.wf .dnOrControl .l
  | .bfextu _ _ ea => ea.wf .dnOrControl .l
  | .bfchg _ ea => ea.wf .dnOrControlAlt .l
  | .bfexts _ _ ea => ea.wf .dnOrControl .l
  | .bfclr _ ea => ea.wf .dnOrControlAlt .l
  | .bfffo _ _ ea => ea.wf .dnOrControl .l
  | .bfset _ ea => ea.wf .dnOrControlAlt .l
  | .bfins _ _ ea => ea.wf .dnOrControlAlt .l
  | .asrEa ea => ea.wf .memAlt .w
  | .aslEa ea => ea.wf .memAlt .w
  | .lsrEa ea => ea.wf .memAlt .w
  | .lslEa ea => ea.wf .memAlt .w
  | .roxrEa ea => ea.wf .memAlt .w
  | .roxlEa ea => ea.wf .memAlt .w
  | .rorEa ea => ea.wf .memAlt .w
  | .rolEa ea => ea.wf .memAlt .w
  | .asr _ _ _ _ => true
  | .asl _ _ _ _ => true
  | .lsr _ _ _ _ => true
  | .lsl _ _ _ _ => true
  | .roxr _ _ _ _ => true
  | .roxl _ _ _ _ => true
  | .ror _ _ _ _ => true
  | .rol _ _ _ _ => true
  | .flineCpid0 _ => true
  | .cpGen id _ _ _ => id != 0#3
  | .cpDbcc id _ _ => id != 0#3
  | .cpTrapccW id _ => id != 0#3
  | .cpTrapccL id _ => id != 0#3
  | .cpTrapcc id _ => id != 0#3
  | .cpScc id mode reg _ => id != 0#3 && eaFieldOk .dataAlt .b mode reg
  | .cpBccW id _ => id != 0#3
  | .cpBccL id _ => id != 0#3
  | .cpSave id ea => id != 0#3 && ea.wf .controlAltOrPre .l
  | .cpRestore id ea => id != 0#3 && ea.wf .controlOrPost .l
  | .flineBadType id _ => id != 0#3
  | .unassigned _ => false

end Sys2Proof
end

