-- ==== Sys2Proof/Machine/Flags.lean ====
section
/-! DEFINITION. Results and condition codes: add, subtract and compare (R230), logic (R280), shifts and rotates
(R288-R296), decimal arithmetic (R330), multiply and divide (R251-R258), bounds (R248), conditions (R170). Values of an
operation's size stand zero-extended in a long word. -/

namespace Sys2Proof.Machine

/-- A bit as a long word. -/
def bitLong (b : Bool) : Long := (BitVec.ofBool b).setWidth 32

/-- Z of R11. -/
def isZero (v : Long) : Bool := v == 0#32

/-! ## Add, subtract, compare (R230) -/

/-- d + s + x at the operation's size. -/
def addRes (sz : Size) (d s : Long) (x : Bool) : Long := trunc sz (d + s + bitLong x)

/-- Carry out of the most significant bit. -/
def addCarry (sz : Size) (d s r : Long) : Bool :=
  (msb sz s && msb sz d) || (!msb sz r && msb sz d) || (msb sz s && !msb sz r)

/-- Overflow of an addition: operands of the same sign, result of the other. -/
def addOverflow (sz : Size) (d s r : Long) : Bool :=
  (msb sz s && msb sz d && !msb sz r) || (!msb sz s && !msb sz d && msb sz r)

/-- d - s - x at the operation's size. -/
def subRes (sz : Size) (d s : Long) (x : Bool) : Long := trunc sz (d - s - bitLong x)

/-- Borrow. -/
def subCarry (sz : Size) (d s r : Long) : Bool :=
  (msb sz s && !msb sz d) || (msb sz r && !msb sz d) || (msb sz s && msb sz r)

/-- Overflow of a subtraction: operands differ in sign, the result's sign differs from the destination's. -/
def subOverflow (sz : Size) (d s r : Long) : Bool :=
  (!msb sz s && msb sz d && !msb sz r) || (msb sz s && !msb sz d && msb sz r)

/-- ADD-type flags of an addition. -/
def addFlags (sz : Size) (d s r : Long) : Ccr :=
  { x := addCarry sz d s r, n := msb sz r, z := isZero r, v := addOverflow sz d s r, c := addCarry sz d s r }

/-- ADD-type flags of a subtraction. -/
def subFlags (sz : Size) (d s r : Long) : Ccr :=
  { x := subCarry sz d s r, n := msb sz r, z := isZero r, v := subOverflow sz d s r, c := subCarry sz d s r }

/-- Addition with its flags. -/
def aluAdd (sz : Size) (d s : Long) : Long × Ccr := (addRes sz d s false, addFlags sz d s (addRes sz d s false))

/-- Subtraction with its flags. -/
def aluSub (sz : Size) (d s : Long) : Long × Ccr := (subRes sz d s false, subFlags sz d s (subRes sz d s false))

/-- X-type: Z is only ever cleared. -/
def keepZ (f r : Ccr) : Ccr := { r with z := f.z && r.z }

/-- Addition with extend (X-type). -/
def aluAddx (f : Ccr) (sz : Size) (d s : Long) : Long × Ccr :=
  (addRes sz d s f.x, keepZ f (addFlags sz d s (addRes sz d s f.x)))

/-- Subtraction with extend (X-type). -/
def aluSubx (f : Ccr) (sz : Size) (d s : Long) : Long × Ccr :=
  (subRes sz d s f.x, keepZ f (subFlags sz d s (subRes sz d s f.x)))

/-- CMP-type flags of d - s: X stays. -/
def cmpFlags (f : Ccr) (sz : Size) (d s : Long) : Ccr := { (aluSub sz d s).2 with x := f.x }

/-- Logical flag rule (R280): X stays. -/
def logicFlags (f : Ccr) (sz : Size) (r : Long) : Ccr := { x := f.x, n := msb sz r, z := isZero r, v := false, c := false }

/-! ## Bounds of CMP2 and CHK2 (R248) -/

/-- Out of bounds, unsigned distances from the lower bound, at the comparison's size. -/
def outOfBounds (sz : Size) (v lo hi : Long) : Bool :=
  decide ((trunc sz (hi - lo)).toNat < (trunc sz (v - lo)).toNat)

/-! ## Conditions (R170) -/

/-- The 16 condition tests. -/
def cond (cc : Cond) (f : Ccr) : Bool :=
  match cc.toNat with
  | 0 => true
  | 1 => false
  | 2 => !f.c && !f.z
  | 3 => f.c || f.z
  | 4 => !f.c
  | 5 => f.c
  | 6 => !f.z
  | 7 => f.z
  | 8 => !f.v
  | 9 => f.v
  | 10 => !f.n
  | 11 => f.n
  | 12 => f.n == f.v
  | 13 => f.n != f.v
  | 14 => !f.z && f.n == f.v
  | _ => f.z || f.n != f.v

/-! ## Shifts and rotates (R288-R296) -/

/-- The eight operations. -/
inductive ShiftKind where
  | asl
  | asr
  | lsl
  | lsr
  | rol
  | ror
  | roxl
  | roxr
  deriving DecidableEq, Repr

/-- The operand, X, the last bit out, and whether the sign has changed at any step. -/
structure ShiftState where
  val : Long
  x : Bool
  c : Bool
  ov : Bool
  deriving DecidableEq, Repr

/-- One place to the left, `low` entering bit 0. -/
def leftOne (sz : Size) (v : Long) (low : Bool) : Long := trunc sz (v <<< 1) ||| bitLong low

/-- One place to the right, `high` entering the most significant bit. -/
def rightOne (sz : Size) (v : Long) (high : Bool) : Long :=
  (v >>> 1) ||| (bitLong high <<< (sz.bits - 1))

/-- One step of an operation. -/
def shiftStep (k : ShiftKind) (sz : Size) (t : ShiftState) : ShiftState :=
  let hi := msb sz t.val
  let lo := t.val.getLsbD 0
  match k with
  | .asl =>
    { val := leftOne sz t.val false, x := hi, c := hi, ov := t.ov || (hi != msb sz (leftOne sz t.val false)) }
  | .lsl => { val := leftOne sz t.val false, x := hi, c := hi, ov := false }
  | .asr => { val := rightOne sz t.val hi, x := lo, c := lo, ov := false }
  | .lsr => { val := rightOne sz t.val false, x := lo, c := lo, ov := false }
  | .rol => { val := leftOne sz t.val hi, x := t.x, c := hi, ov := false }
  | .ror => { val := rightOne sz t.val lo, x := t.x, c := lo, ov := false }
  | .roxl => { val := leftOne sz t.val t.x, x := hi, c := hi, ov := false }
  | .roxr => { val := rightOne sz t.val t.x, x := lo, c := lo, ov := false }

/-- `cnt` steps. -/
def shiftSteps (k : ShiftKind) (sz : Size) : Nat → ShiftState → ShiftState
  | 0, t => t
  | n + 1, t => shiftSteps k sz n (shiftStep k sz t)

/-- C before the first step: X for the rotates with extend, else 0 (R288). -/
def shiftStart (k : ShiftKind) (f : Ccr) (v : Long) : ShiftState :=
  { val := v, x := f.x, c := match k with | .roxl | .roxr => f.x | _ => false, ov := false }

/-- A shift or rotate by `cnt` with its flags. -/
def shiftBy (k : ShiftKind) (sz : Size) (cnt : Nat) (v : Long) (f : Ccr) : Long × Ccr :=
  let t := shiftSteps k sz cnt (shiftStart k f v)
  (t.val, { x := t.x, n := msb sz t.val, z := isZero t.val, v := t.ov, c := t.c })

/-! ## Decimal arithmetic (R330) -/

/-- Both digits of a packed byte are 0-9. -/
def bcdValid (v : Long) : Bool := decide (v.toNat / 16 % 16 < 10 ∧ v.toNat % 16 < 10)

/-- The number two digits stand for. -/
def bcdDec (v : Long) : Nat := v.toNat / 16 % 16 * 10 + v.toNat % 16

/-- The two digits of a number below 100. -/
def bcdEnc (n : Nat) : Long := BitVec.ofNat 32 (n / 10 * 16 + n % 10)

/-- Decimal addition: result and carry. -/
def bcdAdd (d s : Long) (x : Bool) : Long × Bool :=
  let t := bcdDec d + bcdDec s + x.toNat
  (bcdEnc (t % 100), decide (99 < t))

/-- Decimal subtraction: result and borrow. -/
def bcdSub (d s : Long) (x : Bool) : Long × Bool :=
  let t := bcdDec s + x.toNat
  (bcdEnc ((bcdDec d + 200 - t) % 100), decide (bcdDec d < t))

/-! ## Multiply and divide -/

/-- The 64-bit product of two long words (R253, R254). -/
def mulLong (signed : Bool) (a b : Long) : BitVec 64 :=
  if signed then a.signExtend 64 * b.signExtend 64 else a.setWidth 64 * b.setWidth 64

/-- High-order half of a quad word. -/
def hiLong (p : BitVec 64) : Long := p.extractLsb' 32 32

/-- Low-order half of a quad word. -/
def loLong (p : BitVec 64) : Long := p.extractLsb' 0 32

/-- Flags of MULx.L (R253, R254). -/
def mulFlags (f : Ccr) (signed quad : Bool) (p : BitVec 64) : Ccr :=
  if quad then { x := f.x, n := p.getLsbD 63, z := p == 0#64, v := false, c := false }
  else
    { x := f.x, n := p.getLsbD 31, z := loLong p == 0#32,
      v := if signed then hiLong p != (loLong p).sshiftRight 31 else hiLong p != 0#32, c := false }

/-- Quotient and remainder: truncating toward zero, the remainder with the sign of the dividend (R255-R258). -/
def divide (a b : Int) : Int × Int := (a.tdiv b, a.tmod b)

/-- Whether a quotient fits `bits` bits. -/
def quotientFits (signed : Bool) (bits : Nat) (q : Int) : Bool :=
  if signed then decide (-(2 ^ (bits - 1) : Int) ≤ q ∧ q < 2 ^ (bits - 1)) else decide (0 ≤ q ∧ q < 2 ^ bits)

/-- A long word as the integer a division takes it for. -/
def asInt (signed : Bool) (v : Long) : Int := if signed then v.toInt else v.toNat

end Sys2Proof.Machine
end

