-- ==== Sys2Proof/Decode.lean ====
section
/-! DEFINITION. The decoder, total on any list of instruction words (R140, R141, R150-R172 and the opcode table), and
after it the encoder, written from the same encodings. The operation word is taken apart once, into five fields that
suffice for every row: line 15-12, `r9` 11-9, `op` 8-6, `mode` 5-3, `reg` 2-0. -/

namespace Sys2Proof

/-- Why no instruction could be read: it needs another word, or no row of the opcode table matches. -/
inductive ParseStop where
  | more
  | bad
  deriving DecidableEq, Repr

/-- A value read, and the words left. -/
abbrev Got (α : Type) := α × List Word

/-- What a parser answers. -/
abbrev Parse (β : Type) := Except ParseStop β

/-- What the decoder answers: an instruction and the words it left, or the wish for another word. -/
inductive DecodeResult where
  | instr (i : Instr) (rest : List Word)
  | more
  deriving DecidableEq, Repr

/-! ## Fields and extension words -/

/-- Bits `lo + n - 1` to `lo` of a word. -/
def field (w : Word) (lo n : Nat) : BitVec n := w.extractLsb' lo n

/-- High-order word first (R147). -/
def longOfWords (hi lo : Word) : Long := hi ++ lo

/-- High-order half of a long word. -/
def hiWord (v : Long) : Word := v.extractLsb' 16 16

/-- Low-order half of a long word. -/
def loWord (v : Long) : Word := v.extractLsb' 0 16

/-- One extension word. -/
def getWord : List Word → Parse (Got Word)
  | w :: ws => .ok (w, ws)
  | [] => .error .more

/-- Two extension words, high-order first. -/
def getLong (ws : List Word) : Parse (Got Long) := do
  let (hi, ws) ← getWord ws
  let (lo, ws) ← getWord ws
  .ok (longOfWords hi lo, ws)

/-- Refuses where the table's `where` condition fails. -/
def need (c : Bool) : Parse Unit := if c then .ok () else .error .bad

/-- An immediate operand (R147): a byte is the low half of its word, the high half is ignored. -/
def getImm (sz : Size) (ws : List Word) : Parse (Got Long) :=
  match sz with
  | .b => do
    let (w, ws) ← getWord ws
    .ok ((field w 0 8).setWidth 32, ws)
  | .w => do
    let (w, ws) ← getWord ws
    .ok (w.setWidth 32, ws)
  | .l => getLong ws

/-- A displacement of the size a 2-bit code gives: 1 null, 2 word, 3 long; 0 is reserved (R157). -/
def getDisp (code : BitVec 2) (ws : List Word) : Parse (Got Disp) :=
  match code.toNat with
  | 1 => .ok (.null, ws)
  | 2 => do
    let (d, ws) ← getWord ws
    .ok (.word d, ws)
  | 3 => do
    let (d, ws) ← getLong ws
    .ok (.long d, ws)
  | _ => .error .bad

/-- The indirection and outer displacement I/IS selects (R157). -/
def getIndirect (is : Bool) (iis : BitVec 3) (ws : List Word) : Parse (Got Indirect) :=
  if iis = 0#3 then .ok (.none, ws)
  else if iis.extractLsb' 2 1 = 0#1 then do
    let (od, ws) ← getDisp (iis.extractLsb' 0 2) ws
    .ok (.pre od, ws)
  else if is then .error .bad
  else do
    let (od, ws) ← getDisp (iis.extractLsb' 0 2) ws
    .ok (.post od, ws)

/-- The index operand's fields of a brief or full format extension word (R156, R157). -/
def indexOperand (w : Word) : XIndex :=
  { rn := field w 12 4, long := w.getLsbD 11, scale := field w 9 2 }

/-- A brief (bit 8 clear) or full format extension word and its displacements (R156, R157). DESIGN CHOICE (log 32): of a
full format word's reserved values (R164), those of BD SIZE and bit 3 are refused before any word after it is fetched,
those of I/IS after the base displacement. -/
def getIndex (ws : List Word) : Parse (Got Index) := do
  let (w, ws) ← getWord ws
  if w.getLsbD 8 = false then
    .ok (.brief (indexOperand w) (field w 0 8), ws)
  else do
    let _ ← need (!w.getLsbD 3)
    let (bd, ws) ← getDisp (field w 4 2) ws
    let (ind, ws) ← getIndirect (w.getLsbD 6) (field w 0 3) ws
    .ok (.full (indexOperand w) (w.getLsbD 7) (w.getLsbD 6) bd ind, ws)

/-- An effective address of category `c` for an operand of size `sz` (R150, R163). The category is checked before any
extension word is asked for. -/
def getEa (c : EaClass) (sz : Size) (mode reg : BitVec 3) (ws : List Word) : Parse (Got Ea) :=
  match eaMode mode reg with
  | none => .error .bad
  | some m =>
    if c.has m && m.sizeOk sz then
      match m with
      | .dn => .ok (.dn reg, ws)
      | .an => .ok (.an reg, ws)
      | .ind => .ok (.ind reg, ws)
      | .postInc => .ok (.postInc reg, ws)
      | .preDec => .ok (.preDec reg, ws)
      | .disp => do
        let (d, ws) ← getWord ws
        .ok (.disp reg d, ws)
      | .idx => do
        let (x, ws) ← getIndex ws
        .ok (.idx reg x, ws)
      | .absW => do
        let (a, ws) ← getWord ws
        .ok (.absW a, ws)
      | .absL => do
        let (a, ws) ← getLong ws
        .ok (.absL a, ws)
      | .pcDisp => do
        let (d, ws) ← getWord ws
        .ok (.pcDisp d, ws)
      | .pcIdx => do
        let (x, ws) ← getIndex ws
        .ok (.pcIdx x, ws)
      | .imm => do
        let (v, ws) ← getImm sz ws
        .ok (.imm v, ws)
    else .error .bad

/-- The standard 2-bit size field (R144). -/
def sizeOf2 (s : BitVec 2) : Parse Size :=
  match s.toNat with
  | 0 => .ok .b
  | 1 => .ok .w
  | 2 => .ok .l
  | _ => .error .bad

/-- The size in bits 7-6 of the operation word, the two low bits of `op`. -/
def opSize (op : BitVec 3) : Parse Size := sizeOf2 (op.extractLsb' 0 2)

/-- Bit 2 of a 3-bit field: bit 8 of the operation word for `op`, bit 11 for `r9`. -/
def top (f : BitVec 3) : Bool := f.getLsbD 2

/-- The condition field, bits 11-8 (R170). -/
def condOf (r9 op : BitVec 3) : Cond := r9 ++ op.extractLsb' 2 1

/-- An instruction made of an effective address and nothing else. -/
def withEa (c : EaClass) (sz : Size) (mode reg : BitVec 3) (ws : List Word) (f : Ea → Instr) : Parse (Got Instr) := do
  let (ea, ws) ← getEa c sz mode reg ws
  .ok (f ea, ws)

/-- An instruction whose size is in bits 7-6 and which names one effective address. -/
def withSizedEa (c : EaClass) (op mode reg : BitVec 3) (ws : List Word) (f : Size → Ea → Instr) : Parse (Got Instr) := do
  let sz ← opSize op
  let (ea, ws) ← getEa c sz mode reg ws
  .ok (f sz ea, ws)

/-- The immediate instructions: immediate data first, then the destination's extension words (R141). -/
def withImmEa (c : EaClass) (op mode reg : BitVec 3) (ws : List Word) (f : Size → Long → Ea → Instr) :
    Parse (Got Instr) := do
  let sz ← opSize op
  let _ ← need (eaFieldOk c sz mode reg)
  let (imm, ws) ← getImm sz ws
  let (ea, ws) ← getEa c sz mode reg ws
  .ok (f sz imm ea, ws)

/-- One extension word of the instruction's own, then an effective address (R141). -/
def withExtEa (c : EaClass) (sz : Size) (mode reg : BitVec 3) (ws : List Word) (f : Word → Ea → Instr) :
    Parse (Got Instr) := do
  let _ ← need (eaFieldOk c sz mode reg)
  let (x, ws) ← getWord ws
  let (ea, ws) ← getEa c sz mode reg ws
  .ok (f x ea, ws)

/-- One extension word and nothing else. -/
def withWord (ws : List Word) (f : Word → Instr) : Parse (Got Instr) := do
  let (x, ws) ← getWord ws
  .ok (f x, ws)

/-- Two extension words and nothing else. -/
def withLong (ws : List Word) (f : Long → Instr) : Parse (Got Instr) := do
  let (x, ws) ← getLong ws
  .ok (f x, ws)

/-! ## The lines of the opcode map (R143) -/

/-- CMP2 and CHK2: bit 11 of the extension word decides (R172). -/
def decodeBounds (sz : Size) (mode reg : BitVec 3) (ws : List Word) : Parse (Got Instr) :=
  withExtEa .control sz mode reg ws fun x ea =>
    if x.getLsbD 11 then .chk2 sz (field x 12 4) ea else .cmp2 sz (field x 12 4) ea

/-- CAS: Du in bits 8-6 and Dc in bits 2-0 of the extension word. -/
def decodeCas (sz : Size) (mode reg : BitVec 3) (ws : List Word) : Parse (Got Instr) :=
  withExtEa .memAlt sz mode reg ws fun x ea => .cas sz (field x 0 3) (field x 6 3) ea

/-- CAS2: two extension words, each Rn 15-12, Du 8-6, Dc 2-0. -/
def decodeCas2 (ws : List Word) (f : Rn → Reg → Reg → Rn → Reg → Reg → Instr) : Parse (Got Instr) := do
  let (x, ws) ← getWord ws
  let (y, ws) ← getWord ws
  .ok (f (field x 12 4) (field x 6 3) (field x 0 3) (field y 12 4) (field y 6 3) (field y 0 3), ws)

/-- The bit instructions with a bit number in a data register, and MOVEP in the place of their mode 001. -/
def decodeBitDyn (r9 op mode reg : BitVec 3) (ws : List Word) : Parse (Got Instr) :=
  if mode = 1#3 then withWord ws fun d16 => .movep (op.getLsbD 0) (op.getLsbD 1) r9 reg d16
  else
    match op.toNat with
    | 4 => withEa .data .b mode reg ws (.btstDn r9)
    | 5 => withEa .dataAlt .b mode reg ws (.bchgDn r9)
    | 6 => withEa .dataAlt .b mode reg ws (.bclrDn r9)
    | _ => withEa .dataAlt .b mode reg ws (.bsetDn r9)

/-- The bit instructions with the bit number in the low byte of an extension word. -/
def decodeBitStatic (op mode reg : BitVec 3) (ws : List Word) : Parse (Got Instr) :=
  match op.toNat with
  | 0 => withExtEa .dataNoImm .b mode reg ws fun x ea => .btst (field x 0 8) ea
  | 1 => withExtEa .dataAlt .b mode reg ws fun x ea => .bchg (field x 0 8) ea
  | 2 => withExtEa .dataAlt .b mode reg ws fun x ea => .bclr (field x 0 8) ea
  | _ => withExtEa .dataAlt .b mode reg ws fun x ea => .bset (field x 0 8) ea

/-- The immediate forms that name CCR (byte) and SR (word) in the place of an immediate destination. -/
def decodeImmSr (op : BitVec 3) (ws : List Word) (ccr : Byte → Instr) (sr : Word → Instr) : Parse (Got Instr) :=
  match op.toNat with
  | 0 => withWord ws fun x => ccr (field x 0 8)
  | 1 => withWord ws sr
  | _ => .error .bad

/-- Mode 111 register 100. -/
def isImmField (mode reg : BitVec 3) : Bool := mode == 7#3 && reg == 4#3

/-- Line 0: bit manipulation, MOVEP, immediates, CHK2, CMP2, CAS, CAS2, MOVES, CALLM, RTM. -/
def decodeLine0 (r9 op mode reg : BitVec 3) (ws : List Word) : Parse (Got Instr) :=
  if top op then decodeBitDyn r9 op mode reg ws
  else
    match r9.toNat with
    | 0 =>
      if op = 3#3 then decodeBounds .b mode reg ws
      else if isImmField mode reg then decodeImmSr op ws .oriCcr .oriSr
      else withImmEa .dataAlt op mode reg ws .ori
    | 1 =>
      if op = 3#3 then decodeBounds .w mode reg ws
      else if isImmField mode reg then decodeImmSr op ws .andiCcr .andiSr
      else withImmEa .dataAlt op mode reg ws .andi
    | 2 =>
      if op = 3#3 then decodeBounds .l mode reg ws
      else withImmEa .dataAlt op mode reg ws .subi
    | 3 =>
      if op = 3#3 then
        if mode = 0#3 then .ok (.rtm (0#1 ++ reg), ws)
        else if mode = 1#3 then .ok (.rtm (1#1 ++ reg), ws)
        else withExtEa .control .l mode reg ws fun x ea => .callm (field x 0 8) ea
      else withImmEa .dataAlt op mode reg ws .addi
    | 4 => decodeBitStatic op mode reg ws
    | 5 =>
      if op = 3#3 then decodeCas .b mode reg ws
      else if isImmField mode reg then decodeImmSr op ws .eoriCcr .eoriSr
      else withImmEa .dataAlt op mode reg ws .eori
    | 6 =>
      if op = 3#3 then
        if isImmField mode reg then decodeCas2 ws .cas2W else decodeCas .w mode reg ws
      else withImmEa .dataNoImm op mode reg ws .cmpi
    | _ =>
      if op = 3#3 then
        if isImmField mode reg then decodeCas2 ws .cas2L else decodeCas .l mode reg ws
      else do
        let sz ← opSize op
        withExtEa .memAlt sz mode reg ws fun x ea => .moves sz (field x 12 4) (x.getLsbD 11) ea

/-- MOVE: the source's words come first; the destination field has register and mode swapped (R150). -/
def decodeMove (sz : Size) (r9 op mode reg : BitVec 3) (ws : List Word) (f : Ea → Ea → Instr) : Parse (Got Instr) := do
  let _ ← need (eaFieldOk .dataAlt sz op r9)
  let (src, ws) ← getEa .any sz mode reg ws
  let (dst, ws) ← getEa .dataAlt sz op r9 ws
  .ok (f src dst, ws)

/-- The instructions $4E70-$4E77. -/
def decodeSystem (reg : BitVec 3) (ws : List Word) : Parse (Got Instr) :=
  match reg.toNat with
  | 0 => .ok (.reset, ws)
  | 1 => .ok (.nop, ws)
  | 2 => withWord ws .stop
  | 3 => .ok (.rte, ws)
  | 4 => withWord ws .rtd
  | 5 => .ok (.rts, ws)
  | 6 => .ok (.trapv, ws)
  | _ => .ok (.rtr, ws)

/-- The block $4E40-$4E7F. -/
def decodeTrapBlock (mode reg : BitVec 3) (ws : List Word) : Parse (Got Instr) :=
  match mode.toNat with
  | 0 => .ok (.trap (0#1 ++ reg), ws)
  | 1 => .ok (.trap (1#1 ++ reg), ws)
  | 2 => withWord ws (.linkW reg)
  | 3 => .ok (.unlk reg, ws)
  | 4 => .ok (.moveUsp false reg, ws)
  | 5 => .ok (.moveUsp true reg, ws)
  | 6 => decodeSystem reg ws
  | _ =>
    if reg.extractLsb' 1 2 = 1#2 then
      withWord ws fun x => .movec (reg.getLsbD 0) (field x 12 4) (field x 0 12)
    else .error .bad

/-- MULx.L and DIVx.L: bit 11 of the extension word is the signedness, bit 10 the 64-bit form (R172). -/
def decodeMulDiv (mode reg : BitVec 3) (ws : List Word) (u s : Bool → Reg → Reg → Ea → Instr) : Parse (Got Instr) :=
  withExtEa .data .l mode reg ws fun x ea =>
    (if x.getLsbD 11 then s else u) (x.getLsbD 10) (field x 12 3) (field x 0 3) ea

/-- The block $4800-$48FF and $49C0-$49C7 without LEA: NBCD, LINK.L, SWAP, BKPT, PEA, EXT, MOVEM to memory. -/
def decodeLine4r4 (op mode reg : BitVec 3) (ws : List Word) : Parse (Got Instr) :=
  match op.toNat with
  | 0 => if mode = 1#3 then withLong ws (.linkL reg) else withEa .dataAlt .b mode reg ws .nbcd
  | 1 =>
    if mode = 0#3 then .ok (.swap reg, ws)
    else if mode = 1#3 then .ok (.bkpt reg, ws)
    else withEa .control .l mode reg ws .pea
  | 2 =>
    if mode = 0#3 then .ok (.extW reg, ws)
    else withExtEa .controlAltOrPre .l mode reg ws (.movemToMem false)
  | _ =>
    if mode = 0#3 then .ok (.extL reg, ws)
    else withExtEa .controlAltOrPre .l mode reg ws (.movemToMem true)

/-- Line 4: miscellaneous. -/
def decodeLine4 (r9 op mode reg : BitVec 3) (ws : List Word) : Parse (Got Instr) :=
  match op.toNat with
  | 4 => withEa .data .l mode reg ws (.chkL r9)
  | 5 => .error .bad
  | 6 => withEa .data .w mode reg ws (.chkW r9)
  | 7 =>
    if r9 = 4#3 ∧ mode = 0#3 then .ok (.extbL reg, ws)
    else withEa .control .l mode reg ws (.lea r9)
  | _ =>
    match r9.toNat with
    | 0 =>
      if op = 3#3 then withEa .dataAlt .w mode reg ws .moveFromSr
      else withSizedEa .dataAlt op mode reg ws .negx
    | 1 =>
      if op = 3#3 then withEa .dataAlt .w mode reg ws .moveFromCcr
      else withSizedEa .dataAlt op mode reg ws .clr
    | 2 =>
      if op = 3#3 then withEa .data .w mode reg ws .moveToCcr
      else withSizedEa .dataAlt op mode reg ws .neg
    | 3 =>
      if op = 3#3 then withEa .data .w mode reg ws .moveToSr
      else withSizedEa .dataAlt op mode reg ws .not
    | 4 => decodeLine4r4 op mode reg ws
    | 5 =>
      if op = 3#3 then
        if isImmField mode reg then .ok (.illegal, ws) else withEa .dataAlt .b mode reg ws .tas
      else withSizedEa .any op mode reg ws .tst
    | 6 =>
      match op.toNat with
      | 0 => decodeMulDiv mode reg ws .muluL .mulsL
      | 1 => decodeMulDiv mode reg ws .divuL .divsL
      | 2 => withExtEa .controlOrPost .l mode reg ws (.movemToRegs false)
      | _ => withExtEa .controlOrPost .l mode reg ws (.movemToRegs true)
    | _ =>
      match op.toNat with
      | 1 => decodeTrapBlock mode reg ws
      | 2 => withEa .control .l mode reg ws .jsr
      | 3 => withEa .control .l mode reg ws .jmp
      | _ => .error .bad

/-- Line 5: ADDQ, SUBQ, and with size 11 Scc, DBcc, TRAPcc. -/
def decodeLine5 (r9 op mode reg : BitVec 3) (ws : List Word) : Parse (Got Instr) :=
  if op.extractLsb' 0 2 = 3#2 then
    if mode = 1#3 then withWord ws (.dbcc (condOf r9 op) reg)
    else if mode = 7#3 ∧ reg = 2#3 then withWord ws (.trapccW (condOf r9 op))
    else if mode = 7#3 ∧ reg = 3#3 then withLong ws (.trapccL (condOf r9 op))
    else if mode = 7#3 ∧ reg = 4#3 then .ok (.trapcc (condOf r9 op), ws)
    else withEa .dataAlt .b mode reg ws (.scc (condOf r9 op))
  else if top op then withSizedEa .alterable op mode reg ws fun sz => .subq sz r9
  else withSizedEa .alterable op mode reg ws fun sz => .addq sz r9

/-- The displacement of BRA, BSR and Bcc (R350). -/
def getBrDisp (d : Byte) (ws : List Word) : Parse (Got BrDisp) :=
  if d = 0#8 then do
    let (w, ws) ← getWord ws
    .ok (.word w, ws)
  else if d = 0xFF#8 then do
    let (v, ws) ← getLong ws
    .ok (.long v, ws)
  else .ok (.byte d, ws)

/-- Line 6: BRA (condition 0), BSR (condition 1), Bcc. -/
def decodeLine6 (r9 op mode reg : BitVec 3) (ws : List Word) : Parse (Got Instr) := do
  let (d, ws) ← getBrDisp (op.extractLsb' 0 2 ++ mode ++ reg) ws
  if condOf r9 op = 0#4 then .ok (.bra d, ws)
  else if condOf r9 op = 1#4 then .ok (.bsr d, ws)
  else .ok (.bcc (condOf r9 op) d, ws)

/-- Line 7: MOVEQ, with bit 8 clear. -/
def decodeLine7 (r9 op mode reg : BitVec 3) (ws : List Word) : Parse (Got Instr) :=
  if top op then .error .bad else .ok (.moveq r9 (op.extractLsb' 0 2 ++ mode ++ reg), ws)

/-- The register-to-register and memory-to-memory forms with mode 000 (Dy,Dx) and 001 (-(Ay),-(Ax)). -/
def isPairMode (mode : BitVec 3) : Bool := mode.extractLsb' 1 2 == 0#2

/-- The opmode field of ADD, SUB, AND, OR: bit 8 is the direction (R144). -/
def withDirEa (src : EaClass) (op mode reg : BitVec 3) (ws : List Word) (f : Size → Bool → Ea → Instr) : Parse (Got Instr) :=
  withSizedEa (dirClass (top op) src) op mode reg ws fun sz => f sz (top op)

/-- Line 8: OR, DIVU.W, DIVS.W, SBCD, PACK, UNPK. -/
def decodeLine8 (r9 op mode reg : BitVec 3) (ws : List Word) : Parse (Got Instr) :=
  if op = 3#3 then withEa .data .w mode reg ws (.divuW r9)
  else if op = 7#3 then withEa .data .w mode reg ws (.divsW r9)
  else if op = 4#3 ∧ isPairMode mode then .ok (.sbcd (mode.getLsbD 0) reg r9, ws)
  else if op = 5#3 ∧ isPairMode mode then withWord ws (.pack (mode.getLsbD 0) reg r9)
  else if op = 6#3 ∧ isPairMode mode then withWord ws (.unpk (mode.getLsbD 0) reg r9)
  else withDirEa .data op mode reg ws fun sz toEa => .or sz toEa r9

/-- Line 9: SUB, SUBA, SUBX. -/
def decodeLine9 (r9 op mode reg : BitVec 3) (ws : List Word) : Parse (Got Instr) :=
  if op = 3#3 then withEa .any .w mode reg ws (.suba false r9)
  else if op = 7#3 then withEa .any .l mode reg ws (.suba true r9)
  else if top op ∧ isPairMode mode then do
    let sz ← opSize op
    .ok (.subx sz (mode.getLsbD 0) reg r9, ws)
  else withDirEa .any op mode reg ws fun sz toEa => .sub sz toEa r9

/-- Line B: CMP, CMPA, CMPM, EOR. -/
def decodeLineB (r9 op mode reg : BitVec 3) (ws : List Word) : Parse (Got Instr) :=
  if op = 3#3 then withEa .any .w mode reg ws (.cmpa false r9)
  else if op = 7#3 then withEa .any .l mode reg ws (.cmpa true r9)
  else if top op then
    if mode = 1#3 then do
      let sz ← opSize op
      .ok (.cmpm sz reg r9, ws)
    else withSizedEa .dataAlt op mode reg ws fun sz => .eor sz r9
  else withSizedEa .any op mode reg ws fun sz => .cmp sz r9

/-- Line C: AND, MULU.W, MULS.W, ABCD, EXG. -/
def decodeLineC (r9 op mode reg : BitVec 3) (ws : List Word) : Parse (Got Instr) :=
  if op = 3#3 then withEa .data .w mode reg ws (.muluW r9)
  else if op = 7#3 then withEa .data .w mode reg ws (.mulsW r9)
  else if op = 4#3 ∧ isPairMode mode then .ok (.abcd (mode.getLsbD 0) reg r9, ws)
  else if op = 5#3 ∧ mode = 0#3 then .ok (.exgDD r9 reg, ws)
  else if op = 5#3 ∧ mode = 1#3 then .ok (.exgAA r9 reg, ws)
  else if op = 6#3 ∧ mode = 1#3 then .ok (.exgDA r9 reg, ws)
  else withDirEa .data op mode reg ws fun sz toEa => .and sz toEa r9

/-- Line D: ADD, ADDA, ADDX. -/
def decodeLineD (r9 op mode reg : BitVec 3) (ws : List Word) : Parse (Got Instr) :=
  if op = 3#3 then withEa .any .w mode reg ws (.adda false r9)
  else if op = 7#3 then withEa .any .l mode reg ws (.adda true r9)
  else if top op ∧ isPairMode mode then do
    let sz ← opSize op
    .ok (.addx sz (mode.getLsbD 0) reg r9, ws)
  else withDirEa .any op mode reg ws fun sz toEa => .add sz toEa r9

/-- The offset and width fields of a bit field extension word (R320). -/
def bfSpecOf (x : Word) : BfSpec :=
  { offReg := x.getLsbD 11, off := field x 6 5, widReg := x.getLsbD 5, wid := field x 0 5 }

/-- A bit field instruction without a data register operand. -/
def withBf (c : EaClass) (mode reg : BitVec 3) (ws : List Word) (f : BfSpec → Ea → Instr) : Parse (Got Instr) :=
  withExtEa c .l mode reg ws fun x ea => f (bfSpecOf x) ea

/-- A bit field instruction with a data register in bits 14-12 of its extension word. -/
def withBfReg (c : EaClass) (mode reg : BitVec 3) (ws : List Word) (f : Reg → BfSpec → Ea → Instr) : Parse (Got Instr) :=
  withExtEa c .l mode reg ws fun x ea => f (field x 12 3) (bfSpecOf x) ea

/-- The memory shifts (bit 11 clear) and the bit field instructions (bit 11 set) of line E with size 11: the three
bits 10-8 select. -/
def decodeLineEea (r9 op mode reg : BitVec 3) (ws : List Word) : Parse (Got Instr) :=
  match (condOf r9 op).toNat with
  | 0 => withEa .memAlt .w mode reg ws .asrEa
  | 1 => withEa .memAlt .w mode reg ws .aslEa
  | 2 => withEa .memAlt .w mode reg ws .lsrEa
  | 3 => withEa .memAlt .w mode reg ws .lslEa
  | 4 => withEa .memAlt .w mode reg ws .roxrEa
  | 5 => withEa .memAlt .w mode reg ws .roxlEa
  | 6 => withEa .memAlt .w mode reg ws .rorEa
  | 7 => withEa .memAlt .w mode reg ws .rolEa
  | 8 => withBf .dnOrControl mode reg ws .bftst
  | 9 => withBfReg .dnOrControl mode reg ws .bfextu
  | 10 => withBf .dnOrControlAlt mode reg ws .bfchg
  | 11 => withBfReg .dnOrControl mode reg ws .bfexts
  | 12 => withBf .dnOrControlAlt mode reg ws .bfclr
  | 13 => withBfReg .dnOrControl mode reg ws .bfffo
  | 14 => withBf .dnOrControlAlt mode reg ws .bfset
  | _ => withBfReg .dnOrControlAlt mode reg ws .bfins

/-- The register shifts: bit 8 left, bit 5 count in a register, bits 4-3 the kind (R288). -/
def decodeShiftReg (sz : Size) (r9 op mode reg : BitVec 3) : Instr :=
  match (mode.extractLsb' 0 2 ++ op.extractLsb' 2 1 : BitVec 3).toNat with
  | 0 => .asr sz (top mode) r9 reg
  | 1 => .asl sz (top mode) r9 reg
  | 2 => .lsr sz (top mode) r9 reg
  | 3 => .lsl sz (top mode) r9 reg
  | 4 => .roxr sz (top mode) r9 reg
  | 5 => .roxl sz (top mode) r9 reg
  | 6 => .ror sz (top mode) r9 reg
  | _ => .rol sz (top mode) r9 reg

/-- Line E: shifts, rotates, bit fields. -/
def decodeLineE (r9 op mode reg : BitVec 3) (ws : List Word) : Parse (Got Instr) :=
  if op.extractLsb' 0 2 = 3#2 then decodeLineEea r9 op mode reg ws
  else do
    let sz ← opSize op
    .ok (decodeShiftReg sz r9 op mode reg, ws)

/-- The conditional type of a coprocessor instruction: cpDBcc, cpTRAPcc, cpScc (R464, R465, R467). -/
def decodeCpCond (id mode reg : BitVec 3) (ws : List Word) : Parse (Got Instr) :=
  if mode = 1#3 then withWord ws (.cpDbcc id reg)
  else if mode = 7#3 ∧ reg = 2#3 then withWord ws (.cpTrapccW id)
  else if mode = 7#3 ∧ reg = 3#3 then withWord ws (.cpTrapccL id)
  else if mode = 7#3 ∧ reg = 4#3 then withWord ws (.cpTrapcc id)
  else do
    let _ ← need (eaFieldOk .dataAlt .b mode reg)
    withWord ws (.cpScc id mode reg)

/-- A coprocessor instruction by its type field (R460). Words after the command or condition word are read while the
coprocessor dialogue runs (R482). -/
def decodeCp (id type mode reg : BitVec 3) (ws : List Word) : Parse (Got Instr) :=
  match type.toNat with
  | 0 => withWord ws (.cpGen id mode reg)
  | 1 => decodeCpCond id mode reg ws
  | 2 => .ok (.cpBccW id (mode ++ reg), ws)
  | 3 => .ok (.cpBccL id (mode ++ reg), ws)
  | 4 => withEa .controlAltOrPre .l mode reg ws (.cpSave id)
  | 5 => withEa .controlOrPost .l mode reg ws (.cpRestore id)
  | _ => .ok (.flineBadType id (type.extractLsb' 0 1 ++ mode ++ reg), ws)

/-- Line F: CpID 000 is not decoded further. -/
def decodeLineF (r9 op mode reg : BitVec 3) (ws : List Word) : Parse (Got Instr) :=
  if r9 = 0#3 then .ok (.flineCpid0 (op ++ mode ++ reg), ws) else decodeCp r9 op mode reg ws

/-- The line of the opcode map. -/
def decodeFields (line : BitVec 4) (r9 op mode reg : BitVec 3) (ws : List Word) : Parse (Got Instr) :=
  match line.toNat with
  | 0 => decodeLine0 r9 op mode reg ws
  | 1 => decodeMove .b r9 op mode reg ws .moveB
  | 2 =>
    if op = 1#3 then withEa .any .l mode reg ws (.moveaL r9) else decodeMove .l r9 op mode reg ws .moveL
  | 3 =>
    if op = 1#3 then withEa .any .w mode reg ws (.moveaW r9) else decodeMove .w r9 op mode reg ws .moveW
  | 4 => decodeLine4 r9 op mode reg ws
  | 5 => decodeLine5 r9 op mode reg ws
  | 6 => decodeLine6 r9 op mode reg ws
  | 7 => decodeLine7 r9 op mode reg ws
  | 8 => decodeLine8 r9 op mode reg ws
  | 9 => decodeLine9 r9 op mode reg ws
  | 10 => .ok (.aline (r9 ++ op ++ mode ++ reg), ws)
  | 11 => decodeLineB r9 op mode reg ws
  | 12 => decodeLineC r9 op mode reg ws
  | 13 => decodeLineD r9 op mode reg ws
  | 14 => decodeLineE r9 op mode reg ws
  | _ => decodeLineF r9 op mode reg ws

/-- The row of the opcode table an operation word and the words after it stand in. -/
def decodeOp (w : Word) (ws : List Word) : Parse (Got Instr) :=
  decodeFields (field w 12 4) (field w 9 3) (field w 6 3) (field w 3 3) (field w 0 3) ws

/-- Decoding (R171): the first row that matches and whose conditions hold, else the last row, `unassigned`. -/
def decode : List Word → DecodeResult
  | [] => .more
  | w :: ws =>
    match decodeOp w ws with
    | .ok (i, rest) => .instr i rest
    | .error .more => .more
    | .error .bad => .instr (.unassigned w) ws

/-- The longest instruction has 11 words (R140). -/
def maxWords : Nat := 11

/-- The 16-bit words of a table word: the first word is its low 16 bits. -/
def tableWords (w : Nat) : List Word := (List.range maxWords).map fun k => BitVec.ofNat 16 (w >>> (16 * k))

/-- The instruction the decoder reads from a word numbered as spec/opcode_table.json numbers it, with zeros above
`nbits`. -/
def decodeTableWord (nbits w : Nat) : Option Instr :=
  match decode (tableWords (w % 2 ^ nbits)) with
  | .instr i _ => some i
  | .more => none

/-! ## The encoder -/

/-- An operation word from its five fields. -/
def mkOp (line : BitVec 4) (r9 op mode reg : BitVec 3) : Word := line ++ r9 ++ op ++ mode ++ reg

/-- The standard size field (R144). -/
def Size.code : Size → BitVec 2
  | .b => 0#2
  | .w => 1#2
  | .l => 2#2

/-- A size with a bit above it, the `op` field. -/
def sizeOp (hi : Bool) (sz : Size) : BitVec 3 := BitVec.ofBool hi ++ sz.code

/-- A condition with the size field 11: `r9` and `op`. -/
def condR9 (cc : Cond) : BitVec 3 := cc.extractLsb' 1 3

/-- The low bit of a condition above a size field of 11. -/
def condOp (cc : Cond) : BitVec 3 := cc.extractLsb' 0 1 ++ 3#2

/-- The words of a long word, high-order first. -/
def longWords (v : Long) : List Word := [hiWord v, loWord v]

/-- The words of an immediate of size `sz`. -/
def immWords : Size → Long → List Word
  | .b, v => [loWord v]
  | .w, v => [loWord v]
  | .l, v => longWords v

/-- The words of a displacement of a full format extension. -/
def Disp.words : Disp → List Word
  | .null => []
  | .word d => [d]
  | .long d => longWords d

/-- The size code of a displacement (R157). -/
def Disp.code : Disp → BitVec 2
  | .null => 1#2
  | .word _ => 2#2
  | .long _ => 3#2

/-- The I/IS field (R157). -/
def Indirect.code : Indirect → BitVec 3
  | .none => 0#3
  | .pre od => 0#1 ++ od.code
  | .post od => 1#1 ++ od.code

/-- The outer displacement's words. -/
def Indirect.words : Indirect → List Word
  | .none => []
  | .pre od => od.words
  | .post od => od.words

/-- The words of a brief or full format index extension (R156, R157). -/
def Index.words : Index → List Word
  | .brief x d8 => [x.rn ++ BitVec.ofBool x.long ++ x.scale ++ 0#1 ++ d8]
  | .full x bs is bd ind =>
    (x.rn ++ BitVec.ofBool x.long ++ x.scale ++ 1#1 ++ BitVec.ofBool bs ++ BitVec.ofBool is ++ bd.code ++ 0#1
      ++ ind.code) :: (bd.words ++ ind.words)

/-- The mode field of an effective address (R150). -/
def Ea.modeBits : Ea → BitVec 3
  | .dn _ => 0#3
  | .an _ => 1#3
  | .ind _ => 2#3
  | .postInc _ => 3#3
  | .preDec _ => 4#3
  | .disp _ _ => 5#3
  | .idx _ _ => 6#3
  | _ => 7#3

/-- The register field of an effective address (R150). -/
def Ea.regBits : Ea → BitVec 3
  | .dn n => n
  | .an n => n
  | .ind n => n
  | .postInc n => n
  | .preDec n => n
  | .disp n _ => n
  | .idx n _ => n
  | .absW _ => 0#3
  | .absL _ => 1#3
  | .pcDisp _ => 2#3
  | .pcIdx _ => 3#3
  | .imm _ => 4#3

/-- The extension words of an effective address for an operand of size `sz` (R167). -/
def Ea.words (sz : Size) : Ea → List Word
  | .dn _ => []
  | .an _ => []
  | .ind _ => []
  | .postInc _ => []
  | .preDec _ => []
  | .disp _ d => [d]
  | .idx _ x => x.words
  | .absW a => [a]
  | .absL a => longWords a
  | .pcDisp d => [d]
  | .pcIdx x => x.words
  | .imm v => immWords sz v

/-- Operation word, own extension words, and the effective address's (R141). -/
def encEa (line : BitVec 4) (r9 op : BitVec 3) (own : List Word) (sz : Size) (ea : Ea) : List Word :=
  mkOp line r9 op ea.modeBits ea.regBits :: (own ++ ea.words sz)

/-- The extension word of a bit field instruction with a register field. -/
def bfWord (d : Reg) (f : BfSpec) : Word :=
  0#1 ++ d ++ BitVec.ofBool f.offReg ++ f.off ++ BitVec.ofBool f.widReg ++ f.wid

/-- The extension word of CHK2, CMP2 and MOVES: register, bit 11. -/
def rnWord (rn : Rn) (b : Bool) : Word := rn ++ BitVec.ofBool b ++ 0#11

/-- An extension word of CAS (register 0) and CAS2. -/
def casWord (rn : Rn) (du dc : Reg) : Word := rn ++ 0#3 ++ du ++ 0#3 ++ dc

/-- The extension word of MULx.L and DIVx.L. -/
def mulWord (l : Reg) (signed quad : Bool) (h : Reg) : Word :=
  0#1 ++ l ++ BitVec.ofBool signed ++ BitVec.ofBool quad ++ 0#7 ++ h

/-- An extension word holding a byte. -/
def byteWord (b : Byte) : Word := 0#8 ++ b

/-- The displacement byte of a branch (R350). -/
def BrDisp.byteCode : BrDisp → Byte
  | .byte d => d
  | .word _ => 0#8
  | .long _ => 0xFF#8

/-- The displacement words of a branch (R350). -/
def BrDisp.words : BrDisp → List Word
  | .byte _ => []
  | .word d => [d]
  | .long d => longWords d

/-- A branch with its condition (R351). -/
def encBranch (cc : Cond) (d : BrDisp) : List Word := (6#4 ++ cc ++ d.byteCode : Word) :: d.words

/-- The 2-bit field of MOVE's size with line 1, 2, 3 is the line itself (R144). -/
def encMove (line : BitVec 4) (sz : Size) (src dst : Ea) : List Word :=
  mkOp line dst.regBits dst.modeBits src.modeBits src.regBits :: (src.words sz ++ dst.words sz)

/-- Mode 000 or 001 as the D/A bit selects. -/
def pairMode (mem : Bool) : BitVec 3 := 0#2 ++ BitVec.ofBool mem

/-- The D/A bit of a 4-bit register number as a mode field. -/
def Rn.modeBits (rn : Rn) : BitVec 3 := 0#2 ++ rn.extractLsb' 3 1

/-- The register number of a 4-bit register number. -/
def Rn.num (rn : Rn) : Reg := rn.extractLsb' 0 3

/-- A register shift's operation word (R288): `kind` is 0 AS, 1 LS, 2 ROX, 3 RO. -/
def encShift (left : Bool) (kind : BitVec 2) (sz : Size) (byReg : Bool) (c d : BitVec 3) : List Word :=
  [mkOp 14#4 c (sizeOp left sz) (BitVec.ofBool byReg ++ kind) d]

/-- The size field of MOVEM and the other one-bit forms above 01: word 10, long 11 (R144). -/
def longOp (long : Bool) : BitVec 3 := 1#2 ++ BitVec.ofBool long

/-- Word or long as the opmodes 011 and 111 (R144). -/
def addrOp (long : Bool) : BitVec 3 := BitVec.ofBool long ++ 3#2

/-- Size of the address register forms. -/
def longSize (long : Bool) : Size := if long then .l else .w

/-- The words of a well-formed instruction. -/
def encode : Instr → List Word
  | .oriCcr imm => [mkOp 0 0 0 7 4, byteWord imm]
  | .oriSr imm => [mkOp 0 0 1 7 4, imm]
  | .andiCcr imm => [mkOp 0 1 0 7 4, byteWord imm]
  | .andiSr imm => [mkOp 0 1 1 7 4, imm]
  | .eoriCcr imm => [mkOp 0 5 0 7 4, byteWord imm]
  | .eoriSr imm => [mkOp 0 5 1 7 4, imm]
  | .cas2W rn1 du1 dc1 rn2 du2 dc2 => [mkOp 0 6 3 7 4, casWord rn1 du1 dc1, casWord rn2 du2 dc2]
  | .cas2L rn1 du1 dc1 rn2 du2 dc2 => [mkOp 0 7 3 7 4, casWord rn1 du1 dc1, casWord rn2 du2 dc2]
  | .rtm rn => [mkOp 0 3 3 (Rn.modeBits rn) (Rn.num rn)]
  | .callm argc ea => encEa 0 3 3 [byteWord argc] .l ea
  | .cmp2 sz rn ea => encEa 0 (sizeOp false sz) 3 [rnWord rn false] sz ea
  | .chk2 sz rn ea => encEa 0 (sizeOp false sz) 3 [rnWord rn true] sz ea
  | .btst n ea => encEa 0 4 0 [byteWord n] .b ea
  | .bchg n ea => encEa 0 4 1 [byteWord n] .b ea
  | .bclr n ea => encEa 0 4 2 [byteWord n] .b ea
  | .bset n ea => encEa 0 4 3 [byteWord n] .b ea
  | .cas sz dc du ea =>
    encEa 0 (1#1 ++ (match sz with | .b => 1#2 | .w => 2#2 | .l => 3#2)) 3 [casWord 0#4 du dc] sz ea
  | .moves sz rn toMem ea => encEa 0 7 (sizeOp false sz) [rnWord rn toMem] sz ea
  | .movep long toMem d a d16 => [mkOp 0 d (1#1 ++ BitVec.ofBool toMem ++ BitVec.ofBool long) 1 a, d16]
  | .btstDn d ea => encEa 0 d 4 [] .b ea
  | .bchgDn d ea => encEa 0 d 5 [] .b ea
  | .bclrDn d ea => encEa 0 d 6 [] .b ea
  | .bsetDn d ea => encEa 0 d 7 [] .b ea
  | .ori sz imm ea => encEa 0 0 (sizeOp false sz) (immWords sz imm) sz ea
  | .andi sz imm ea => encEa 0 1 (sizeOp false sz) (immWords sz imm) sz ea
  | .subi sz imm ea => encEa 0 2 (sizeOp false sz) (immWords sz imm) sz ea
  | .addi sz imm ea => encEa 0 3 (sizeOp false sz) (immWords sz imm) sz ea
  | .eori sz imm ea => encEa 0 5 (sizeOp false sz) (immWords sz imm) sz ea
  | .cmpi sz imm ea => encEa 0 6 (sizeOp false sz) (immWords sz imm) sz ea
  | .moveB src dst => encMove 1 .b src dst
  | .moveaW a src => encEa 3 a 1 [] .w src
  | .moveW src dst => encMove 3 .w src dst
  | .moveaL a src => encEa 2 a 1 [] .l src
  | .moveL src dst => encMove 2 .l src dst
  | .illegal => [mkOp 4 5 3 7 4]
  | .reset => [mkOp 4 7 1 6 0]
  | .nop => [mkOp 4 7 1 6 1]
  | .stop imm => [mkOp 4 7 1 6 2, imm]
  | .rte => [mkOp 4 7 1 6 3]
  | .rtd d16 => [mkOp 4 7 1 6 4, d16]
  | .rts => [mkOp 4 7 1 6 5]
  | .trapv => [mkOp 4 7 1 6 6]
  | .rtr => [mkOp 4 7 1 6 7]
  | .movec toCtl rn code => [mkOp 4 7 1 7 (1#2 ++ BitVec.ofBool toCtl), rn ++ code]
  | .trap v => [mkOp 4 7 1 (Rn.modeBits v) (Rn.num v)]
  | .linkW a d16 => [mkOp 4 7 1 2 a, d16]
  | .unlk a => [mkOp 4 7 1 3 a]
  | .moveUsp fromUsp a => [mkOp 4 7 1 (2#2 ++ BitVec.ofBool fromUsp) a]
  | .jsr ea => encEa 4 7 2 [] .l ea
  | .jmp ea => encEa 4 7 3 [] .l ea
  | .swap d => [mkOp 4 4 1 0 d]
  | .bkpt v => [mkOp 4 4 1 1 v]
  | .pea ea => encEa 4 4 1 [] .l ea
  | .linkL a d32 => mkOp 4 4 0 1 a :: longWords d32
  | .nbcd ea => encEa 4 4 0 [] .b ea
  | .extW d => [mkOp 4 4 2 0 d]
  | .extL d => [mkOp 4 4 3 0 d]
  | .extbL d => [mkOp 4 4 7 0 d]
  | .movemToMem long mask ea => encEa 4 4 (longOp long) [mask] .l ea
  | .movemToRegs long mask ea => encEa 4 6 (longOp long) [mask] .l ea
  | .muluL quad dl dh ea => encEa 4 6 0 [mulWord dl false quad dh] .l ea
  | .mulsL quad dl dh ea => encEa 4 6 0 [mulWord dl true quad dh] .l ea
  | .divuL quad dq dr ea => encEa 4 6 1 [mulWord dq false quad dr] .l ea
  | .divsL quad dq dr ea => encEa 4 6 1 [mulWord dq true quad dr] .l ea
  | .tas ea => encEa 4 5 3 [] .b ea
  | .tst sz ea => encEa 4 5 (sizeOp false sz) [] sz ea
  | .moveFromSr ea => encEa 4 0 3 [] .w ea
  | .negx sz ea => encEa 4 0 (sizeOp false sz) [] sz ea
  | .moveFromCcr ea => encEa 4 1 3 [] .w ea
  | .clr sz ea => encEa 4 1 (sizeOp false sz) [] sz ea
  | .moveToCcr ea => encEa 4 2 3 [] .w ea
  | .neg sz ea => encEa 4 2 (sizeOp false sz) [] sz ea
  | .moveToSr ea => encEa 4 3 3 [] .w ea
  | .not sz ea => encEa 4 3 (sizeOp false sz) [] sz ea
  | .chkW d ea => encEa 4 d 6 [] .w ea
  | .chkL d ea => encEa 4 d 4 [] .l ea
  | .lea a ea => encEa 4 a 7 [] .l ea
  | .dbcc cc d d16 => [mkOp 5 (condR9 cc) (condOp cc) 1 d, d16]
  | .trapccW cc op => [mkOp 5 (condR9 cc) (condOp cc) 7 2, op]
  | .trapccL cc op => mkOp 5 (condR9 cc) (condOp cc) 7 3 :: longWords op
  | .trapcc cc => [mkOp 5 (condR9 cc) (condOp cc) 7 4]
  | .scc cc ea => encEa 5 (condR9 cc) (condOp cc) [] .b ea
  | .addq sz q ea => encEa 5 q (sizeOp false sz) [] sz ea
  | .subq sz q ea => encEa 5 q (sizeOp true sz) [] sz ea
  | .bra d => encBranch 0#4 d
  | .bsr d => encBranch 1#4 d
  | .bcc cc d => encBranch cc d
  | .moveq d imm => [7#4 ++ d ++ 0#1 ++ imm]
  | .divuW d ea => encEa 8 d 3 [] .w ea
  | .divsW d ea => encEa 8 d 7 [] .w ea
  | .sbcd mem src dst => [mkOp 8 dst 4 (pairMode mem) src]
  | .pack mem src dst adj => [mkOp 8 dst 5 (pairMode mem) src, adj]
  | .unpk mem src dst adj => [mkOp 8 dst 6 (pairMode mem) src, adj]
  | .or sz toEa d ea => encEa 8 d (sizeOp toEa sz) [] sz ea
  | .suba long a ea => encEa 9 a (addrOp long) [] (longSize long) ea
  | .subx sz mem src dst => [mkOp 9 dst (sizeOp true sz) (pairMode mem) src]
  | .sub sz toEa d ea => encEa 9 d (sizeOp toEa sz) [] sz ea
  | .aline x => [10#4 ++ x]
  | .cmpa long a ea => encEa 11 a (addrOp long) [] (longSize long) ea
  | .cmpm sz src dst => [mkOp 11 dst (sizeOp true sz) 1 src]
  | .eor sz d ea => encEa 11 d (sizeOp true sz) [] sz ea
  | .cmp sz d ea => encEa 11 d (sizeOp false sz) [] sz ea
  | .muluW d ea => encEa 12 d 3 [] .w ea
  | .mulsW d ea => encEa 12 d 7 [] .w ea
  | .abcd mem src dst => [mkOp 12 dst 4 (pairMode mem) src]
  | .exgDD x y => [mkOp 12 x 5 0 y]
  | .exgAA x y => [mkOp 12 x 5 1 y]
  | .exgDA x y => [mkOp 12 x 6 1 y]
  | .and sz toEa d ea => encEa 12 d (sizeOp toEa sz) [] sz ea
  | .adda long a ea => encEa 13 a (addrOp long) [] (longSize long) ea
  | .addx sz mem src dst => [mkOp 13 dst (sizeOp true sz) (pairMode mem) src]
  | .add sz toEa d ea => encEa 13 d (sizeOp toEa sz) [] sz ea
  | .bftst f ea => encEa 14 4 3 [bfWord 0 f] .l ea
  | .bfextu d f ea => encEa 14 4 7 [bfWord d f] .l ea
  | .bfchg f ea => encEa 14 5 3 [bfWord 0 f] .l ea
  | .bfexts d f ea => encEa 14 5 7 [bfWord d f] .l ea
  | .bfclr f ea => encEa 14 6 3 [bfWord 0 f] .l ea
  | .bfffo d f ea => encEa 14 6 7 [bfWord d f] .l ea
  | .bfset f ea => encEa 14 7 3 [bfWord 0 f] .l ea
  | .bfins d f ea => encEa 14 7 7 [bfWord d f] .l ea
  | .asrEa ea => encEa 14 0 3 [] .w ea
  | .aslEa ea => encEa 14 0 7 [] .w ea
  | .lsrEa ea => encEa 14 1 3 [] .w ea
  | .lslEa ea => encEa 14 1 7 [] .w ea
  | .roxrEa ea => encEa 14 2 3 [] .w ea
  | .roxlEa ea => encEa 14 2 7 [] .w ea
  | .rorEa ea => encEa 14 3 3 [] .w ea
  | .rolEa ea => encEa 14 3 7 [] .w ea
  | .asr sz byReg c d => encShift false 0 sz byReg c d
  | .asl sz byReg c d => encShift true 0 sz byReg c d
  | .lsr sz byReg c d => encShift false 1 sz byReg c d
  | .lsl sz byReg c d => encShift true 1 sz byReg c d
  | .roxr sz byReg c d => encShift false 2 sz byReg c d
  | .roxl sz byReg c d => encShift true 2 sz byReg c d
  | .ror sz byReg c d => encShift false 3 sz byReg c d
  | .rol sz byReg c d => encShift true 3 sz byReg c d
  | .flineCpid0 x => [15#4 ++ 0#3 ++ x]
  | .cpGen id mode reg cmd => [mkOp 15 id 0 mode reg, cmd]
  | .cpDbcc id d cond => [mkOp 15 id 1 1 d, cond]
  | .cpTrapccW id cond => [mkOp 15 id 1 7 2, cond]
  | .cpTrapccL id cond => [mkOp 15 id 1 7 3, cond]
  | .cpTrapcc id cond => [mkOp 15 id 1 7 4, cond]
  | .cpScc id mode reg cond => [mkOp 15 id 1 mode reg, cond]
  | .cpBccW id sel => [15#4 ++ id ++ 2#3 ++ sel]
  | .cpBccL id sel => [15#4 ++ id ++ 3#3 ++ sel]
  | .cpSave id ea => encEa 15 id 4 [] .l ea
  | .cpRestore id ea => encEa 15 id 5 [] .l ea
  | .flineBadType id x => [15#4 ++ id ++ 3#2 ++ x]
  | .unassigned w => [w]

/-- The operation word of an instruction: the first of its words. -/
def opword (i : Instr) : Word :=
  match encode i with
  | w :: _ => w
  | [] => 0#16

end Sys2Proof
end

