-- ==== Sys2Proof/Machine/Memory.lean ====
section
/-! DEFINITION. Memory as a canonical list of cells, and the place of an address in it (20_memory.md R70-R77). -/

namespace Sys2Proof.Machine

/-- What a byte that nothing has written reads as: DESIGN CHOICE, unsafe (log 1). -/
def Memory.unwritten : Byte := 0#8

/-- The byte at a key. -/
def Memory.read : List Host.Cell → Nat → Byte
  | [], _ => Memory.unwritten
  | (k, b) :: rest, a => if a = k then b else Memory.read rest a

/-- Writes a byte, keeping the canonical form. -/
def Memory.write : List Host.Cell → Nat → Byte → List Host.Cell
  | [], a, v => if v = Memory.unwritten then [] else [(a, v)]
  | (k, b) :: rest, a, v =>
    if a < k then (if v = Memory.unwritten then (k, b) :: rest else (a, v) :: (k, b) :: rest)
    else if a = k then (if v = Memory.unwritten then rest else (a, v) :: rest)
    else (k, b) :: Memory.write rest a v

/-- The canonical form: keys strictly rising, no entry equal to what an unlisted key reads as. -/
def Memory.wf : List Host.Cell → Bool
  | [] => true
  | (k, b) :: rest => b != Memory.unwritten && rest.all (fun c => k < c.1) && Memory.wf rest

/-- The address the bus sees: 32 bits on the MC68020, the low 24 on the MC68EC020 (R72). -/
def extAddr (v : Variant) (a : Long) : Nat :=
  match v with
  | .mc68020 => a.toNat
  | .mc68ec020 => (a.extractLsb' 0 24).toNat

/-- The memory that a function code shows (R73, 92_eei_decisions.md D1). -/
def bankOf (p : Platform) (fc : Fc) : Nat := p.banks.getD fc.toNat 0

/-- The key of an address of a space in memory. -/
def memKey (p : Platform) (fc : Fc) (a : Long) : Nat := bankOf p fc * 2 ^ 32 + extAddr p.variant a

/-- The byte a space shows at an address. -/
def byteAt (s : State) (fc : Fc) (a : Long) : Byte := Memory.read s.mem (memKey s.platform fc a)

/-- Stores a byte at an address of a space. -/
def setByteAt (s : State) (fc : Fc) (a : Long) (b : Byte) : State :=
  { s with mem := Memory.write s.mem (memKey s.platform fc a) b }

/-- `n` bytes from `a` upward, the first most significant (R76), below the bytes of `acc`. Addresses wrap (D3). -/
def loadAcc (s : State) (fc : Fc) : Nat → Long → Long → Long
  | 0, _, acc => acc
  | n + 1, a, acc => loadAcc s fc n (a + 1#32) ((acc <<< 8) ||| (byteAt s fc a).setWidth 32)

/-- The big-endian value of `n` bytes at `a` (R76). -/
def load (s : State) (fc : Fc) (a : Long) (n : Nat) : Long := loadAcc s fc n a 0#32

/-- Byte `i` from the right of a long word. -/
def byteOf (v : Long) (i : Nat) : Byte := (v >>> (8 * i)).setWidth 8

/-- Stores the low `n` bytes of `v` at `a` upward, the most significant first (R76). -/
def store (s : State) (fc : Fc) : Nat → Long → Long → State
  | 0, _, _ => s
  | n + 1, a, v => store (setByteAt s fc a (byteOf v n)) fc n (a + 1#32) v

end Sys2Proof.Machine
end

