-- ==== Sys2Proof/Machine/Bus.lean ====
section
/-! DEFINITION. Bus operations: operand transfers split into cycles (R80, R81, R93), CPU space (R126-R132), and
instruction fetch through pipe, holding register and cache (R110-R117). -/

namespace Sys2Proof.Machine

/-- Why a bus operation did not end: a bus error, with what earlier cycles of a read delivered, or a cycle that nothing
ends (R90). -/
inductive BusStop where
  | fault (f : BusFault) (got : Long) (s : State)
  | never (s : State)
  deriving Repr

/-- What a bus operation answers. -/
abbrev BusRun (β : Type) := Except BusStop β

/-- Why one bus cycle did not end normally: a bus error, or nothing ends it. -/
inductive CycleStop where
  | err (s : State)
  | wait (s : State)
  deriving Repr

/-- What a bus cycle answers. -/
abbrev Cycle (β : Type) := Except CycleStop β

/-- The width in bytes of the port at an external address (R90, D2): 4 where the platform names none. -/
def portBytes (p : Platform) (fc : Fc) (ext : Nat) : Nat :=
  match p.ports.find? (fun r => r.spaces.getLsbD fc.toNat && decide (r.first ≤ ext ∧ ext ≤ r.last)) with
  | none => 4
  | some r =>
    match r.size with
    | .p8 => 1
    | .p16 => 2
    | .p32 => 4

/-- Whether a cycle at an external address is in one of these regions. -/
def inRegions (rs : List FaultRegion) (fc : Fc) (read : Bool) (ext : Nat) : Bool :=
  rs.any fun r =>
    r.spaces.getLsbD fc.toNat && decide (r.first ≤ ext ∧ ext ≤ r.last) && (if read then r.onRead else r.onWrite)

/-- Whether a cycle at an external address ends in bus error. -/
def cycleErrs (p : Platform) (fc : Fc) (read : Bool) (ext : Nat) : Bool := inRegions p.faults fc read ext

/-- Whether nothing ends a cycle at an external address (R90, U19). -/
def cycleWaits (p : Platform) (fc : Fc) (read : Bool) (ext : Nat) : Bool := inRegions p.silent fc read ext

/-- What other bus masters store before a bus cycle: nothing inside a read-modify-write operation (R105, R133). -/
def otherMasters (s : State) : State :=
  if s.rmc then s
  else
    match s.platform.masters with
    | [] => s
    | b :: bs =>
      { s with mem := b.foldl (fun m c => Memory.write m c.1 c.2) s.mem, platform := { s.platform with masters := bs } }

/-! ## CPU space -/

/-- The answer of the coprocessor with this identification, the answer used up. -/
def popAnswer (id : BitVec 3) : List Coprocessor → Option (Option (CirAnswer × List Coprocessor))
  | [] => none
  | c :: cs =>
    if c.id = id then
      match c.answers with
      | [] => some none
      | v :: vs => some (some (v, { c with answers := vs } :: cs))
    else
      match popAnswer id cs with
      | none => none
      | some none => some none
      | some (some (v, cs')) => some (some (v, c :: cs'))

/-- A write to a coprocessor: ended in bus error if it refuses the write, else logged; none where it does not end the
cycle (R551). -/
def Coprocessor.write (c : Coprocessor) (w : CirWrite) : Option (Bool × Coprocessor) :=
  match c.refusals with
  | true :: bs => some (false, { c with refusals := bs })
  | false :: bs => some (true, { c with refusals := bs, log := c.log ++ [w] })
  | [] => if c.acknowledges then some (true, { c with log := c.log ++ [w] }) else none

/-- A write to the coprocessor with this identification: whether it took the write; none where there is no such
coprocessor. -/
def logWrite (id : BitVec 3) (w : CirWrite) : List Coprocessor → Option (Option (Bool × List Coprocessor))
  | [] => none
  | c :: cs =>
    if c.id = id then some ((c.write w).map fun r => (r.1, r.2 :: cs))
    else (logWrite id w cs).map fun o => o.map fun r => (r.1, c :: r.2)

/-- Whether a coprocessor with this identification exists (D17). -/
def hasCoprocessor (p : Platform) (id : BitVec 3) : Bool := p.coprocessors.any fun c => c.id == id

/-- The platform with other coprocessors. -/
def State.setCoprocessors (s : State) (cs : List Coprocessor) : State :=
  { s with platform := { s.platform with coprocessors := cs } }

/-- The interrupt acknowledge answer for a level (R684, D10): autovector where the platform names none. -/
def iackAnswer (p : Platform) (level : BitVec 3) : IackAnswer :=
  match p.iack.find? (fun x => x.1 == level) with
  | some x => x.2
  | none => .autovector

/-- The word a breakpoint acknowledge cycle delivers, if external hardware answers it (R130). -/
def bkptAnswer (p : Platform) (n : BitVec 3) : Option Word := (p.breakpoints.find? (fun x => x.1 == n)).map (·.2)

/-- The answer of the access-level hardware to a request (R446, D13): bus error where the platform names none. -/
def accessAnswer (p : Platform) (decrease : Bool) (level : Byte) : AccessAnswer :=
  match p.access.find? (fun r => r.decrease == decrease && (r.level == none || r.level == some level)) with
  | some r => r.answer
  | none => .busError

/-- CPU space type of an address: A19-A16 (R126). -/
def cpuType (a : Long) : Nat := (a.extractLsb' 16 4).toNat

/-- A read cycle that no unit of CPU space answers: answered as memory where the platform says so (R75, U17). -/
def cpuMemRead (s : State) (a : Long) (k : Nat) : Cycle (Long × State) :=
  let ext := extAddr s.platform.variant a
  if s.platform.cpuSpace.any fun r => decide (r.1 ≤ ext ∧ ext ≤ r.2) then .ok (load s 7#3 a k, s) else .error (.err s)

/-- A write cycle that no unit of CPU space answers. -/
def cpuMemWrite (s : State) (a : Long) (k : Nat) (v : Long) : Cycle State :=
  let ext := extAddr s.platform.variant a
  if s.platform.cpuSpace.any fun r => decide (r.1 ≤ ext ∧ ext ≤ r.2) then .ok (store s 7#3 k a v) else .error (.err s)

/-- A read cycle of `k` bytes in CPU space (R126, R726; log 9). The bytes of a breakpoint's word stand at offsets 0 and
1 of its address; what AVEC leaves on the data bus, and what the access-level registers hold, are free values. -/
def cpuReadCycle (s : State) (a : Long) (k : Nat) : Cycle (Long × State) :=
  match cpuType a with
  | 0 =>
    let o := a.toNat % 4
    match bkptAnswer s.platform (a.extractLsb' 2 3) with
    | some w =>
      if o + k ≤ 2 then .ok (lowBits (8 * k) (w.setWidth 32 >>> (8 * (2 - o - k))), s) else cpuMemRead s a k
    | none => cpuMemRead s a k
  | 1 =>
    if k = 1 && (a.extractLsb' 0 8 == 0x00#8 || a.extractLsb' 0 8 == 0x04#8) &&
        s.platform.access.any (fun r => r.answer != .busError) then .ok (lowBits 8 s.freeLong, s.tick)
    else cpuMemRead s a k
  | 2 =>
    match popAnswer (a.extractLsb' 13 3) s.platform.coprocessors with
    | none => .error (.err s)
    | some none => .error (.wait s)
    | some (some (.data v, cs)) => .ok (lowBits (8 * k) v, s.setCoprocessors cs)
    | some (some (.busError, cs)) => .error (.err (s.setCoprocessors cs))
  | 15 =>
    if k = 1 then
      match iackAnswer s.platform (a.extractLsb' 1 3) with
      | .vector v => .ok (v.setWidth 32, s)
      | .autovector => .ok (lowBits 8 s.freeLong, s.tick)
      | .busError => .error (.err s)
    else cpuMemRead s a k
  | _ => cpuMemRead s a k

/-- A write cycle of `k` bytes in CPU space (R126, R131, R446; log 9). -/
def cpuWriteCycle (s : State) (a : Long) (k : Nat) (v : Long) : Cycle State :=
  match cpuType a with
  | 1 =>
    let r := a.extractLsb' 0 8
    if k = 1 && (r == 0x40#8 || r == 0x44#8) && accessAnswer s.platform (r == 0x44#8) (v.setWidth 8) != .busError then
      .ok s
    else cpuMemWrite s a k v
  | 2 =>
    match logWrite (a.extractLsb' 13 3) { offset := a.extractLsb' 0 5, bytes := k, data := v } s.platform.coprocessors with
    | none => .error (.err s)
    | some none => .error (.wait s)
    | some (some (true, cs)) => .ok (s.setCoprocessors cs)
    | some (some (false, cs)) => .error (.err (s.setCoprocessors cs))
  | _ => cpuMemWrite s a k v

/-! ## Inputs, and cycles that wait (log 5) -/

/-- The state with other inputs to come. -/
def State.setInputs (s : State) (is : List (List Input)) : State := { s with platform := { s.platform with inputs := is } }

/-- The effect of one input but a reset. -/
def applyInput (s : State) : Input → State
  | .ipl l => { s with platform := { s.platform with ipl := l } }
  | .cdis b => { s with platform := { s.platform with cdis := b } }
  | .reset => s
  | .store k b => { s with mem := Memory.write s.mem k b }
  | .faults rs => { s with platform := { s.platform with faults := rs } }
  | .silent rs => { s with platform := { s.platform with silent := rs } }
  | .iack as => { s with platform := { s.platform with iack := as } }
  | .access rs => { s with platform := { s.platform with access := rs } }
  | .answers id vs =>
    s.setCoprocessors (s.platform.coprocessors.map fun c => if c.id = id then { c with answers := c.answers ++ vs } else c)
  | .refusals id bs =>
    s.setCoprocessors (s.platform.coprocessors.map fun c => if c.id = id then { c with refusals := c.refusals ++ bs } else c)

/-- The inputs of a batch arrive one after the other, up to an external reset: the state, and the inputs left. -/
def takeBatch : List Input → State → State × List Input
  | [], s => (s, [])
  | i :: is, s => if i = .reset then (s, i :: is) else takeBatch is (applyInput s i)

/-- Inputs put before the others, as part of the batch that comes first. -/
def beforeInputs (is : List Input) (bs : List (List Input)) : List (List Input) :=
  if is = [] then bs else (is ++ bs.headD []) :: bs.tail

/-- Whether an input is a store by another bus master. -/
def Input.isStore : Input → Bool
  | .store _ _ => true
  | _ => false

/-- A batch of inputs arrives while a bus cycle waits, and whether the cycle may then go on. A reset ends it, and is left
for the boundary (R700). Inside a read-modify-write operation stores are put off (R105, R133). -/
def awaitInputs (s : State) : Bool × State :=
  match s.platform.inputs with
  | [] => (false, s)
  | batch :: rest =>
    let off := if s.rmc then batch.filter Input.isStore else []
    let r := takeBatch (if s.rmc then batch.filter fun i => !i.isStore else batch) (s.setInputs rest)
    if r.2 = [] then (true, r.1.setInputs (beforeInputs off rest)) else (false, r.1.setInputs ((r.2 ++ off) :: rest))

/-- A bus cycle that is waited in, with inputs arriving, as long as nothing ends it. The number bounds the batches. -/
def awaitCycle {β : Type} (cycle : State → Cycle β) : Nat → State → Cycle β
  | 0, s => .error (.wait s)
  | n + 1, s =>
    match cycle s with
    | .error (.wait t) =>
      if (awaitInputs t).1 then awaitCycle cycle n (awaitInputs t).2 else .error (.wait (awaitInputs t).2)
    | r => r

/-- A bus cycle, with the wait for its end (R90). -/
def runCycle {β : Type} (cycle : State → Cycle β) (s : State) : Cycle β :=
  awaitCycle cycle (s.platform.inputs.length + 1) s

/-! ## Operand transfers -/

/-- One read cycle of `k` bytes, right justified. -/
def readCycle (s : State) (fc : Fc) (a : Long) (k : Nat) : Cycle (Long × State) :=
  if cycleErrs s.platform fc true (extAddr s.platform.variant a) then .error (.err s)
  else if cycleWaits s.platform fc true (extAddr s.platform.variant a) then .error (.wait s)
  else if fc = 7#3 then cpuReadCycle s a k
  else .ok (load s fc a k, s)

/-- One write cycle of the `k` bytes of `v`. -/
def writeCycle (s : State) (fc : Fc) (a : Long) (k : Nat) (v : Long) : Cycle State :=
  if cycleErrs s.platform fc false (extAddr s.platform.variant a) then .error (.err s)
  else if cycleWaits s.platform fc false (extAddr s.platform.variant a) then .error (.wait s)
  else if fc = 7#3 then cpuWriteCycle s a k v
  else .ok (store s fc k a v)

/-- Bytes that a cycle moves of `rem` left at an address (R93). -/
def cycleBytes (p : Platform) (fc : Fc) (a : Long) (rem : Nat) : Nat :=
  let port := portBytes p fc (extAddr p.variant a)
  min rem (port - a.toNat % port)

/-- The cycles of a read (R93), below the bytes of `acc`. The first number bounds the cycles left. -/
def readCycles (fc : Fc) : Nat → State → Long → Nat → Long → BusRun (Long × State)
  | 0, s, _, _, acc => .ok (acc, s)
  | fuel + 1, s, a, rem, acc =>
    if rem = 0 then .ok (acc, s)
    else
      let s := otherMasters s
      let k := cycleBytes s.platform fc a rem
      match runCycle (fun s => readCycle s fc a k) s with
      | .ok (v, t) => readCycles fc fuel t (a + BitVec.ofNat 32 k) (rem - k) ((acc <<< (8 * k)) ||| v)
      | .error (.err t) => .error (.fault { addr := a, fc := fc, read := true, bytes := rem, data := 0#32 } acc t)
      | .error (.wait t) => .error (.never t)

/-- The cycles of a write of the low `rem` bytes of `v` (R93). -/
def writeCycles (fc : Fc) : Nat → State → Long → Nat → Long → BusRun State
  | 0, s, _, _, _ => .ok s
  | fuel + 1, s, a, rem, v =>
    if rem = 0 then .ok s
    else
      let s := otherMasters s
      let k := cycleBytes s.platform fc a rem
      match runCycle (fun s => writeCycle s fc a k (lowBits (8 * k) (v >>> (8 * (rem - k))))) s with
      | .ok t => writeCycles fc fuel t (a + BitVec.ofNat 32 k) (rem - k) v
      | .error (.err t) =>
        .error (.fault { addr := a, fc := fc, read := false, bytes := rem, data := lowBits (8 * rem) v } 0#32 t)
      | .error (.wait t) => .error (.never t)

/-- MemReadFC (R80, R81): `n` bytes at `a`, right justified. -/
def busRead (s : State) (fc : Fc) (a : Long) (n : Nat) : BusRun (Long × State) := readCycles fc n s a n 0#32

/-- MemWriteFC (R80, R81): the low `n` bytes of `v` at `a`. Bytes moved by cycles before a failing one stay written. -/
def busWrite (s : State) (fc : Fc) (a : Long) (n : Nat) (v : Long) : BusRun State := writeCycles fc n s a n v

/-! ## Instruction fetch -/

/-- Why an instruction word could not be fetched: an odd address (R83), a bus error (R620), or a cycle that nothing ends
(R90). -/
inductive FetchStop where
  | odd
  | bus
  | never
  deriving DecidableEq, Repr

/-- The cache is enabled when CACR.E is set and CDIS negated (R111). -/
def cacheEnabled (s : State) : Bool := s.cacrE && !s.platform.cdis

/-- The cache entry an address selects: A7-A2 (R112). -/
def cacheIndex (a : Long) : Fin 64 := (a.extractLsb' 2 6).toFin

/-- A cache hit (R112). -/
def cacheHit (s : State) (fc : Fc) (a : Long) : Option Long :=
  let e := s.cache.get (cacheIndex a)
  if cacheEnabled s && e.valid && e.tag == a.extractLsb' 8 24 && e.fc2 == fc.getLsbD 2 then some e.data else none

/-- Replaces the entry an address selects. -/
def setCacheEntry (s : State) (a : Long) (e : CacheEntry) : State :=
  { s with cache := s.cache.set (cacheIndex a).val e (cacheIndex a).isLt }

/-- The long word that holds an address. -/
def longBase (a : Long) : Long := a &&& 0xFFFFFFFC#32

/-- The aligned long word of an instruction word, from holding register, cache or bus, and what the fetch leaves in
them (R112-R117). Whether the cache is enabled for the fill is tested after the read, as R112 writes it. -/
def fetchLong (s : State) (a : Long) : Except (FetchStop × State) (Long × State) :=
  let fc := progFc s
  let base := longBase a
  if s.holding.valid && s.holding.addr == base && s.holding.fc2 == fc.getLsbD 2 then .ok (s.holding.data, s)
  else
    let hold (t : State) (lw : Long) : State :=
      { t with holding := { valid := true, addr := base, fc2 := fc.getLsbD 2, data := lw } }
    match cacheHit s fc a with
    | some lw => .ok (lw, hold s lw)
    | none =>
      match busRead s fc base 4 with
      | .ok (lw, t) =>
        let t := if cacheEnabled t && !t.cacrF then
          setCacheEntry t a { tag := a.extractLsb' 8 24, fc2 := fc.getLsbD 2, valid := true, data := lw } else t
        .ok (lw, hold t lw)
      | .error (.never t) => .error (.never, t)
      | .error (.fault _ _ t) =>
        .error (.bus, if cacheEnabled t then
          setCacheEntry t a { t.cache.get (cacheIndex a) with valid := false } else t)

/-- A valid, unfaulted stage of the pipe that holds the word at an address (R50, R660). -/
def PipeStage.wordAt (p : PipeStage) (a : Long) : Option Word :=
  if p.valid && !p.fault && p.addr == a then some p.word else none

/-- The word the pipe holds for an address. -/
def pipeWord (p : Pipe) (a : Long) : Option Word :=
  match p.d.wordAt a with
  | some w => some w
  | none =>
    match p.c.wordAt a with
    | some w => some w
    | none => p.b.wordAt a

/-- A word enters the pipe at stage B (R50). -/
def Pipe.push (p : Pipe) (x : PipeStage) : Pipe := { b := x, c := p.b, d := p.c }

/-- Fetch16 (R112): a word of the pipe first; another one enters the pipe (R50, R113). -/
def fetchWord (s : State) (a : Long) : Except (FetchStop × State) (Word × State) :=
  match pipeWord s.pipe a with
  | some w => .ok (w, s)
  | none =>
    if a.getLsbD 0 then .error (.odd, s)
    else
      match fetchLong s a with
      | .ok (lw, t) =>
        let w := if a.getLsbD 1 then lw.extractLsb' 0 16 else lw.extractLsb' 16 16
        .ok (w, { t with pipe := t.pipe.push { valid := true, addr := a, word := w, fault := false } })
      | .error e => .error e

/-- Discards pipe and holding register (R720). -/
def flush (s : State) : State := { s with pipe := .empty, holding := .empty }

end Sys2Proof.Machine
end

