-- ==== Sys2Proof/Machine/Ops.lean ====
section
/-! DEFINITION. The shared operations: taking an exception (R610-R614), bus fault frames (R618-R664), accesses an
instruction makes, and the ways an instruction ends. -/

namespace Sys2Proof.Machine

/-- The outcome of a step. -/
abbrev Res := Host.Outcome State Fault Refusal

/-- A part of an instruction: a value, or the outcome that ends the instruction here. -/
abbrev Run (β : Type) := Except Res β

/-- Ends an instruction with the state its last part answers. -/
def toRes : Run State → Res
  | .ok s => .next s
  | .error r => r

/-! ## Taking an exception -/

/-- Step 1 of exception processing: supervisor level, no tracing (R610). -/
def enterSupervisor (s : State) : State := { s with sr := { s.sr with s := true, t1 := false, t0 := false } }

/-- No trace pending for the instruction in execution. -/
def clearTrace (s : State) : State := { s with trace := { s.trace with pending := false, flow := false } }

/-- The instruction in execution has changed flow: traced if T1,T0 = 01 at its start (R631, R632). -/
def markFlow (s : State) : State := { s with trace := { s.trace with pending := s.trace.pending || s.trace.flow } }

/-- The format code of a frame (R640). -/
def FrameBody.format : FrameBody → BitVec 4
  | .four => 0#4
  | .six _ => 2#4
  | .mid _ _ _ _ => 9#4

/-- The fields of a frame above its first eight bytes, with their sizes. -/
def FrameBody.fields : FrameBody → List (Nat × Long)
  | .four => []
  | .six a => [(4, a)]
  | .mid a i w ea => [(4, a), (2, i.setWidth 32), (2, w.setWidth 32), (4, ea)]

/-- The format and vector offset word (R611). -/
def formatWord (format : BitVec 4) (vector : Byte) : Word := format ++ 0#2 ++ vector ++ 0#2

/-- The first eight bytes of every frame (R640). -/
def frameHead (sr : Sr) (pc : Long) (format : BitVec 4) (vector : Byte) : List (Nat × Long) :=
  [(2, sr.toWord.setWidth 32), (4, pc), (2, (formatWord format vector).setWidth 32)]

/-- Total size of a list of fields. -/
def fieldsSize (fs : List (Nat × Long)) : Nat := (fs.map Prod.fst).sum

/-- Writes fields at ascending addresses of a space (D8). -/
def writeFields (s : State) (fc : Fc) (a : Long) : List (Nat × Long) → BusRun State
  | [] => .ok s
  | (n, v) :: fs => do
    let s ← busWrite s fc a n v
    writeFields s fc (a + BitVec.ofNat 32 n) fs

/-- PushFrame (R611): the stack pointer moves first, then the fields are written in ascending order. -/
def pushFields (s : State) (fs : List (Nat × Long)) : BusRun State :=
  let s := s.setSp (s.sp - BitVec.ofNat 32 (fieldsSize fs))
  writeFields s 5#3 s.sp fs

/-- The address of an exception vector (R612). -/
def vectorAddr (s : State) (vector : Byte) : Long := s.vbr + (vector.setWidth 32 <<< 2)

/-- Starts at an even address with an empty pipe (R720). -/
def startAt (s : State) (t : Long) : State := { flush s with pc := t }

/-- Two bytes' worth of a fault's SIZE field: SIZ1:SIZ0 of R92. -/
def sizeCode (n : Nat) : BitVec 2 := BitVec.ofNat 2 n

/-- The special status word (R662) from its parts: fault and rerun bits of stages C and B, and the data cycle. -/
def sswWord (fc fb rc rb df rm rw : Bool) (size : BitVec 2) (space : Fc) : Word :=
  BitVec.ofBool fc ++ BitVec.ofBool fb ++ BitVec.ofBool rc ++ BitVec.ofBool rb ++ 0#3 ++ BitVec.ofBool df
    ++ BitVec.ofBool rm ++ BitVec.ofBool rw ++ size ++ 0#1 ++ space

/-- The special status word of a data fault (R662). -/
def dataSsw (f : BusFault) (locked : Bool) : Word :=
  sswWord false false false false true locked f.read (sizeCode f.bytes) f.fc

/-- The special status word of an instruction stream fault: fault and rerun bit of each stage that holds the word of a
failed cycle (R620, R662). -/
def streamSsw (p : Pipe) : Word :=
  sswWord p.c.fault p.b.fault p.c.fault p.b.fault false false false 0#2 0#3

/-- What a bus fault frame is made of (R650, R652, R663). -/
structure FaultFrame where
  address : Bool
  long : Bool
  pc : Long
  ssw : Word
  faultAddr : Long
  dataOut : Long
  stageB : Long
  kind : SuspKind
  deriving DecidableEq, Repr

/-- The vector of a bus fault: 3 address error, 2 bus error. -/
def FaultFrame.vector (f : FaultFrame) : Byte := if f.address then 3#8 else 2#8

/-- Free values that a bus fault frame uses up. -/
def faultFrees : Nat := 24

/-- The image of a pipe stage: the word it holds, a free value where it holds none (R50, R661, log 13). -/
def stageImage (p : PipeStage) (free : Long) : Long :=
  if p.valid && !p.fault then p.word.setWidth 32 else lowBits 16 free

/-- The fields of format $A (R650): the key of the suspension stands in the internal words at +$1C; the other internal
words are free values (U18, log 13). -/
def shortFields (s : State) (f : FaultFrame) (format : BitVec 4) : List (Nat × Long) :=
  frameHead s.sr f.pc format f.vector ++
    [(2, s.freeAt 1), (2, f.ssw.setWidth 32), (2, stageImage s.pipe.c (s.freeAt 2)),
     (2, stageImage s.pipe.b (s.freeAt 3)), (4, f.faultAddr), (4, s.freeAt 4), (4, f.dataOut), (4, s.serial)]

/-- The fields that format $B adds (R652): stage B address, data input buffer, version number; internal words and data
input buffer are free values (U18, log 13). -/
def longFields (s : State) (f : FaultFrame) : List (Nat × Long) :=
  [(4, s.freeAt 5), (4, f.stageB), (4, s.freeAt 6), (4, s.freeAt 0), (4, s.freeAt 7), (2, s.freeAt 8),
   (2, (s.platform.versionNibble ++ (s.freeAt 9).extractLsb' 0 12 : Word).setWidth 32), (4, s.freeAt 10),
   (4, s.freeAt 11), (4, s.freeAt 12), (4, s.freeAt 13), (4, s.freeAt 14), (4, s.freeAt 15), (4, s.freeAt 16),
   (4, s.freeAt 17), (4, s.freeAt 18)]

/-- All fields of a bus fault frame. -/
def faultFields (s : State) (f : FaultFrame) : List (Nat × Long) :=
  if f.long then shortFields s f 11#4 ++ longFields s f else shortFields s f 10#4

/-- The halted state of a double bus fault (R604): the registers keep their values. -/
def halt (s : State) : State := { s with run := .halted, resume := none, done := [], replay := [], landing := none }

/-- The processor waits in a bus cycle that nothing ends (R90, U19): only a reset leaves this state (R700). -/
def hang (s : State) : State := { s with run := .waiting, resume := none, done := [], replay := [], landing := none }

/-- Registers, SR, PC, trace state and free value counter now (log 11). -/
def snapshot (s : State) : Snapshot := { regs := s.regs, sr := s.sr, pc := s.pc, trace := s.trace, free := s.freeIdx }

/-- The suspension that a bus fault leaves (log 11). -/
def suspensionOf (s : State) (f : FaultFrame) : Suspension :=
  { key := s.serial, long := f.long, kind := f.kind, instr := s.current, locked := s.rmc, start := s.start,
    atFault := snapshot s, pcNext := s.start.pc + BitVec.ofNat 32 (2 * (encode s.current).length), done := s.done,
    pipe := s.pipe }

/-- The state in which a bus fault's exception processing starts: the activity suspended, supervisor level (R618). -/
def suspend (s : State) (f : FaultFrame) : State :=
  enterSupervisor (clearTrace
    { s with suspended := suspensionOf s f :: s.suspended, serial := s.serial + 1#32, resume := none, done := [],
             replay := [], landing := none, rmc := false, run := .normal, freeIdx := s.freeIdx + faultFrees })

/-- Where a bus operation that stops leaves the processing of a bus fault or a reset: a bus error halts the processor
(R604). -/
def BusStop.halted : BusStop → State
  | .fault _ _ s => halt s
  | .never s => hang s

/-- Fetches the word at an address to find out whether it can be fetched, in the processing of a bus fault or a reset: the
state the fetch leaves, or where it ends. The word does not enter the pipe (D9, log 6). -/
def prefetch (s : State) (a : Long) : Except State State :=
  match fetchWord s a with
  | .ok (_, t) => .ok { t with pipe := s.pipe }
  | .error (.never, t) => .error (hang { t with pipe := s.pipe })
  | .error (_, t) => .error (halt { t with pipe := s.pipe })

/-- The state in which processing ends, whether at its end or before. -/
def endState : Except State State → State
  | .ok s => s
  | .error s => s

/-- Exception processing of a bus error or address error (R618, R622). A fault in it is a double bus fault (R604); it
ends with the fetch of the handler's first word (R15, R600, log 35). -/
def takeFault (s : State) (f : FaultFrame) : State :=
  match pushFields (suspend s f) (faultFields s f) with
  | .error stop => stop.halted
  | .ok t =>
    match busRead t 5#3 (vectorAddr t f.vector) 4 with
    | .error stop => stop.halted
    | .ok (target, u) => endState (prefetch (startAt u target) target)

/-- Stacking and vector fetch of an exception other than a bus fault (steps 3 and 4 of R610), from the state after
step 1; `copy` is the SR saved. An interrupt taken in master mode builds the throwaway frame too (R685). -/
def stackEntry (s : State) (e : Entry) (copy : Sr) : BusRun State := do
  let s ← pushFields s (frameHead copy e.pc e.body.format e.vector ++ e.body.fields)
  if e.level.isSome && s.sr.m then
    pushFields { s with sr := { s.sr with m := false } } (frameHead { copy with s := true } e.pc 1#4 e.vector)
  else .ok s

/-- A fault inside exception processing leaves registers and SR as after step 1 (R614, D18, log 13). -/
def backTo (t s : State) : State := { t with regs := s.regs, sr := s.sr }

/-- The frame of a data cycle's bus error (R618, R663): data output buffer right justified (R664); what it holds besides
the data of a write, and the address of a stage B without a word, are free values (log 13). -/
def dataFrame (s : State) (pc : Long) (locked : Bool) (f : BusFault) (kind : SuspKind) : FaultFrame :=
  { address := false, long := true, pc := pc, ssw := dataSsw f locked, faultAddr := f.addr,
    dataOut := if f.read then s.freeAt 19 else (s.freeAt 19 <<< (8 * f.bytes)) ||| f.data,
    stageB := if s.pipe.b.valid then s.pipe.b.addr else s.freeAt 20, kind := kind }

/-- The frame of an instruction stream fault (R620, R622, R663): fault address and data output buffer are free values
(log 13). -/
def streamFrame (s : State) (address long : Bool) (ssw : Word) (stageB : Long) (kind : SuspKind) : FaultFrame :=
  { address := address, long := long, pc := s.pc, ssw := ssw, faultAddr := s.freeAt 19, dataOut := s.freeAt 20,
    stageB := stageB, kind := kind }

/-- SSW of an address error: both stages to be rerun, no fault bits (R622). -/
def oddSsw : Word := sswWord false false true true false false false 0#2 0#3

/-- The pipe when the words at an odd address were wanted: stage C for that address, stage B for the next (R622). -/
def oddPipe (p : Pipe) (t : Long) : Pipe :=
  { b := { valid := true, addr := t + 2#32, word := 0#16, fault := true }
    c := { valid := true, addr := t, word := 0#16, fault := true }
    d := p.d }

/-- An address error at an odd address (R622, R663), with the given stacked PC. -/
def takeOdd (s : State) (pc t : Long) (kind : SuspKind) : State :=
  let s := { s with pipe := oddPipe s.pipe t }
  takeFault s { streamFrame s true true oddSsw (t + 2#32) kind with pc := pc }

/-- A bus operation of exception processing, and what follows it; `s` is the state after step 1. A fault in it suspends
the processing (R614, D18). -/
def entryBus {β : Type} (s : State) (e : Entry) (copy : Sr) (r : BusRun β) (k : β → State) : State :=
  match r with
  | .ok v => k v
  | .error (.fault f got t) => takeFault (backTo t s) (dataFrame t e.pc false f (.entry e copy none got))
  | .error (.never t) => hang t

/-- The end of exception processing, in the state `t` after the vector read: the handler at an even vector starts, an odd
one is an address error at once, with the exception's stacked PC (R614, R663). -/
def enterHandler (s : State) (e : Entry) (copy : Sr) (t : State) (target : Long) : State :=
  if target.getLsbD 0 then takeOdd (backTo t s) e.pc target (.entry e copy (some target) 0#32) else startAt t target

/-- Steps 3 and 4 of exception processing, from the state after step 1. `vector` is the vector's value where the handler
of a bus error on its read has completed the read (R665). -/
def processEntry (s : State) (e : Entry) (copy : Sr) (vector : Option Long) : State :=
  entryBus s e copy (stackEntry s e copy) fun t =>
    match vector with
    | some target => enterHandler s e copy t target
    | none => entryBus s e copy (busRead t 5#3 (vectorAddr t e.vector) 4) fun r => enterHandler s e copy r.2 r.1

/-- Step 1 of every exception but reset, bus error and address error: an interrupt also raises the mask to its level
(R610). -/
def stepOne (s : State) (level : Option (BitVec 3)) : State :=
  enterSupervisor { s with run := .normal, rmc := false, sr := { s.sr with mask := level.getD s.sr.mask } }

/-- TakeException (R610), for every exception but reset, bus error and address error. -/
def takeEntry (s : State) (e : Entry) : State :=
  processEntry (stepOne s e.level) e s.sr none

/-- An instruction trap (group 2, R623): the trap is part of the instruction, which stays traced and counts as a change
of flow (R632, R633). -/
def trapTo (s : State) (vector : Byte) (body : FrameBody) (pc : Long) : Res :=
  .next (takeEntry (markFlow s) { vector := vector, body := body, pc := pc, level := none })

/-- An exception taken instead of the instruction (group 3, R628): frame $0 at the instruction, which is not traced. -/
def abandonTo (s : State) (vector : Byte) : Res :=
  .next (takeEntry (clearTrace s) { vector := vector, body := .four, pc := s.pc, level := none })

/-- Illegal instruction, vector 4 (R624). -/
def illegalInstruction (s : State) : Res := abandonTo s 4#8

/-- Privilege violation, vector 8 (R627). -/
def privilegeViolation (s : State) : Res := abandonTo s 8#8

/-- A-line, vector 10 (R625). -/
def lineA (s : State) : Res := abandonTo s 10#8

/-- F-line, vector 11 (R626). -/
def lineF (s : State) : Res := abandonTo s 11#8

/-- Format error, vector 14, frame $0 at the instruction (R636). -/
def formatError (s : State) : Res := trapTo s 14#8 .four s.pc

/-- A trap with the six-word frame: `vector`, after the instruction of `n` words (R623). -/
def trapSix (s : State) (vector : Byte) (n : Nat) : Res :=
  trapTo s vector (.six s.pc) (s.pc + BitVec.ofNat 32 (2 * n))

/-- RequireSupervisor() of the privileged instructions (R390). -/
def requireSupervisor (s : State) (k : State → Res) : Res := if s.sr.s then k s else privilegeViolation s

/-! ## Faults inside an instruction -/

/-- A data fault of the instruction in execution (R618, R663): frame $B, RM set inside a locked operation. -/
def dataFault (s : State) (f : BusFault) (got : Long) : State :=
  takeFault s (dataFrame s s.pc s.rmc f (.access f got))

/-- The pipe after a fetch that ended in bus error (R50, R663): the word is marked in stage C if it was to be an operation
word, else in stage B. -/
def faultedPipe (p : Pipe) (opword : Bool) (a : Long) : Pipe :=
  let x : PipeStage := { valid := true, addr := a, word := 0#16, fault := true }
  if opword then { b := .empty, c := x, d := p.d } else p.push x

/-- A word that could not be fetched (R620, R622, R663): at an operation word frame $A, inside an instruction and for an
address error $B. -/
def fetchFault (s : State) (a : Long) (kind : SuspKind) (stop : FetchStop) : State :=
  let opword := kind == .fetch []
  match stop with
  | .never => hang s
  | .odd => takeOdd s s.pc a (if opword then .jump a else kind)
  | .bus =>
    let s := { s with pipe := faultedPipe s.pipe opword a }
    takeFault s (streamFrame s false (!opword) (streamSsw s.pipe) a kind)

/-- The address error of an instruction that changes flow to an odd address (R622, R663). -/
def jumpFault (s : State) (t : Long) : State := takeOdd s s.pc t (.jump t)

/-! ## Restarting (log 11) -/

/-- What a restarted instruction finds where it had stopped. -/
def landingOf (s : State) (late : Bool) : Landing :=
  { late := late, regs := s.regs, sr := s.sr, vbr := s.vbr, sfc := s.sfc, dfc := s.dfc, cacrE := s.cacrE, cacrF := s.cacrF,
    caar := s.caar, cache := s.cache, holding := s.holding, pipe := s.pipe, trace := s.trace, free := s.freeIdx }

/-- The restarted instruction has come to where it had stopped. -/
def land (s : State) : State :=
  match s.landing with
  | none => s
  | some l =>
    { s with
      regs := l.regs, sr := l.sr, vbr := l.vbr, sfc := l.sfc, dfc := l.dfc, cacrE := l.cacrE, cacrF := l.cacrF,
      caar := l.caar, cache := l.cache, holding := l.holding, pipe := l.pipe, trace := l.trace, freeIdx := l.free,
      landing := none }

/-- The next record of a restarted instruction has been taken over; with the last one it has come to where it had
stopped, unless that is the access after it. -/
def tookOver (s : State) (r : BusRec) (rest : List BusRec) : State :=
  let t := { s with replay := rest, done := s.done ++ [r] }
  if rest.isEmpty && s.landing.any (fun l => !l.late) then land t else t

/-- The instruction `i` starts again from the registers `st`, takes over what it has behind it, and lands in the present
registers: with the last record, or (`late`) at the access after it. -/
def again (s : State) (i : Instr) (st : Snapshot) (ops : List BusRec) (late : Bool) : State :=
  { s with
    regs := st.regs, sr := st.sr, pc := st.pc, trace := st.trace, freeIdx := st.free, start := st, current := i,
    done := [], replay := ops, landing := some (landingOf s late), rmc := false, eaValid := false,
    resume := some (.instr i) }

/-! ## Interrupts and reset -/

/-- Address of the interrupt acknowledge cycle (R127). -/
def iackAddr (level : BitVec 3) : Long := 0xFFFFFFF1#32 ||| (level.setWidth 32 <<< 1)

/-- The vector an interrupt acknowledge cycle yields (R684): a bus error makes the interrupt spurious. -/
def iackVector (p : Platform) (level : BitVec 3) : Byte :=
  if cycleErrs p 7#3 true (extAddr p.variant (iackAddr level)) then 24#8
  else
    match iackAnswer p level with
    | .vector n => n
    | .autovector => 24#8 + level.setWidth 8
    | .busError => 24#8

/-- The interrupt acknowledge cycle (R684). -/
def iackCycle (level : BitVec 3) (s : State) : Cycle (Byte × State) :=
  if cycleWaits s.platform 7#3 true (extAddr s.platform.variant (iackAddr level)) then .error (.wait s)
  else .ok (iackVector s.platform level, s)

/-- Interrupt exception processing (R683) with the given frame and stacked PC: the acknowledge cycle comes after step 1
(R610, R684). -/
def takeInterrupt (s : State) (body : FrameBody) (pc : Long) : State :=
  let level := s.irq.level
  let u := stepOne { s with irq := { s.irq with pending := false } } (some level)
  match runCycle (iackCycle level) (otherMasters u) with
  | .ok (v, t) => processEntry t { vector := v, body := body, pc := pc, level := some level } s.sr none
  | .error (.err t) | .error (.wait t) => hang t

/-- A sample of the request level (R680, R681). -/
def sampleIpl (s : State) : State :=
  let ipl := s.platform.ipl
  let hit : Bool := decide (s.sr.mask.toNat < ipl.toNat) || (ipl == 7#3 && s.irq.prev != 7#3)
  { s with irq :=
      { sampled := ipl, prev := ipl, pending := s.irq.pending || hit, level := if hit then ipl else s.irq.level } }

/-- All cache entries invalid (R45). -/
def clearCache (s : State) : State := { s with cache := s.cache.map fun e => { e with valid := false } }

/-- The devices of the platform in their initial state (R406, R705). -/
def resetDevices (p : Platform) : Platform :=
  { p with
    faults := p.onReset.faults, silent := p.onReset.silent
    iack := p.onReset.iack, access := p.onReset.access, deviceResets := p.deviceResets + 1 }

/-- A coprocessor in its initial state (R705). -/
def resetCoprocessor (c : Coprocessor) : Coprocessor :=
  { c with answers := c.onReset, refusals := c.refusalsOnReset, log := [] }

/-- The platform after an external reset: devices and coprocessors in their initial states (R705). -/
def resetPlatform (p : Platform) : Platform :=
  { resetDevices p with coprocessors := p.coprocessors.map resetCoprocessor }

/-- Steps 1 to 6 of the reset sequence (R701), and the state that reset discards (R60, R704). -/
def resetState (s : State) : State :=
  let s := clearCache (flush s)
  { s with sr := { s.sr with t1 := false, t0 := false, s := true, m := false, mask := 7#3 }, vbr := 0#32, cacrE := false,
           cacrF := false, run := .normal, resume := none, done := [], replay := [], landing := none, rmc := false,
           irq := { s.irq with pending := false, prev := s.platform.resetIplPrev },
           trace := { s.trace with pending := false, flow := false }, platform := resetPlatform s.platform }

/-- The reset exception (R701-R703): two long words of supervisor program space, then the first three instruction
words; any fault halts the processor. -/
def resetProcessor (s : State) : State :=
  match busRead (resetState s) 6#3 0#32 4 with
  | .error stop => stop.halted
  | .ok (isp, s) =>
    let s := { s with regs := { s.regs with isp := isp } }
    match busRead s 6#3 4#32 4 with
    | .error stop => stop.halted
    | .ok (pc, s) =>
      endState do
        let s ← prefetch { s with pc := pc } pc
        let s ← prefetch s (pc + 2#32)
        prefetch s (pc + 4#32)

/-- The inputs of a batch arrive, and with an external reset the reset exception is taken; what stands after it in the
batch arrives next. -/
def arrive (s : State) (batch : List Input) : State :=
  match takeBatch batch s with
  | (t, []) => t
  | (t, _ :: later) => resetProcessor (t.setInputs (beforeInputs later t.platform.inputs))

/-- One batch of inputs, and a sample of the request level (D11, log 5). -/
def pollInputs (s : State) : State :=
  match s.platform.inputs with
  | [] => sampleIpl s
  | batch :: rest => sampleIpl (arrive (s.setInputs rest) batch)

/-! ## Accesses -/

/-- Whether there is an external reset in a batch of inputs. -/
def resets (batch : List Input) : Bool := batch.any fun i => i == .reset

/-- Outcome of a bus operation that stopped, inside an instruction. -/
def stopRun (b : BusStop) : Res :=
  match b with
  | .fault f got s => .next (dataFault s f got)
  | .never s => .next (hang s)

/-- A read by the instruction in execution: taken over from before a suspension, or made now (R660, log 11). -/
def readFc (s : State) (fc : Fc) (a : Long) (n : Nat) : Run (Long × State) :=
  match s.replay with
  | .read v :: rest => .ok (v, tookOver s (.read v) rest)
  | r :: rest => .ok (s.freeLong, tookOver s.tick r rest)
  | [] =>
    match busRead (land s) fc a n with
    | .ok (v, t) => .ok (v, { t with done := t.done ++ [.read v] })
    | .error b => .error (stopRun b)

/-- A write by the instruction in execution: skipped where it was made before a suspension (R660, log 11). -/
def writeFc (s : State) (fc : Fc) (a : Long) (n : Nat) (v : Long) : Run State :=
  match s.replay with
  | r :: rest => .ok (tookOver s r rest)
  | [] =>
    match busWrite (land s) fc a n v with
    | .ok t => .ok { t with done := t.done ++ [.write] }
    | .error b => .error (stopRun b)

/-- MemRead (R80): data space of the current privilege level. -/
def memRead (s : State) (a : Long) (n : Nat) : Run (Long × State) := readFc s (dataFc s) a n

/-- MemWrite (R80). -/
def memWrite (s : State) (a : Long) (n : Nat) (v : Long) : Run State := writeFc s (dataFc s) a n v

/-- Pushes a long word on the active stack (R24). -/
def pushLong (s : State) (v : Long) : Run State :=
  let s := s.setSp (s.sp - 4#32)
  memWrite s s.sp 4 v

/-- Pops `n` bytes from the active stack (R24). -/
def pop (s : State) (n : Nat) : Run (Long × State) := do
  let (v, s) ← memRead s s.sp n
  .ok (v, s.setSp (s.sp + BitVec.ofNat 32 n))

/-- A word of the instruction stream, fetched while the instruction runs (R482), or taken over from before a
suspension. -/
def streamWord (s : State) (a : Long) : Run (Word × State) :=
  match s.replay with
  | .read v :: rest => .ok (v.setWidth 16, tookOver s (.read v) rest)
  | r :: rest => .ok (s.freeLong.setWidth 16, tookOver s.tick r rest)
  | [] =>
    match fetchWord (land s) a with
    | .ok (w, t) => .ok (w, { t with done := t.done ++ [.read (w.setWidth 32)] })
    | .error (stop, t) => .error (.next (fetchFault t a .stream stop))

/-- Two words of the instruction stream. -/
def streamLong (s : State) (a : Long) : Run (Long × State) := do
  let (hi, s) ← streamWord s a
  let (lo, s) ← streamWord s (a + 2#32)
  .ok (longOfWords hi lo, s)

/-! ## The ways an instruction ends -/

/-- The address after an instruction of `n` words (R12, R26). -/
def pcAfter (s : State) (n : Nat) : Long := s.pc + BitVec.ofNat 32 (2 * n)

/-- The instruction of `n` words is complete and does not change flow (R26). -/
def advance (n : Nat) (s : State) : State := { s with pc := pcAfter s n }

/-- `pc <- t` (R10, R350): a change of flow; an odd target is an address error, what the instruction did stays (U10, log 13). -/
def jumpTo (s : State) (t : Long) : State :=
  if t.getLsbD 0 then jumpFault (markFlow s) t else startAt (markFlow s) t

/-- WriteSR (R390, R720): the pipe is refilled, and the instruction counts as a change of flow for tracing (R632). -/
def writeSr (s : State) (w : Word) : State := markFlow (flush { s with sr := .ofWord w })

end Sys2Proof.Machine
end

