-- ==== Sys2Proof/Machine/Operands.lean ====
section
/-! DEFINITION. Operands: the 18 addressing modes (R150-R167), reading and writing what they name (R163), and the shapes
that instructions share. -/

namespace Sys2Proof.Machine

/-- What an effective address names (R163): a register, memory in data or (`prog`) program space, or a value. -/
inductive Loc where
  | dreg (n : Reg)
  | areg (n : Reg)
  | mem (prog : Bool) (a : Long)
  | imm (v : Long)
  deriving DecidableEq, Repr

/-- The change of An in -(An) and (An)+ (R153, R154): the size, but 2 for a byte through A7. -/
def incOf (sz : Size) (n : Reg) : Long :=
  match sz with
  | .b => if n = 7#3 then 2#32 else 1#32
  | .w => 2#32
  | .l => 4#32

/-- The index operand (R156): the low word sign-extended or all of the register, times 1, 2, 4 or 8. -/
def indexValue (s : State) (x : XIndex) : Long :=
  (if x.long then s.rn x.rn else sextWord ((s.rn x.rn).setWidth 16)) <<< x.scale.toNat

/-- A base or outer displacement (R157). -/
def dispValue : Disp → Long
  | .null => 0#32
  | .word d => sextWord d
  | .long d => d

/-- Function code of an operand access in data or program space (R71). -/
def spaceFc (s : State) (prog : Bool) : Fc := if prog then progFc s else dataFc s

/-- The address of an indexed or memory indirect mode (R156, R157). -/
def indexAddr (s : State) (prog : Bool) (base : Long) : Index → Run (Long × State)
  | .brief x d8 => .ok (base + sextByte d8 + indexValue s x, s)
  | .full x bs is bd ind =>
    let base := (if bs then 0#32 else base) + dispValue bd
    let index := if is then 0#32 else indexValue s x
    match ind with
    | .none => .ok (base + index, s)
    | .pre od => do
      let (p, s) ← readFc s (spaceFc s prog) (base + index) 4
      .ok (p + dispValue od, s)
    | .post od => do
      let (p, s) ← readFc s (spaceFc s prog) base 4
      .ok (p + index + dispValue od, s)

/-- EA (R163): what the mode names, with the -(An) or (An)+ update done. `pcx` is the address of the first extension
word of this effective address (R158). -/
def evalEa (s : State) (sz : Size) (pcx : Long) : Ea → Run (Loc × State)
  | .dn n => .ok (.dreg n, s)
  | .an n => .ok (.areg n, s)
  | .ind n => .ok (.mem false (s.a n), s)
  | .postInc n => .ok (.mem false (s.a n), s.setA n (s.a n + incOf sz n))
  | .preDec n => .ok (.mem false (s.a n - incOf sz n), s.setA n (s.a n - incOf sz n))
  | .disp n d => .ok (.mem false (s.a n + sextWord d), s)
  | .idx n x => do
    let (a, s) ← indexAddr s false (s.a n) x
    .ok (.mem false a, s)
  | .absW a => .ok (.mem false (sextWord a), s)
  | .absL a => .ok (.mem false a, s)
  | .pcDisp d => .ok (.mem true (pcx + sextWord d), s)
  | .pcIdx x => do
    let (a, s) ← indexAddr s true pcx x
    .ok (.mem true a, s)
  | .imm v => .ok (.imm v, s)

/-- Read (R163). -/
def readLoc (s : State) (sz : Size) : Loc → Run (Long × State)
  | .dreg n => .ok (trunc sz (s.d n), s)
  | .areg n => .ok (trunc sz (s.a n), s)
  | .mem prog a => readFc s (spaceFc s prog) a (bytesOf sz)
  | .imm v => .ok (v, s)

/-- Write (R163). No instruction writes through a PC-relative mode or an immediate (R166): those forms do not decode,
and the operation leaves the state as it is. -/
def writeLoc (s : State) (sz : Size) (v : Long) : Loc → Run State
  | .dreg n => .ok (s.setDSized sz n v)
  | .areg n => .ok (s.setA n (sext sz v))
  | .mem false a => memWrite s a (bytesOf sz) v
  | .mem true _ => .ok s
  | .imm _ => .ok s

/-- The address a control mode names; of the other modes none has one. -/
def Loc.addr : Loc → Long
  | .mem _ a => a
  | _ => 0#32

/-- Whether a location is in program space. -/
def Loc.prog : Loc → Bool
  | .mem p _ => p
  | _ => false

/-- The address of the extension words after `own` words of the instruction's own (R141, R158). -/
def extAt (s : State) (own : Nat) : Long := s.pc + BitVec.ofNat 32 (2 * (1 + own))

/-- Number of extension words of an effective address (R167). -/
def eaLen (sz : Size) (ea : Ea) : Nat := (ea.words sz).length

/-- Evaluates and reads an operand. -/
def readEa (s : State) (sz : Size) (own : Nat) (ea : Ea) : Run (Long × State) := do
  let (loc, s') ← evalEa s sz (extAt s own) ea
  readLoc s' sz loc

/-- The address of a control operand (R163). -/
def eaAddr (s : State) (own : Nat) (ea : Ea) : Run (Long × State) := do
  let (loc, s') ← evalEa s .l (extAt s own) ea
  .ok (loc.addr, s')

/-! ## Shapes of instructions -/

/-- Reads, computes, writes the same location, then sets the flags (R163, R200): `f` gets the operand and answers
result and flags. -/
def modifyEa (s : State) (sz : Size) (own : Nat) (ea : Ea) (f : Long → Long × Ccr) : Res :=
  toRes do
    let (loc, s1) ← evalEa s sz (extAt s own) ea
    let (v, s2) ← readLoc s1 sz loc
    let s3 ← writeLoc s2 sz (f v).1 loc
    .ok (advance (1 + own + eaLen sz ea) (s3.setCcr (f v).2))

/-- Writes a location without reading it, then sets the flags. -/
def setEa (s : State) (sz : Size) (ea : Ea) (v : Long) (f : Ccr) : Res :=
  toRes do
    let (loc, s1) ← evalEa s sz (extAt s 0) ea
    let s2 ← writeLoc s1 sz v loc
    .ok (advance (1 + eaLen sz ea) (s2.setCcr f))

/-- Reads an operand and goes on with it and the state after it. -/
def withOperand (s : State) (sz : Size) (own : Nat) (ea : Ea) (k : Long → State → Res) : Res :=
  match readEa s sz own ea with
  | .ok (v, s1) => k v s1
  | .error r => r

/-- Reads an operand, only sets flags. -/
def testEa (s : State) (sz : Size) (own : Nat) (ea : Ea) (f : Long → Ccr) : Res :=
  withOperand s sz own ea fun v s1 => .next (advance (1 + own + eaLen sz ea) (s1.setCcr (f v)))

/-- `<ea>,Dn` at the operation's size: `f` gets destination and source. -/
def eaToDn (s : State) (sz : Size) (d : Reg) (ea : Ea) (f : Long → Long → Long × Ccr) : Res :=
  withOperand s sz 0 ea fun v s1 =>
    let r := f (trunc sz (s1.d d)) v
    .next (advance (1 + eaLen sz ea) ((s1.setDSized sz d r.1).setCcr r.2))

/-- `<ea>,Dn` or `Dn,<ea>` by the direction bit (R231): `f` gets destination and source. -/
def twoWay (s : State) (sz : Size) (toEa : Bool) (d : Reg) (ea : Ea) (f : Long → Long → Long × Ccr) : Res :=
  if toEa then modifyEa s sz 0 ea fun v => f v (trunc sz (s.d d)) else eaToDn s sz d ea f

/-- `<ea>,An` (R202, R232): the source is sign-extended; `f` gets the register and the source. -/
def eaToAn (s : State) (sz : Size) (a : Reg) (ea : Ea) (f : Long → Long → Long) : Res :=
  withOperand s sz 0 ea fun v s1 =>
    .next (advance (1 + eaLen sz ea) (s1.setA a (f (s1.a a) (sext sz v))))

/-- A byte, word or long word at -(An). -/
def readPre (s : State) (sz : Size) (n : Reg) : Run (Long × State) :=
  let s := s.setA n (s.a n - incOf sz n)
  memRead s (s.a n) (bytesOf sz)

/-- A byte, word or long word at (An)+. -/
def readPost (s : State) (sz : Size) (n : Reg) : Run (Long × State) := do
  let (v, s) ← memRead s (s.a n) (bytesOf sz)
  .ok (v, s.setA n (s.a n + incOf sz n))

/-- The register and -(Ay),-(Ax) forms of ADDX, SUBX, ABCD, SBCD (R235, R330): source first; `f` gets destination and
source. -/
def pairOp (s : State) (sz : Size) (mem : Bool) (src dst : Reg) (f : Long → Long → Long × Ccr) : Res :=
  if mem then
    toRes do
      let (v, s1) ← readPre s sz src
      let (d, s2) ← readPre s1 sz dst
      let s3 ← memWrite s2 (s2.a dst) (bytesOf sz) (f d v).1
      .ok (advance 1 (s3.setCcr (f d v).2))
  else
    let r := f (trunc sz (s.d dst)) (trunc sz (s.d src))
    .next (advance 1 ((s.setDSized sz dst r.1).setCcr r.2))

end Sys2Proof.Machine
end

