-- ==== Sys2Proof/Machine/Arith.lean ====
section
/-! DEFINITION. Integer arithmetic (41_integer_arithmetic.md). -/

namespace Sys2Proof.Machine

/-- ADD (R231). -/
def execAdd (sz : Size) (toEa : Bool) (d : Reg) (ea : Ea) (s : State) : Res := twoWay s sz toEa d ea (aluAdd sz)

/-- SUB (R236). -/
def execSub (sz : Size) (toEa : Bool) (d : Reg) (ea : Ea) (s : State) : Res := twoWay s sz toEa d ea (aluSub sz)

/-- ADDA (R232): all 32 bits, no flags. -/
def execAdda (long : Bool) (a : Reg) (ea : Ea) (s : State) : Res := eaToAn s (longSize long) a ea fun x v => x + v

/-- SUBA (R237). -/
def execSuba (long : Bool) (a : Reg) (ea : Ea) (s : State) : Res := eaToAn s (longSize long) a ea fun x v => x - v

/-- ADDI (R233). -/
def execAddi (sz : Size) (imm : Long) (ea : Ea) (s : State) : Res :=
  modifyEa s sz (immWords sz imm).length ea fun v => aluAdd sz v imm

/-- SUBI (R238). -/
def execSubi (sz : Size) (imm : Long) (ea : Ea) (s : State) : Res :=
  modifyEa s sz (immWords sz imm).length ea fun v => aluSub sz v imm

/-- The quick operand: 1 to 8, 000 meaning 8 (R147). -/
def quick (q : BitVec 3) : Long := if q = 0#3 then 8#32 else q.setWidth 32

/-- ADDQ (R234): an address register changes on all 32 bits and leaves the flags. -/
def execAddq (sz : Size) (q : BitVec 3) (ea : Ea) (s : State) : Res :=
  match ea with
  | .an n => .next (advance 1 (s.setA n (s.a n + quick q)))
  | _ => modifyEa s sz 0 ea fun v => aluAdd sz v (quick q)

/-- SUBQ (R239). -/
def execSubq (sz : Size) (q : BitVec 3) (ea : Ea) (s : State) : Res :=
  match ea with
  | .an n => .next (advance 1 (s.setA n (s.a n - quick q)))
  | _ => modifyEa s sz 0 ea fun v => aluSub sz v (quick q)

/-- ADDX (R235). -/
def execAddx (sz : Size) (mem : Bool) (src dst : Reg) (s : State) : Res := pairOp s sz mem src dst (aluAddx s.ccr sz)

/-- SUBX (R240). -/
def execSubx (sz : Size) (mem : Bool) (src dst : Reg) (s : State) : Res := pairOp s sz mem src dst (aluSubx s.ccr sz)

/-- NEG (R241). -/
def execNeg (sz : Size) (ea : Ea) (s : State) : Res := modifyEa s sz 0 ea fun v => aluSub sz 0#32 v

/-- NEGX (R242). -/
def execNegx (sz : Size) (ea : Ea) (s : State) : Res := modifyEa s sz 0 ea fun v => aluSubx s.ccr sz 0#32 v

/-- CLR (R243): the destination is not read. -/
def execClr (sz : Size) (ea : Ea) (s : State) : Res := setEa s sz ea 0#32 (logicFlags s.ccr sz 0#32)

/-- CMP (R244). -/
def execCmp (sz : Size) (d : Reg) (ea : Ea) (s : State) : Res :=
  testEa s sz 0 ea fun v => cmpFlags s.ccr sz (trunc sz (s.d d)) v

/-- CMPA (R245): a 32-bit comparison. The register is read after the source's address update (R200). -/
def execCmpa (long : Bool) (a : Reg) (ea : Ea) (s : State) : Res :=
  withOperand s (longSize long) 0 ea fun v s1 =>
    .next (advance (1 + eaLen (longSize long) ea)
      (s1.setCcr (cmpFlags s.ccr .l (s1.a a) (sext (longSize long) v))))

/-- CMPI (R246). -/
def execCmpi (sz : Size) (imm : Long) (ea : Ea) (s : State) : Res :=
  testEa s sz (immWords sz imm).length ea fun v => cmpFlags s.ccr sz v imm

/-- CMPM (R247). -/
def execCmpm (sz : Size) (src dst : Reg) (s : State) : Res :=
  toRes do
    let (v, s1) ← readPost s sz src
    let (d, s2) ← readPost s1 sz dst
    .ok (advance 1 (s2.setCcr (cmpFlags s.ccr sz d v)))

/-- TST (R249). -/
def execTst (sz : Size) (ea : Ea) (s : State) : Res := testEa s sz 0 ea fun v => logicFlags s.ccr sz v

/-- A 4-bit register number names an address register. -/
def isAn (rn : Rn) : Bool := rn.getLsbD 3

/-- The comparison size of CMP2 and CHK2: 32 bits for an address register (R248). -/
def boundsSize (sz : Size) (rn : Rn) : Size := if isAn rn then .l else sz

/-- A bound, sign-extended for an address register (R248). -/
def boundValue (sz : Size) (rn : Rn) (v : Long) : Long := if isAn rn then sext sz v else v

/-- Flags of CMP2 and CHK2 (R248): Z, C as computed; N and V are free values (U8). -/
def boundsFlags (s : State) (sz : Size) (rn : Rn) (lo hi : Long) : Ccr :=
  let wide := boundsSize sz rn
  let v := trunc wide (s.rn rn)
  let lo := trunc wide (boundValue sz rn lo)
  let hi := trunc wide (boundValue sz rn hi)
  { x := s.ccr.x, n := Config.freeBit s.freeIdx, z := v == lo || v == hi, v := Config.freeBit (s.freeIdx + 1),
    c := outOfBounds wide v lo hi }

/-- The two bounds in memory (R248). -/
def readBounds (s : State) (sz : Size) (ea : Ea) : Run ((Long × Long) × State) := do
  let (loc, s1) ← evalEa s sz (extAt s 1) ea
  let (lo, s2) ← readLoc s1 sz (.mem loc.prog loc.addr)
  let (hi, s3) ← readLoc s2 sz (.mem loc.prog (loc.addr + BitVec.ofNat 32 (bytesOf sz)))
  .ok ((lo, hi), s3)

/-- CMP2 (R248). -/
def execCmp2 (sz : Size) (rn : Rn) (ea : Ea) (s : State) : Res :=
  toRes do
    let (b, s1) ← readBounds s sz ea
    .ok (advance (2 + eaLen sz ea) ((s1.setCcr (boundsFlags s1 sz rn b.1 b.2)).tickBy 2))

/-- EXT.W (R250): byte to word, the upper half stays. -/
def execExtW (d : Reg) (s : State) : Res :=
  let r := trunc .w (sext .b (s.d d))
  .next (advance 1 ((s.setDSized .w d r).setCcr (logicFlags s.ccr .w r)))

/-- EXT.L (R250): word to long. -/
def execExtL (d : Reg) (s : State) : Res :=
  let r := sext .w (s.d d)
  .next (advance 1 ((s.setD d r).setCcr (logicFlags s.ccr .l r)))

/-- EXTB.L (R250): byte to long. -/
def execExtbL (d : Reg) (s : State) : Res :=
  let r := sext .b (s.d d)
  .next (advance 1 ((s.setD d r).setCcr (logicFlags s.ccr .l r)))

/-- A 16 by 16 multiplication into 32 bits (R251, R252). -/
def mulWord16 (s : State) (d : Reg) (ea : Ea) (ext : Long → Long) : Res :=
  withOperand s .w 0 ea fun v s1 =>
    let p := ext (s1.d d) * ext v
    .next (advance (1 + eaLen .w ea) ((s1.setD d p).setCcr (logicFlags s.ccr .l p)))

/-- MULU.W (R251). -/
def execMuluW (d : Reg) (ea : Ea) (s : State) : Res := mulWord16 s d ea (trunc .w)

/-- MULS.W (R252). -/
def execMulsW (d : Reg) (ea : Ea) (s : State) : Res := mulWord16 s d ea (sext .w)

/-- MULU.L and MULS.L (R253, R254). A 64-bit product into one register leaves a free value there (U8). -/
def mulL (signed quad : Bool) (dl dh : Reg) (ea : Ea) (s : State) : Res :=
  withOperand s .l 1 ea fun v s1 =>
    let p := mulLong signed (s1.d dl) v
    let s2 :=
      if quad then
        if dh = dl then (s1.setD dl s1.freeLong).tick else (s1.setD dh (hiLong p)).setD dl (loLong p)
      else s1.setD dl (loLong p)
    .next (advance (2 + eaLen .l ea) (s2.setCcr (mulFlags s.ccr signed quad p)))

/-- MULU.L (R253). -/
def execMuluL (quad : Bool) (dl dh : Reg) (ea : Ea) (s : State) : Res := mulL false quad dl dh ea s

/-- MULS.L (R254). -/
def execMulsL (quad : Bool) (dl dh : Reg) (ea : Ea) (s : State) : Res := mulL true quad dl dh ea s

/-- The zero divide trap (R259): C is 0; N, Z, V are free values. -/
def zeroDivide (s : State) (n : Nat) : Res :=
  trapSix ((s.setCcr { x := s.ccr.x, n := Config.freeBit s.freeIdx, z := Config.freeBit (s.freeIdx + 1),
                       v := Config.freeBit (s.freeIdx + 2), c := false }).tickBy 3) 5#8 n

/-- Flags of a division that overflows (R255): V 1, C 0, N and Z free values. -/
def divOverflow (s : State) : State :=
  (s.setCcr { x := s.ccr.x, n := Config.freeBit s.freeIdx, z := Config.freeBit (s.freeIdx + 1), v := true,
              c := false }).tickBy 2

/-- DIVU.W and DIVS.W (R255, R256). -/
def divW (signed : Bool) (d : Reg) (ea : Ea) (s : State) : Res :=
  withOperand s .w 0 ea fun v s1 =>
    let n := 1 + eaLen .w ea
    if isZero v then zeroDivide s1 n
    else
      let qr := divide (asInt signed (s1.d d)) (asInt signed (if signed then sext .w v else v))
      if quotientFits signed 16 qr.1 then
        let q := BitVec.ofInt 16 qr.1
        .next (advance n ((s1.setD d (BitVec.ofInt 16 qr.2 ++ q)).setCcr (logicFlags s.ccr .w (q.setWidth 32))))
      else .next (advance n (divOverflow s1))

/-- DIVU.W (R255). -/
def execDivuW (d : Reg) (ea : Ea) (s : State) : Res := divW false d ea s

/-- DIVS.W (R256). -/
def execDivsW (d : Reg) (ea : Ea) (s : State) : Res := divW true d ea s

/-- The dividend of a long division: Dq, or Dr:Dq (R257). -/
def longDividend (signed quad : Bool) (hi lo : Long) : Int :=
  if quad then (if signed then (hi ++ lo : BitVec 64).toInt else ((hi ++ lo : BitVec 64).toNat : Int)) else asInt signed lo

/-- Remainder to Dr, then quotient to Dq (R257); with a 64-bit dividend in one register a free value (U8). -/
def putQuotient (quad : Bool) (dq dr : Reg) (q r : Long) (s : State) : State :=
  if quad && dr == dq then (s.setD dq s.freeLong).tick
  else if dr = dq then s.setD dq q
  else (s.setD dr r).setD dq q

/-- DIVU.L, DIVUL.L, DIVS.L, DIVSL.L (R257, R258). -/
def divL (signed quad : Bool) (dq dr : Reg) (ea : Ea) (s : State) : Res :=
  withOperand s .l 1 ea fun v s1 =>
    let n := 2 + eaLen .l ea
    if isZero v then zeroDivide s1 n
    else
      let qr := divide (longDividend signed quad (s1.d dr) (s1.d dq)) (asInt signed v)
      if quotientFits signed 32 qr.1 then
        let q := BitVec.ofInt 32 qr.1
        .next (advance n ((putQuotient quad dq dr q (BitVec.ofInt 32 qr.2) s1).setCcr (logicFlags s.ccr .l q)))
      else .next (advance n (divOverflow s1))

/-- DIVU.L and DIVUL.L (R257). -/
def execDivuL (quad : Bool) (dq dr : Reg) (ea : Ea) (s : State) : Res := divL false quad dq dr ea s

/-- DIVS.L and DIVSL.L (R258). -/
def execDivsL (quad : Bool) (dq dr : Reg) (ea : Ea) (s : State) : Res := divL true quad dq dr ea s

end Sys2Proof.Machine
end

