-- ==== Sys2Proof/Machine/Bcd.lean ====
section
/-! DEFINITION. Binary-coded decimal (R330-R335). -/

namespace Sys2Proof.Machine

/-- Result and flags of ABCD, SBCD, NBCD (R330) from the exact result `rc`; N and V are free values, and with an invalid
digit (`ok` false) the result, X, C and Z too (U8). `i` is the first of the five free values used. -/
def bcdOut (f : Ccr) (i : Nat) (ok : Bool) (rc : Long × Bool) : Long × Ccr :=
  if ok then
    (rc.1, { x := rc.2, n := Config.freeBit i, z := f.z && isZero rc.1, v := Config.freeBit (i + 1), c := rc.2 })
  else
    (trunc .b (Config.freeLong i),
      { x := Config.freeBit (i + 2), n := Config.freeBit i, z := Config.freeBit (i + 3), v := Config.freeBit (i + 1),
        c := Config.freeBit (i + 4) })

/-- ABCD (R331). -/
def execAbcd (mem : Bool) (src dst : Reg) (s : State) : Res :=
  pairOp (s.tickBy 5) .b mem src dst fun d v =>
    bcdOut s.ccr s.freeIdx (bcdValid d && bcdValid v) (bcdAdd d v s.ccr.x)

/-- SBCD (R332). -/
def execSbcd (mem : Bool) (src dst : Reg) (s : State) : Res :=
  pairOp (s.tickBy 5) .b mem src dst fun d v =>
    bcdOut s.ccr s.freeIdx (bcdValid d && bcdValid v) (bcdSub d v s.ccr.x)

/-- NBCD (R333). -/
def execNbcd (ea : Ea) (s : State) : Res :=
  modifyEa (s.tickBy 5) .b 0 ea fun v => bcdOut s.ccr s.freeIdx (bcdValid v) (bcdSub 0#32 v s.ccr.x)

/-- The byte step of PACK and UNPK: 1, but for A7 not known (U9, log 16). -/
def packStep (n : Reg) : Long := if n = 7#3 && Config.packStepsTwo then 2#32 else 1#32

/-- A byte read at the predecremented register. -/
def packRead (s : State) (n : Reg) : Run (Long × State) :=
  let s := s.setA n (s.a n - packStep n)
  memRead s (s.a n) 1

/-- A byte written at the predecremented register. -/
def packWrite (s : State) (n : Reg) (v : Long) : Run State :=
  let s := s.setA n (s.a n - packStep n)
  memWrite s (s.a n) 1 v

/-- Two unpacked digits, adjusted, as a packed byte (R334). -/
def packByte (v : Word) (adj : Word) : Byte := (v + adj).extractLsb' 8 4 ++ (v + adj).extractLsb' 0 4

/-- A packed byte as two unpacked digits, adjusted (R335). -/
def unpackWord (b : Byte) (adj : Word) : Word := (0#4 ++ b.extractLsb' 4 4 ++ 0#4 ++ b.extractLsb' 0 4) + adj

/-- PACK (R334). -/
def execPack (mem : Bool) (src dst : Reg) (adj : Word) (s : State) : Res :=
  if mem then
    toRes do
      let (lo, s1) ← packRead s src
      let (hi, s2) ← packRead s1 src
      let s3 ← packWrite s2 dst ((packByte (hi.setWidth 8 ++ lo.setWidth 8) adj).setWidth 32)
      .ok (advance 2 s3)
  else .next (advance 2 (s.setDSized .b dst ((packByte ((s.d src).setWidth 16) adj).setWidth 32)))

/-- UNPK (R335). -/
def execUnpk (mem : Bool) (src dst : Reg) (adj : Word) (s : State) : Res :=
  if mem then
    toRes do
      let (b, s1) ← packRead s src
      let t := unpackWord (b.setWidth 8) adj
      let s2 ← packWrite s1 dst ((t.extractLsb' 0 8).setWidth 32)
      let s3 ← packWrite s2 dst ((t.extractLsb' 8 8).setWidth 32)
      .ok (advance 2 s3)
  else .next (advance 2 (s.setDSized .w dst ((unpackWord ((s.d src).setWidth 8) adj).setWidth 32)))

end Sys2Proof.Machine
end

