-- ==== Sys2Proof/Machine/Bit.lean ====
section
/-! DEFINITION. Bit manipulation (R310-R314) and bit fields (R320-R328). -/

namespace Sys2Proof.Machine

/-! ## Bits -/

/-- Bit `n` as a long word. -/
def bitMask (n : Nat) : Long := 1#32 <<< n

/-- Z of R310: the tested bit was 0; the other flags stay. -/
def bitFlags (f : Ccr) (v mask : Long) : Ccr := { f with z := isZero (v &&& mask) }

/-- BCHG, BCLR, BSET (R310): bit `num` modulo 32 of a data register, modulo 8 of a byte in memory; `f` gets operand and
mask. -/
def bitModify (f : Long → Long → Long) (num : Long) (own : Nat) (ea : Ea) (s : State) : Res :=
  match ea with
  | .dn n =>
    let mask := bitMask (num.toNat % 32)
    .next (advance (1 + own) ((s.setD n (f (s.d n) mask)).setCcr (bitFlags s.ccr (s.d n) mask)))
  | _ =>
    let mask := bitMask (num.toNat % 8)
    modifyEa s .b own ea fun v => (f v mask, bitFlags s.ccr v mask)

/-- BTST (R310, R311). -/
def bitTest (num : Long) (own : Nat) (ea : Ea) (s : State) : Res :=
  match ea with
  | .dn n => .next (advance (1 + own) (s.setCcr (bitFlags s.ccr (s.d n) (bitMask (num.toNat % 32)))))
  | _ => testEa s .b own ea fun v => bitFlags s.ccr v (bitMask (num.toNat % 8))

/-- The operand with the masked bit complemented. -/
def bitChange (v mask : Long) : Long := v ^^^ mask

/-- The operand with the masked bit cleared. -/
def bitClear (v mask : Long) : Long := v &&& ~~~mask

/-- The operand with the masked bit set. -/
def bitSet (v mask : Long) : Long := v ||| mask

/-- BTST #n (R311). -/
def execBtst (n : Byte) (ea : Ea) (s : State) : Res := bitTest (n.setWidth 32) 1 ea s

/-- BCHG #n (R312). -/
def execBchg (n : Byte) (ea : Ea) (s : State) : Res := bitModify bitChange (n.setWidth 32) 1 ea s

/-- BCLR #n (R313). -/
def execBclr (n : Byte) (ea : Ea) (s : State) : Res := bitModify bitClear (n.setWidth 32) 1 ea s

/-- BSET #n (R314). -/
def execBset (n : Byte) (ea : Ea) (s : State) : Res := bitModify bitSet (n.setWidth 32) 1 ea s

/-- BTST Dn (R311). -/
def execBtstDn (d : Reg) (ea : Ea) (s : State) : Res := bitTest (s.d d) 0 ea s

/-- BCHG Dn (R312). -/
def execBchgDn (d : Reg) (ea : Ea) (s : State) : Res := bitModify bitChange (s.d d) 0 ea s

/-- BCLR Dn (R313). -/
def execBclrDn (d : Reg) (ea : Ea) (s : State) : Res := bitModify bitClear (s.d d) 0 ea s

/-- BSET Dn (R314). -/
def execBsetDn (d : Reg) (ea : Ea) (s : State) : Res := bitModify bitSet (s.d d) 0 ea s

/-! ## Bit fields -/

/-- The offset: the 5-bit value, or all of a data register (R320). -/
def bfOffset (s : State) (f : BfSpec) : Long := if f.offReg then s.d (f.off.extractLsb' 0 3) else f.off.setWidth 32

/-- The width, 1 to 32 (R320). -/
def bfWidth (s : State) (f : BfSpec) : Nat :=
  let w := if f.widReg then (s.d (f.wid.extractLsb' 0 3)).toNat % 32 else f.wid.toNat
  if w = 0 then 32 else w

/-- Where a bit field lies (R320): a rotation of a data register, or bytes of memory; `raw` are the bits that hold it
and `shift` the bits below it. -/
structure BfPlace where
  reg : Option Reg
  rot : Nat
  prog : Bool
  addr : Long
  bytes : Nat
  raw : BitVec 40
  shift : Nat
  deriving DecidableEq, Repr

/-- Reads `n` bytes upward below the bits of `acc` (log 25). -/
def readBytes (prog : Bool) : Nat → State → Long → BitVec 40 → Run (BitVec 40 × State)
  | 0, s, _, acc => .ok (acc, s)
  | n + 1, s, a, acc => do
    let (b, s) ← readFc s (spaceFc s prog) a 1
    readBytes prog n s (a + 1#32) ((acc <<< 8) ||| b.setWidth 40)

/-- Writes the low `n` bytes upward, the most significant first (log 25). -/
def writeBytes : Nat → State → Long → BitVec 40 → Run State
  | 0, s, _, _ => .ok s
  | n + 1, s, a, v => do
    let s ← memWrite s a 1 (((v >>> (8 * n)).setWidth 8).setWidth 32)
    writeBytes n s (a + 1#32) v

/-- Finds and reads the bits that hold a field of offset `off` and width `w` (R320). -/
def bfPlace (s : State) (off : Long) (w : Nat) (ea : Ea) : Run (BfPlace × State) :=
  match ea with
  | .dn n =>
    let o := off.toNat % 32
    .ok ({ reg := some n, rot := o, prog := false, addr := 0#32, bytes := 0,
           raw := ((s.d n).rotateLeft o).setWidth 40, shift := 32 - w }, s)
  | _ => do
    let (loc, s) ← evalEa s .l (extAt s 1) ea
    let bo := off.toNat % 8
    let n := (bo + w + 7) / 8
    let a := loc.addr + off.sshiftRight 3
    let (raw, s) ← readBytes loc.prog n s a 0#40
    .ok ({ reg := none, rot := 0, prog := loc.prog, addr := a, bytes := n, raw := raw, shift := 8 * n - bo - w }, s)

/-- The field's value (R320). -/
def BfPlace.value (p : BfPlace) (w : Nat) : Long := lowBits w ((p.raw >>> p.shift).setWidth 32)

/-- The bits with the field replaced. -/
def BfPlace.replace (p : BfPlace) (w : Nat) (v : Long) : BitVec 40 :=
  (p.raw &&& ~~~((lowBits w (BitVec.allOnes 32)).setWidth 40 <<< p.shift)) ||| ((lowBits w v).setWidth 40 <<< p.shift)

/-- Writes a field (R320). -/
def bfWrite (s : State) (p : BfPlace) (w : Nat) (v : Long) : Run State :=
  match p.reg with
  | some n => .ok (s.setD n (((p.replace w v).setWidth 32).rotateRight p.rot))
  | none => writeBytes p.bytes s p.addr (p.replace w v)

/-- N is the first bit, Z the field being zero; V and C cleared (R320). -/
def bfFlags (f : Ccr) (w : Nat) (v : Long) : Ccr :=
  { x := f.x, n := v.getLsbD (w - 1), z := isZero v, v := false, c := false }

/-- A bit field instruction that reads: `k` gets offset, width, field and state (R320). -/
def bfRead (f : BfSpec) (ea : Ea) (s : State) (k : Long → Nat → Long → State → State) : Res :=
  toRes do
    let w := bfWidth s f
    let (p, s1) ← bfPlace s (bfOffset s f) w ea
    let v := p.value w
    .ok (advance (2 + eaLen .l ea) ((k (bfOffset s f) w v s1).setCcr (bfFlags s.ccr w v)))

/-- A bit field instruction that replaces the field: `g` gets width and old field (R320). -/
def bfModify (f : BfSpec) (ea : Ea) (s : State) (g : Nat → Long → Long) : Res :=
  toRes do
    let w := bfWidth s f
    let (p, s1) ← bfPlace s (bfOffset s f) w ea
    let s2 ← bfWrite s1 p w (g w (p.value w))
    .ok (advance (2 + eaLen .l ea) (s2.setCcr (bfFlags s.ccr w (p.value w))))

/-- A field as a signed value (R323). -/
def bfSigned (w : Nat) (v : Long) : Long := (v <<< (32 - w)).sshiftRight (32 - w)

/-- Number of zeros before the first one among the low `w` bits, `w` if there is none (R327). -/
def firstOne (v : Long) : Nat → Nat
  | 0 => 0
  | w + 1 => if v.getLsbD w then 0 else 1 + firstOne v w

/-- BFTST (R321). -/
def execBftst (f : BfSpec) (ea : Ea) (s : State) : Res := bfRead f ea s fun _ _ _ t => t

/-- BFEXTU (R322). -/
def execBfextu (d : Reg) (f : BfSpec) (ea : Ea) (s : State) : Res := bfRead f ea s fun _ _ v t => t.setD d v

/-- BFEXTS (R323). -/
def execBfexts (d : Reg) (f : BfSpec) (ea : Ea) (s : State) : Res := bfRead f ea s fun _ w v t => t.setD d (bfSigned w v)

/-- BFFFO (R327): the offset is not reduced. -/
def execBfffo (d : Reg) (f : BfSpec) (ea : Ea) (s : State) : Res :=
  bfRead f ea s fun off w v t => t.setD d (off + BitVec.ofNat 32 (firstOne v w))

/-- BFCHG (R324). -/
def execBfchg (f : BfSpec) (ea : Ea) (s : State) : Res := bfModify f ea s fun _ v => ~~~v

/-- BFCLR (R325). -/
def execBfclr (f : BfSpec) (ea : Ea) (s : State) : Res := bfModify f ea s fun _ _ => 0#32

/-- BFSET (R326). -/
def execBfset (f : BfSpec) (ea : Ea) (s : State) : Res := bfModify f ea s fun _ _ => BitVec.allOnes 32

/-- BFINS (R328): N and Z from the inserted value. -/
def execBfins (d : Reg) (f : BfSpec) (ea : Ea) (s : State) : Res :=
  toRes do
    let w := bfWidth s f
    let (p, s1) ← bfPlace s (bfOffset s f) w ea
    let s2 ← bfWrite s1 p w (s.d d)
    .ok (advance (2 + eaLen .l ea) (s2.setCcr (bfFlags s.ccr w (lowBits w (s.d d)))))

end Sys2Proof.Machine
end

