-- ==== Sys2Proof/Machine/Control.lean ====
section
/-! DEFINITION. Program control (44_program_control.md). -/

namespace Sys2Proof.Machine

/-- A branch displacement, sign-extended (R351). -/
def BrDisp.value : BrDisp → Long
  | .byte d => sextByte d
  | .word d => sextWord d
  | .long d => d

/-- Number of words of a branch. -/
def BrDisp.len (d : BrDisp) : Nat := 1 + d.words.length

/-- Displacements count from the word after the operation word (R350). -/
def branchTarget (s : State) (disp : Long) : Long := s.pc + 2#32 + disp

/-- Bcc (R351). -/
def execBcc (cc : Cond) (d : BrDisp) (s : State) : Res :=
  if cond cc s.ccr then .next (jumpTo s (branchTarget s (BrDisp.value d))) else .next (advance (BrDisp.len d) s)

/-- BRA (R352). -/
def execBra (d : BrDisp) (s : State) : Res := .next (jumpTo s (branchTarget s (BrDisp.value d)))

/-- BSR (R353). -/
def execBsr (d : BrDisp) (s : State) : Res :=
  toRes do
    let s1 ← pushLong s (pcAfter s (BrDisp.len d))
    .ok (jumpTo s1 (branchTarget s (BrDisp.value d)))

/-- DBcc (R354). -/
def execDbcc (cc : Cond) (d : Reg) (d16 : Word) (s : State) : Res :=
  if cond cc s.ccr then .next (advance 2 s)
  else
    let count := loWord (s.d d) - 1#16
    let s1 := s.setDSized .w d (count.setWidth 32)
    if count = 0xFFFF#16 then .next (advance 2 s1) else .next (jumpTo s1 (branchTarget s (sextWord d16)))

/-- The byte Scc and cpScc store. -/
def truthByte (b : Bool) : Long := if b then 0xFF#32 else 0#32

/-- Scc (R355): the destination is only written. -/
def execScc (cc : Cond) (ea : Ea) (s : State) : Res := setEa s .b ea (truthByte (cond cc s.ccr)) s.ccr

/-- JMP (R356). -/
def execJmp (ea : Ea) (s : State) : Res :=
  toRes do
    let (t, s1) ← eaAddr s 0 ea
    .ok (jumpTo s1 t)

/-- JSR (R357): the address is computed before the push. -/
def execJsr (ea : Ea) (s : State) : Res :=
  toRes do
    let (t, s1) ← eaAddr s 0 ea
    let s2 ← pushLong s1 (pcAfter s (1 + eaLen .l ea))
    .ok (jumpTo s2 t)

/-- RTS (R358). -/
def execRts (s : State) : Res :=
  toRes do
    let (t, s1) ← pop s 4
    .ok (jumpTo s1 t)

/-- RTD (R359). -/
def execRtd (d16 : Word) (s : State) : Res :=
  toRes do
    let (t, s1) ← pop s 4
    .ok (jumpTo (s1.setSp (s1.sp + sextWord d16)) t)

/-- RTR (R360): the CCR is loaded before the address is popped, as the rule writes it (R200 c). -/
def execRtr (s : State) : Res :=
  toRes do
    let (w, s1) ← pop s 2
    let (t, s2) ← pop (s1.setCcr (.ofByte (w.setWidth 8))) 4
    .ok (jumpTo s2 t)

/-- NOP (R382): no bus cycle is ever pending here. -/
def execNop (s : State) : Res := .next (advance 1 s)

end Sys2Proof.Machine
end

