-- ==== Sys2Proof/Machine/System.lean ====
section
/-! DEFINITION. System control (45_system_control.md) but RTE, and the exception classes of the opcode map (R171). -/

namespace Sys2Proof.Machine

/-! ## CCR and SR (R390-R400) -/

/-- A CCR instruction with an immediate byte: two words. -/
def ccrImm (s : State) (f : Byte → Byte) : Res := .next (advance 2 (s.setCcr (.ofByte (f s.ccr.toByte))))

/-- An SR instruction with an immediate word: privileged, two words. -/
def srImm (s : State) (f : Word → Word) : Res := requireSupervisor s fun s => .next (advance 2 (writeSr s (f s.sr.toWord)))

/-- ANDI to CCR (R391). -/
def execAndiCcr (imm : Byte) (s : State) : Res := ccrImm s fun w => w &&& imm

/-- EORI to CCR (R392). -/
def execEoriCcr (imm : Byte) (s : State) : Res := ccrImm s fun w => w ^^^ imm

/-- ORI to CCR (R393). -/
def execOriCcr (imm : Byte) (s : State) : Res := ccrImm s fun w => w ||| imm

/-- MOVE from CCR (R394). -/
def execMoveFromCcr (ea : Ea) (s : State) : Res := setEa s .w ea (s.ccr.toByte.setWidth 32) s.ccr

/-- MOVE to CCR (R395). -/
def execMoveToCcr (ea : Ea) (s : State) : Res := testEa s .w 0 ea fun v => .ofByte (v.setWidth 8)

/-- ANDI to SR (R396). -/
def execAndiSr (imm : Word) (s : State) : Res := srImm s fun w => w &&& imm

/-- EORI to SR (R397). -/
def execEoriSr (imm : Word) (s : State) : Res := srImm s fun w => w ^^^ imm

/-- ORI to SR (R398). -/
def execOriSr (imm : Word) (s : State) : Res := srImm s fun w => w ||| imm

/-- MOVE from SR (R399). -/
def execMoveFromSr (ea : Ea) (s : State) : Res :=
  requireSupervisor s fun s => setEa s .w ea (s.sr.toWord.setWidth 32) s.ccr

/-- MOVE to SR (R400). -/
def execMoveToSr (ea : Ea) (s : State) : Res :=
  requireSupervisor s fun s =>
    withOperand s .w 0 ea fun v s1 => .next (advance (1 + eaLen .w ea) (writeSr s1 (v.setWidth 16)))

/-! ## RESET, STOP, MOVE USP, MOVEC, MOVES -/

/-- RESET (R406, R705): the devices are reset, not the coprocessors. -/
def execReset (s : State) : Res :=
  requireSupervisor s fun s =>
    .next (advance 1 { s with platform := resetDevices s.platform })

/-- STOP (R408): if it is traced, it does not stop. -/
def execStop (imm : Word) (s : State) : Res :=
  requireSupervisor s fun s =>
    let s1 := advance 2 (writeSr s imm)
    .next (if s1.trace.pending then s1 else { s1 with run := .stopped })

/-- MOVE USP (R412). -/
def execMoveUsp (fromUsp : Bool) (a : Reg) (s : State) : Res :=
  requireSupervisor s fun s =>
    .next (advance 1 (if fromUsp then s.setA a s.regs.usp else { s with regs := { s.regs with usp := s.a a } }))

/-- The value of a control register; none for a code that names none (R414). -/
def readCtl (s : State) (code : BitVec 12) : Option Long :=
  match code.toNat with
  | 0x000 => some (s.sfc.setWidth 32)
  | 0x001 => some (s.dfc.setWidth 32)
  | 0x002 => some ((BitVec.ofBool s.cacrF ++ BitVec.ofBool s.cacrE).setWidth 32)
  | 0x800 => some s.regs.usp
  | 0x801 => some s.vbr
  | 0x802 => some s.caar
  | 0x803 => some s.regs.msp
  | 0x804 => some s.regs.isp
  | _ => none

/-- The entry that CAAR selects invalid (R46). -/
def clearEntry (s : State) : State := setCacheEntry s s.caar { s.cache.get (cacheIndex s.caar) with valid := false }

/-- A write to CACR (R40, R45, R46). -/
def writeCacr (s : State) (v : Long) : State :=
  let s := if v.getLsbD 2 then clearEntry s else s
  let s := if v.getLsbD 3 then clearCache s else s
  { s with cacrE := v.getLsbD 0, cacrF := v.getLsbD 1 }

/-- A write to a control register; none for a code that names none (R414). -/
def writeCtl (s : State) (code : BitVec 12) (v : Long) : Option State :=
  match code.toNat with
  | 0x000 => some { s with sfc := v.setWidth 3 }
  | 0x001 => some { s with dfc := v.setWidth 3 }
  | 0x002 => some (writeCacr s v)
  | 0x800 => some { s with regs := { s.regs with usp := v } }
  | 0x801 => some { s with vbr := v }
  | 0x802 => some { s with caar := v }
  | 0x803 => some { s with regs := { s.regs with msp := v } }
  | 0x804 => some { s with regs := { s.regs with isp := v } }
  | _ => none

/-- MOVEC (R414): privilege first, then the code. -/
def execMovec (toCtl : Bool) (rn : Rn) (code : BitVec 12) (s : State) : Res :=
  requireSupervisor s fun s =>
    match if toCtl then writeCtl s code (s.rn rn) else (readCtl s code).map (s.setRn rn) with
    | some t => .next (advance 2 t)
    | none => illegalInstruction s

/-- The effective address changes the register that MOVES stores (R416). -/
def storesOwnAddress (rn : Rn) : Ea → Bool
  | .postInc n => rn == 1#1 ++ n
  | .preDec n => rn == 1#1 ++ n
  | _ => false

/-- A register loaded by MOVES (R416): part of a data register, all of an address register. -/
def setRnSized (s : State) (sz : Size) (rn : Rn) (v : Long) : State :=
  if isAn rn then s.setRn rn (sext sz v) else s.setDSized sz (rn.extractLsb' 0 3) v

/-- MOVES (R416). What it stores of the register its own address changes is a free value (U8). -/
def execMoves (sz : Size) (rn : Rn) (toMem : Bool) (ea : Ea) (s : State) : Res :=
  requireSupervisor s fun s =>
    toRes do
      let (loc, s1) ← evalEa s sz (extAt s 1) ea
      let n := 2 + eaLen sz ea
      if toMem then
        let own := storesOwnAddress rn ea
        let s2 ← writeFc (if own then s1.tick else s1) s.dfc loc.addr (bytesOf sz) (if own then s.freeLong else s.rn rn)
        .ok (advance n s2)
      else
        let (v, s2) ← readFc s1 s.sfc loc.addr (bytesOf sz)
        .ok (advance n (setRnSized s2 sz rn v))

/-! ## Breakpoint and traps -/

/-- BKPT (R420, R130): the acknowledge cycle's word takes the instruction's place in the pipe, and the next step
executes it (log 27); a bus error makes it an illegal instruction. -/
def execBkpt (v : BitVec 3) (s : State) : Res :=
  match busRead s 7#3 (v.setWidth 32 <<< 2) 2 with
  | .ok (w, t) =>
    .next { t with pipe := { t.pipe with d := { valid := true, addr := s.pc, word := w.setWidth 16, fault := false } }
                   resume := some .decode }
  | .error (.fault _ _ t) => illegalInstruction t
  | .error (.never t) => .next (hang t)

/-- CHK (R422): Z, V, C are free values, N too without a trap (U8). -/
def chk (sz : Size) (d : Reg) (ea : Ea) (s : State) : Res :=
  withOperand s sz 0 ea fun b s1 =>
    let v := (sext sz (s1.d d)).toInt
    let low := decide (v < 0)
    let trap := low || decide ((sext sz b).toInt < v)
    let i := s1.freeIdx
    let s2 := (s1.setCcr { x := s.ccr.x, n := if trap then low else Config.freeBit i, z := Config.freeBit (i + 1),
                           v := Config.freeBit (i + 2), c := Config.freeBit (i + 3) }).tickBy 4
    if trap then trapSix s2 6#8 (1 + eaLen sz ea) else .next (advance (1 + eaLen sz ea) s2)

/-- CHK.W (R422). -/
def execChkW (d : Reg) (ea : Ea) (s : State) : Res := chk .w d ea s

/-- CHK.L (R422). -/
def execChkL (d : Reg) (ea : Ea) (s : State) : Res := chk .l d ea s

/-- CHK2 (R423). -/
def execChk2 (sz : Size) (rn : Rn) (ea : Ea) (s : State) : Res :=
  match readBounds s sz ea with
  | .error r => r
  | .ok (b, s1) =>
    let f := boundsFlags s1 sz rn b.1 b.2
    let s2 := (s1.setCcr f).tickBy 2
    if f.c then trapSix s2 6#8 (2 + eaLen sz ea) else .next (advance (2 + eaLen sz ea) s2)

/-- ILLEGAL (R424). -/
def execIllegal (s : State) : Res := illegalInstruction s

/-- TRAP (R425). -/
def execTrap (v : BitVec 4) (s : State) : Res := trapTo s (32#8 + v.setWidth 8) .four (pcAfter s 1)

/-- TRAPcc for an instruction of `n` words (R426). -/
def trapIf (b : Bool) (n : Nat) (s : State) : Res := if b then trapSix s 7#8 n else .next (advance n s)

/-- TRAPcc without operand (R426). -/
def execTrapcc (cc : Cond) (s : State) : Res := trapIf (cond cc s.ccr) 1 s

/-- TRAPcc.W (R426): the operand word is not used. -/
def execTrapccW (cc : Cond) (_op : Word) (s : State) : Res := trapIf (cond cc s.ccr) 2 s

/-- TRAPcc.L (R426). -/
def execTrapccL (cc : Cond) (_op : Long) (s : State) : Res := trapIf (cond cc s.ccr) 3 s

/-- TRAPV (R427). -/
def execTrapv (s : State) : Res := trapIf s.ccr.v 1 s

/-- A-line (R428). -/
def execAline (_x : BitVec 12) (s : State) : Res := lineA s

/-- A pattern no row of the opcode table matches (R171, D16). -/
def execUnassigned (w : Word) (s : State) : Res := if field w 12 4 = 15#4 then lineF s else illegalInstruction s

/-- An F-line word of type 110 or 111 (R460, R486). -/
def execFlineBadType (_id : BitVec 3) (_x : BitVec 7) (s : State) : Res := lineF s

end Sys2Proof.Machine
end

