-- ==== Sys2Proof/Machine/Coprocessor.lean ====
section
/-! DEFINITION. Coprocessor instructions (47_coprocessor_instructions.md) and response primitives
(48_coprocessor_primitives.md). `w` is always the F-line operation word: CpID in bits 11-9, effective address in bits
5-0. -/

namespace Sys2Proof.Machine

/-! ## The interface registers (R461, R466) -/

/-- CpID of an operation word (R460). -/
def cpId (w : Word) : BitVec 3 := field w 9 3

/-- Effective address mode field of an operation word. -/
def cpMode (w : Word) : BitVec 3 := field w 3 3

/-- Effective address register field of an operation word. -/
def cpReg (w : Word) : BitVec 3 := field w 0 3

/-- CPU space address of a coprocessor interface register (R461). -/
def cirAddr (w : Word) (offset : Long) : Long := 0x00020000#32 ||| ((cpId w).setWidth 32 <<< 13) ||| offset

/-- CirRead (R461). -/
def cirRead (s : State) (w : Word) (offset : Long) (n : Nat) : Run (Long × State) :=
  readFc s 7#3 (cirAddr w offset) n

/-- CirWrite (R461). -/
def cirWrite (s : State) (w : Word) (offset : Long) (n : Nat) (v : Long) : Run State :=
  writeFc s 7#3 (cirAddr w offset) n v

/-- The write that initiates an instruction: a bus error means that there is no coprocessor (R486). -/
def cirFirstWrite (s : State) (w : Word) (offset : Long) (v : Long) : Run State :=
  match s.replay, busWrite (land s) 7#3 (cirAddr w offset) 2 v with
  | [], .error (.fault _ _ t) => .error (lineF t)
  | _, _ => cirWrite s w offset 2 v

/-- A read of the save CIR that initiates cpSAVE (R468, R486). -/
def cirFirstRead (s : State) (w : Word) (offset : Long) : Run (Long × State) :=
  match s.replay, busRead (land s) 7#3 (cirAddr w offset) 2 with
  | [], .error (.fault _ _ t) => .error (lineF t)
  | _, _ => cirRead s w offset 2

/-- Writes the abort mask (R471, D22). -/
def cpAbort (s : State) (w : Word) : Run State := cirWrite s w 2#32 2 1#32

/-- Aborts, then ends with an outcome. -/
def abortTo (s : State) (w : Word) (r : State → Res) : Run State := do
  let s ← cpAbort s w
  .error (r s)

/-! ## Interrupts and midinstruction frames -/

/-- The answers all coprocessors still have, and those inputs will bring: a bound for every dialogue. -/
def answersLeft (p : Platform) : Nat :=
  (p.coprocessors.map fun c => c.answers.length).sum +
    (p.inputs.map fun b => (b.map fun i => match i with | .answers _ vs => vs.length | _ => 0).sum).sum

/-- A bound for the number of response reads of a dialogue. -/
def dialogueFuel (s : State) : Nat := s.replay.length + answersLeft s.platform + 1

/-- The internal word of a midinstruction frame: the trace state and whether an address has been evaluated (D12,
log 33). -/
def midWord (s : State) : Word :=
  0#13 ++ BitVec.ofBool s.eaValid ++ BitVec.ofBool s.trace.flow ++ BitVec.ofBool s.trace.pending

/-- The midinstruction frame (R545, R648); its address field is a free value if no address has been evaluated (U14). -/
def midBody (s : State) (w : Word) : FrameBody :=
  .mid s.pc (midWord s) w (if s.eaValid then s.eaTmp else s.freeLong)

/-- An exception with the midinstruction frame (R545): the trace state goes into the frame (log 33). -/
def takeMid (s : State) (w : Word) (vector : Byte) : Res :=
  .next (takeEntry (clearTrace s.tick) { vector := vector, body := midBody s w, pc := s.scanPc, level := none })

/-- Protocol violation, vector 13 (R550). -/
def protocolViolation (s : State) (w : Word) : Res := takeMid s w 13#8

/-- Whether the next batch of inputs holds a reset. -/
def nextBatchResets (s : State) : Bool := resets (s.platform.inputs.headD [])

/-- An interruptible point (R555, D11): inputs arrive, the request level is sampled, and a pending interrupt is taken
with the given frame. A resumed instruction does not stop again at a point it has passed (log 11). -/
def interruptPoint (s : State) (body : State → FrameBody) (pc : Long) : Run State :=
  match s.replay with
  | r :: rest => .ok (tookOver s r rest)
  | [] =>
    let t := pollInputs (land s)
    if nextBatchResets (land s) then .error (.next t)
    else if t.irq.pending then .error (.next (takeInterrupt (clearTrace t.tick) (body t) pc))
    else .ok { t with done := t.done ++ [.point] }

/-- An interruptible point of the dialogue (R555): frame $9. -/
def dialoguePoint (s : State) (w : Word) : Run State := interruptPoint s (fun t => midBody t w) s.scanPc

/-! ## Moving operands (R477) -/

/-- An operand's length as accesses: long words, then the rest (R477). -/
def chunks (n : Nat) : List Nat := List.replicate (n / 4) 4 ++ (if n % 4 = 0 then [] else [n % 4])

/-- Memory to the operand CIR, ascending (R536, R538). DESIGN CHOICE (log 29): each part is read and then written to the CIR
before the next one is read. -/
def memToCp (w : Word) (prog : Bool) : List Nat → State → Long → Run State
  | [], s, _ => .ok s
  | n :: ns, s, a => do
    let (v, s) ← readFc s (spaceFc s prog) a n
    let s ← cirWrite s w 0x10#32 n v
    memToCp w prog ns s (a + BitVec.ofNat 32 n)

/-- The operand CIR to memory, ascending (R536 to R538). DESIGN CHOICE (log 29): each part is read from the CIR and then
written before the next one is read. -/
def cpToMem (w : Word) : List Nat → State → Long → Run State
  | [], s, _ => .ok s
  | n :: ns, s, a => do
    let (v, s) ← cirRead s w 0x10#32 n
    let s ← memWrite s a n v
    cpToMem w ns s (a + BitVec.ofNat 32 n)

/-- An operand between memory and the operand CIR; `dr`: from the coprocessor (R520). -/
def moveOperand (w : Word) (dr prog : Bool) (n : Nat) (s : State) (a : Long) : Run State :=
  if dr then cpToMem w (chunks n) s a else memToCp w prog (chunks n) s a

/-- `n` operands of `len` bytes at ascending addresses (R543). -/
def moveUp (w : Word) (dr prog : Bool) (len : Nat) : Nat → State → Long → Run State
  | 0, s, _ => .ok s
  | n + 1, s, a => do
    let s ← moveOperand w dr prog len s a
    moveUp w dr prog len n s (a + BitVec.ofNat 32 len)

/-- `n` operands of `len` bytes from the coprocessor at descending addresses (R543). -/
def moveDown (w : Word) (len : Nat) : Nat → State → Reg → Run State
  | 0, s, _ => .ok s
  | n + 1, s, r => do
    let s := s.setA r (s.a r - BitVec.ofNat 32 len)
    let s ← moveOperand w true false len s (s.a r)
    moveDown w len n s r

/-- Words of the instruction stream to the operand CIR: long words, then a word (R534). DESIGN CHOICE (log 29): each part
is fetched and then written before the next one is fetched. -/
def streamToCp (w : Word) : List Nat → State → Run State
  | [], s => .ok s
  | n :: ns, s => do
    let (v, s) ← if n = 4 then streamLong s s.scanPc else do
      let (x, s) ← streamWord s s.scanPc
      .ok (x.setWidth 32, s)
    let s ← cirWrite s w 0x10#32 n v
    streamToCp w ns { s with scanPc := s.scanPc + BitVec.ofNat 32 n }

/-! ## Effective addresses at the scanPC (R482) -/

/-- The effective address of the operation word with its extension words taken at the scanPC; none if they are invalid.
The number bounds the words left. -/
def streamEa (c : EaClass) (sz : Size) (w : Word) : Nat → State → List Word → Run (Option Ea × State)
  | 0, s, _ => .ok (none, s)
  | n + 1, s, ws =>
    let next := s.scanPc + BitVec.ofNat 32 (2 * ws.length)
    match getEa c sz (cpMode w) (cpReg w) ws with
    | .ok (ea, _) => .ok (some ea, { s with scanPc := next })
    | .error .bad => .ok (none, s)
    | .error .more => do
      let (x, s) ← streamWord s next
      streamEa c sz w n s (ws ++ [x])

/-- The longest effective address has five extension words (R167). -/
def eaFuel : Nat := 6

/-- The address of a control mode, evaluated at the scanPC (R535); invalid extension words abort the instruction. -/
def scanAddr (s : State) (w : Word) : Run (Loc × State) := do
  let pcx := s.scanPc
  let (ea, s) ← streamEa .control .l w eaFuel s []
  match ea with
  | some ea => evalEa s .l pcx ea
  | none => do
    let s ← cpAbort s w
    .error (lineF s)

/-- The temporary register holds an evaluated address (R52, R537). -/
def setEaTmp (s : State) (a : Long) : State := { s with eaTmp := a, eaValid := true }

/-- Valid EA field of R536 (Table 7-4). -/
def validEa (v : BitVec 3) (m : EaMode) : Bool :=
  match v.toNat with
  | 0 => m.isControl && m.isAlterable
  | 1 => m.isData && m.isAlterable
  | 2 => m.isMemory && m.isAlterable
  | 3 => m.isAlterable
  | 4 => m.isControl
  | 5 => m.isData
  | 6 => m.isMemory
  | _ => true

/-- The size of a register operand of 1, 2 or 4 bytes. -/
def sizeOfLen (n : Nat) : Size := if n = 1 then .b else if n = 2 then .w else .l

/-- The change of An for an operand of `n` bytes: 2 for a byte through A7 (R536). -/
def cpStep (n : Nat) (r : Reg) : Long := if n = 1 && r == 7#3 then 2#32 else BitVec.ofNat 32 n

/-! ## Primitives -/

/-- Evaluate and transfer effective address (R535). -/
def primEvalEa (w : Word) (s : State) : Run State :=
  match eaMode (cpMode w) (cpReg w) with
  | some m =>
    if m.isControl && m.isAlterable then do
      let (loc, s) ← scanAddr s w
      cirWrite (setEaTmp s loc.addr) w 0x1C#32 4 loc.addr
    else abortTo s w lineF
  | none => abortTo s w lineF

/-- A register operand (R536); the previously evaluated address is then undefined (R537). -/
def primRegister (w : Word) (rn : Rn) (dr : Bool) (n : Nat) (s : State) : Run State :=
  let s := { s with eaValid := false }
  if dr then do
    let (v, s) ← cirRead s w 0x10#32 n
    .ok (setRnSized s (sizeOfLen n) rn v)
  else cirWrite s w 0x10#32 n (lowBits (8 * n) (s.rn rn))

/-- An immediate operand, in the instruction stream at the scanPC (R536). -/
def primImmediate (w : Word) (n : Nat) (s : State) : Run State :=
  if n = 1 then do
    let (x, s) ← streamWord s s.scanPc
    let s ← cirWrite s w 0x10#32 1 (lowBits 8 (x.setWidth 32))
    .ok { s with scanPc := s.scanPc + 2#32 }
  else streamToCp w (chunks n) s

/-- Evaluate effective address and transfer data (R536). -/
def primEaData (w : Word) (valid : BitVec 3) (dr : Bool) (n : Nat) (s : State) : Run State :=
  let r := cpReg w
  match eaMode (cpMode w) r with
  | none => abortTo s w lineF
  | some m =>
    if !validEa valid m then abortTo s w lineF
    else if dr && !m.isAlterable then .error (protocolViolation s w)
    else
      match m with
      | .dn | .an =>
        if n = 1 || n = 2 || n = 4 then primRegister w (BitVec.ofBool (m == .an) ++ r) dr n s
        else .error (protocolViolation s w)
      | .imm => if n % 2 = 1 && n != 1 then .error (protocolViolation s w) else primImmediate w n s
      | .preDec =>
        let s := s.setA r (s.a r - cpStep n r)
        moveOperand w dr false n (setEaTmp s (s.a r)) (s.a r)
      | .postInc => do
        let s ← moveOperand w dr false n (setEaTmp s (s.a r)) (s.a r)
        .ok (s.setA r (s.a r + cpStep n r))
      | _ => do
        let (loc, s) ← scanAddr s w
        moveOperand w dr loc.prog n (setEaTmp s loc.addr) loc.addr

/-- Write to previously evaluated effective address (R537): a free address if there is none (U12). -/
def primWriteEa (w : Word) (n : Nat) (s : State) : Run State :=
  if s.eaValid then cpToMem w (chunks n) s s.eaTmp else cpToMem w (chunks n) s.tick s.freeLong

/-- Take address and transfer data (R538). -/
def primTakeAddr (w : Word) (dr : Bool) (n : Nat) (s : State) : Run State := do
  let (a, s) ← cirRead s w 0x1C#32 4
  moveOperand w dr false n s a

/-- Transfer to/from top of stack (R539), as -(A7) and (A7)+: a push moves A7 before the transfer, a pop after it (R153,
R154). -/
def primStack (w : Word) (dr : Bool) (n : Nat) (s : State) : Run State :=
  if n = 1 || n = 2 || n = 4 then
    if dr then do
      let (v, s) ← cirRead (s.setSp (s.sp - cpStep n 7#3)) w 0x10#32 n
      memWrite s s.sp n v
    else do
      let (v, s) ← memRead s s.sp n
      let s ← cirWrite s w 0x10#32 n v
      .ok (s.setSp (s.sp + cpStep n 7#3))
  else .error (protocolViolation s w)

/-- Transfer single main processor register (R540). -/
def primOneReg (w : Word) (dr : Bool) (rn : Rn) (s : State) : Run State :=
  if dr then do
    let (v, s) ← cirRead s w 0x10#32 4
    .ok (s.setRn rn v)
  else cirWrite s w 0x10#32 4 (s.rn rn)

/-- Transfer main processor control register (R541). -/
def primCtlReg (w : Word) (dr : Bool) (s : State) : Run State := do
  let (c, s) ← cirRead s w 0x14#32 2
  let code : BitVec 12 := c.setWidth 12
  match readCtl s code with
  | none => .error (protocolViolation s w)
  | some old =>
    if dr then do
      let (v, s) ← cirRead s w 0x10#32 4
      .ok ((writeCtl s code v).getD s)
    else cirWrite s w 0x10#32 4 old

/-- The registers of a select mask in the order D7-D0, A7-A0 (R542). -/
def selectRegs (mask : Word) : List Rn :=
  (([7, 6, 5, 4, 3, 2, 1, 0, 15, 14, 13, 12, 11, 10, 9, 8] : List Nat).filter fun k => mask.getLsbD k).map
    fun k => BitVec.ofNat 4 k

/-- Transfers registers one by one (R542). -/
def moveRegs (w : Word) (dr : Bool) : List Rn → State → Run State
  | [], s => .ok s
  | r :: rs, s => do
    let s ← primOneReg w dr r s
    moveRegs w dr rs s

/-- Transfer multiple main processor registers (R542). -/
def primRegs (w : Word) (dr : Bool) (s : State) : Run State := do
  let (m, s) ← cirRead s w 0x14#32 2
  moveRegs w dr (selectRegs (m.setWidth 16)) s

/-- Number of ones of a select mask (R543). -/
def onesIn (m : Word) : Nat := ((List.range 16).filter fun k => m.getLsbD k).length

/-- Transfer multiple coprocessor registers (R543). -/
def primCpRegs (w : Word) (dr : Bool) (len : Nat) (s : State) : Run State :=
  let r := cpReg w
  if len % 2 = 1 then .error (protocolViolation s w)
  else
    match eaMode (cpMode w) r with
    | none => abortTo s w lineF
    | some m =>
      if m == .postInc && !dr then do
        let (k, s) ← cirRead (setEaTmp s (s.a r)) w 0x14#32 2
        let n := onesIn (k.setWidth 16)
        let s ← moveUp w dr false len n s (s.a r)
        let s := s.setA r (s.a r + BitVec.ofNat 32 (n * len))
        .ok (setEaTmp s (s.a r))
      else if m == .preDec && dr then do
        let (k, s) ← cirRead (setEaTmp s (s.a r)) w 0x14#32 2
        let s ← moveDown w len (onesIn (k.setWidth 16)) s r
        .ok (setEaTmp s (s.a r))
      else if m.isControl && (m.isAlterable || !dr) then do
        let (loc, s) ← scanAddr s w
        let (k, s) ← cirRead (setEaTmp s loc.addr) w 0x14#32 2
        moveUp w dr loc.prog len (onesIn (k.setWidth 16)) s loc.addr
      else abortTo s w lineF

/-- Transfer status register and scanPC (R566): a scanPC that is odd is an address error at the refill (R556). -/
def primStatus (w : Word) (dr sp : Bool) (s : State) : Run State :=
  if dr then do
    let (v, s) ← cirRead s w 0x10#32 2
    let s := writeSr s (v.setWidth 16)
    if sp then do
      let (a, s) ← cirRead s w 0x18#32 4
      let s := { s with scanPc := a }
      if a.getLsbD 0 then do
        let (_, s) ← streamWord s a
        .ok s
      else .ok s
    else .ok s
  else do
    let s ← if sp then cirWrite s w 0x18#32 4 s.scanPc else .ok s
    cirWrite s w 0x10#32 2 (s.sr.toWord.setWidth 32)

/-! ## The dialogue (R522) -/

/-- A response primitive's fields (R520). -/
structure Primitive where
  ca : Bool
  pc : Bool
  code : Nat
  param : Byte
  deriving DecidableEq, Repr

/-- A response primitive from its word (R520). -/
def primitiveOf (p : Word) : Primitive :=
  { ca := p.getLsbD 15, pc := p.getLsbD 14, code := (p.extractLsb' 8 6).toNat, param := p.extractLsb' 0 8 }

/-- What serving a primitive leads to. -/
inductive Served where
  | again (s : State)
  | release (tf : Bool) (s : State)

/-- Null (R531). -/
def primNull (general : Bool) (w : Word) (p : Primitive) (ia : Bool) (s : State) : Run Served :=
  let pf := p.param.getLsbD 1
  if p.ca || (general && !pf && s.trace.pending) then do
    let s ← if ia then dialoguePoint s w else .ok s
    .ok (.again s)
  else .ok (.release (p.param.getLsbD 0) s)

/-- The services that conditional instructions allow too (R521). -/
def serviceBoth (w : Word) (p : Primitive) (s : State) : Option (Run State) :=
  let n := p.param.toNat
  match p.code with
  | 0x05 => some (primTakeAddr w false n s)
  | 0x25 => some (primTakeAddr w true n s)
  | 0x06 => some (primRegs w false s)
  | 0x26 => some (primRegs w true s)
  | 0x07 => some (cirWrite s w 8#32 2 (w.setWidth 32))
  | 0x0C => some (primOneReg w false (p.param.extractLsb' 0 4) s)
  | 0x2C => some (primOneReg w true (p.param.extractLsb' 0 4) s)
  | 0x0D => some (primCtlReg w false s)
  | 0x2D => some (primCtlReg w true s)
  | 0x0E => some (primStack w false n s)
  | 0x2E => some (primStack w true n s)
  | 0x0F => some (if n % 2 = 1 then .error (protocolViolation s w) else streamToCp w (chunks n) s)
  | _ => none

/-- The services of general instructions only (R521). -/
def serviceGeneral (w : Word) (p : Primitive) (s : State) : Option (Run State) :=
  let n := p.param.toNat
  match p.code with
  | 0x01 => some (primCpRegs w false n s)
  | 0x21 => some (primCpRegs w true n s)
  | 0x02 => some (primStatus w false false s)
  | 0x03 => some (primStatus w false true s)
  | 0x22 => some (primStatus w true false s)
  | 0x23 => some (primStatus w true true s)
  | 0x0A => some (primEvalEa w s)
  | 0x20 => some (primWriteEa w n s)
  | c =>
    if 0x10 ≤ c ∧ c ≤ 0x17 then some (primEaData w (BitVec.ofNat 3 c) false n s)
    else if 0x30 ≤ c ∧ c ≤ 0x37 then some (primEaData w (BitVec.ofNat 3 c) true n s)
    else none

/-- After a service: come again, or (general instructions) release, but not while a trace is pending (R522). -/
def afterService (ca : Bool) (s : State) : Served := if ca || s.trace.pending then .again s else .release false s

/-- Supervisor check (R532). -/
def primSupervisor (general : Bool) (w : Word) (ca : Bool) (s : State) : Run Served :=
  if !general && !ca then .error (protocolViolation s w)
  else if s.sr.s then .ok (.again s)
  else do
    let s ← abortTo s w privilegeViolation
    .ok (.again s)

/-- Acknowledges a take exception primitive, then takes the exception (R544-R546). -/
def primTake (w : Word) (s : State) (r : State → Res) : Run Served := do
  let s ← cirWrite s w 2#32 2 2#32
  .error (r s)

/-- The exception of a take postinstruction exception primitive: frame $2 (R546). -/
def takePost (vector : Byte) (s : State) : Res :=
  .next (takeEntry s { vector := vector, body := .six s.pc, pc := s.scanPc, level := none })

/-- Serves one primitive (R521, R522). Busy leaves the PC at the instruction, which the next step starts again (R530).
DESIGN CHOICE (log 27): where the instruction's word came from a breakpoint acknowledge cycle and no interrupt is pending,
a word that has left stage D is not there again, so that BKPT is executed and its cycle runs again; a cpBcc, whose only
word is still in stage D, starts again without it. -/
def servePrimitive (general : Bool) (w : Word) (p : Primitive) (s : State) : Run Served :=
  match p.code with
  | 0x24 => .error (.next (clearTrace s))
  | 0x08 => primNull general w p false s
  | 0x09 => primNull general w p true s
  | 0x04 => primSupervisor general w p.ca s
  | 0x1C => primTake w s fun s => abandonTo s p.param
  | 0x1D => primTake w s fun s => takeMid s w p.param
  | 0x1E => primTake w s (takePost p.param)
  | _ =>
    match serviceBoth w p s with
    | some r =>
      if !general && !p.ca then .error (protocolViolation s w) else do
        let s ← r
        .ok (afterService p.ca s)
    | none =>
      match serviceGeneral w p s with
      | some r =>
        if !general then .error (protocolViolation s w) else do
          let s ← r
          .ok (afterService p.ca s)
      | none => .error (protocolViolation s w)

/-- The service loop (R522): ends with the condition and the state. The number bounds the response reads left. -/
def serveLoop (general : Bool) (w : Word) : Nat → State → Run (Bool × State)
  | 0, s => .error (.next (hang s))
  | n + 1, s => do
    let (v, s) ← cirRead s w 0#32 2
    let p := primitiveOf (v.setWidth 16)
    let s ← if p.pc then cirWrite s w 0x18#32 4 s.pc else .ok s
    match ← servePrimitive general w p s with
    | .again s => serveLoop general w n s
    | .release tf s => .ok (tf, s)

/-! ## The instructions -/

/-- The kinds of instruction that hold a dialogue (R460). -/
inductive CpKind where
  | gen
  | bcc (long : Bool)
  | dbcc
  | trapcc (words : Nat)
  | scc
  deriving DecidableEq, Repr

/-- The kind an operation word of type 000 to 011 names (R460, R558). -/
def cpKind (w : Word) : CpKind :=
  match (field w 6 3).toNat with
  | 1 =>
    match (cpMode w).toNat, (cpReg w).toNat with
    | 1, _ => .dbcc
    | 7, 2 => .trapcc 1
    | 7, 3 => .trapcc 2
    | 7, 4 => .trapcc 0
    | _, _ => .scc
  | 2 => .bcc false
  | 3 => .bcc true
  | _ => .gen

/-- The address after `n` bytes from the scanPC becomes the PC (R482). -/
def endAtScan (s : State) (n : Nat) : State := { s with pc := s.scanPc + BitVec.ofNat 32 n }

/-- cpBcc after the dialogue (R463). -/
def endBcc (long tf : Bool) (s : State) : Run State :=
  if tf then do
    let (disp, s) ← if long then streamLong s s.scanPc else do
      let (d, s) ← streamWord s s.scanPc
      .ok (sextWord d, s)
    .ok (jumpTo s (s.scanPc + disp))
  else .ok (endAtScan s (if long then 4 else 2))

/-- cpDBcc after the dialogue (R465). -/
def endDbcc (w : Word) (tf : Bool) (s : State) : Run State :=
  if tf then .ok (endAtScan s 2)
  else
    let count := loWord (s.d (cpReg w)) - 1#16
    let s := s.setDSized .w (cpReg w) (count.setWidth 32)
    if count = 0xFFFF#16 then .ok (endAtScan s 2)
    else do
      let (d, s) ← streamWord s s.scanPc
      .ok (jumpTo s (s.scanPc + sextWord d))

/-- cpScc after the dialogue (R464); an invalid effective address aborts it (R471). -/
def endScc (w : Word) (tf : Bool) (s : State) : Run State := do
  let pcx := s.scanPc
  let (ea, s) ← streamEa .dataAlt .b w eaFuel s []
  match ea with
  | none => abortTo s w lineF
  | some ea => do
    let (loc, s) ← evalEa s .b pcx ea
    let s ← writeLoc s .b (truthByte tf) loc
    .ok (endAtScan s 0)

/-- cpTRAPcc after the dialogue (R467). -/
def endTrapcc (words : Nat) (tf : Bool) (s : State) : Run State :=
  let next := s.scanPc + BitVec.ofNat 32 (2 * words)
  if tf then .error (trapTo s 7#8 (.six s.pc) next) else .ok (endAtScan s (2 * words))

/-- What is left of an instruction once the dialogue has ended (R462-R467). -/
def cpComplete (w : Word) (tf : Bool) (s : State) : Run State :=
  match cpKind w with
  | .gen => .ok (endAtScan s 0)
  | .bcc long => endBcc long tf s
  | .dbcc => endDbcc w tf s
  | .trapcc n => endTrapcc n tf s
  | .scc => endScc w tf s

/-- The dialogue from its first response read, and the end of the instruction (R522, R558). -/
def cpDialogue (w : Word) (s : State) : Res :=
  toRes do
    let (tf, s) ← serveLoop (cpKind w == .gen) w (dialogueFuel s) s
    cpComplete w tf s

/-- A general or conditional instruction (R462, R483): writes `v` to the command or condition CIR, starts the scanPC
`bytes` after the operation word, and holds the dialogue. -/
def cpStart (w : Word) (offset : Long) (v : Word) (bytes : Nat) (s : State) : Res :=
  match cirFirstWrite s w offset (v.setWidth 32) with
  | .error r => r
  | .ok s => cpDialogue w { s with scanPc := s.pc + BitVec.ofNat 32 bytes }

/-- cpGEN (R462). -/
def execCpGen (id mode reg : BitVec 3) (cmd : Word) (s : State) : Res :=
  cpStart (opword (.cpGen id mode reg cmd)) 0x0A#32 cmd 4 s

/-- cpDBcc (R465). -/
def execCpDbcc (id : BitVec 3) (d : Reg) (cond : Word) (s : State) : Res :=
  cpStart (opword (.cpDbcc id d cond)) 0x0E#32 cond 4 s

/-- cpTRAPcc with one operand word (R467). -/
def execCpTrapccW (id : BitVec 3) (cond : Word) (s : State) : Res :=
  cpStart (opword (.cpTrapccW id cond)) 0x0E#32 cond 4 s

/-- cpTRAPcc with two operand words (R467). -/
def execCpTrapccL (id : BitVec 3) (cond : Word) (s : State) : Res :=
  cpStart (opword (.cpTrapccL id cond)) 0x0E#32 cond 4 s

/-- cpTRAPcc without operand (R467). -/
def execCpTrapcc (id : BitVec 3) (cond : Word) (s : State) : Res :=
  cpStart (opword (.cpTrapcc id cond)) 0x0E#32 cond 4 s

/-- cpScc (R464). -/
def execCpScc (id mode reg : BitVec 3) (cond : Word) (s : State) : Res :=
  cpStart (opword (.cpScc id mode reg cond)) 0x0E#32 cond 4 s

/-- cpBcc.W (R463): the operation word itself goes to the condition CIR. -/
def execCpBccW (id : BitVec 3) (sel : BitVec 6) (s : State) : Res :=
  cpStart (opword (.cpBccW id sel)) 0x0E#32 (opword (.cpBccW id sel)) 2 s

/-- cpBcc.L (R463). -/
def execCpBccL (id : BitVec 3) (sel : BitVec 6) (s : State) : Res :=
  cpStart (opword (.cpBccL id sel)) 0x0E#32 (opword (.cpBccL id sel)) 2 s

/-! ## cpSAVE and cpRESTORE (R468, R469, R481) -/

/-- Format code of a format word. -/
def formatCode (f : Long) : Nat := (f.extractLsb' 8 8).toNat

/-- Length of a format word. -/
def formatLen (f : Long) : Nat := (f.extractLsb' 0 8).toNat

/-- A code $02 to $0F is an invalid format (R481, U15). -/
def codeBad (f : Long) : Bool := decide (2 ≤ formatCode f ∧ formatCode f < 16)

/-- A valid format with a length that is no multiple of four (R481). -/
def lenBad (f : Long) : Bool := decide (16 ≤ formatCode f ∧ formatLen f % 4 ≠ 0)

/-- The bytes of state after the format word long: none for empty/reset (R468). -/
def stateLen (f : Long) : Nat := if formatCode f = 0 then 0 else formatLen f

/-- Reads the save CIR until the coprocessor is ready; interrupts are taken in between with frame $0 (R468). DEDUCED
(log 22): a bus error on every one of these reads is the F-line exception, as step M2 of the rule has it. -/
def saveFormat (w : Word) : Nat → State → Run (Long × State)
  | 0, s => .error (.next (hang s))
  | n + 1, s => do
    let (f, s) ← cirFirstRead s w 4#32
    if formatCode f = 1 then do
      let s ← interruptPoint s (fun _ => .four) s.pc
      saveFormat w n s
    else .ok (f, s)

/-- The state frame's long words, from the highest address down to `a` + 4 (R468). -/
def saveWords (w : Word) : Nat → State → Long → Run State
  | 0, s, _ => .ok s
  | k + 1, s, a => do
    let (v, s) ← cirRead s w 0x10#32 4
    let s ← memWrite s (a + BitVec.ofNat 32 (4 * (k + 1))) 4 v
    saveWords w k s a

/-- Where cpSAVE stores, after the register update of -(An) (R468, D23). -/
def saveAddr (s : State) (pcx : Long) (ea : Ea) (len : Nat) : Run (Long × State) :=
  match ea with
  | .preDec n =>
    let s := s.setA n (s.a n - BitVec.ofNat 32 (4 + len))
    .ok (s.a n, s)
  | _ => do
    let (loc, s) ← evalEa s .l pcx ea
    .ok (loc.addr, s)

/-- cpSAVE of an operation word whose effective address starts at `pcx`; `next` is the address after the instruction
(R468). -/
def cpSaveAt (w : Word) (ea : Ea) (pcx next : Long) (s : State) : Res :=
  toRes do
    let (f, s) ← saveFormat w (dialogueFuel s) s
    if codeBad f || lenBad f then abortTo s w formatError
    else
      let (a, s) ← saveAddr s pcx ea (stateLen f)
      let s ← memWrite s a 2 f
      let s ← saveWords w (stateLen f / 4) s a
      .ok { s with pc := next }

/-- cpSAVE (R468). -/
def execCpSave (id : BitVec 3) (ea : Ea) (s : State) : Res :=
  requireSupervisor s fun s =>
    cpSaveAt (opword (.cpSave id ea)) ea (extAt s 0) (pcAfter s (1 + eaLen .l ea)) s

/-- Reads the restore CIR until the coprocessor answers something other than "come again" (R469). -/
def restoreFormat (w : Word) : Nat → State → Run (Long × State)
  | 0, s => .error (.next (hang s))
  | n + 1, s => do
    let (g, s) ← cirRead s w 6#32 2
    if formatCode g = 1 then restoreFormat w n s else .ok (g, s)

/-- The state frame's long words from `a` upward to the operand CIR (R469). -/
def restoreWords (w : Word) (prog : Bool) : Nat → State → Long → Run State
  | 0, s, _ => .ok s
  | k + 1, s, a => do
    let (v, s) ← readFc s (spaceFc s prog) a 4
    let s ← cirWrite s w 0x10#32 4 v
    restoreWords w prog k s (a + 4#32)

/-- Where cpRESTORE reads; (An)+ is updated at the end (R469). -/
def restoreLoc (s : State) (pcx : Long) (ea : Ea) : Run (Loc × State) :=
  match ea with
  | .postInc n => .ok (.mem false (s.a n), s)
  | _ => evalEa s .l pcx ea

/-- The (An)+ update of cpRESTORE (R469, D23). -/
def restoreStep (s : State) (ea : Ea) (a : Long) (len : Nat) : State :=
  match ea with
  | .postInc n => s.setA n (a + BitVec.ofNat 32 (4 + len))
  | _ => s

/-- cpRESTORE of an operation word (R469). -/
def cpRestoreAt (w : Word) (ea : Ea) (pcx next : Long) (s : State) : Res :=
  toRes do
    let (loc, s) ← restoreLoc s pcx ea
    let a := loc.addr
    let (f, s) ← readFc s (spaceFc s loc.prog) a 2
    let s ← cirFirstWrite s w 6#32 f
    let (g, s) ← restoreFormat w (dialogueFuel s) s
    if codeBad g || lenBad f then abortTo s w formatError
    else
      let len := if formatCode g = 0 then 0 else formatLen f
      let s ← restoreWords w loc.prog (len / 4) s (a + 4#32)
      .ok { restoreStep s ea a len with pc := next }

/-- cpRESTORE (R469). -/
def execCpRestore (id : BitVec 3) (ea : Ea) (s : State) : Res :=
  requireSupervisor s fun s =>
    cpRestoreAt (opword (.cpRestore id ea)) ea (extAt s 0) (pcAfter s (1 + eaLen .l ea)) s

/-! ## CpID 0 (R429, 90_conflicts.md C12; log 19) -/

/-- A general or conditional instruction whose second word is fetched now. -/
def cpStartFetched (w : Word) (offset : Long) (s : State) : Res :=
  match streamWord s (s.pc + 2#32) with
  | .error r => r
  | .ok (v, s) => cpStart w offset v 4 s

/-- Whether the effective address of an operation word has valid extension words, as far as they can be fetched. The
number bounds the words left. -/
def extensionOk (c : EaClass) (w : Word) : Nat → State → List Word → Run (Bool × State)
  | 0, s, _ => .ok (false, s)
  | n + 1, s, ws =>
    match getEa c .l (cpMode w) (cpReg w) ws with
    | .ok _ => .ok (true, s)
    | .error .bad => .ok (false, s)
    | .error .more =>
      match fetchWord s (s.pc + BitVec.ofNat 32 (2 * (1 + ws.length))) with
      | .ok (x, t) => extensionOk c w n t (ws ++ [x])
      | .error (.never, t) => .error (.next (hang t))
      | .error (_, t) => .ok (true, t)

/-- cpSAVE or cpRESTORE with its effective address decoded now. At user level its validity comes before the privilege
(R171, D16), and a word that cannot be fetched is not used (log 37). -/
def cpContextFetched (w : Word) (c : EaClass) (k : Ea → Long → Long → State → Res) (s : State) : Res :=
  if s.sr.s then
    match streamEa c .l w eaFuel { s with scanPc := s.pc + 2#32 } [] with
    | .error r => r
    | .ok (none, s) => lineF s
    | .ok (some ea, s) => k ea (s.pc + 2#32) s.scanPc s
  else
    match extensionOk c w eaFuel s [] with
    | .error r => r
    | .ok (ok, t) => if ok then privilegeViolation t else lineF t

/-- Whether a word of type 001 is a valid instruction (R460). -/
def conditionalOk (w : Word) : Bool :=
  cpKind w != .scc || eaFieldOk .dataAlt .b (cpMode w) (cpReg w)

/-- An F-line word with CpID 000 where the platform maps that coprocessor (C12, D17). -/
def cpMapped (w : Word) (s : State) : Res :=
  match (field w 6 3).toNat with
  | 0 => cpStartFetched w 0x0A#32 s
  | 1 => if conditionalOk w then cpStartFetched w 0x0E#32 s else lineF s
  | 2 => cpStart w 0x0E#32 w 2 s
  | 3 => cpStart w 0x0E#32 w 2 s
  | 4 => cpContextFetched w .controlAltOrPre (cpSaveAt w) s
  | 5 => cpContextFetched w .controlOrPost (cpRestoreAt w) s
  | _ => lineF s

/-- F-line with CpID 000 (R429): unimplemented for a supervisor program, a privilege violation for a user program, but
where the platform maps CpID 0. -/
def execFlineCpid0 (x : BitVec 9) (s : State) : Res :=
  if hasCoprocessor s.platform 0#3 then cpMapped (opword (.flineCpid0 x)) s
  else if s.sr.s then lineF s else privilegeViolation s

end Sys2Proof.Machine
end

