-- ==== Sys2Proof/Machine/Logic.lean ====
section
/-! DEFINITION. Logical instructions, shifts and rotates (42_logical_shift_rotate.md). -/

namespace Sys2Proof.Machine

/-- A logical result with its flags (R280). -/
def logicOut (f : Ccr) (sz : Size) (r : Long) : Long × Ccr := (r, logicFlags f sz r)

/-- AND (R281). -/
def execAnd (sz : Size) (toEa : Bool) (d : Reg) (ea : Ea) (s : State) : Res :=
  twoWay s sz toEa d ea fun x y => logicOut s.ccr sz (x &&& y)

/-- ANDI (R282). -/
def execAndi (sz : Size) (imm : Long) (ea : Ea) (s : State) : Res :=
  modifyEa s sz (immWords sz imm).length ea fun v => logicOut s.ccr sz (v &&& imm)

/-- OR (R283). -/
def execOr (sz : Size) (toEa : Bool) (d : Reg) (ea : Ea) (s : State) : Res :=
  twoWay s sz toEa d ea fun x y => logicOut s.ccr sz (x ||| y)

/-- ORI (R284). -/
def execOri (sz : Size) (imm : Long) (ea : Ea) (s : State) : Res :=
  modifyEa s sz (immWords sz imm).length ea fun v => logicOut s.ccr sz (v ||| imm)

/-- EOR (R285). -/
def execEor (sz : Size) (d : Reg) (ea : Ea) (s : State) : Res :=
  modifyEa s sz 0 ea fun v => logicOut s.ccr sz (v ^^^ trunc sz (s.d d))

/-- EORI (R286). -/
def execEori (sz : Size) (imm : Long) (ea : Ea) (s : State) : Res :=
  modifyEa s sz (immWords sz imm).length ea fun v => logicOut s.ccr sz (v ^^^ imm)

/-- NOT (R287). -/
def execNot (sz : Size) (ea : Ea) (s : State) : Res := modifyEa s sz 0 ea fun v => logicOut s.ccr sz (trunc sz (~~~v))

/-- SWAP (R297). -/
def execSwap (d : Reg) (s : State) : Res :=
  let r : Long := loWord (s.d d) ++ hiWord (s.d d)
  .next (advance 1 ((s.setD d r).setCcr (logicFlags s.ccr .l r)))

/-- The count of a register shift: 1 to 8, or a data register modulo 64 (R288). -/
def shiftCount (s : State) (byReg : Bool) (c : BitVec 3) : Nat :=
  if byReg then (s.d c).toNat % 64 else if c = 0#3 then 8 else c.toNat

/-- The register form of a shift or rotate (R288). -/
def shiftReg (k : ShiftKind) (sz : Size) (byReg : Bool) (c : BitVec 3) (d : Reg) (s : State) : Res :=
  let r := shiftBy k sz (shiftCount s byReg c) (trunc sz (s.d d)) s.ccr
  .next (advance 1 ((s.setDSized sz d r.1).setCcr r.2))

/-- The memory form: a word by one place (R298). -/
def shiftEa (k : ShiftKind) (ea : Ea) (s : State) : Res := modifyEa s .w 0 ea fun v => shiftBy k .w 1 v s.ccr

/-- ASR (R290). -/
def execAsr (sz : Size) (byReg : Bool) (c : BitVec 3) (d : Reg) (s : State) : Res := shiftReg .asr sz byReg c d s

/-- ASL (R289). -/
def execAsl (sz : Size) (byReg : Bool) (c : BitVec 3) (d : Reg) (s : State) : Res := shiftReg .asl sz byReg c d s

/-- LSR (R292). -/
def execLsr (sz : Size) (byReg : Bool) (c : BitVec 3) (d : Reg) (s : State) : Res := shiftReg .lsr sz byReg c d s

/-- LSL (R291). -/
def execLsl (sz : Size) (byReg : Bool) (c : BitVec 3) (d : Reg) (s : State) : Res := shiftReg .lsl sz byReg c d s

/-- ROXR (R296). -/
def execRoxr (sz : Size) (byReg : Bool) (c : BitVec 3) (d : Reg) (s : State) : Res := shiftReg .roxr sz byReg c d s

/-- ROXL (R295). -/
def execRoxl (sz : Size) (byReg : Bool) (c : BitVec 3) (d : Reg) (s : State) : Res := shiftReg .roxl sz byReg c d s

/-- ROR (R294). -/
def execRor (sz : Size) (byReg : Bool) (c : BitVec 3) (d : Reg) (s : State) : Res := shiftReg .ror sz byReg c d s

/-- ROL (R293). -/
def execRol (sz : Size) (byReg : Bool) (c : BitVec 3) (d : Reg) (s : State) : Res := shiftReg .rol sz byReg c d s

/-- ASR on memory (R290, R298). -/
def execAsrEa (ea : Ea) (s : State) : Res := shiftEa .asr ea s

/-- ASL on memory (R289, R298). -/
def execAslEa (ea : Ea) (s : State) : Res := shiftEa .asl ea s

/-- LSR on memory (R292, R298). -/
def execLsrEa (ea : Ea) (s : State) : Res := shiftEa .lsr ea s

/-- LSL on memory (R291, R298). -/
def execLslEa (ea : Ea) (s : State) : Res := shiftEa .lsl ea s

/-- ROXR on memory (R296, R298). -/
def execRoxrEa (ea : Ea) (s : State) : Res := shiftEa .roxr ea s

/-- ROXL on memory (R295, R298). -/
def execRoxlEa (ea : Ea) (s : State) : Res := shiftEa .roxl ea s

/-- ROR on memory (R294, R298). -/
def execRorEa (ea : Ea) (s : State) : Res := shiftEa .ror ea s

/-- ROL on memory (R293, R298). -/
def execRolEa (ea : Ea) (s : State) : Res := shiftEa .rol ea s

end Sys2Proof.Machine
end

