-- ==== Sys2Proof/Machine/Move.lean ====
section
/-! DEFINITION. Data movement (40_data_movement.md). -/

namespace Sys2Proof.Machine

/-- MOVE (R201): source read, then destination address, then write. -/
def moveSized (sz : Size) (src dst : Ea) (s : State) : Res :=
  toRes do
    let (v, s1) ← readEa s sz 0 src
    let (loc, s2) ← evalEa s1 sz (extAt s (eaLen sz src)) dst
    let s3 ← writeLoc s2 sz v loc
    .ok (advance (1 + eaLen sz src + eaLen sz dst) (s3.setCcr (logicFlags s.ccr sz v)))

/-- MOVE.B (R201). -/
def execMoveB (src dst : Ea) (s : State) : Res := moveSized .b src dst s

/-- MOVE.W (R201). -/
def execMoveW (src dst : Ea) (s : State) : Res := moveSized .w src dst s

/-- MOVE.L (R201). -/
def execMoveL (src dst : Ea) (s : State) : Res := moveSized .l src dst s

/-- MOVEA.W (R202): the word is sign-extended. -/
def execMoveaW (a : Reg) (src : Ea) (s : State) : Res := eaToAn s .w a src fun _ v => v

/-- MOVEA.L (R202). -/
def execMoveaL (a : Reg) (src : Ea) (s : State) : Res := eaToAn s .l a src fun _ v => v

/-- MOVEQ (R203). -/
def execMoveq (d : Reg) (imm : Byte) (s : State) : Res :=
  .next (advance 1 ((s.setD d (sextByte imm)).setCcr (logicFlags s.ccr .l (sextByte imm))))

/-- The registers of a MOVEM mask, bit 0 first: D0 to A7, or (`reversed`, for -(An)) A7 to D0 (R204). -/
def maskRegs (mask : Word) (reversed : Bool) : List Rn :=
  ((List.range 16).filter fun k => mask.getLsbD k).map fun k => BitVec.ofNat 4 (if reversed then 15 - k else k)

/-- Stores registers at ascending addresses (R204). -/
def storeRegs (sz : Size) (s : State) (a : Long) : List Rn → Run State
  | [] => .ok s
  | r :: rs => do
    let s ← memWrite s a (bytesOf sz) (s.rn r)
    storeRegs sz s (a + BitVec.ofNat 32 (bytesOf sz)) rs

/-- Stores registers at descending addresses; the address register of -(An) itself is stored as `own` (R204). Answers
the last address. -/
def storeRegsDown (sz : Size) (an : Rn) (own : Long) (s : State) (a : Long) : List Rn → Run (Long × State)
  | [] => .ok (a, s)
  | r :: rs => do
    let a := a - BitVec.ofNat 32 (bytesOf sz)
    let s ← memWrite s a (bytesOf sz) (if r = an then own else s.rn r)
    storeRegsDown sz an own s a rs

/-- The 4-bit number of an address register. -/
def anNum (n : Reg) : Rn := 1#1 ++ n

/-- MOVEM, registers to memory (R204). -/
def execMovemToMem (long : Bool) (mask : Word) (ea : Ea) (s : State) : Res :=
  let sz := longSize long
  toRes do
    match ea with
    | .preDec n =>
      let own := s.a n - BitVec.ofNat 32 (bytesOf sz)
      let (a, s1) ← storeRegsDown sz (anNum n) own s (s.a n) (maskRegs mask true)
      .ok (advance 2 (s1.setA n a))
    | _ =>
      let (a, s1) ← eaAddr s 1 ea
      let s2 ← storeRegs sz s1 a (maskRegs mask false)
      .ok (advance (2 + eaLen .l ea) s2)

/-- Loads registers from ascending addresses, sign-extending words (R205). Answers the address after the last. -/
def loadRegs (sz : Size) (prog : Bool) (s : State) (a : Long) : List Rn → Run (Long × State)
  | [] => .ok (a, s)
  | r :: rs => do
    let (v, s) ← readFc s (spaceFc s prog) a (bytesOf sz)
    loadRegs sz prog (s.setRn r (sext sz v)) (a + BitVec.ofNat 32 (bytesOf sz)) rs

/-- MOVEM, memory to registers (R205). -/
def execMovemToRegs (long : Bool) (mask : Word) (ea : Ea) (s : State) : Res :=
  let sz := longSize long
  toRes do
    match ea with
    | .postInc n =>
      let (a, s1) ← loadRegs sz false s (s.a n) (maskRegs mask false)
      .ok (advance 2 (s1.setA n a))
    | _ =>
      let (loc, s1) ← evalEa s .l (extAt s 1) ea
      let (_, s2) ← loadRegs sz loc.prog s1 loc.addr (maskRegs mask false)
      .ok (advance (2 + eaLen .l ea) s2)

/-- The low `n` bytes of a value to every other address, the most significant first (R206). -/
def storeAlternate : Nat → State → Long → Long → Run State
  | 0, s, _, _ => .ok s
  | n + 1, s, a, v => do
    let s ← memWrite s a 1 ((byteOf v n).setWidth 32)
    storeAlternate n s (a + 2#32) v

/-- `n` bytes from every other address, the first most significant, below `acc` (R206). -/
def loadAlternate : Nat → State → Long → Long → Run (Long × State)
  | 0, s, _, acc => .ok (acc, s)
  | n + 1, s, a, acc => do
    let (b, s) ← memRead s a 1
    loadAlternate n s (a + 2#32) ((acc <<< 8) ||| b)

/-- MOVEP (R206). -/
def execMovep (long toMem : Bool) (d a : Reg) (d16 : Word) (s : State) : Res :=
  let sz := longSize long
  let addr := s.a a + sextWord d16
  toRes do
    if toMem then
      let s1 ← storeAlternate (bytesOf sz) s addr (s.d d)
      .ok (advance 2 s1)
    else
      let (v, s1) ← loadAlternate (bytesOf sz) s addr 0#32
      .ok (advance 2 (s1.setDSized sz d v))

/-- LEA (R207). -/
def execLea (a : Reg) (ea : Ea) (s : State) : Res :=
  toRes do
    let (v, s1) ← eaAddr s 0 ea
    .ok (advance (1 + eaLen .l ea) (s1.setA a v))

/-- PEA (R208): the address is computed before the stack pointer moves. -/
def execPea (ea : Ea) (s : State) : Res :=
  toRes do
    let (v, s1) ← eaAddr s 0 ea
    let s2 ← pushLong s1 v
    .ok (advance (1 + eaLen .l ea) s2)

/-- EXG Dx,Dy (R209). -/
def execExgDD (x y : Reg) (s : State) : Res := .next (advance 1 ((s.setD x (s.d y)).setD y (s.d x)))

/-- EXG Ax,Ay (R209). -/
def execExgAA (x y : Reg) (s : State) : Res := .next (advance 1 ((s.setA x (s.a y)).setA y (s.a x)))

/-- EXG Dx,Ay (R209). -/
def execExgDA (x y : Reg) (s : State) : Res := .next (advance 1 ((s.setD x (s.a y)).setA y (s.d x)))

/-- LINK (R210), for an instruction of `n` words. With A7 the value pushed is the decremented stack pointer (U7,
log 17). -/
def link (a : Reg) (disp : Long) (n : Nat) (s : State) : Res :=
  toRes do
    let s1 := s.setSp (s.sp - 4#32)
    let s2 ← memWrite s1 s1.sp 4 (s1.a a)
    let s3 := s2.setA a s2.sp
    .ok (advance n (s3.setSp (s3.sp + disp)))

/-- LINK.W (R210). -/
def execLinkW (a : Reg) (d16 : Word) (s : State) : Res := link a (sextWord d16) 2 s

/-- LINK.L (R210). -/
def execLinkL (a : Reg) (d32 : Long) (s : State) : Res := link a d32 3 s

/-- UNLK (R211). With A7 the literal result of the rule (U7, log 17). -/
def execUnlk (a : Reg) (s : State) : Res :=
  toRes do
    let s1 := s.setSp (s.a a)
    let (v, s2) ← memRead s1 s1.sp 4
    let s3 := s2.setA a v
    .ok (advance 1 (s3.setSp (s3.sp + 4#32)))

end Sys2Proof.Machine
end

