-- ==== Sys2Proof/Machine/Multi.lean ====
section
/-! DEFINITION. Read-modify-write instructions and modules (46_multiprocessor_module.md). -/

namespace Sys2Proof.Machine

/-! ## TAS, CAS, CAS2 (R440-R443) -/

/-- A locked sequence begins with its first read cycle (R105, R443). What other masters store before that cycle is stored
now, since inside the sequence they store nothing (R133). -/
def lockBus (s : State) : State :=
  { s with rmc := true, mem := (otherMasters s).mem, platform := (otherMasters s).platform }

/-- The sequence is locked where the operand is in memory (R440). -/
def lockFor (s : State) : Loc → State
  | .mem _ _ => lockBus s
  | _ => s

/-- A locked sequence ends (R443). -/
def unlockBus (s : State) : State := { s with rmc := false }

/-- TAS (R440). -/
def execTas (ea : Ea) (s : State) : Res :=
  toRes do
    let (loc, s1) ← evalEa s .b (extAt s 0) ea
    let (v, s2) ← readLoc (lockFor s1 loc) .b loc
    let s3 ← writeLoc s2 .b (v ||| 0x80#32) loc
    .ok (advance (1 + eaLen .b ea) ((unlockBus s3).setCcr (logicFlags s.ccr .b v)))

/-- CAS (R441): a failed comparison writes no memory. -/
def execCas (sz : Size) (dc du : Reg) (ea : Ea) (s : State) : Res :=
  toRes do
    let (loc, s1) ← evalEa s sz (extAt s 1) ea
    let (v, s2) ← readLoc (lockFor s1 loc) sz loc
    let f := cmpFlags s.ccr sz v (trunc sz (s.d dc))
    let s3 ← if f.z then writeLoc s2 sz (trunc sz (s.d du)) loc else .ok (s2.setDSized sz dc v)
    .ok (advance (2 + eaLen sz ea) ((unlockBus s3).setCcr f))

/-- CAS2 (R442). If both compare registers are one, a failed comparison leaves the first operand in it. -/
def cas2 (sz : Size) (rn1 : Rn) (du1 dc1 : Reg) (rn2 : Rn) (du2 dc2 : Reg) (s : State) : Res :=
  toRes do
    let (v1, s1) ← memRead (lockBus s) (s.rn rn1) (bytesOf sz)
    let (v2, s2) ← memRead s1 (s.rn rn2) (bytesOf sz)
    let f1 := cmpFlags s.ccr sz v1 (trunc sz (s.d dc1))
    let f := if f1.z then cmpFlags s.ccr sz v2 (trunc sz (s.d dc2)) else f1
    let s4 ←
      if f1.z && f.z then do
        let s3 ← memWrite s2 (s.rn rn1) (bytesOf sz) (trunc sz (s.d du1))
        memWrite s3 (s.rn rn2) (bytesOf sz) (trunc sz (s.d du2))
      else .ok ((s2.setDSized sz dc2 v2).setDSized sz dc1 v1)
    .ok (advance 3 ((unlockBus s4).setCcr f))

/-- CAS2.W (R442). -/
def execCas2W (rn1 : Rn) (du1 dc1 : Reg) (rn2 : Rn) (du2 dc2 : Reg) (s : State) : Res :=
  cas2 .w rn1 du1 dc1 rn2 du2 dc2 s

/-- CAS2.L (R442). -/
def execCas2L (rn1 : Rn) (du1 dc1 : Reg) (rn2 : Rn) (du2 dc2 : Reg) (s : State) : Res :=
  cas2 .l rn1 du1 dc1 rn2 du2 dc2 s

/-! ## CALLM, RTM (R444-R448) -/

/-- OPT and TYPE are proper values (R444, R445). -/
def moduleOk (opt : BitVec 3) (type : BitVec 5) : Bool :=
  (opt == 0#3 || opt == 4#3) && (type == 0#5 || type == 1#5)

/-- What an access-level answer leads to: whether the stack changes, or the format error (R446). Where the platform does
not say what an exchange that has ended granted, that is a free value (log 21). -/
def accessEnd (s : State) (a : AccessAnswer) : Run (Bool × State) :=
  match a with
  | .granted b => .ok (b, s)
  | .denied => .error (formatError s)
  | .busError => if s.freeBit then .ok (Config.freeBit (s.freeIdx + 1), s.tickBy 2) else .error (formatError (s.tickBy 2))

/-- The access-level exchange for type $01 (R446): a byte written to IAL or DAL, and its answer. The answer is what the log
of completed accesses keeps, so that it is taken over after a later suspension; where RTE or the handler completed the
write, it is asked for when the instruction comes to it. -/
def accessLevel (s : State) (decrease : Bool) (level : Byte) : Run (Bool × State) :=
  let ask (t : State) (before : List BusRec) : Run (Bool × State) := do
    let (change, t) ← accessEnd t (accessAnswer t.platform decrease level)
    .ok (change, { t with done := before ++ [.read (if change then 1#32 else 0#32)] })
  match s.replay with
  | .read v :: rest => .ok (v == 1#32, tookOver s (.read v) rest)
  | r :: rest => ask (tookOver s r rest) s.done
  | [] =>
    match busWrite (land s) 7#3 (if decrease then 0x00010044#32 else 0x00010040#32) 1 (level.setWidth 32) with
    | .error b => .error (stopRun b)
    | .ok t => ask t t.done

/-- The exchange, made only for type $01. -/
def accessFor (s : State) (type : BitVec 5) (decrease : Bool) (level : Byte) : Run (Bool × State) :=
  if type = 1#5 then accessLevel s decrease level else .ok (false, s)

/-- Copies `n` argument bytes upward (R444). -/
def copyArgs : Nat → State → Long → Long → Run State
  | 0, s, _, _ => .ok s
  | n + 1, s, src, dst => do
    let (b, s) ← memRead s src 1
    let s ← memWrite s dst 1 b
    copyArgs n s (src + 1#32) (dst + 1#32)

/-- The access level a module stack frame saves (R448): zero for type $00, as 95_test_vectors.md V8-10 has it; for type
$01 a free value (log 21). -/
def savedLevel (s : State) (type : BitVec 5) : Byte := if type = 0#5 then 0#8 else s.freeLong.setWidth 8

/-- The reserved word of a module stack frame (R448): a free value, but that RTE, which would read it as a format word,
does not accept it. DESIGN CHOICE (log 21): its upper two bits are set. -/
def frameReserved (s : State) : Word := 3#2 ++ (s.freeAt 1).extractLsb' 0 14

/-- CALLM (R444, R447, R448). DESIGN CHOICE (log 21): the descriptor is read in data space, as R444 writes it, with a
PC-relative mode too; for type $01 the arguments are copied first, with either OPT, then the stack pointer moves, then the
frame is written. -/
def execCallm (argc : Byte) (ea : Ea) (s : State) : Res :=
  toRes do
    let (d, s) ← eaAddr s 1 ea
    let (w0, s) ← memRead s d 4
    let opt := w0.extractLsb' 29 3
    let type := w0.extractLsb' 24 5
    if !moduleOk opt type then .error (formatError s)
    else
      let (change, s) ← accessFor s type false (w0.extractLsb' 16 8)
      let osp := s.sp
      let s ←
        if change then do
          let (nsp, s) ← memRead s (d + 12#32) 4
          let base := nsp - argc.setWidth 32
          let s ← copyArgs argc.toNat s osp base
          .ok (s.setSp (base - 24#32))
        else .ok (s.setSp (osp - 24#32))
      let f := s.sp
      let reserved := frameReserved s
      let s ← memWrite (s.tickBy 2) f 2 ((opt ++ type ++ savedLevel s type).setWidth 32)
      let s ← memWrite s (f + 2#32) 2 (s.ccr.toByte.setWidth 32)
      let s ← memWrite s (f + 4#32) 2 (argc.setWidth 32)
      let s ← memWrite s (f + 6#32) 2 (reserved.setWidth 32)
      let s ← memWrite s (f + 8#32) 4 d
      let s ← memWrite s (f + 12#32) 4 (pcAfter s (2 + eaLen .l ea))
      let s ← memWrite s (f + 20#32) 4 osp
      let (e, s) ← memRead s (d + 4#32) 4
      let (ew, s) ← memRead s e 2
      let rn : Rn := ew.extractLsb' 12 4
      let s ← memWrite s (f + 16#32) 4 (s.rn rn)
      let (mdp, s) ← memRead s (d + 8#32) 4
      .ok (jumpTo (s.setRn rn mdp) (e + 2#32))

/-- RTM (R445, R448): the stack pointer's update is the one that stays. DESIGN CHOICE (log 21): the frame is read at +$02,
+$10, +$0C, +$04 and for type $01 at +$14, then Rn is loaded. -/
def execRtm (rn : Rn) (s : State) : Res :=
  toRes do
    let f := s.sp
    let (w, s) ← memRead s f 2
    let type := w.extractLsb' 8 5
    if !moduleOk (w.extractLsb' 13 3) type then .error (formatError s)
    else
      let (_, s) ← accessFor s type true (w.extractLsb' 0 8)
      let (ccr, s) ← memRead s (f + 2#32) 2
      let (mdp, s) ← memRead s (f + 16#32) 4
      let (pc, s) ← memRead s (f + 12#32) 4
      let (argc, s) ← memRead s (f + 4#32) 2
      let args := lowBits 8 argc
      let (base, s) ← if type = 1#5 then memRead s (f + 20#32) 4 else .ok (f + 24#32, s)
      .ok (jumpTo (((s.setCcr (.ofByte (ccr.setWidth 8))).setRn rn mdp).setSp (base + args)) pc)

end Sys2Proof.Machine
end

