-- ==== Sys2Proof/Machine/Return.lean ====
section
/-! DEFINITION. RTE (R410) and the return from bus fault frames (R660-R670). -/

namespace Sys2Proof.Machine

/-! ## A bus fault frame in memory -/

/-- The words of a frame, from its first address on; a bus error halts the processor (R604, R667). -/
def frameWords : Nat → State → Long → Except State (List Word × State)
  | 0, s, _ => .ok ([], s)
  | n + 1, s, a =>
    match busRead s (dataFc s) a 2 with
    | .error stop => .error stop.halted
    | .ok (v, s) => do
      let (ws, s) ← frameWords n s (a + 2#32)
      .ok (v.setWidth 16 :: ws, s)

/-- The word at a byte offset of a frame. -/
def wordAt (ws : List Word) (offset : Nat) : Word := ws.getD (offset / 2) 0#16

/-- The long word at a byte offset of a frame. -/
def longAt (ws : List Word) (offset : Nat) : Long := longOfWords (wordAt ws offset) (wordAt ws (offset + 2))

/-- The documented fields of a bus fault frame that RTE uses (R650, R652). -/
structure Repair where
  pc : Long
  ssw : Word
  stageC : Word
  stageB : Word
  faultAddr : Long
  output : Long
  input : Long
  deriving DecidableEq, Repr

/-- The fields of a frame (R650, R652, R661). -/
def repairOf (long : Bool) (ws : List Word) : Repair :=
  { pc := longAt ws 2, ssw := wordAt ws 0x0A, stageC := wordAt ws 0x0C, stageB := wordAt ws 0x0E,
    faultAddr := longAt ws 0x10, output := longAt ws 0x18, input := if long then longAt ws 0x2C else 0#32 }

/-- DF (R662). -/
def Repair.df (r : Repair) : Bool := r.ssw.getLsbD 8

/-- A stage of the pipe that comes back (R662, R670): with its rerun bit clear the word of the frame is accepted as
valid; else the word is fetched when it is needed. A stage that held nothing holds nothing again. -/
def restoredStage (p : PipeStage) (rerun : Bool) (w : Word) : PipeStage :=
  if p.valid && !rerun then { valid := true, addr := p.addr, word := w, fault := false } else .empty

/-- The pipe that comes back with a frame (R661, R662, R670). -/
def restoredPipe (p : Pipe) (r : Repair) : Pipe :=
  { b := restoredStage p.b (r.ssw.getLsbD 12) r.stageB
    c := restoredStage p.c (r.ssw.getLsbD 13) r.stageC
    d := p.d }

/-- The data cycle the special status word describes (R660, R662). -/
def repairCycle (r : Repair) : BusFault :=
  let n := (r.ssw.extractLsb' 4 2).toNat
  { addr := r.faultAddr, fc := r.ssw.extractLsb' 0 3, read := r.ssw.getLsbD 6, bytes := if n = 0 then 4 else n,
    data := r.output }

/-! ## Continuing (log 11, log 12) -/

/-- Where the suspended instruction starts again: the registers it began with, and the flags, unless the handler has
changed the flags (log 12). -/
def startOf (s : State) (p : Suspension) : Snapshot :=
  let ccr := if s.sr.ccr = p.atFault.sr.ccr then p.start.sr.ccr else s.sr.ccr
  { p.start with sr := { p.start.sr with ccr := ccr } }

/-- The trace state of the suspended activity comes back (R631); a trace pending for RTE itself stays (log 20). -/
def restoreTrace (s : State) (t : Trace) : State :=
  { s with trace := { t with pending := t.pending || s.trace.pending } }

/-- The suspended instruction starts again, takes over the bus operations it had completed, and goes on in the registers
that the handler left (R660, log 11): after the last of them, or (`late`) with the access it makes then. -/
def restart (s : State) (p : Suspension) (ops : List BusRec) (late : Bool) : State :=
  again (restoreTrace s p.atFault.trace) p.instr (startOf s p) ops late

/-- The state in which RTE reruns a data cycle of the suspended instruction (R669): a fault suspends it again. -/
def rerunState (s : State) (p : Suspension) : State :=
  { restoreTrace s p.atFault.trace with
    pc := p.atFault.pc, start := startOf s p, current := p.instr, done := p.done, replay := [] }

/-- The bytes that earlier cycles delivered above the rest of an operand. -/
def joinBytes (got rest : Long) (n : Nat) : Long := (got <<< (8 * n)) ||| lowBits (8 * n) rest

/-- A suspended data cycle (R660, R668, R669). -/
def resumeAccess (s : State) (p : Suspension) (got : Long) (r : Repair) : Res :=
  let f := repairCycle r
  if p.locked then
    if r.df then .next (restart s p [] true)
    else .next (restoreTrace { s with pc := p.pcNext } p.atFault.trace)
  else if !r.df then
    .next (restart s p (p.done ++ [if f.read then .read (joinBytes got r.input f.bytes) else .write]) false)
  else
    let u := rerunState s p
    if f.read then
      match busRead u f.fc f.addr f.bytes with
      | .ok (v, t) => .next (restart t p (p.done ++ [.read (joinBytes got v f.bytes)]) false)
      | .error (.fault f' got' t) => .next (dataFault t f' (joinBytes got got' (f.bytes - f'.bytes)))
      | .error (.never t) => .next (hang t)
    else
      match busWrite u f.fc f.addr f.bytes f.data with
      | .ok t => .next (restart t p (p.done ++ [.write]) false)
      | .error (.fault f' got' t) => .next (dataFault t f' got')
      | .error (.never t) => .next (hang t)

/-- Exception processing that a fault had stopped starts again from its stacking (R614, R665, D18). Of an odd vector whose
stage C the handler has repaired, the words of the pipe are executed as those at the vector. -/
def resumeEntry (s : State) (p : Suspension) (e : Entry) (copy : Sr) (odd : Option Long) (got : Long)
    (r : Repair) : State :=
  let s := restoreTrace s p.atFault.trace
  let pipe := restoredPipe p.pipe r
  match odd with
  | none =>
    let f := repairCycle r
    processEntry s e copy (if !r.df && f.read then some (joinBytes got r.input f.bytes) else none)
  | some t =>
    if pipe.c.valid then entryBus s e copy (stackEntry s e copy) fun u => { startAt u t with pipe := pipe }
    else processEntry s e copy none

/-- An instruction whose words were being fetched: at its operation word it is the next instruction; else it goes on with
the words it has (R663, R670). -/
def resumeWords (s : State) (p : Suspension) (ws : List Word) (r : Repair) : State :=
  match ws with
  | [] => { s with pc := r.pc }
  | _ =>
    let t := { restoreTrace s p.atFault.trace with pc := p.start.pc }
    { t with start := snapshot t, done := [], resume := some (.fetch ws) }

/-- Continues what a bus fault frame names, after its SR has been restored and the stack deallocated (R660, R670). -/
def resumeFault (s : State) (p : Suspension) (r : Repair) : Res :=
  let s := { s with pipe := restoredPipe p.pipe r }
  match p.kind with
  | .fetch ws => .next (resumeWords s p ws r)
  | .stream => .next (restart s p p.done true)
  | .access _ got => resumeAccess s p got r
  | .jump t =>
    let u := restoreTrace s p.atFault.trace
    if s.pipe.c.valid then .next { u with pc := t }
    else .next (jumpFault { u with pc := p.atFault.pc, current := p.instr, start := p.start } t)
  | .entry e copy odd got => .next (resumeEntry s p e copy odd got r)

/-! ## RTE -/

/-- Offset of a bus fault frame's last word (R650, R652). -/
def lastWord (long : Bool) : Long := if long then 0x5A#32 else 0x1E#32

/-- Number of words of a bus fault frame. -/
def frameSize (long : Bool) : Nat := if long then 46 else 16

/-- Whether a frame's version number is the processor's (R652, R666). -/
def versionOk (s : State) (w : Long) : Bool := w.extractLsb' 12 4 == s.platform.versionNibble

/-- RTE of a bus fault frame (R666, R667): validation, then the load, in which a bus error halts the processor. DESIGN
CHOICE (log 36): the key is read as part of the validation, and a bus error in the validation comes before the format
error of another version number. -/
def rteFault (long : Bool) (sp : Long) (sr : Word) (s : State) : Res :=
  toRes do
    let (version, s) ← if long then memRead s (sp + 0x36#32) 2 else .ok (0#32, s)
    let (_, s) ← memRead s (sp + lastWord long) 2
    let (key, s) ← memRead s (sp + 0x1C#32) 4
    if long && !versionOk s version then .error (formatError s)
    else
      match s.suspended.find? (fun p => p.key == key && p.long == long) with
      | none => .error (formatError s)
      | some p =>
        match frameWords (frameSize long) s sp with
        | .error t => .error (.next t)
        | .ok (ws, s) =>
          let s := writeSr (s.setSp (sp + BitVec.ofNat 32 (2 * frameSize long))) sr
          .error (resumeFault s p (repairOf long ws))

/-- RTE of a midinstruction frame (R558, R648): the coprocessor dialogue goes on with its response register. DESIGN
CHOICE (log 36): a bus error on a read of this frame is an ordinary bus error. DESIGN CHOICE (log 33): an odd scanPC in the
frame is an address error only when a word there is fetched. -/
def rteMid (sp : Long) (sr : Word) (scan : Long) (s : State) : Res :=
  toRes do
    let (pc, s) ← memRead s (sp + 8#32) 4
    let (internal, s) ← memRead s (sp + 12#32) 2
    let (w, s) ← memRead s (sp + 14#32) 2
    let (ea, s) ← memRead s (sp + 16#32) 4
    let s := writeSr (s.setSp (sp + 20#32)) sr
    let s := restoreTrace s { pending := internal.getLsbD 0, flow := internal.getLsbD 1, addr := pc }
    .error (cpDialogue (w.setWidth 16)
      { s with pc := pc, scanPc := scan, eaTmp := ea, eaValid := internal.getLsbD 2 })

/-- RTE (R410). The number bounds the throwaway frames of one step; after them the next step goes on (log 18). -/
def rteLoop : Nat → State → Res
  | 0, s => .next { s with resume := some .rteAgain }
  | n + 1, s =>
    let sp := s.sp
    match memRead s sp 2 with
    | .error r => r
    | .ok (sr, s) =>
      match memRead s (sp + 2#32) 4 with
      | .error r => r
      | .ok (pc, s) =>
        match memRead s (sp + 6#32) 2 with
        | .error r => r
        | .ok (format, s) =>
          let sr : Word := sr.setWidth 16
          match (format.extractLsb' 12 4).toNat with
          | 0 => .next (jumpTo (writeSr (s.setSp (sp + 8#32)) sr) pc)
          | 1 => rteLoop n (writeSr (s.setSp (sp + 8#32)) sr)
          | 2 => .next (jumpTo (writeSr (s.setSp (sp + 12#32)) sr) pc)
          | 9 => rteMid sp sr pc s
          | 10 => rteFault false sp sr s
          | 11 => rteFault true sp sr s
          | _ => formatError s

/-- Throwaway frames that one step handles. -/
def rteFuel : Nat := 16

/-- RTE (R410). -/
def execRte (s : State) : Res := requireSupervisor s (rteLoop rteFuel)

/-- RTE goes on after throwaway frames (R410). -/
def rteContinue (s : State) : Res := rteLoop rteFuel s

end Sys2Proof.Machine
end

