-- ==== Sys2Proof/Machine/Dispatch.lean ====
section
/-! DEFINITION. The meaning of every instruction, one arm per constructor. -/

namespace Sys2Proof.Machine

def exec (i : Instr) (s : State) : Host.Outcome State Fault Refusal :=
  match i with
  | .oriCcr imm => Sys2Proof.Machine.execOriCcr imm s
  | .oriSr imm => Sys2Proof.Machine.execOriSr imm s
  | .andiCcr imm => Sys2Proof.Machine.execAndiCcr imm s
  | .andiSr imm => Sys2Proof.Machine.execAndiSr imm s
  | .eoriCcr imm => Sys2Proof.Machine.execEoriCcr imm s
  | .eoriSr imm => Sys2Proof.Machine.execEoriSr imm s
  | .cas2W rn1 du1 dc1 rn2 du2 dc2 => Sys2Proof.Machine.execCas2W rn1 du1 dc1 rn2 du2 dc2 s
  | .cas2L rn1 du1 dc1 rn2 du2 dc2 => Sys2Proof.Machine.execCas2L rn1 du1 dc1 rn2 du2 dc2 s
  | .rtm rn => Sys2Proof.Machine.execRtm rn s
  | .callm argc ea => Sys2Proof.Machine.execCallm argc ea s
  | .cmp2 sz rn ea => Sys2Proof.Machine.execCmp2 sz rn ea s
  | .chk2 sz rn ea => Sys2Proof.Machine.execChk2 sz rn ea s
  | .btst n ea => Sys2Proof.Machine.execBtst n ea s
  | .bchg n ea => Sys2Proof.Machine.execBchg n ea s
  | .bclr n ea => Sys2Proof.Machine.execBclr n ea s
  | .bset n ea => Sys2Proof.Machine.execBset n ea s
  | .cas sz dc du ea => Sys2Proof.Machine.execCas sz dc du ea s
  | .moves sz rn toMem ea => Sys2Proof.Machine.execMoves sz rn toMem ea s
  | .movep long toMem d a d16 => Sys2Proof.Machine.execMovep long toMem d a d16 s
  | .btstDn d ea => Sys2Proof.Machine.execBtstDn d ea s
  | .bchgDn d ea => Sys2Proof.Machine.execBchgDn d ea s
  | .bclrDn d ea => Sys2Proof.Machine.execBclrDn d ea s
  | .bsetDn d ea => Sys2Proof.Machine.execBsetDn d ea s
  | .ori sz imm ea => Sys2Proof.Machine.execOri sz imm ea s
  | .andi sz imm ea => Sys2Proof.Machine.execAndi sz imm ea s
  | .subi sz imm ea => Sys2Proof.Machine.execSubi sz imm ea s
  | .addi sz imm ea => Sys2Proof.Machine.execAddi sz imm ea s
  | .eori sz imm ea => Sys2Proof.Machine.execEori sz imm ea s
  | .cmpi sz imm ea => Sys2Proof.Machine.execCmpi sz imm ea s
  | .moveB src dst => Sys2Proof.Machine.execMoveB src dst s
  | .moveaW a src => Sys2Proof.Machine.execMoveaW a src s
  | .moveW src dst => Sys2Proof.Machine.execMoveW src dst s
  | .moveaL a src => Sys2Proof.Machine.execMoveaL a src s
  | .moveL src dst => Sys2Proof.Machine.execMoveL src dst s
  | .illegal => Sys2Proof.Machine.execIllegal s
  | .reset => Sys2Proof.Machine.execReset s
  | .nop => Sys2Proof.Machine.execNop s
  | .stop imm => Sys2Proof.Machine.execStop imm s
  | .rte => Sys2Proof.Machine.execRte s
  | .rtd d16 => Sys2Proof.Machine.execRtd d16 s
  | .rts => Sys2Proof.Machine.execRts s
  | .trapv => Sys2Proof.Machine.execTrapv s
  | .rtr => Sys2Proof.Machine.execRtr s
  | .movec toCtl rn code => Sys2Proof.Machine.execMovec toCtl rn code s
  | .trap v => Sys2Proof.Machine.execTrap v s
  | .linkW a d16 => Sys2Proof.Machine.execLinkW a d16 s
  | .unlk a => Sys2Proof.Machine.execUnlk a s
  | .moveUsp fromUsp a => Sys2Proof.Machine.execMoveUsp fromUsp a s
  | .jsr ea => Sys2Proof.Machine.execJsr ea s
  | .jmp ea => Sys2Proof.Machine.execJmp ea s
  | .swap d => Sys2Proof.Machine.execSwap d s
  | .bkpt v => Sys2Proof.Machine.execBkpt v s
  | .pea ea => Sys2Proof.Machine.execPea ea s
  | .linkL a d32 => Sys2Proof.Machine.execLinkL a d32 s
  | .nbcd ea => Sys2Proof.Machine.execNbcd ea s
  | .extW d => Sys2Proof.Machine.execExtW d s
  | .extL d => Sys2Proof.Machine.execExtL d s
  | .extbL d => Sys2Proof.Machine.execExtbL d s
  | .movemToMem long mask ea => Sys2Proof.Machine.execMovemToMem long mask ea s
  | .movemToRegs long mask ea => Sys2Proof.Machine.execMovemToRegs long mask ea s
  | .muluL quad dl dh ea => Sys2Proof.Machine.execMuluL quad dl dh ea s
  | .mulsL quad dl dh ea => Sys2Proof.Machine.execMulsL quad dl dh ea s
  | .divuL quad dq dr ea => Sys2Proof.Machine.execDivuL quad dq dr ea s
  | .divsL quad dq dr ea => Sys2Proof.Machine.execDivsL quad dq dr ea s
  | .tas ea => Sys2Proof.Machine.execTas ea s
  | .tst sz ea => Sys2Proof.Machine.execTst sz ea s
  | .moveFromSr ea => Sys2Proof.Machine.execMoveFromSr ea s
  | .negx sz ea => Sys2Proof.Machine.execNegx sz ea s
  | .moveFromCcr ea => Sys2Proof.Machine.execMoveFromCcr ea s
  | .clr sz ea => Sys2Proof.Machine.execClr sz ea s
  | .moveToCcr ea => Sys2Proof.Machine.execMoveToCcr ea s
  | .neg sz ea => Sys2Proof.Machine.execNeg sz ea s
  | .moveToSr ea => Sys2Proof.Machine.execMoveToSr ea s
  | .not sz ea => Sys2Proof.Machine.execNot sz ea s
  | .chkW d ea => Sys2Proof.Machine.execChkW d ea s
  | .chkL d ea => Sys2Proof.Machine.execChkL d ea s
  | .lea a ea => Sys2Proof.Machine.execLea a ea s
  | .dbcc cc d d16 => Sys2Proof.Machine.execDbcc cc d d16 s
  | .trapccW cc op => Sys2Proof.Machine.execTrapccW cc op s
  | .trapccL cc op => Sys2Proof.Machine.execTrapccL cc op s
  | .trapcc cc => Sys2Proof.Machine.execTrapcc cc s
  | .scc cc ea => Sys2Proof.Machine.execScc cc ea s
  | .addq sz q ea => Sys2Proof.Machine.execAddq sz q ea s
  | .subq sz q ea => Sys2Proof.Machine.execSubq sz q ea s
  | .bra d => Sys2Proof.Machine.execBra d s
  | .bsr d => Sys2Proof.Machine.execBsr d s
  | .bcc cc d => Sys2Proof.Machine.execBcc cc d s
  | .moveq d imm => Sys2Proof.Machine.execMoveq d imm s
  | .divuW d ea => Sys2Proof.Machine.execDivuW d ea s
  | .divsW d ea => Sys2Proof.Machine.execDivsW d ea s
  | .sbcd mem src dst => Sys2Proof.Machine.execSbcd mem src dst s
  | .pack mem src dst adj => Sys2Proof.Machine.execPack mem src dst adj s
  | .unpk mem src dst adj => Sys2Proof.Machine.execUnpk mem src dst adj s
  | .or sz toEa d ea => Sys2Proof.Machine.execOr sz toEa d ea s
  | .suba long a ea => Sys2Proof.Machine.execSuba long a ea s
  | .subx sz mem src dst => Sys2Proof.Machine.execSubx sz mem src dst s
  | .sub sz toEa d ea => Sys2Proof.Machine.execSub sz toEa d ea s
  | .aline x => Sys2Proof.Machine.execAline x s
  | .cmpa long a ea => Sys2Proof.Machine.execCmpa long a ea s
  | .cmpm sz src dst => Sys2Proof.Machine.execCmpm sz src dst s
  | .eor sz d ea => Sys2Proof.Machine.execEor sz d ea s
  | .cmp sz d ea => Sys2Proof.Machine.execCmp sz d ea s
  | .muluW d ea => Sys2Proof.Machine.execMuluW d ea s
  | .mulsW d ea => Sys2Proof.Machine.execMulsW d ea s
  | .abcd mem src dst => Sys2Proof.Machine.execAbcd mem src dst s
  | .exgDD x y => Sys2Proof.Machine.execExgDD x y s
  | .exgAA x y => Sys2Proof.Machine.execExgAA x y s
  | .exgDA x y => Sys2Proof.Machine.execExgDA x y s
  | .and sz toEa d ea => Sys2Proof.Machine.execAnd sz toEa d ea s
  | .adda long a ea => Sys2Proof.Machine.execAdda long a ea s
  | .addx sz mem src dst => Sys2Proof.Machine.execAddx sz mem src dst s
  | .add sz toEa d ea => Sys2Proof.Machine.execAdd sz toEa d ea s
  | .bftst f ea => Sys2Proof.Machine.execBftst f ea s
  | .bfextu d f ea => Sys2Proof.Machine.execBfextu d f ea s
  | .bfchg f ea => Sys2Proof.Machine.execBfchg f ea s
  | .bfexts d f ea => Sys2Proof.Machine.execBfexts d f ea s
  | .bfclr f ea => Sys2Proof.Machine.execBfclr f ea s
  | .bfffo d f ea => Sys2Proof.Machine.execBfffo d f ea s
  | .bfset f ea => Sys2Proof.Machine.execBfset f ea s
  | .bfins d f ea => Sys2Proof.Machine.execBfins d f ea s
  | .asrEa ea => Sys2Proof.Machine.execAsrEa ea s
  | .aslEa ea => Sys2Proof.Machine.execAslEa ea s
  | .lsrEa ea => Sys2Proof.Machine.execLsrEa ea s
  | .lslEa ea => Sys2Proof.Machine.execLslEa ea s
  | .roxrEa ea => Sys2Proof.Machine.execRoxrEa ea s
  | .roxlEa ea => Sys2Proof.Machine.execRoxlEa ea s
  | .rorEa ea => Sys2Proof.Machine.execRorEa ea s
  | .rolEa ea => Sys2Proof.Machine.execRolEa ea s
  | .asr sz byReg c d => Sys2Proof.Machine.execAsr sz byReg c d s
  | .asl sz byReg c d => Sys2Proof.Machine.execAsl sz byReg c d s
  | .lsr sz byReg c d => Sys2Proof.Machine.execLsr sz byReg c d s
  | .lsl sz byReg c d => Sys2Proof.Machine.execLsl sz byReg c d s
  | .roxr sz byReg c d => Sys2Proof.Machine.execRoxr sz byReg c d s
  | .roxl sz byReg c d => Sys2Proof.Machine.execRoxl sz byReg c d s
  | .ror sz byReg c d => Sys2Proof.Machine.execRor sz byReg c d s
  | .rol sz byReg c d => Sys2Proof.Machine.execRol sz byReg c d s
  | .flineCpid0 x => Sys2Proof.Machine.execFlineCpid0 x s
  | .cpGen id mode reg cmd => Sys2Proof.Machine.execCpGen id mode reg cmd s
  | .cpDbcc id d cond => Sys2Proof.Machine.execCpDbcc id d cond s
  | .cpTrapccW id cond => Sys2Proof.Machine.execCpTrapccW id cond s
  | .cpTrapccL id cond => Sys2Proof.Machine.execCpTrapccL id cond s
  | .cpTrapcc id cond => Sys2Proof.Machine.execCpTrapcc id cond s
  | .cpScc id mode reg cond => Sys2Proof.Machine.execCpScc id mode reg cond s
  | .cpBccW id sel => Sys2Proof.Machine.execCpBccW id sel s
  | .cpBccL id sel => Sys2Proof.Machine.execCpBccL id sel s
  | .cpSave id ea => Sys2Proof.Machine.execCpSave id ea s
  | .cpRestore id ea => Sys2Proof.Machine.execCpRestore id ea s
  | .flineBadType id x => Sys2Proof.Machine.execFlineBadType id x s
  | .unassigned opword => Sys2Proof.Machine.execUnassigned opword s

end Sys2Proof.Machine
end

