-- ==== Sys2Proof/Machine/Sequence.lean ====
section
/-! DEFINITION. What surrounds the meanings in a step: the start of an instruction (R631), fetching and decoding it
(R171), trace and the boundary after it (R690, D11). -/

namespace Sys2Proof.Machine

/-- The tracing that T1,T0 select (R630, U4). -/
def traceMode (sr : Sr) : TraceMode :=
  match sr.t1, sr.t0 with
  | false, false => .none
  | false, true => .flow
  | true, false => .every
  | true, true => Config.reservedTrace

/-- The start of an instruction: T1,T0 are latched (R631), and what a suspension would need is noted (log 11). -/
def beginInstr (s : State) : State :=
  { s with
    trace := { pending := traceMode s.sr == .every, flow := traceMode s.sr == .flow, addr := s.pc }
    start :=
      { regs := s.regs, sr := s.sr, pc := s.pc, free := s.freeIdx
        trace := { pending := traceMode s.sr == .every, flow := traceMode s.sr == .flow, addr := s.pc } }
    done := []
    replay := []
    landing := none
    eaValid := false }

/-- The instructions of R627, which only a supervisor program may execute. -/
def privileged : Instr → Bool
  | .andiSr _ | .eoriSr _ | .oriSr _ | .moveFromSr _ | .moveToSr _ | .moveUsp _ _ | .movec _ _ _ | .moves _ _ _ _
  | .reset | .rte | .stop _ | .cpSave _ _ | .cpRestore _ _ => true
  | _ => false

/-- Whether an operation word is that of a privileged instruction, whatever words follow it. -/
def privilegedWord (w : Word) : Bool :=
  match decode (w :: List.replicate maxWords 0#16) with
  | .instr i _ => privileged i
  | .more => false

/-- A word of an instruction that could not be fetched. A privileged instruction at user level does not use the words
after its operation word, so that their bus error does not occur (R390, R620, R627; log 37). -/
def wordFault (s : State) (a : Long) (ws : List Word) (stop : FetchStop) : State :=
  if stop != .never && !s.sr.s && ws.head?.any privilegedWord then
    takeEntry (clearTrace s) { vector := 8#8, body := .four, pc := s.pc, level := none }
  else fetchFault s a (.fetch ws) stop

/-- Fetches words from the PC on until they decode (R140, R171): the instruction, or the state after the bus fault of a
word it needs (R620, R622). DESIGN CHOICE (log 38): every word that belongs to the instruction counts as needed, also one
whose value it turns out not to use. The number bounds the words left. -/
def fetchInstr : Nat → State → List Word → Except State (Instr × State)
  | 0, s, ws => .ok (.unassigned (ws.headD 0#16), s)
  | n + 1, s, ws =>
    let a := s.pc + BitVec.ofNat 32 (2 * ws.length)
    match fetchWord s a with
    | .error (stop, t) => .error (wordFault t a ws stop)
    | .ok (w, t) =>
      match decode (ws ++ [w]) with
      | .instr i _ => .ok (i, t)
      | .more => fetchInstr n t (ws ++ [w])

/-- The trace exception (R630): frame $2 with the address of the traced instruction. -/
def takeTrace (s : State) : State :=
  takeEntry (clearTrace s) { vector := 9#8, body := .six s.trace.addr, pc := s.pc, level := none }

/-- The instruction boundary (R690): a pending trace is processed, then inputs arrive and interrupt requests are
sampled. There is none where the next step continues the instruction, and no trace in the halted state (R604) and in a
bus cycle that nothing ends. -/
def afterInstr (s : State) : State :=
  if s.resume.isSome then s
  else
    let s := { s with done := [], replay := [] }
    pollInputs (if s.trace.pending && s.run != .halted && s.run != .waiting then takeTrace s else s)

/-- The boundary after an outcome. -/
def settle (r : Res) : Res :=
  match r with
  | .next s => .next (afterInstr s)
  | .fault f => .fault f
  | .refused f => .refused f

/-- An interrupt taken at a boundary: frame $0, the PC of the next instruction (R683). -/
def interruptStep (s : State) : State := pollInputs (takeInterrupt s .four s.pc)

/-- Stores words at ascending addresses of program space. -/
def placeWords (s : State) (a : Long) : List Word → State
  | [] => s
  | w :: ws => placeWords (store s (progFc s) 2 a (w.setWidth 32)) (a + 2#32) ws

/-- Nothing that was fetched earlier is left (R720), and the next step fetches at the PC. -/
def readyToFetch (s : State) : State :=
  let s := clearCache (flush s)
  { s with run := .normal, resume := none, irq := { s.irq with pending := false } }

end Sys2Proof.Machine
end

