-- ==== Sys2Proof/Machine/Step.lean ====
section
/-! DEFINITION. One step: an instruction, an interrupt, or the continuation of a suspended instruction. -/

namespace Sys2Proof.Machine

/-- Fetches, decodes and runs the instruction at the PC (R171), of which the words `ws` have been fetched. -/
def runFetched (s : State) (ws : List Word) : Res :=
  match fetchInstr maxWords s ws with
  | .error t => .next (afterInstr t)
  | .ok (i, t) => settle (exec i { t with current := i })

/-- One step (R600, R690). A halted processor only sees inputs (R604), as does one in a bus cycle that nothing ends, which
without any to come waits for ever (R90, R700, U19); a stopped one waits for an interrupt (R408); else
a suspended instruction continues, a pending interrupt is taken, or the next instruction runs. -/
def step (s : State) : Host.Outcome State Fault Refusal :=
  match s.run with
  | .halted => .next (pollInputs s)
  | .waiting => if s.platform.inputs.isEmpty then .fault .busNeverEnds else .next (pollInputs s)
  | .stopped => if s.irq.pending then .next (interruptStep s) else .next (pollInputs s)
  | .normal =>
    match s.resume with
    | some (.instr i) => settle (exec i { s with resume := none, current := i })
    | some .rteAgain => settle (rteContinue { s with resume := none })
    | some (.fetch ws) => runFetched { s with resume := none } ws
    | some .decode => runFetched { s with resume := none } []
    | none => if s.irq.pending then .next (interruptStep s) else runFetched (beginInstr s) []

/-- The state with an instruction's words stored where the next step fetches (log 3). -/
def State.withFetchWord (s : State) (nbits w : Nat) : State :=
  placeWords (readyToFetch s) s.pc (tableWords (w % 2 ^ nbits))

end Sys2Proof.Machine
end

