-- ==== Sys2Proof/Safety.lean ====
section
/-! DEFINITION. The terms that claims about the machine use: states in which no bus cycle fails, operands and results
without the bookkeeping of suspended accesses, and what counts as unchanged. -/

namespace Sys2Proof.Machine

/-- Nothing is taken over from before a suspension, no other bus master stores, and no device leaves a bus cycle without
an end (R90): instructions execute on their own. -/
def Alone (s : State) : Prop :=
  s.replay = [] ∧ s.landing = none ∧ s.platform.masters = [] ∧ s.platform.silent = []

/-- On its own, and no bus cycle ends in bus error: instructions execute without interference. -/
def Quiet (s : State) : Prop :=
  Alone s ∧ ∀ (fc : Fc) (read : Bool) (ext : Nat), cycleErrs s.platform fc read ext = false

/-- Every unit of CPU space is a 32-bit port (R131, D2): a coprocessor access is one bus cycle. -/
def Wide (s : State) : Prop := ∀ ext : Nat, portBytes s.platform 7#3 ext = 4

/-- The instruction is at its start (R631): a suspension would start it again from the present registers (log 11). -/
def Begun (s : State) (i : Instr) : Prop := s.current = i ∧ s.start = snapshot s ∧ s.done = []

/-- The addresses at which the bus cycles of a transfer of `rem` bytes begin (R93). The first number bounds the cycles. -/
def cycleStarts (p : Platform) (fc : Fc) : Nat → Long → Nat → List Long
  | 0, _, _ => []
  | fuel + 1, a, rem =>
    if rem = 0 then []
    else a :: cycleStarts p fc fuel (a + BitVec.ofNat 32 (cycleBytes p fc a rem)) (rem - cycleBytes p fc a rem)

/-- Some bus cycle of a transfer of `n` bytes ends in bus error. -/
def TransferErrs (p : Platform) (fc : Fc) (read : Bool) (a : Long) (n : Nat) : Prop :=
  ∃ b ∈ cycleStarts p fc n a n, cycleErrs p fc read (extAddr p.variant b) = true

/-- The state with another log of completed accesses (log 11). -/
def State.withDone (s : State) (dn : List BusRec) : State := { s with done := dn }

/-- The outcome is the next state `t`, whatever the log `done` of completed accesses holds (log 11). -/
def CompletesAs (r : Host.Outcome State Fault Refusal) (t : State) : Prop := ∃ dn, r = .next (t.withDone dn)

/-- After what an instruction has done to reach `u`, control goes to `target` (R350): an even one is started at, an odd
one is an address error (R622). -/
def GoesTo (r : Host.Outcome State Fault Refusal) (u : State) (target : Long) : Prop :=
  (target.getLsbD 0 = false → CompletesAs r (startAt (markFlow u) target)) ∧
  (target.getLsbD 0 = true → ∃ dn, r = .next (jumpFault (markFlow (u.withDone dn)) target))

/-- The state with fields stored at ascending addresses of a space. -/
def fieldsPut (s : State) (fc : Fc) (a : Long) : List (Nat × Long) → State
  | [] => s
  | (n, v) :: fs => fieldsPut (store s fc n a v) fc (a + BitVec.ofNat 32 n) fs

/-! ## Operands (R150-R163) -/

/-- The state after the register update of -(An) and (An)+ (R153, R154). -/
def eaStep (s : State) (sz : Size) : Ea → State
  | .postInc n => s.setA n (s.a n + incOf sz n)
  | .preDec n => s.setA n (s.a n - incOf sz n)
  | _ => s

/-- The address of an indexed or memory indirect mode (R156, R157). -/
def indexAt (s : State) (prog : Bool) (base : Long) : Index → Long
  | .brief x d8 => base + sextByte d8 + indexValue s x
  | .full x bs is bd ind =>
    let b := (if bs then 0#32 else base) + dispValue bd
    let i := if is then 0#32 else indexValue s x
    match ind with
    | .none => b + i
    | .pre od => load s (spaceFc s prog) (b + i) 4 + dispValue od
    | .post od => load s (spaceFc s prog) b 4 + i + dispValue od

/-- What an effective address names (R150-R162); `pcx` is the address of its first extension word. -/
def locAt (s : State) (sz : Size) (pcx : Long) : Ea → Loc
  | .dn n => .dreg n
  | .an n => .areg n
  | .ind n => .mem false (s.a n)
  | .postInc n => .mem false (s.a n)
  | .preDec n => .mem false (s.a n - incOf sz n)
  | .disp n d => .mem false (s.a n + sextWord d)
  | .idx n x => .mem false (indexAt s false (s.a n) x)
  | .absW a => .mem false (sextWord a)
  | .absL a => .mem false a
  | .pcDisp d => .mem true (pcx + sextWord d)
  | .pcIdx x => .mem true (indexAt s true pcx x)
  | .imm v => .imm v

/-- The operand at a location (R163). -/
def valueAt (s : State) (sz : Size) : Loc → Long
  | .dreg n => trunc sz (s.d n)
  | .areg n => trunc sz (s.a n)
  | .mem prog a => load s (spaceFc s prog) a (bytesOf sz)
  | .imm v => v

/-- The state with an operand written to a location (R163). -/
def putAt (s : State) (sz : Size) (v : Long) : Loc → State
  | .dreg n => s.setDSized sz n v
  | .areg n => s.setA n (sext sz v)
  | .mem false a => store s (dataFc s) (bytesOf sz) a v
  | .mem true _ => s
  | .imm _ => s

/-- The location of an operand after `own` words of the instruction's own. -/
def eaLoc (s : State) (sz : Size) (own : Nat) (ea : Ea) : Loc := locAt s sz (extAt s own) ea

/-- The operand of an effective address. -/
def eaVal (s : State) (sz : Size) (own : Nat) (ea : Ea) : Long := valueAt (eaStep s sz ea) sz (eaLoc s sz own ea)

/-! ## Results of the common shapes -/

/-- The end of an instruction of `n` words that sets the flags. -/
def finish (s : State) (n : Nat) (f : Ccr) : State := advance n (s.setCcr f)

/-- Operand replaced in place: `f` gets it and answers result and flags. -/
def modified (s : State) (sz : Size) (own : Nat) (ea : Ea) (f : Long → Long × Ccr) : State :=
  finish (putAt (eaStep s sz ea) sz (f (eaVal s sz own ea)).1 (eaLoc s sz own ea)) (1 + own + eaLen sz ea)
    (f (eaVal s sz own ea)).2

/-- Operand combined into a data register: `f` gets register and operand. -/
def intoDn (s : State) (sz : Size) (d : Reg) (ea : Ea) (f : Long → Long → Long × Ccr) : State :=
  let r := f (trunc sz (s.d d)) (eaVal s sz 0 ea)
  finish ((eaStep s sz ea).setDSized sz d r.1) (1 + eaLen sz ea) r.2

/-- Operand combined into an address register, without flags. -/
def intoAn (s : State) (sz : Size) (a : Reg) (ea : Ea) (f : Long → Long → Long) : State :=
  let u := eaStep s sz ea
  advance (1 + eaLen sz ea) (u.setA a (f (u.a a) (sext sz (eaVal s sz 0 ea))))

/-- Operand that only sets flags. -/
def tested (s : State) (sz : Size) (own : Nat) (ea : Ea) (f : Long → Ccr) : State :=
  finish (eaStep s sz ea) (1 + own + eaLen sz ea) (f (eaVal s sz own ea))

/-- The two operands of -(Ay),-(Ax): registers decremented, source first. -/
def pairStep (s : State) (sz : Size) (src dst : Reg) : State :=
  eaStep (eaStep s sz (.preDec src)) sz (.preDec dst)

/-- A long word pushed (R24). -/
def pushed (s : State) (v : Long) : State :=
  store (s.setSp (s.sp - 4#32)) (dataFc s) 4 (s.sp - 4#32) v

/-- The exception of an instruction trap with the six-word frame (R623). -/
def trapSixState (s : State) (vector : Byte) (n : Nat) : State :=
  takeEntry (markFlow s) { vector := vector, body := .six s.pc, pc := pcAfter s n, level := none }

/-- An exception taken instead of the instruction: frame $0 at the instruction, not traced (R624-R628). -/
def abandoned (s : State) (vector : Byte) : State :=
  takeEntry (clearTrace s) { vector := vector, body := .four, pc := s.pc, level := none }

/-- The stack operation of LINK (R210) with the literal order for A7 (log 17). -/
def linked (s : State) (a : Reg) (disp : Long) : State :=
  let p := s.sp - 4#32
  ((store s (dataFc s) 4 p (if a = 7#3 then p else s.a a)).setA a p).setSp (p + disp)

/-- The result of UNLK (R211) with the literal order for A7 (log 17). -/
def unlinked (s : State) (a : Reg) : State :=
  if a = 7#3 then s.setSp (load s (dataFc s) s.sp 4 + 4#32)
  else (s.setA a (load s (dataFc s) (s.a a) 4)).setSp (s.a a + 4#32)

/-- The memory form of ADDX, SUBX, ABCD, SBCD (R235, R330): `f` gets destination and source. -/
def pairDone (s : State) (sz : Size) (src dst : Reg) (f : Long → Long → Long × Ccr) : State :=
  let u := eaStep s sz (.preDec src)
  let t := pairStep s sz src dst
  let r := f (load s (dataFc s) (t.a dst) (bytesOf sz)) (load s (dataFc s) (u.a src) (bytesOf sz))
  finish (store t (dataFc s) (bytesOf sz) (t.a dst) r.1) 1 r.2

/-- The register form of the same instructions. -/
def pairRegDone (s : State) (sz : Size) (src dst : Reg) (f : Long → Long → Long × Ccr) : State :=
  let r := f (trunc sz (s.d dst)) (trunc sz (s.d src))
  finish (s.setDSized sz dst r.1) 1 r.2

/-- An address register after one byte step of PACK or UNPK (R334, log 16). -/
def packStepped (s : State) (n : Reg) : State := s.setA n (s.a n - packStep n)

/-! ## Bit fields (R320) -/

/-- `n` bytes upward, the first most significant, below the bits of `acc`. -/
def bitsAt (s : State) (fc : Fc) : Nat → Long → BitVec 40 → BitVec 40
  | 0, _, acc => acc
  | n + 1, a, acc => bitsAt s fc n (a + 1#32) ((acc <<< 8) ||| (byteAt s fc a).setWidth 40)

/-- Stores the low `n` bytes of `v` upward, the most significant first. -/
def bitsPut (s : State) (fc : Fc) : Nat → Long → BitVec 40 → State
  | 0, _, _ => s
  | n + 1, a, v => bitsPut (setByteAt s fc a ((v >>> (8 * n)).setWidth 8)) fc n (a + 1#32) v

/-- The bits that hold the field of offset `off` and width `w` of an effective address. -/
def fieldAt (s : State) (off : Long) (w : Nat) (ea : Ea) : BfPlace :=
  match ea with
  | .dn n =>
    { reg := some n, rot := off.toNat % 32, prog := false, addr := 0#32, bytes := 0,
      raw := ((s.d n).rotateLeft (off.toNat % 32)).setWidth 40, shift := 32 - w }
  | _ =>
    let loc := eaLoc s .l 1 ea
    let n := (off.toNat % 8 + w + 7) / 8
    let a := loc.addr + off.sshiftRight 3
    { reg := none, rot := 0, prog := loc.prog, addr := a, bytes := n, raw := bitsAt s (spaceFc s loc.prog) n a 0#40,
      shift := 8 * n - off.toNat % 8 - w }

/-- The state with a field replaced. -/
def fieldPut (s : State) (p : BfPlace) (w : Nat) (v : Long) : State :=
  match p.reg with
  | some n => s.setD n (((p.replace w v).setWidth 32).rotateRight p.rot)
  | none => bitsPut s (dataFc s) p.bytes p.addr (p.replace w v)

/-- The bit of a state that is bit `i` of a field, counted from the field's first bit (R320): bits of a data register
count down from bit 31 and wrap; bits of memory count from the most significant bit of the base byte. -/
def fieldBit (s : State) (off : Long) (ea : Ea) (i : Nat) : Bool :=
  match ea with
  | .dn n => (s.d n).getLsbD (31 - (off.toNat + i) % 32)
  | _ =>
    let loc := eaLoc s .l 1 ea
    (byteAt s (spaceFc s loc.prog) (loc.addr + BitVec.ofInt 32 ((off.toInt + i) / 8))).getLsbD
      (7 - ((off.toInt + i) % 8).toNat)

/-! ## Modules (R444, R448) -/

/-- The state after CALLM has written its module stack frame at `f`, but for the saved module data pointer; `d` is the
descriptor, `next` the saved PC. Access level and reserved word are those of log 21. -/
def moduleFrame (s : State) (f d next : Long) (argc : Byte) (opt : BitVec 3) (type : BitVec 5) : State :=
  let fc := dataFc s
  let t := store ((s.tickBy 2).setSp f) fc 2 f ((opt ++ type ++ savedLevel s type : Word).setWidth 32)
  let t := store t fc 2 (f + 2#32) (s.ccr.toByte.setWidth 32)
  let t := store t fc 2 (f + 4#32) (argc.setWidth 32)
  let t := store t fc 2 (f + 6#32) ((frameReserved s).setWidth 32)
  let t := store t fc 4 (f + 8#32) d
  let t := store t fc 4 (f + 12#32) next
  store t fc 4 (f + 20#32) s.sp

/-- What CALLM leaves before its jump, with the frame at `f`, and the jump's target: the register that the module entry
word names is saved, and gets the module data area pointer. -/
def called (s : State) (f d next : Long) (argc : Byte) (opt : BitVec 3) (type : BitVec 5) : State × Long :=
  let fc := dataFc s
  let t := moduleFrame s f d next argc opt type
  let entry := load t fc (d + 4#32) 4
  let rn : Rn := (load t fc entry 2).extractLsb' 12 4
  let u := store t fc 4 (f + 16#32) (t.rn rn)
  (u.setRn rn (load u fc (d + 8#32) 4), entry + 2#32)

/-- What RTM leaves before its jump, and the jump's target. -/
def returned (s : State) (rn : Rn) (type : BitVec 5) : State × Long :=
  let fc := dataFc s
  let f := s.sp
  let args := lowBits 8 (load s fc (f + 4#32) 2)
  let t := (s.setCcr (.ofByte ((load s fc (f + 2#32) 2).setWidth 8))).setRn rn (load s fc (f + 16#32) 4)
  (t.setSp (if type = 1#5 then load s fc (f + 20#32) 4 + args else f + 24#32 + args), load s fc (f + 12#32) 4)

/-- The state after `n` argument bytes have been copied upward (R444). -/
def argsCopied : Nat → State → Long → Long → State
  | 0, s, _, _ => s
  | n + 1, s, src, dst =>
    argsCopied n (store s (dataFc s) 1 dst ((byteAt s (dataFc s) src).setWidth 32)) (src + 1#32) (dst + 1#32)

/-! ## Coprocessors (R461, R531) -/

/-- An access to a coprocessor: a write, or a read with the data it delivers. -/
inductive CirEvent where
  | write (offset : BitVec 5) (bytes : Nat) (data : Long)
  | read (v : Long)
  deriving DecidableEq, Repr

/-- The coprocessor `id` takes part in these accesses, none of which ends in bus error; what it then has left (log 10). -/
def converse (id : BitVec 3) : List CirEvent → List Coprocessor → Option (List Coprocessor)
  | [], cs => some cs
  | .write offset bytes data :: es, cs =>
    match logWrite id { offset := offset, bytes := bytes, data := data } cs with
    | some (some (true, cs')) => converse id es cs'
    | _ => none
  | .read v :: es, cs =>
    match popAnswer id cs with
    | some (some (.data v', cs')) => if v' = v then converse id es cs' else none
    | _ => none

/-- The coprocessor `id` accepts a two-byte write at `offset` and answers the next read with `v`; `cs` is what it then
has left (log 10). -/
def Answers (s : State) (id : BitVec 3) (offset : BitVec 5) (data v : Long) (cs : List Coprocessor) : Prop :=
  converse id [.write offset 2 data, .read v] s.platform.coprocessors = some cs

/-- A response that releases the processor with condition `tf` (R531): Null with CA and PC clear, and (general
instructions) PF set or no trace pending. -/
def Releases (s : State) (general : Bool) (v : Long) (tf : Bool) : Prop :=
  let p := primitiveOf (v.setWidth 16)
  (p.code = 8 ∨ p.code = 9) ∧ p.ca = false ∧ p.pc = false ∧ p.param.getLsbD 0 = tf ∧
    (general = true → p.param.getLsbD 1 = true ∨ s.trace.pending = false)

/-- The state after the dialogue's only response, with the scanPC `bytes` after the operation word. -/
def answered (s : State) (cs : List Coprocessor) (bytes : Nat) : State :=
  { s with platform := { s.platform with coprocessors := cs }, scanPc := s.pc + BitVec.ofNat 32 bytes }

/-! ## What counts as unchanged -/

/-- Every byte of every space reads as before. -/
def SameMem (s t : State) : Prop := ∀ (fc : Fc) (a : Long), byteAt t fc a = byteAt s fc a

/-- Every byte reads as before but the `n` bytes of a space from `a` on. -/
def SameMemBut (s t : State) (fc : Fc) (a : Long) (n : Nat) : Prop :=
  ∀ (fc' : Fc) (a' : Long), (∀ i < n, memKey s.platform fc' a' ≠ memKey s.platform fc (a + BitVec.ofNat 32 i)) →
    byteAt t fc' a' = byteAt s fc' a'

/-- The state without the general registers, the PC, the flags, memory and the bookkeeping of accesses and free values:
the system byte of SR, the control registers, cache, pipe, interrupt, trace and exception state, and the platform. -/
def State.system (s : State) : State :=
  { s with regs := .reset, pc := 0#32, sr := { s.sr with ccr := .zero }, done := [], replay := [], freeIdx := 0, mem := [] }

/-- The stack pointers that A7 does not name now. -/
def State.otherSps (s : State) : Long × Long :=
  if s.sr.s then (s.regs.usp, if s.sr.m then s.regs.isp else s.regs.msp) else (s.regs.isp, s.regs.msp)

/-- The control registers (R37-R42). -/
def State.controls (s : State) : Long × Fc × Fc × Bool × Bool × Long :=
  (s.vbr, s.sfc, s.dfc, s.cacrE, s.cacrF, s.caar)

/-- The address register an effective address changes. -/
def steppedReg : Ea → Option Reg
  | .postInc n => some n
  | .preDec n => some n
  | _ => none

/-- The instructions that hold a dialogue with a coprocessor, which may read and write control registers (R541). -/
def dialogues : Instr → Bool
  | .flineCpid0 _ | .cpGen _ _ _ _ | .cpDbcc _ _ _ | .cpTrapccW _ _ | .cpTrapccL _ _ | .cpTrapcc _ _ | .cpScc _ _ _ _
  | .cpBccW _ _ | .cpBccL _ _ => true
  | _ => false

/-- The invariant of the machine: memory is in its canonical form, and a pending interrupt has a level (R680). -/
def Inv (s : State) : Prop := Memory.wf s.mem = true ∧ (s.irq.pending = true → s.irq.level ≠ 0#3)

end Sys2Proof.Machine
end

