-- ==== Sys2Proof/Certificates/Slice0/Obligations.lean ====
section
/-! DEFINITION. The statements about the model. A result `CompletesAs r t` gives the whole next state but for the log of
completed accesses, so what a statement does not change in `t` is unchanged. -/

section Statements

open Sys2Proof Sys2Proof.Machine

/-! ## Encoding -/

/-- Decoding an encoded well-formed instruction gives it back and leaves the words after it (R141, R171). -/
def Obligations.DecodeEncode : Prop :=
  ∀ (i : Instr) (rest : List Word), i.wf = true → decode (encode i ++ rest) = .instr i rest

/-- Whatever decodes, but for unassigned patterns, is well-formed (R171). -/
def Obligations.DecodedWellFormed : Prop :=
  ∀ (ws : List Word) (i : Instr) (rest : List Word), decode ws = .instr i rest →
    i.wf = true ∨ ∃ w, i = .unassigned w

/-- Words of the spec's examples decode to the instructions they stand for (R201, R204, R231, R322, R354, R441,
R442). -/
def Obligations.DecodeWords : Prop :=
  decode [0x3280#16] = .instr (.moveW (.dn 0#3) (.ind 1#3)) [] ∧
  decode [0x48E7#16, 0xC080#16] = .instr (.movemToMem true 0xC080#16 (.preDec 7#3)) [] ∧
  decode [0xD001#16] = .instr (.add .b false 0#3 (.dn 1#3)) [] ∧
  decode [0xE9C0#16, 0x1108#16] =
    .instr (.bfextu 1#3 { offReg := false, off := 4#5, widReg := false, wid := 8#5 } (.dn 0#3)) [] ∧
  decode [0x51C8#16, 0xFFFC#16] = .instr (.dbcc 1#4 0#3 0xFFFC#16) [] ∧
  decode [0x0ED0#16, 0x0040#16] = .instr (.cas .l 0#3 1#3 (.ind 0#3)) [] ∧
  decode [0x0EFC#16, 0x8080#16, 0x90C1#16] = .instr (.cas2L 8#4 2#3 0#3 9#4 3#3 1#3) []

/-! ## Steps -/

/-- When the words at the PC decode to a well-formed instruction, the step is its meaning, between the start of the
instruction (R631) and the boundary after it (R690). -/
def Obligations.StepRunsDecoded : Prop :=
  ∀ (s t : State) (i : Instr), s.run = .normal → s.resume = none → s.irq.pending = false →
    fetchInstr maxWords (beginInstr s) [] = .ok (i, t) → i.wf = true → step s = settle (exec i { t with current := i })

/-- Fetching with the cache off reads the words of a well-formed instruction from program space at an even PC. -/
def Obligations.FetchReadsProgram : Prop :=
  ∀ (s : State) (i : Instr), Quiet s → i.wf = true → s.pc.getLsbD 0 = false → cacheEnabled s = false →
    s.pipe = .empty → s.holding.valid = false →
    (∀ (k : Nat) (w : Word), (encode i)[k]? = some w →
      load s (progFc s) (s.pc + BitVec.ofNat 32 (2 * k)) 2 = w.setWidth 32) →
    ∃ h p, fetchInstr maxWords s [] = .ok (i, { s with holding := h, pipe := p })

/-- Tracing is latched at the start of an instruction (R630, R631): T1,T0 = 10 traces it, 01 traces it if it changes
flow, 00 does not; 11 is left out (log 15). At the boundary after it a pending trace is processed first (R690), but not
by a halted processor (R604) or one in a bus cycle that nothing ends (R90). That inputs arrive and requests are sampled once, after that, is the model's choice (log 5,
D11). -/
def Obligations.TraceAndBoundary : Prop :=
  (∀ s : State,
     (beginInstr s).trace.addr = s.pc ∧
     (s.sr.t1 = true → s.sr.t0 = false → (beginInstr s).trace.pending = true) ∧
     (s.sr.t1 = false → s.sr.t0 = true →
       (beginInstr s).trace.pending = false ∧ (markFlow (beginInstr s)).trace.pending = true) ∧
     (s.sr.t1 = false → s.sr.t0 = false → (markFlow (beginInstr s)).trace.pending = false)) ∧
  (∀ s : State, s.resume = none →
     let u := { s with done := [], replay := [] }
     (s.trace.pending = true → s.run ≠ .halted → s.run ≠ .waiting → afterInstr s = pollInputs (takeTrace u)) ∧
     (s.trace.pending = false ∨ s.run = .halted ∨ s.run = .waiting → afterInstr s = pollInputs u))

/-- A halted processor stays halted and keeps its registers until an external reset (R604); a stopped one executes
nothing until an interrupt is pending or a reset arrives (R408). A bus cycle that no device ends (R90) is waited in until
an input lets a device end it; if none does the processor waits with its registers until a reset, and without any input to
come that is the machine's fault. That inputs arrive in the wait one batch after the other is the model's choice (log 5). -/
def Obligations.WaitingStates : Prop :=
  (∀ s : State, (∀ b ∈ s.platform.inputs.head?, Input.reset ∉ b) →
    (s.run = .halted ∨ (s.run = .stopped ∧ s.irq.pending = false) ∨ (s.run = .waiting ∧ s.platform.inputs ≠ [])) →
    ∃ t, step s = .next t ∧ t.run = s.run ∧ t.regs = s.regs ∧ t.pc = s.pc ∧ t.sr = s.sr ∧ t.controls = s.controls) ∧
  (∀ s : State, s.run = .waiting → s.platform.inputs = [] → step s = .fault .busNeverEnds) ∧
  (∀ (s : State) (sz : Size) (n : Reg) (rs : List FaultRegion) (rest : List (List Input)), s.replay = [] →
    s.landing = none → s.platform.masters = [] →
    cycleErrs s.platform (dataFc s) true (extAddr s.platform.variant (s.a n)) = false →
    cycleWaits s.platform (dataFc s) true (extAddr s.platform.variant (s.a n)) = true →
    (s.platform.inputs = [] → exec (.tst sz (.ind n)) s = .next (hang s)) ∧
    (s.platform.inputs = [.reset] :: rest → exec (.tst sz (.ind n)) s = .next (hang s)) ∧
    (s.platform.inputs = [.silent rs] :: rest → exec (.tst sz (.ind n)) s =
      exec (.tst sz (.ind n)) { s with platform := { s.platform with silent := rs, inputs := rest } }))

/-! ## Reset -/

/-- The reset sequence (R701): SR, VBR, CACR and the cache, then ISP and PC from the two long words at address 0 of
supervisor program space; an odd PC halts the processor (R703). D0-D7, A0-A6, USP, MSP, the condition codes, SFC, DFC,
CAAR and memory stay (last paragraph of R60; log 2); no interrupt and no trace is pending (R704, D24; log 2); devices and
coprocessors return to their initial states (R705; what those are: logs 4, 10), and no bus cycle fails then. -/
def Obligations.ResetSequence : Prop :=
  ∀ s : State, Quiet { s with platform := resetPlatform s.platform } →
    let t := resetProcessor s
    let p := s.platform
    t.sr = { s.sr with t1 := false, t0 := false, s := true, m := false, mask := 7#3 } ∧ t.vbr = 0#32 ∧
    t.cacrE = false ∧ t.cacrF = false ∧ (∀ k : Fin 64, (t.cache.get k).valid = false) ∧
    t.regs = { s.regs with isp := load s 6#3 0#32 4 } ∧ t.pc = load s 6#3 4#32 4 ∧ t.mem = s.mem ∧
    t.sfc = s.sfc ∧ t.dfc = s.dfc ∧ t.caar = s.caar ∧ t.irq.pending = false ∧ t.trace.pending = false ∧
    t.platform = { p with
      faults := p.onReset.faults, silent := p.onReset.silent, iack := p.onReset.iack, access := p.onReset.access
      deviceResets := p.deviceResets + 1
      coprocessors := p.coprocessors.map fun c =>
        { c with answers := c.onReset, refusals := c.refusalsOnReset, log := [] } } ∧
    t.run = if (load s 6#3 4#32 4).getLsbD 0 then RunState.halted else RunState.normal

/-- The state after reset has the machine's invariant and the values R60 and R701 give for reset. That no interrupt and
no trace is pending is R704's decision D24 (log 2). -/
def Obligations.ResetState : Prop :=
  (Inv State.reset) ∧
  (State.reset.sr.t1 = false ∧ State.reset.sr.t0 = false ∧ State.reset.sr.s = true ∧ State.reset.sr.m = false ∧
   State.reset.sr.mask = 7#3 ∧ State.reset.vbr = 0#32 ∧ State.reset.cacrE = false ∧ State.reset.cacrF = false ∧
   (∀ k : Fin 64, (State.reset.cache.get k).valid = false) ∧ State.reset.run = .normal ∧
   State.reset.irq.pending = false ∧ State.reset.trace.pending = false)

/-- Every step keeps the invariant: memory in canonical form, a pending interrupt has a level. -/
def Obligations.StepKeepsInv : Prop := ∀ s t : State, Inv s → step s = .next t → Inv t

/-! ## Privilege -/

/-- At user level the privileged instructions (R627) are not executed: exception 8 with frame $0 at the instruction. -/
def Obligations.PrivilegedInUser : Prop :=
  ∀ (i : Instr) (s : State), privileged i = true → s.sr.s = false → exec i s = .next (abandoned s 8#8)

/-- What a user program cannot change: outside dialogues with a coprocessor, an instruction executed at user level
leaves VBR, SFC, DFC, CACR and CAAR alone, and if it stays at user level also the system byte of SR and both
supervisor stack pointers (R33, R36). An instruction that is continued after a bus fault, and takes over what the handler
left there (log 11), is not spoken of. -/
def Obligations.UserIsolation : Prop :=
  ∀ (i : Instr) (s t : State), dialogues i = false → s.sr.s = false → s.landing = none → exec i s = .next t →
    t.controls = s.controls ∧
      (t.sr.s = false → t.sr = { s.sr with ccr := t.sr.ccr } ∧ t.regs.isp = s.regs.isp ∧ t.regs.msp = s.regs.msp)

/-! ## Memory and cache -/

/-- Operands of 1 to 4 bytes read back as they were written at any address, the most significant byte first (R76, R80);
a store changes the bytes of its operand and no other. At the top of the address space they go on at address 0: the
spec's decision D3. -/
def Obligations.MemoryOperands : Prop :=
  (∀ (s : State) (fc : Fc) (n : Nat) (a v : Long), Memory.wf s.mem = true → n ≤ 4 →
     load (store s fc n a v) fc a n = lowBits (8 * n) v ∧
       ∀ i < n, byteAt (store s fc n a v) fc (a + BitVec.ofNat 32 i) = (v >>> (8 * (n - 1 - i))).setWidth 8) ∧
  (∀ (s : State) (fc : Fc) (n : Nat) (a v : Long), Memory.wf s.mem = true →
     SameMemBut s (store s fc n a v) fc a n ∧ store s fc n a v = { s with mem := (store s fc n a v).mem })

/-- A write to CACR (R40, R45, R46): C empties the cache, CE the entry that CAAR selects, E and F are stored, and a read
gives those two bits; no other entry changes. A word that is in the enabled cache is fetched from there, whatever a
store has put into memory (R112, R116), and one of the holding register's long word from the register (R113). A word that
is in neither is read with its long word, which fills the entry its address selects if the cache is enabled and not frozen
(R114, R115); a bus error of that read makes the entry invalid (R117). -/
def Obligations.InstructionCache : Prop :=
  (∀ (s : State) (rn : Rn), s.sr.s = true →
     ∃ t, exec (.movec true rn 2#12) s = .next t ∧ t.pc = pcAfter s 2 ∧
       ((s.rn rn).getLsbD 3 = true → ∀ k : Fin 64, (t.cache.get k).valid = false) ∧
       ((s.rn rn).getLsbD 2 = true → (t.cache.get (s.caar.extractLsb' 2 6).toFin).valid = false) ∧
       ((s.rn rn).getLsbD 3 = false → ∀ k : Fin 64,
         (s.rn rn).getLsbD 2 = false ∨ k ≠ (s.caar.extractLsb' 2 6).toFin → t.cache.get k = s.cache.get k) ∧
       readCtl t 2#12 = some (lowBits 2 (s.rn rn)) ∧ t.regs = s.regs ∧ t.sr = s.sr ∧ t.mem = s.mem) ∧
  (∀ (s : State) (fc : Fc) (n : Nat) (a b v lw : Long), s.pipe = .empty → s.holding.valid = false →
     a.getLsbD 0 = false → cacheHit s (progFc s) a = some lw →
     ∃ h p, fetchWord (store s fc n b v) a =
       .ok (if a.getLsbD 1 then lw.extractLsb' 0 16 else lw.extractLsb' 16 16,
         { store s fc n b v with holding := h, pipe := p })) ∧
  (∀ (s : State) (fc : Fc) (n : Nat) (a b v : Long), s.pipe = .empty → a.getLsbD 0 = false → s.holding.valid = true →
     s.holding.addr = longBase a → s.holding.fc2 = s.sr.s →
     ∃ p, fetchWord (store s fc n b v) a =
       .ok (if a.getLsbD 1 then s.holding.data.extractLsb' 0 16 else s.holding.data.extractLsb' 16 16,
         { store s fc n b v with pipe := p })) ∧
  (∀ (s : State) (a : Long), Alone s → s.pipe = .empty → s.holding.valid = false → a.getLsbD 0 = false →
     cacheHit s (progFc s) a = none →
     let k : Fin 64 := (a.extractLsb' 2 6).toFin
     let lw := load s (progFc s) (longBase a) 4
     (¬ TransferErrs s.platform (progFc s) true (longBase a) 4 →
       ∃ h p c, fetchWord s a = .ok (if a.getLsbD 1 then lw.extractLsb' 0 16 else lw.extractLsb' 16 16,
           { s with holding := h, pipe := p, cache := c }) ∧ h.data = lw ∧
         (cacheEnabled s = true → s.cacrF = false →
           c.get k = { tag := a.extractLsb' 8 24, fc2 := s.sr.s, valid := true, data := lw } ∧
             ∀ j : Fin 64, j ≠ k → c.get j = s.cache.get j) ∧
         (cacheEnabled s = false ∨ s.cacrF = true → c = s.cache)) ∧
     (TransferErrs s.platform (progFc s) true (longBase a) 4 →
       ∃ c, fetchWord s a = .error (.bus, { s with cache := c }) ∧
         (cacheEnabled s = true → c.get k = { s.cache.get k with valid := false } ∧
           ∀ j : Fin 64, j ≠ k → c.get j = s.cache.get j) ∧
         (cacheEnabled s = false → c = s.cache)))

/-! ## Exceptions -/

/-- Exception processing (R610-R612, R640) of everything but interrupts: the frame on the active supervisor stack, then
the vector as it reads in memory with the frame, here an even one (an odd one is in OddTargetFaults). -/
def Obligations.EntryFrame : Prop :=
  ∀ (s : State) (e : Entry), Quiet s → Memory.wf s.mem = true → e.level = none →
    let sr : Sr := { s.sr with s := true, t1 := false, t0 := false }
    let fields := frameHead s.sr e.pc e.body.format e.vector ++ e.body.fields
    let size := fieldsSize fields
    let sp := activeSp s.regs sr - BitVec.ofNat 32 size
    let target := load (fieldsPut s 5#3 sp fields) 5#3 (s.vbr + (e.vector.setWidth 32 <<< 2)) 4
    let t := takeEntry s e
    target.getLsbD 0 = false →
      t.pc = target ∧ t.sr = sr ∧ t.regs = setActiveSp s.regs sr sp ∧
      load t 5#3 sp 2 = s.sr.toWord.setWidth 32 ∧ load t 5#3 (sp + 2#32) 4 = e.pc ∧
      load t 5#3 (sp + 6#32) 2 = (e.body.format ++ 0#2 ++ e.vector ++ 0#2 : Word).setWidth 32 ∧
      (∀ x, e.body = .six x → load t 5#3 (sp + 8#32) 4 = x) ∧
      (∀ x i w ea, e.body = .mid x i w ea → load t 5#3 (sp + 8#32) 4 = x ∧ load t 5#3 (sp + 12#32) 2 = i.setWidth 32 ∧
        load t 5#3 (sp + 14#32) 2 = w.setWidth 32 ∧ load t 5#3 (sp + 16#32) 4 = ea) ∧ SameMemBut s t 5#3 sp size ∧
      t.controls = s.controls ∧ t.pipe = .empty

/-- A request above the mask, or a rise to level 7, becomes pending, and one that is pending stays so (R680, R681). The
interrupt (R683-R685): the mask rises to its level; with M = 1 a frame on the master stack, then the throwaway frame
(format 1, S set in its SR) on the interrupt stack, and M is cleared; with M = 0 one frame on the interrupt stack. The
vector is read after that, here an even one. -/
def Obligations.Interrupts : Prop :=
  (∀ s : State,
    let t := sampleIpl s
    (t.irq.pending = true ↔ s.irq.pending = true ∨ s.sr.mask.toNat < s.platform.ipl.toNat ∨
      (s.platform.ipl = 7#3 ∧ s.irq.prev ≠ 7#3)) ∧
    (s.sr.mask.toNat < s.platform.ipl.toNat ∨ (s.platform.ipl = 7#3 ∧ s.irq.prev ≠ 7#3) → t.irq.level = s.platform.ipl) ∧
    t = { s with irq := t.irq }) ∧
  (∀ s : State, Quiet s → Memory.wf s.mem = true →
    let v := iackVector s.platform s.irq.level
    let t := takeInterrupt s .four s.pc
    let head := fun (format : BitVec 4) => (format ++ 0#2 ++ v ++ 0#2 : Word).setWidth 32
    let framed := fieldsPut s 5#3 ((if s.sr.m then s.regs.msp else s.regs.isp) - 8#32) (frameHead s.sr s.pc 0#4 v)
    let stacked := if s.sr.m then
      fieldsPut framed 5#3 (s.regs.isp - 8#32) (frameHead { s.sr with s := true } s.pc 1#4 v) else framed
    let target := load stacked 5#3 (s.vbr + (v.setWidth 32 <<< 2)) 4
    target.getLsbD 0 = false →
      t.pc = target ∧
      t.sr = { s.sr with s := true, t1 := false, t0 := false, m := false, mask := s.irq.level } ∧
      t.irq = { s.irq with pending := false } ∧
      load t 5#3 (s.regs.isp - 8#32 + 2#32) 4 = s.pc ∧
      (s.sr.m = false →
        t.regs = { s.regs with isp := s.regs.isp - 8#32 } ∧
        load t 5#3 (s.regs.isp - 8#32) 2 = s.sr.toWord.setWidth 32 ∧
        load t 5#3 (s.regs.isp - 8#32 + 6#32) 2 = head 0#4) ∧
      (s.sr.m = true →
        t.regs = { s.regs with isp := s.regs.isp - 8#32, msp := s.regs.msp - 8#32 } ∧
        load t 5#3 (s.regs.isp - 8#32) 2 = ({ s.sr with s := true } : Sr).toWord.setWidth 32 ∧
        load t 5#3 (s.regs.isp - 8#32 + 6#32) 2 = head 1#4 ∧
        ((∀ i < 8, ∀ j < 8, memKey s.platform 5#3 (s.regs.msp - 8#32 + BitVec.ofNat 32 i) ≠
            memKey s.platform 5#3 (s.regs.isp - 8#32 + BitVec.ofNat 32 j)) →
          load t 5#3 (s.regs.msp - 8#32) 2 = s.sr.toWord.setWidth 32 ∧
          load t 5#3 (s.regs.msp - 8#32 + 2#32) 4 = s.pc ∧
          load t 5#3 (s.regs.msp - 8#32 + 6#32) 2 = head 0#4)))

/-- A bus error on the operand read of TST (An) at user level (R618, R652, R662): frame $B on the supervisor stack, vector
2, with the special status word, the fault address and the PC of the instruction, which R663 gives as the spec's own
decision D15 (log 13). That a handler whose first word cannot be
fetched halts the processor is the model's reading of R15 and R600 (log 35). -/
def Obligations.BusErrorFrame : Prop :=
  ∀ (s : State) (sz : Size) (n : Reg), Memory.wf s.mem = true → Alone s → s.sr.s = false → s.rmc = false →
    (∀ (read : Bool) (ext : Nat), cycleErrs s.platform 5#3 read ext = false) →
    (∀ ext : Nat, cycleErrs s.platform 6#3 true ext = false) →
    cycleErrs s.platform 1#3 true (extAddr s.platform.variant (s.a n)) = true →
    let sp := (if s.sr.m then s.regs.msp else s.regs.isp) - 92#32
    ∃ t, exec (.tst sz (.ind n)) s = .next t ∧
      ((load t 5#3 (s.vbr + 8#32) 4).getLsbD 0 = false →
        t.run = .normal ∧ t.pc = load t 5#3 (s.vbr + 8#32) 4 ∧
        t.sr = { s.sr with s := true, t1 := false, t0 := false } ∧
        t.regs = setActiveSp s.regs { s.sr with s := true } sp ∧
        load t 5#3 sp 2 = s.sr.toWord.setWidth 32 ∧ load t 5#3 (sp + 2#32) 4 = s.pc ∧
        load t 5#3 (sp + 6#32) 2 = 0xB008#32 ∧
        load t 5#3 (sp + 0x0A#32) 2 = (match sz with | .b => 0x151#32 | .w => 0x161#32 | .l => 0x141#32) ∧
        load t 5#3 (sp + 0x10#32) 4 = s.a n ∧ SameMemBut s t 5#3 sp 92) ∧
      ((load t 5#3 (s.vbr + 8#32) 4).getLsbD 0 = true → t.run = .halted)

/-- Odd addresses of instructions (R622). The address error of a change of flow: vector 3, a special status word that marks
both stages of the pipe for a rerun, and frame $B with the PC of the instruction and the address of stage B. An odd vector
of an exception other than an interrupt is an address error at once (R614): its frame holds the PC that exception saves and
the SR as its first step has left it, and the registers are as that step left them. Frame and PC are the spec's own
decisions D15 and D18 (R663, log 13). Which instructions go to odd addresses: JMP (xxx).L here, the others in
ControlFlow, ReturnFromException, Modules and ModuleAccess. -/
def Obligations.OddTargetFaults : Prop :=
  ∀ (s : State) (a : Long) (e : Entry), Quiet s → Memory.wf s.mem = true → e.level = none →
    let sr : Sr := { s.sr with s := true, t1 := false, t0 := false }
    let sp := activeSp s.regs sr - 92#32
    let faults := fun (t : State) (copy : Sr) (pc target : Long) =>
      (load t 5#3 (s.vbr + 12#32) 4).getLsbD 0 = false →
        t.run = .normal ∧ t.pc = load t 5#3 (s.vbr + 12#32) 4 ∧ t.sr = sr ∧ t.regs = setActiveSp s.regs sr sp ∧
        load t 5#3 sp 2 = copy.toWord.setWidth 32 ∧ load t 5#3 (sp + 2#32) 4 = pc ∧
        load t 5#3 (sp + 6#32) 2 = 0xB00C#32 ∧ load t 5#3 (sp + 0x0A#32) 2 = 0x3000#32 ∧
        load t 5#3 (sp + 0x24#32) 4 = target + 2#32 ∧ SameMemBut s t 5#3 sp 92
    let fields := frameHead s.sr e.pc e.body.format e.vector ++ e.body.fields
    let framed := fieldsPut s 5#3 (activeSp s.regs sr - BitVec.ofNat 32 (fieldsSize fields)) fields
    let vector := load framed 5#3 (s.vbr + (e.vector.setWidth 32 <<< 2)) 4
    faults (jumpFault s a) s.sr s.pc a ∧
    (a.getLsbD 0 = true → ∃ t, exec (.jmp (.absL a)) s = .next t ∧ faults t s.sr s.pc a) ∧
    (vector.getLsbD 0 = true → faults (takeEntry s e) sr e.pc vector)

/-- A fault while a bus fault is being processed halts the processor (R604): a failing bus cycle of any one field of the
frame, or of the vector. So does a bus cycle of either reset vector address that fails (R703). No device leaves a cycle
without an end here. That the handler's first
word counts too is the model's reading of R15 and R600 (log 35). -/
def Obligations.DoubleFaultHalts : Prop :=
  (∀ (s : State) (f : FaultFrame), s.platform.silent = [] →
     let fields := faultFields s f
     let sp := activeSp s.regs { s.sr with s := true } - BitVec.ofNat 32 (fieldsSize fields)
     (∀ (pre post : List (Nat × Long)) (n : Nat) (v : Long), fields = pre ++ (n, v) :: post →
       TransferErrs s.platform 5#3 false (sp + BitVec.ofNat 32 (fieldsSize pre)) n → (takeFault s f).run = .halted) ∧
     (TransferErrs s.platform 5#3 true (vectorAddr s f.vector) 4 → (takeFault s f).run = .halted) ∧
     (∀ t u target, pushFields (suspend s f) fields = .ok t →
       busRead t 5#3 (vectorAddr s f.vector) 4 = .ok (target, u) →
       (target.getLsbD 0 = true ∨ (cacheEnabled s = false ∧ TransferErrs s.platform 6#3 true (longBase target) 4)) →
       (takeFault s f).run = .halted)) ∧
  (∀ s : State, s.platform.onReset.silent = [] → let p := resetPlatform s.platform
     TransferErrs p 6#3 true 0#32 4 ∨ TransferErrs p 6#3 true 4#32 4 → (resetProcessor s).run = .halted)

/-- What RTE makes of a bus fault frame at user level (R660, R668-R670). TST of an operand and MOVE.L to an operand, at
their start, end in a bus error; at the handler the frame is changed, or the cause removed, and RTE executed. With DF
cleared (and for the read the data input buffer set to `v`) the instruction completes without the cycle; with DF set RTE
runs the cycle again. Then the instruction is complete, with the registers the handler left. -/
def Obligations.BusFaultReturn : Prop :=
  ∀ (s t : State) (i : Instr) (sz : Size) (d n : Reg) (v : Long), Memory.wf s.mem = true → Alone s → s.sr.s = false →
    s.rmc = false → Begun s i →
    (∀ (read : Bool) (ext : Nat), cycleErrs s.platform 5#3 read ext = false) →
    (∀ read : Bool, cycleErrs s.platform 1#3 read (extAddr s.platform.variant (s.a n)) = true) →
    exec i s = .next t → t.run = .normal →
    let sp := t.sp
    let cleared := store t 5#3 2 (sp + 0x0A#32) (load t 5#3 (sp + 0x0A#32) 2 &&& 0xFEFF#32)
    let answered := store cleared 5#3 4 (sp + 0x2C#32) v
    let mended : State := { t with platform := { t.platform with faults := [] } }
    let ends := fun (h : State) (m : List Host.Cell) (f : Ccr) =>
      ∃ u w, exec .rte h = .next u ∧ u.run = .normal ∧ u.resume = some (.instr i) ∧
        exec i { u with resume := none } = .next w ∧ w.regs = s.regs ∧ w.pc = pcAfter s 1 ∧
        w.sr = { s.sr with ccr := f } ∧ w.controls = s.controls ∧ w.mem = m
    (i = .tst sz (.ind n) → ends answered answered.mem (logicFlags s.ccr sz (lowBits (8 * bytesOf sz) v)) ∧
      ends mended t.mem (logicFlags s.ccr sz (load t 1#3 (s.a n) (bytesOf sz)))) ∧
    (i = .moveL (.dn d) (.ind n) → ends cleared cleared.mem (logicFlags s.ccr .l (s.d d)) ∧
      ends mended (store t 1#3 4 (s.a n) (s.d d)).mem (logicFlags s.ccr .l (s.d d)))

/-- TRAP and the RTE of its handler bring back registers, SR and the PC after the TRAP (R410, R425), where the vector, as
it reads with the frame in memory, is even. -/
def Obligations.TrapReturn : Prop :=
  ∀ (s t : State) (v : BitVec 4), Quiet s → Memory.wf s.mem = true → (pcAfter s 1).getLsbD 0 = false →
    exec (.trap v) s = .next t →
    let framed := fieldsPut s 5#3 (activeSp s.regs { s.sr with s := true } - 8#32)
      (frameHead s.sr (pcAfter s 1) 0#4 (32#8 + v.setWidth 8))
    (load framed 5#3 (s.vbr + ((32#8 + v.setWidth 8).setWidth 32 <<< 2)) 4).getLsbD 0 = false →
    ∃ u, exec .rte t = .next u ∧ u.regs = s.regs ∧ u.sr = s.sr ∧ u.pc = pcAfter s 1 ∧ u.controls = s.controls

/-! ## Arithmetic and flags -/

/-- The flags of addition and subtraction as facts about integers (R230): X and C are the carry or borrow, V that the
signed result does not fit, N and Z of the result; X-type clears Z only, CMP-type keeps X. The logical flag rule
(R280). -/
def Obligations.AddSubFlags : Prop :=
  ∀ (sz : Size) (d s : Long) (x : Bool), sz.fits d = true → sz.fits s = true →
    let n := sz.bits
    let fitsSigned := fun i : Int => -(2 ^ (n - 1) : Int) ≤ i ∧ i < 2 ^ (n - 1)
    let a := addRes sz d s x
    let b := subRes sz d s x
    a.toNat = (d.toNat + s.toNat + x.toNat) % 2 ^ n ∧
    addFlags sz d s a = { x := decide (2 ^ n ≤ d.toNat + s.toNat + x.toNat), n := a.getLsbD (n - 1), z := decide (a = 0#32),
                          v := !decide (fitsSigned ((sext sz d).toInt + (sext sz s).toInt + x.toNat)),
                          c := decide (2 ^ n ≤ d.toNat + s.toNat + x.toNat) } ∧
    b.toNat = (d.toNat + 2 ^ (n + 1) - s.toNat - x.toNat) % 2 ^ n ∧
    subFlags sz d s b = { x := decide (d.toNat < s.toNat + x.toNat), n := b.getLsbD (n - 1), z := decide (b = 0#32),
                          v := !decide (fitsSigned ((sext sz d).toInt - (sext sz s).toInt - x.toNat)),
                          c := decide (d.toNat < s.toNat + x.toNat) } ∧
    (x = false → aluAdd sz d s = (a, addFlags sz d s a) ∧ aluSub sz d s = (b, subFlags sz d s b)) ∧
    ∀ f : Ccr,
      (x = false → cmpFlags f sz d s = { subFlags sz d s b with x := f.x }) ∧
      (f.x = x → aluAddx f sz d s = (a, { addFlags sz d s a with z := f.z && decide (a = 0#32) }) ∧
        aluSubx f sz d s = (b, { subFlags sz d s b with z := f.z && decide (b = 0#32) })) ∧
      logicFlags f sz d = { x := f.x, n := d.getLsbD (n - 1), z := decide (d = 0#32), v := false, c := false }

/-- The shifts and rotates in closed form. ASL, LSL, ASR, LSR (R289-R292). ROL and ROR (R293, R294): the bits move around
the operand, X stays, C is the last bit rotated. ROXL and ROXR (R295, R296): the n + 1 bits of operand and X go around; C
is X. -/
def Obligations.ShiftsAndRotates : Prop :=
  (∀ (sz : Size) (cnt : Nat) (v : Long) (f : Ccr), sz.fits v = true →
     let n := sz.bits
     let out : Bool := decide (0 < cnt ∧ cnt ≤ n) && v.getLsbD (n - cnt)
     let fit : Prop := -(2 ^ (n - 1) : Int) ≤ (sext sz v).toInt * 2 ^ cnt ∧ (sext sz v).toInt * 2 ^ cnt < 2 ^ (n - 1)
     let l := shiftBy .lsl sz cnt v f
     let a := shiftBy .asl sz cnt v f
     l.1.toNat = v.toNat * 2 ^ cnt % 2 ^ n ∧ a.1 = l.1 ∧
     l.2 = { x := if cnt = 0 then f.x else out, n := l.1.getLsbD (n - 1), z := decide (l.1 = 0#32), v := false,
             c := out } ∧
     (a.2.v = true ↔ ¬ fit) ∧ a.2 = { l.2 with v := a.2.v }) ∧
  (∀ (sz : Size) (cnt : Nat) (v : Long) (f : Ccr), sz.fits v = true →
     let n := sz.bits
     let l := shiftBy .lsr sz cnt v f
     let a := shiftBy .asr sz cnt v f
     let lout : Bool := decide (0 < cnt ∧ cnt ≤ n) && v.getLsbD (cnt - 1)
     let aout : Bool := decide (0 < cnt) && v.getLsbD (min cnt n - 1)
     l.1.toNat = v.toNat / 2 ^ cnt ∧
     l.2 = { x := if cnt = 0 then f.x else lout, n := l.1.getLsbD (n - 1), z := decide (l.1 = 0#32), v := false,
             c := lout } ∧
     (sext sz a.1).toInt = (sext sz v).toInt / 2 ^ cnt ∧ sz.fits a.1 = true ∧
     a.2 = { x := if cnt = 0 then f.x else aout, n := a.1.getLsbD (n - 1), z := decide (a.1 = 0#32), v := false,
             c := aout }) ∧
  (∀ (sz : Size) (cnt : Nat) (v : Long) (f : Ccr), sz.fits v = true →
     let n := sz.bits
     let l := shiftBy .rol sz cnt v f
     let r := shiftBy .ror sz cnt v f
     (∀ i < n, l.1.getLsbD ((i + cnt) % n) = v.getLsbD i) ∧ sz.fits l.1 = true ∧
     l.2 = { x := f.x, n := l.1.getLsbD (n - 1), z := decide (l.1 = 0#32), v := false,
             c := decide (0 < cnt) && l.1.getLsbD 0 } ∧
     (∀ i < n, r.1.getLsbD i = v.getLsbD ((i + cnt) % n)) ∧ sz.fits r.1 = true ∧
     r.2 = { x := f.x, n := r.1.getLsbD (n - 1), z := decide (r.1 = 0#32), v := false,
             c := decide (0 < cnt) && r.1.getLsbD (n - 1) }) ∧
  (∀ (sz : Size) (cnt : Nat) (v : Long) (f : Ccr), sz.fits v = true →
     let n := sz.bits
     let ring := fun (w : Long) (x : Bool) (i : Nat) => if i = n then x else w.getLsbD i
     let l := shiftBy .roxl sz cnt v f
     let r := shiftBy .roxr sz cnt v f
     (∀ i ≤ n, ring l.1 l.2.x ((i + cnt) % (n + 1)) = ring v f.x i) ∧ sz.fits l.1 = true ∧
     l.2 = { x := l.2.x, n := l.1.getLsbD (n - 1), z := decide (l.1 = 0#32), v := false, c := l.2.x } ∧
     (∀ i ≤ n, ring r.1 r.2.x i = ring v f.x ((i + cnt) % (n + 1))) ∧ sz.fits r.1 = true ∧
     r.2 = { x := r.2.x, n := r.1.getLsbD (n - 1), z := decide (r.1 = 0#32), v := false, c := r.2.x })

/-- Decimal addition and subtraction (R330): of valid digits, two digits and a carry or borrow, which is X and C; Z is only
ever cleared, N and V are free values. With an invalid digit the result and all flags are free values (log 14). ABCD, SBCD
and NBCD (of zero) give this result and these flags. -/
def Obligations.DecimalArithmetic : Prop :=
  ∀ (d s : Long) (f : Ccr) (i : Nat), d.toNat < 256 → s.toNat < 256 →
    let digits := fun v : Long => v.toNat / 16 < 10 ∧ v.toNat % 16 < 10
    let num := fun v : Long => v.toNat / 16 * 10 + v.toNat % 16
    let a := bcdOut f i (bcdValid d && bcdValid s) (bcdAdd d s f.x)
    let b := bcdOut f i (bcdValid d && bcdValid s) (bcdSub d s f.x)
    let gives := fun (r : Long × Ccr) (value : Nat) (carry : Bool) =>
      digits r.1 ∧ r.1.toNat < 256 ∧ num r.1 = value ∧
      r.2 = { x := carry, n := Config.freeBit i, z := f.z && decide (value = 0), v := Config.freeBit (i + 1), c := carry }
    let taken := num s + f.x.toNat
    let open_ : Long × Ccr := ((Config.freeLong i) &&& 0xFF#32,
      { x := Config.freeBit (i + 2), n := Config.freeBit i, z := Config.freeBit (i + 3), v := Config.freeBit (i + 1),
        c := Config.freeBit (i + 4) })
    (digits d ∧ digits s →
      gives a ((num d + taken) % 100) (decide (100 ≤ num d + taken)) ∧
      gives b (if num d < taken then num d + 100 - taken else num d - taken) (decide (num d < taken))) ∧
    (¬ (digits d ∧ digits s) → a = open_ ∧ b = open_)

/-- A bit field's value consists of the bits R320 names, first bit most significant, and replacing it changes those bits
and no others; its signed value and the place of its first one (R323, R327). -/
def Obligations.BitFieldContents : Prop :=
  (∀ (s : State) (off v : Long) (w : Nat) (ea : Ea), Memory.wf s.mem = true → 1 ≤ w → w ≤ 32 →
     let p := fieldAt s off w ea
     let t := fieldPut s p w v
     (∀ i < w, (p.value w).getLsbD (w - 1 - i) = fieldBit s off ea i) ∧ (p.value w).toNat < 2 ^ w ∧
     (∀ n, ea = .dn n →
       (∀ i < w, (t.d n).getLsbD (31 - (off.toNat + i) % 32) = v.getLsbD (w - 1 - i)) ∧
       (∀ j < 32, (∀ i < w, j ≠ 31 - (off.toNat + i) % 32) → (t.d n).getLsbD j = (s.d n).getLsbD j) ∧
       ∃ x, t = s.setD n x) ∧
     (∀ a, (∀ n, ea ≠ .dn n) → eaLoc s .l 1 ea = .mem false a →
       (∀ i < w, (byteAt t (dataFc s) (a + BitVec.ofInt 32 ((off.toInt + i) / 8))).getLsbD
         (7 - ((off.toInt + i) % 8).toNat) = v.getLsbD (w - 1 - i)) ∧
       (∀ (fc : Fc) (b : Long) (j : Nat), j < 8 →
         (∀ i < w, ¬ (memKey s.platform fc b = memKey s.platform (dataFc s) (a + BitVec.ofInt 32 ((off.toInt + i) / 8)) ∧
           j = 7 - ((off.toInt + i) % 8).toNat)) → (byteAt t fc b).getLsbD j = (byteAt s fc b).getLsbD j) ∧
       t = { s with mem := t.mem })) ∧
  (∀ (w : Nat) (v : Long), 1 ≤ w → w ≤ 32 → v.toNat < 2 ^ w →
     (bfSigned w v).toInt = (if v.getLsbD (w - 1) then (v.toNat : Int) - 2 ^ w else v.toNat) ∧
     firstOne v w ≤ w ∧ (∀ i < firstOne v w, v.getLsbD (w - 1 - i) = false) ∧
     (firstOne v w < w → v.getLsbD (w - 1 - firstOne v w) = true))

/-! ## Addressing modes -/

/-- The addressing modes: the steps of -(An) and (An)+ (R153, R154), as TST makes them; the addresses of the control modes
(R152, R155-R161), as LEA gives them, with the index (low word sign-extended or long, times 1, 2, 4 or 8), displacements
(sign-extended, zero if null), and the long word of a memory indirect mode, read in data space for An and in program space
for the PC. -/
def Obligations.AddressingModes : Prop :=
  ∀ (s : State) (sz : Size) (n a : Reg) (d8 : Byte) (d16 : Word) (d32 : Long) (x : XIndex) (bs is : Bool) (bd : Disp)
    (ind : Indirect), Quiet s →
    let step : Long := match sz with | .b => if n = 7#3 then 2#32 else 1#32 | .w => 2#32 | .l => 4#32
    let tests := fun (ea : Ea) (at_ : Long) (t : State) => CompletesAs (exec (.tst sz ea) s)
      (finish t 1 (logicFlags s.ccr sz (load s (dataFc s) at_ (bytesOf sz))))
    let leads := fun (ea : Ea) (at_ : Long) =>
      CompletesAs (exec (.lea a ea) s) (advance (1 + eaLen .l ea) (s.setA a at_))
    let r := s.rn x.rn
    let index := BitVec.ofInt 32 ((if x.long then r.toInt else (r.setWidth 16).toInt) * 2 ^ x.scale.toNat)
    let disp := fun (d : Disp) => match d with
      | .null => 0#32
      | .word w => BitVec.ofInt 32 w.toInt
      | .long l => l
    let full := fun (fc : Fc) (base : Long) =>
      let b := (if bs then 0#32 else base) + disp bd
      let i := if is then 0#32 else index
      match ind with
      | .none => b + i
      | .pre od => load s fc (b + i) 4 + disp od
      | .post od => load s fc b 4 + i + disp od
    let pcx := s.pc + 2#32
    tests (.ind n) (s.a n) s ∧ tests (.postInc n) (s.a n) (s.setA n (s.a n + step)) ∧
    tests (.preDec n) (s.a n - step) (s.setA n (s.a n - step)) ∧
    leads (.ind n) (s.a n) ∧ leads (.disp n d16) (s.a n + BitVec.ofInt 32 d16.toInt) ∧
    leads (.idx n (.brief x d8)) (s.a n + BitVec.ofInt 32 d8.toInt + index) ∧
    leads (.idx n (.full x bs is bd ind)) (full (dataFc s) (s.a n)) ∧
    leads (.absW d16) (BitVec.ofInt 32 d16.toInt) ∧ leads (.absL d32) d32 ∧
    leads (.pcDisp d16) (pcx + BitVec.ofInt 32 d16.toInt) ∧
    leads (.pcIdx (.brief x d8)) (pcx + BitVec.ofInt 32 d8.toInt + index) ∧
    leads (.pcIdx (.full x bs is bd ind)) (full (progFc s) pcx)

/-! ## Results: arithmetic and logic -/

/-- `<ea>,Dn`: ADD, SUB, AND, OR; `Dn,<ea>`: ADD, SUB, AND, OR, EOR replace the operand (R231, R236, R280, R281, R283,
R285). -/
def Obligations.AluForms : Prop :=
  (∀ (s : State) (sz : Size) (d : Reg) (ea : Ea), Quiet s →
     CompletesAs (exec (.add sz false d ea) s) (intoDn s sz d ea (aluAdd sz)) ∧
     CompletesAs (exec (.sub sz false d ea) s) (intoDn s sz d ea (aluSub sz)) ∧
     CompletesAs (exec (.and sz false d ea) s)
       (intoDn s sz d ea fun x y => (x &&& y, logicFlags s.ccr sz (x &&& y))) ∧
     CompletesAs (exec (.or sz false d ea) s)
       (intoDn s sz d ea fun x y => (x ||| y, logicFlags s.ccr sz (x ||| y)))) ∧
  (∀ (s : State) (sz : Size) (d : Reg) (ea : Ea), Quiet s →
     let r := trunc sz (s.d d)
     CompletesAs (exec (.add sz true d ea) s) (modified s sz 0 ea fun v => aluAdd sz v r) ∧
     CompletesAs (exec (.sub sz true d ea) s) (modified s sz 0 ea fun v => aluSub sz v r) ∧
     CompletesAs (exec (.and sz true d ea) s)
       (modified s sz 0 ea fun v => (v &&& r, logicFlags s.ccr sz (v &&& r))) ∧
     CompletesAs (exec (.or sz true d ea) s)
       (modified s sz 0 ea fun v => (v ||| r, logicFlags s.ccr sz (v ||| r))) ∧
     CompletesAs (exec (.eor sz d ea) s) (modified s sz 0 ea fun v => (v ^^^ r, logicFlags s.ccr sz (v ^^^ r))))

/-- `#data,<ea>`: ADDI, SUBI, ANDI, ORI, EORI, and ADDQ and SUBQ to operands other than An; ADDQ and SUBQ to An change
all 32 bits and no flag (R233, R234, R238, R239, R282, R284, R286). -/
def Obligations.ImmediateToEa : Prop :=
  ∀ (s : State) (sz : Size) (imm : Long) (q : BitVec 3) (ea : Ea), Quiet s →
    let own := if sz = .l then 2 else 1
    let n : Long := BitVec.ofNat 32 (if q = 0#3 then 8 else q.toNat)
    CompletesAs (exec (.addi sz imm ea) s) (modified s sz own ea fun v => aluAdd sz v imm) ∧
    CompletesAs (exec (.subi sz imm ea) s) (modified s sz own ea fun v => aluSub sz v imm) ∧
    CompletesAs (exec (.andi sz imm ea) s)
      (modified s sz own ea fun v => (v &&& imm, logicFlags s.ccr sz (v &&& imm))) ∧
    CompletesAs (exec (.ori sz imm ea) s)
      (modified s sz own ea fun v => (v ||| imm, logicFlags s.ccr sz (v ||| imm))) ∧
    CompletesAs (exec (.eori sz imm ea) s)
      (modified s sz own ea fun v => (v ^^^ imm, logicFlags s.ccr sz (v ^^^ imm))) ∧
    ((∀ a, ea ≠ .an a) →
      CompletesAs (exec (.addq sz q ea) s) (modified s sz 0 ea fun v => aluAdd sz v n) ∧
      CompletesAs (exec (.subq sz q ea) s) (modified s sz 0 ea fun v => aluSub sz v n)) ∧
    ∀ a, ea = .an a →
      exec (.addq sz q ea) s = .next (advance 1 (s.setA a (s.a a + n))) ∧
      exec (.subq sz q ea) s = .next (advance 1 (s.setA a (s.a a - n)))

/-- NEG, NEGX, NOT, NBCD replace the operand; CLR, Scc and MOVE from CCR only write it (R241-R243, R287, R333, R355,
R394). The free values of NBCD are drawn at the start (log 14). -/
def Obligations.UnaryOnEa : Prop :=
  ∀ (s : State) (sz : Size) (cc : Cond) (ea : Ea), Quiet s →
    CompletesAs (exec (.neg sz ea) s) (modified s sz 0 ea fun v => aluSub sz 0#32 v) ∧
    CompletesAs (exec (.negx sz ea) s) (modified s sz 0 ea fun v => aluSubx s.ccr sz 0#32 v) ∧
    CompletesAs (exec (.not sz ea) s)
      (modified s sz 0 ea fun v => (trunc sz (~~~v), logicFlags s.ccr sz (trunc sz (~~~v)))) ∧
    CompletesAs (exec (.nbcd ea) s) (modified (s.tickBy 5) .b 0 ea fun v =>
      bcdOut s.ccr s.freeIdx (bcdValid v) (bcdSub 0#32 v s.ccr.x)) ∧
    CompletesAs (exec (.clr sz ea) s) (finish (putAt (eaStep s sz ea) sz 0#32 (eaLoc s sz 0 ea)) (1 + eaLen sz ea)
      { x := s.ccr.x, n := false, z := true, v := false, c := false }) ∧
    CompletesAs (exec (.scc cc ea) s) (advance (1 + eaLen .b ea)
      (putAt (eaStep s .b ea) .b (if cond cc s.ccr then 0xFF#32 else 0#32) (eaLoc s .b 0 ea))) ∧
    CompletesAs (exec (.moveFromCcr ea) s) (advance (1 + eaLen .w ea)
      (putAt (eaStep s .w ea) .w (s.ccr.toByte.setWidth 32) (eaLoc s .w 0 ea)))

/-- CMP, CMPI, CMPA, CMPM, TST and MOVE to CCR change flags and stepped address registers only (R244-R247, R249,
R395). -/
def Obligations.Compares : Prop :=
  ∀ (s : State) (sz : Size) (d x y : Reg) (long : Bool) (imm : Long) (ea : Ea), Quiet s →
    let az := longSize long
    let u := s.setA x (s.a x + incOf sz x)
    CompletesAs (exec (.cmp sz d ea) s) (tested s sz 0 ea fun v => cmpFlags s.ccr sz (trunc sz (s.d d)) v) ∧
    CompletesAs (exec (.cmpi sz imm ea) s)
      (tested s sz (if sz = .l then 2 else 1) ea fun v => cmpFlags s.ccr sz v imm) ∧
    CompletesAs (exec (.cmpa long d ea) s) (finish (eaStep s az ea) (1 + eaLen az ea)
      (cmpFlags s.ccr .l ((eaStep s az ea).a d) (sext az (eaVal s az 0 ea)))) ∧
    CompletesAs (exec (.cmpm sz x y) s) (finish (u.setA y (u.a y + incOf sz y)) 1
      (cmpFlags s.ccr sz (load s (dataFc s) (u.a y) (bytesOf sz)) (load s (dataFc s) (s.a x) (bytesOf sz)))) ∧
    CompletesAs (exec (.tst sz ea) s) (tested s sz 0 ea fun v => logicFlags s.ccr sz v) ∧
    CompletesAs (exec (.moveToCcr ea) s) (tested s .w 0 ea fun v => .ofByte (v.setWidth 8))

/-- ADDA, SUBA, MOVEA: a word is sign-extended, all of An is written, no flag changes (R202, R232, R237); LEA (R207). -/
def Obligations.ToAddressRegister : Prop :=
  ∀ (s : State) (a : Reg) (long : Bool) (ea : Ea), Quiet s →
    CompletesAs (exec (.adda long a ea) s) (intoAn s (longSize long) a ea fun x v => x + v) ∧
    CompletesAs (exec (.suba long a ea) s) (intoAn s (longSize long) a ea fun x v => x - v) ∧
    CompletesAs (exec (.moveaW a ea) s) (intoAn s .w a ea fun _ v => v) ∧
    CompletesAs (exec (.moveaL a ea) s) (intoAn s .l a ea fun _ v => v) ∧
    CompletesAs (exec (.lea a ea) s) (advance (1 + eaLen .l ea) ((eaStep s .l ea).setA a (eaLoc s .l 0 ea).addr))

/-- MOVE (R201): the source is read and its register stepped before the destination's address is computed (R200 f);
MOVEQ and its word (R203). -/
def Obligations.Moves : Prop :=
  ∀ (s : State) (src dst : Ea) (d : Reg) (imm : Byte), Quiet s →
    let r := fun sz =>
      let u := eaStep s sz src
      let v := eaVal s sz 0 src
      finish (putAt (eaStep u sz dst) sz v (eaLoc u sz (eaLen sz src) dst)) (1 + eaLen sz src + eaLen sz dst)
        { x := s.ccr.x, n := msb sz v, z := decide (v = 0#32), v := false, c := false }
    CompletesAs (exec (.moveB src dst) s) (r .b) ∧ CompletesAs (exec (.moveW src dst) s) (r .w) ∧
    CompletesAs (exec (.moveL src dst) s) (r .l) ∧
    decode [7#4 ++ d ++ 0#1 ++ imm] = .instr (.moveq d imm) [] ∧
    exec (.moveq d imm) s = .next (finish (s.setD d (imm.signExtend 32)) 1
      { x := s.ccr.x, n := imm.getLsbD 7, z := decide (imm = 0#8), v := false, c := false })

/-- MOVEM to memory (R204) and from memory (R205). Bit k of the mask is register k of D0 to D7, A0 to A7, but for -(An),
where it is bit 15 - k; the registers lie at ascending addresses in that order. To memory: upward from the address, or, for
-(An), below An, which is decremented by all of them; An itself is then stored decremented by the size. From memory: words
are sign-extended; with (An)+ the register holds the address after the last operand. -/
def Obligations.MoveMultiple : Prop :=
  (∀ (s : State) (long : Bool) (mask : Word) (ea : Ea), Quiet s → Memory.wf s.mem = true →
    let sz := longSize long
    let n := bytesOf sz
    let below := fun (has : Nat → Bool) (k : Nat) => ((List.range k).filter has).length
    (∀ r, ea = .preDec r →
      let has := fun k => mask.getLsbD (15 - k)
      let size := n * below has 16
      let a := s.a r - BitVec.ofNat 32 size
      ∃ t, exec (.movemToMem long mask ea) s = .next t ∧
        (∀ k < 16, has k = true → load t (dataFc s) (a + BitVec.ofNat 32 (n * below has k)) n =
          trunc sz (if k = 8 + r.toNat then s.a r - BitVec.ofNat 32 n else s.rn (BitVec.ofNat 4 k))) ∧
        SameMemBut s t (dataFc s) a size ∧
        t = { s.setA r a with pc := pcAfter s 2, mem := t.mem, done := t.done }) ∧
    ((∀ r, ea ≠ .preDec r) →
      let has := fun k => mask.getLsbD k
      let a := (eaLoc s .l 1 ea).addr
      ∃ t, exec (.movemToMem long mask ea) s = .next t ∧
        (∀ k < 16, has k = true → load t (dataFc s) (a + BitVec.ofNat 32 (n * below has k)) n =
          trunc sz ((eaStep s .l ea).rn (BitVec.ofNat 4 k))) ∧
        SameMemBut s t (dataFc s) a (n * below has 16) ∧
        t = { eaStep s .l ea with pc := pcAfter s (2 + eaLen .l ea), mem := t.mem, done := t.done })) ∧
  (∀ (s : State) (long : Bool) (mask : Word) (ea : Ea), Quiet s → ea.wf .controlOrPost .l = true →
    let sz := longSize long
    let n := bytesOf sz
    let below := fun (k : Nat) => ((List.range k).filter fun j => mask.getLsbD j).length
    let loc := eaLoc s .l 1 ea
    let stepped := fun (k : Nat) => ∃ r : Reg, ea = .postInc r ∧ k = 8 + r.toNat
    ∃ t, exec (.movemToRegs long mask ea) s = .next t ∧
      (∀ k < 16, ¬ stepped k → mask.getLsbD k = true → t.rn (BitVec.ofNat 4 k) =
        sext sz (load s (spaceFc s loc.prog) (loc.addr + BitVec.ofNat 32 (n * below k)) n)) ∧
      (∀ k < 16, ¬ stepped k → mask.getLsbD k = false → t.rn (BitVec.ofNat 4 k) = s.rn (BitVec.ofNat 4 k)) ∧
      (∀ r, ea = .postInc r → t.a r = s.a r + BitVec.ofNat 32 (n * below 16)) ∧
      t.otherSps = s.otherSps ∧ t = { s with regs := t.regs, pc := pcAfter s (2 + eaLen .l ea), done := t.done })

/-- MOVEP (R206): the bytes of the register at every other address, the most significant first. -/
def Obligations.MovepBytes : Prop :=
  ∀ (s : State) (long : Bool) (d a : Reg) (d16 : Word), Quiet s → Memory.wf s.mem = true →
    let n := bytesOf (longSize long)
    let place := fun (k : Nat) => s.a a + d16.signExtend 32 + BitVec.ofNat 32 (2 * k)
    (∃ t, exec (.movep long true d a d16) s = .next t ∧
      (∀ k < n, byteAt t (dataFc s) (place k) = byteOf (s.d d) (n - 1 - k)) ∧
      (∀ (fc : Fc) (b : Long), (∀ k < n, memKey s.platform fc b ≠ memKey s.platform (dataFc s) (place k)) →
        byteAt t fc b = byteAt s fc b) ∧
      t = { s with pc := pcAfter s 2, mem := t.mem, done := t.done }) ∧
    ∃ v, CompletesAs (exec (.movep long false d a d16) s) (advance 2 (s.setDSized (longSize long) d v)) ∧
      ∀ k < n, byteOf v (n - 1 - k) = byteAt s (dataFc s) (place k)

/-- PEA, LINK, UNLK (R208, R210, R211); LINK and UNLK of A7 in the literal order of the rules (log 17). -/
def Obligations.StackFrames : Prop :=
  ∀ (s : State) (a : Reg) (d16 : Word) (d32 : Long) (ea : Ea), Quiet s →
    CompletesAs (exec (.pea ea) s) (advance (1 + eaLen .l ea) (pushed (eaStep s .l ea) (eaLoc s .l 0 ea).addr)) ∧
    CompletesAs (exec (.linkW a d16) s) (advance 2 (linked s a (d16.signExtend 32))) ∧
    CompletesAs (exec (.linkL a d32) s) (advance 3 (linked s a d32)) ∧
    CompletesAs (exec (.unlk a) s) (advance 1 (unlinked s a))

/-- EXG, SWAP, EXT.W, EXT.L, EXTB.L (R209, R250, R297): their words and what they do. -/
def Obligations.RegisterOperations : Prop :=
  ∀ (s : State) (x y : Reg),
    (decode [12#4 ++ x ++ 0b101000#6 ++ y] = .instr (.exgDD x y) [] ∧
     decode [12#4 ++ x ++ 0b101001#6 ++ y] = .instr (.exgAA x y) [] ∧
     decode [12#4 ++ x ++ 0b110001#6 ++ y] = .instr (.exgDA x y) [] ∧
     decode [0x4840#16 ||| x.setWidth 16] = .instr (.swap x) [] ∧
     decode [0x4880#16 ||| x.setWidth 16] = .instr (.extW x) [] ∧
     decode [0x48C0#16 ||| x.setWidth 16] = .instr (.extL x) [] ∧
     decode [0x49C0#16 ||| x.setWidth 16] = .instr (.extbL x) []) ∧
    exec (.exgDD x y) s = .next (advance 1 ((s.setD x (s.d y)).setD y (s.d x))) ∧
    exec (.exgAA x y) s = .next (advance 1 ((s.setA x (s.a y)).setA y (s.a x))) ∧
    exec (.exgDA x y) s = .next (advance 1 ((s.setD x (s.a y)).setA y (s.d x))) ∧
    (∃ r : Long, r = (s.d x).extractLsb' 0 16 ++ (s.d x).extractLsb' 16 16 ∧
      exec (.swap x) s = .next (finish (s.setD x r) 1 (logicFlags s.ccr .l r))) ∧
    (∃ r : Word, r = ((s.d x).extractLsb' 0 8).signExtend 16 ∧
      exec (.extW x) s = .next (finish (s.setD x ((s.d x).extractLsb' 16 16 ++ r)) 1
        { x := s.ccr.x, n := r.msb, z := decide (r = 0#16), v := false, c := false })) ∧
    (∃ r : Long, r = ((s.d x).extractLsb' 0 16).signExtend 32 ∧
      exec (.extL x) s = .next (finish (s.setD x r) 1 (logicFlags s.ccr .l r))) ∧
    ∃ r : Long, r = ((s.d x).extractLsb' 0 8).signExtend 32 ∧
      exec (.extbL x) s = .next (finish (s.setD x r) 1 (logicFlags s.ccr .l r))

/-- MULU.W, MULS.W, MULU.L, MULS.L (R251-R254) as products of integers; the double product of one register leaves a free
value there (log 14). -/
def Obligations.Multiply : Prop :=
  ∀ (s : State) (quad : Bool) (d h : Reg) (ea : Ea), Quiet s →
    let w := eaVal s .w 0 ea
    let l := eaVal s .l 1 ea
    let long := fun (p : Int) (n v : Bool) =>
      let u := eaStep s .l ea
      let lo := BitVec.ofInt 32 p
      let t := if quad = false then u.setD d lo
        else if h = d then (u.setD d (Config.freeLong s.freeIdx)).tick
        else (u.setD h (BitVec.ofInt 32 (p / 2 ^ 32))).setD d lo
      finish t (2 + eaLen .l ea)
        { x := s.ccr.x, n := if quad then n else lo.msb, z := if quad then decide (p = 0) else decide (lo = 0#32),
          v := !quad && v, c := false }
    let pu : Int := (s.d d).toNat * l.toNat
    let ps := (s.d d).toInt * l.toInt
    (∃ p, p = BitVec.ofNat 32 ((s.d d).toNat % 2 ^ 16 * (w.toNat % 2 ^ 16)) ∧
      CompletesAs (exec (.muluW d ea) s)
        (finish ((eaStep s .w ea).setD d p) (1 + eaLen .w ea) (logicFlags s.ccr .l p))) ∧
    (∃ p, p = BitVec.ofInt 32 (((s.d d).setWidth 16).toInt * (w.setWidth 16).toInt) ∧
      CompletesAs (exec (.mulsW d ea) s)
        (finish ((eaStep s .w ea).setD d p) (1 + eaLen .w ea) (logicFlags s.ccr .l p))) ∧
    CompletesAs (exec (.muluL quad d h ea) s) (long pu (decide (2 ^ 63 ≤ pu)) (decide (2 ^ 32 ≤ pu))) ∧
    CompletesAs (exec (.mulsL quad d h ea) s)
      (long ps (decide (ps < 0)) (!decide (-2 ^ 31 ≤ ps ∧ ps < 2 ^ 31)))

/-- DIVU.W and DIVS.W (R255, R256), DIVU.L, DIVUL.L, DIVS.L, DIVSL.L (R257, R258): remainder and quotient, truncated
toward zero; a quotient that does not fit leaves the registers and sets V, with N and Z free; the double form in one
register leaves a free value there (log 14). A zero divisor (R259): the exception of vector 5 with the six-word frame;
registers stay but for the address update of the operand; C is 0 and N, Z, V are free. -/
def Obligations.Divide : Prop :=
  (∀ (s : State) (d : Reg) (ea : Ea), Quiet s → ea.wf .data .w = true → eaVal s .w 0 ea ≠ 0#32 →
     let v := eaVal s .w 0 ea
     let u := eaStep s .w ea
     let done := fun (q r : Int) => finish (u.setD d (BitVec.ofInt 16 r ++ BitVec.ofInt 16 q)) (1 + eaLen .w ea)
       { x := s.ccr.x, n := (BitVec.ofInt 16 q).msb, z := decide (q = 0), v := false, c := false }
     let ovf := (finish u (1 + eaLen .w ea)
       { x := s.ccr.x, n := Config.freeBit s.freeIdx, z := Config.freeBit (s.freeIdx + 1), v := true, c := false }).tickBy 2
     let qu := (s.d d).toNat / v.toNat
     let a := (s.d d).toInt
     let b := (v.setWidth 16).toInt
     CompletesAs (exec (.divuW d ea) s) (if qu < 2 ^ 16 then done qu ((s.d d).toNat % v.toNat : Nat) else ovf) ∧
     CompletesAs (exec (.divsW d ea) s)
       (if -2 ^ 15 ≤ a.tdiv b ∧ a.tdiv b < 2 ^ 15 then done (a.tdiv b) (a.tmod b) else ovf)) ∧
  (∀ (s : State) (quad : Bool) (q r : Reg) (ea : Ea), Quiet s → eaVal s .l 1 ea ≠ 0#32 →
     let v := eaVal s .l 1 ea
     let u := eaStep s .l ea
     let done := fun (a b : Int) =>
       let t := if quad = true ∧ r = q then (u.setD q (Config.freeLong s.freeIdx)).tick
         else if r = q then u.setD q (BitVec.ofInt 32 a)
         else (u.setD r (BitVec.ofInt 32 b)).setD q (BitVec.ofInt 32 a)
       finish t (2 + eaLen .l ea)
         { x := s.ccr.x, n := (BitVec.ofInt 32 a).msb, z := decide (a = 0), v := false, c := false }
     let ovf := (finish u (2 + eaLen .l ea)
       { x := s.ccr.x, n := Config.freeBit s.freeIdx, z := Config.freeBit (s.freeIdx + 1), v := true, c := false }).tickBy 2
     let nu : Nat := if quad then (s.d r).toNat * 2 ^ 32 + (s.d q).toNat else (s.d q).toNat
     let ns : Int := if quad then (s.d r).toInt * 2 ^ 32 + (s.d q).toNat else (s.d q).toInt
     CompletesAs (exec (.divuL quad q r ea) s)
       (if nu / v.toNat < 2 ^ 32 then done (nu / v.toNat : Nat) (nu % v.toNat : Nat) else ovf) ∧
     CompletesAs (exec (.divsL quad q r ea) s)
       (if -2 ^ 31 ≤ ns.tdiv v.toInt ∧ ns.tdiv v.toInt < 2 ^ 31 then done (ns.tdiv v.toInt) (ns.tmod v.toInt) else ovf)) ∧
  (∀ (s : State) (quad : Bool) (d r : Reg) (ea : Ea), Quiet s →
     let trap := fun (u : State) (n : Nat) =>
       trapSixState ((u.setCcr { x := s.ccr.x, n := Config.freeBit s.freeIdx, z := Config.freeBit (s.freeIdx + 1),
                                 v := Config.freeBit (s.freeIdx + 2), c := false }).tickBy 3) 5#8 n
     (eaVal s .w 0 ea = 0#32 → ∃ dn, let t := trap ((eaStep s .w ea).withDone dn) (1 + eaLen .w ea)
       exec (.divuW d ea) s = .next t ∧ exec (.divsW d ea) s = .next t) ∧
     (eaVal s .l 1 ea = 0#32 → ∃ dn, let t := trap ((eaStep s .l ea).withDone dn) (2 + eaLen .l ea)
       exec (.divuL quad d r ea) s = .next t ∧ exec (.divsL quad d r ea) s = .next t))

/-- The shifts and rotates (R288, R298): registers by 1 to 8 or by a register modulo 64, memory words by one place. -/
def Obligations.ShiftForms : Prop :=
  ∀ (s : State) (sz : Size) (byReg : Bool) (c d : Reg) (ea : Ea), Quiet s →
    let cnt := if byReg then (s.d c).toNat % 64 else if c = 0#3 then 8 else c.toNat
    let reg := fun k =>
      let r := shiftBy k sz cnt (trunc sz (s.d d)) s.ccr
      finish (s.setDSized sz d r.1) 1 r.2
    let mem := fun k => modified s .w 0 ea fun v => shiftBy k .w 1 v s.ccr
    exec (.asl sz byReg c d) s = .next (reg .asl) ∧ exec (.asr sz byReg c d) s = .next (reg .asr) ∧
    exec (.lsl sz byReg c d) s = .next (reg .lsl) ∧ exec (.lsr sz byReg c d) s = .next (reg .lsr) ∧
    exec (.rol sz byReg c d) s = .next (reg .rol) ∧ exec (.ror sz byReg c d) s = .next (reg .ror) ∧
    exec (.roxl sz byReg c d) s = .next (reg .roxl) ∧ exec (.roxr sz byReg c d) s = .next (reg .roxr) ∧
    CompletesAs (exec (.aslEa ea) s) (mem .asl) ∧ CompletesAs (exec (.asrEa ea) s) (mem .asr) ∧
    CompletesAs (exec (.lslEa ea) s) (mem .lsl) ∧ CompletesAs (exec (.lsrEa ea) s) (mem .lsr) ∧
    CompletesAs (exec (.rolEa ea) s) (mem .rol) ∧ CompletesAs (exec (.rorEa ea) s) (mem .ror) ∧
    CompletesAs (exec (.roxlEa ea) s) (mem .roxl) ∧ CompletesAs (exec (.roxrEa ea) s) (mem .roxr)

/-! ## Results: bits, bit fields, decimal -/

/-- BTST, BCHG, BCLR, BSET (R310-R314): bit number modulo 32 in a data register, modulo 8 in memory; Z is the inverse of
the bit, the other flags stay. -/
def Obligations.BitInstructions : Prop :=
  ∀ (s : State) (k : Reg) (n : Byte) (ea : Ea), Quiet s →
    let spec := fun (i : Instr) (num own : Nat) (wr : Bool) (f : Long → Nat → Long) =>
      (∀ d, ea = .dn d →
        let u := if wr then s.setD d (f (s.d d) (num % 32)) else s
        exec i s = .next (finish u (1 + own) { s.ccr with z := !(s.d d).getLsbD (num % 32) })) ∧
      ((∀ d, ea ≠ .dn d) →
        let z := fun (v : Long) => { s.ccr with z := !v.getLsbD (num % 8) }
        CompletesAs (exec i s) (if wr then modified s .b own ea fun v => (f v (num % 8), z v) else tested s .b own ea z))
    let change := fun (v : Long) (b : Nat) => v ^^^ (1#32 <<< b)
    let clear := fun (v : Long) (b : Nat) => v &&& ~~~(1#32 <<< b)
    let set := fun (v : Long) (b : Nat) => v ||| (1#32 <<< b)
    spec (.btst n ea) n.toNat 1 false change ∧ spec (.btstDn k ea) (s.d k).toNat 0 false change ∧
    spec (.bchg n ea) n.toNat 1 true change ∧ spec (.bchgDn k ea) (s.d k).toNat 0 true change ∧
    spec (.bclr n ea) n.toNat 1 true clear ∧ spec (.bclrDn k ea) (s.d k).toNat 0 true clear ∧
    spec (.bset n ea) n.toNat 1 true set ∧ spec (.bsetDn k ea) (s.d k).toNat 0 true set

/-- The eight bit field instructions (R320-R328): what they do with the field; N and Z from the field before the change,
for BFINS from the inserted value. -/
def Obligations.BitFieldInstructions : Prop :=
  ∀ (s : State) (f : BfSpec) (d : Reg) (ea : Ea), Quiet s →
    let off := if f.offReg then s.d (f.off.extractLsb' 0 3) else f.off.setWidth 32
    let w5 := if f.widReg then (s.d (f.wid.extractLsb' 0 3)).toNat % 32 else f.wid.toNat
    let w := if w5 = 0 then 32 else w5
    let p := fieldAt s off w ea
    let v := p.value w
    let u := eaStep s .l ea
    let flags := fun (x : Long) =>
      ({ x := s.ccr.x, n := x.getLsbD (w - 1), z := decide (x = 0#32), v := false, c := false } : Ccr)
    let reads := fun (i : Instr) (t : State) => CompletesAs (exec i s) (finish t (2 + eaLen .l ea) (flags v))
    reads (.bftst f ea) u ∧ reads (.bfextu d f ea) (u.setD d v) ∧ reads (.bfexts d f ea) (u.setD d (bfSigned w v)) ∧
    reads (.bfffo d f ea) (u.setD d (off + BitVec.ofNat 32 (firstOne v w))) ∧
    reads (.bfchg f ea) (fieldPut u p w (~~~v)) ∧ reads (.bfclr f ea) (fieldPut u p w 0#32) ∧
    reads (.bfset f ea) (fieldPut u p w (BitVec.allOnes 32)) ∧
    CompletesAs (exec (.bfins d f ea) s)
      (finish (fieldPut u p w (s.d d)) (2 + eaLen .l ea) (flags (lowBits w (s.d d))))

/-- ADDX, SUBX, ABCD, SBCD between registers or at predecremented addresses, source first (R235, R240, R330-R332).
PACK and UNPK (R334, R335), where the step of A7 is a constant of the implementation (log 16). -/
def Obligations.PairInstructions : Prop :=
  (∀ (s : State) (sz : Size) (x y : Reg), Quiet s →
     let dec := fun (op : Long → Long → Bool → Long × Bool) (d v : Long) =>
       bcdOut s.ccr s.freeIdx (bcdValid d && bcdValid v) (op d v s.ccr.x)
     exec (.addx sz false x y) s = .next (pairRegDone s sz x y (aluAddx s.ccr sz)) ∧
     exec (.subx sz false x y) s = .next (pairRegDone s sz x y (aluSubx s.ccr sz)) ∧
     exec (.abcd false x y) s = .next (pairRegDone (s.tickBy 5) .b x y (dec bcdAdd)) ∧
     exec (.sbcd false x y) s = .next (pairRegDone (s.tickBy 5) .b x y (dec bcdSub)) ∧
     CompletesAs (exec (.addx sz true x y) s) (pairDone s sz x y (aluAddx s.ccr sz)) ∧
     CompletesAs (exec (.subx sz true x y) s) (pairDone s sz x y (aluSubx s.ccr sz)) ∧
     CompletesAs (exec (.abcd true x y) s) (pairDone (s.tickBy 5) .b x y (dec bcdAdd)) ∧
     CompletesAs (exec (.sbcd true x y) s) (pairDone (s.tickBy 5) .b x y (dec bcdSub))) ∧
  (∀ (s : State) (x y : Reg) (adj : Word), Quiet s →
     let fc := dataFc s
     let s1 := packStepped s x
     let s2 := packStepped s1 x
     let pk := fun (v : Word) => (((v + adj).extractLsb' 8 4 ++ (v + adj).extractLsb' 0 4 : Byte).setWidth 32 : Long)
     let un := fun (b : Byte) => ((0#4 ++ b.extractLsb' 4 4 ++ 0#4 ++ b.extractLsb' 0 4 : Word) + adj)
     exec (.pack false x y adj) s = .next (advance 2 (s.setDSized .b y (pk ((s.d x).setWidth 16)))) ∧
     exec (.unpk false x y adj) s = .next (advance 2 (s.setDSized .w y ((un ((s.d x).setWidth 8)).setWidth 32))) ∧
     (let s3 := packStepped s2 y
      CompletesAs (exec (.pack true x y adj) s)
        (advance 2 (store s3 fc 1 (s3.a y) (pk (byteAt s fc (s2.a x) ++ byteAt s fc (s1.a x)))))) ∧
     (let t := un (byteAt s fc (s1.a x))
      let s3 := packStepped s1 y
      let s4 := packStepped (store s3 fc 1 (s3.a y) ((t.extractLsb' 0 8).setWidth 32)) y
      CompletesAs (exec (.unpk true x y adj) s)
        (advance 2 (store s4 fc 1 (s4.a y) ((t.extractLsb' 8 8).setWidth 32)))))

/-! ## Results: control flow -/

/-- Bcc, BRA, BSR, DBcc, NOP (R350-R354, R382), JMP, JSR, RTS, RTD, RTR (R356-R360): where control goes, and what is
pushed and popped; an even target is started at, an odd one is an address error (R622), and what the instruction did stays
(U10, log 13); the condition tests (R170). -/
def Obligations.ControlFlow : Prop :=
  (∀ (s : State) (cc : Cond) (b : BrDisp) (d : Reg) (d16 : Word), Quiet s →
     let disp := match b with | .byte x => x.signExtend 32 | .word x => x.signExtend 32 | .long x => x
     let len := match b with | .byte _ => 1 | .word _ => 2 | .long _ => 3
     let target := s.pc + 2#32 + disp
     let loop := s.pc + 2#32 + d16.signExtend 32
     let count := (s.d d).setWidth 16 - 1#16
     let counted := s.setDSized .w d (count.setWidth 32)
     (cond cc s.ccr = false → exec (.bcc cc b) s = .next (advance len s)) ∧
     (cond cc s.ccr = true → GoesTo (exec (.bcc cc b) s) s target) ∧
     GoesTo (exec (.bra b) s) s target ∧ GoesTo (exec (.bsr b) s) (pushed s (pcAfter s len)) target ∧
     (cond cc s.ccr = true → exec (.dbcc cc d d16) s = .next (advance 2 s)) ∧
     (cond cc s.ccr = false → count = 0xFFFF#16 → exec (.dbcc cc d d16) s = .next (advance 2 counted)) ∧
     (cond cc s.ccr = false → count ≠ 0xFFFF#16 → GoesTo (exec (.dbcc cc d d16) s) counted loop) ∧
     exec .nop s = .next (advance 1 s)) ∧
  (∀ (s : State) (ea : Ea) (d16 : Word), Quiet s →
     let target := (eaLoc s .l 0 ea).addr
     let u := eaStep s .l ea
     let back := load s (dataFc s) s.sp 4
     let back2 := load s (dataFc s) (s.sp + 2#32) 4
     let ccr := Ccr.ofByte ((load s (dataFc s) s.sp 2).setWidth 8)
     GoesTo (exec (.jmp ea) s) u target ∧
     GoesTo (exec (.jsr ea) s) (pushed u (pcAfter s (1 + eaLen .l ea))) target ∧
     GoesTo (exec .rts s) (s.setSp (s.sp + 4#32)) back ∧
     GoesTo (exec (.rtd d16) s) (s.setSp (s.sp + 4#32 + d16.signExtend 32)) back ∧
     GoesTo (exec .rtr s) ((s.setCcr ccr).setSp (s.sp + 6#32)) back2) ∧
  (∀ f : Ccr, (List.range 16).map (fun k => cond (BitVec.ofNat 4 k) f) =
     [true, false, !f.c && !f.z, f.c || f.z, !f.c, f.c, !f.z, f.z, !f.v, f.v, !f.n, f.n, f.n == f.v, f.n != f.v,
      !f.z && f.n == f.v, f.z || f.n != f.v])

/-- RTE (R410): of the four-word and six-word frames, SR and PC come from the frame and the stack pointer that was active
moves past it; an odd PC is an address error (R622); of a throwaway frame likewise, and the frame that the new SR makes
active follows (with S = 0 in that SR, on the user stack: the spec's own reading, U11, log 18);
a midinstruction frame continues the dialogue (R558), here with a coprocessor that releases the processor (what its
internal word holds is log 33); a bus fault frame that was taken for an operation word gives back the PC, and each stage
of the pipe whose rerun bit is clear from its image (R662; what names the suspended activity is log 11); an undefined
format is a format error (R636). -/
def Obligations.ReturnFromException : Prop :=
  ∀ s : State, Quiet s → s.sr.s = true →
    let format := fun (u : State) => ((load u (dataFc u) (u.sp + 6#32) 2).extractLsb' 12 4 : BitVec 4)
    let popped := fun (u : State) (n : Long) =>
      ({ u.setSp (u.sp + n) with sr := Sr.ofWord ((load u (dataFc u) u.sp 2).setWidth 16) } : State)
    let back := fun (u : State) => load u (dataFc u) (u.sp + 2#32) 4
    let plain := fun (u : State) =>
      (format u = 0#4 → GoesTo (exec .rte s) (flush (popped u 8#32)) (back u)) ∧
      (format u = 2#4 → GoesTo (exec .rte s) (flush (popped u 12#32)) (back u))
    plain s ∧ (format s = 1#4 → plain (popped s 8#32)) ∧
    (format s ∈ [3#4, 4#4, 5#4, 6#4, 7#4, 8#4, 12#4, 13#4, 14#4, 15#4] → ∃ dn, exec .rte s =
      .next (takeEntry (markFlow (s.withDone dn)) { vector := 14#8, body := .four, pc := s.pc, level := none })) ∧
    (∀ (v : Long) (tf : Bool) (cs : List Coprocessor), format s = 9#4 → Wide s →
      let w : Word := (load s 5#3 (s.sp + 14#32) 2).setWidth 16
      let bits := load s 5#3 (s.sp + 12#32) 2
      let u := flush (markFlow (popped s 20#32))
      let u := { u with
        pc := load s 5#3 (s.sp + 8#32) 4, scanPc := back s, eaTmp := load s 5#3 (s.sp + 16#32) 4,
        eaValid := bits.getLsbD 2, platform := { s.platform with coprocessors := cs },
        trace := { pending := bits.getLsbD 0 || u.trace.pending, flow := bits.getLsbD 1,
                   addr := load s 5#3 (s.sp + 8#32) 4 } }
      cpKind w = .gen → converse (cpId w) [.read v] s.platform.coprocessors = some cs → Releases u true v tf →
        CompletesAs (exec .rte s) { u with pc := u.scanPc }) ∧
    (∀ p : Suspension, format s = 10#4 → p.kind = .fetch [] →
      s.suspended.find? (fun q => q.key == load s 5#3 (s.sp + 0x1C#32) 4 && q.long == false) = some p →
      let ssw := load s 5#3 (s.sp + 0x0A#32) 2
      let stage := fun (x : PipeStage) (rerun : Bool) (at_ : Long) =>
        if x.valid && !rerun then
          { valid := true, addr := x.addr, word := (load s 5#3 (s.sp + at_) 2).setWidth 16, fault := false }
        else PipeStage.empty
      let u := flush (markFlow (popped s 32#32))
      CompletesAs (exec .rte s) { u with
        pc := back s
        pipe := { b := stage p.pipe.b (ssw.getLsbD 12) 0x0E#32, c := stage p.pipe.c (ssw.getLsbD 13) 0x0C#32,
                  d := p.pipe.d } })

/-! ## Results: system control -/

/-- ANDI, EORI, ORI to CCR and their words for every program, and to SR for a supervisor program, where the pipe is
discarded (R390-R393, R396-R398). The status register as a word and back (R30): the implemented bits come back; that the
others read as zero and ignore writes is the spec's decision D4 (log 24). -/
def Obligations.StatusRegister : Prop :=
  (∀ (s : State) (b high : Byte) (w : Word),
     let ccr := fun (x : Byte) => Host.Outcome.next (advance 2 (s.setCcr (.ofByte x)))
     let sr := fun (x : Word) => Host.Outcome.next (advance 2 (markFlow (flush { s with sr := .ofWord x })))
     decode [0x023C#16, high ++ b] = .instr (.andiCcr b) [] ∧ decode [0x0A3C#16, high ++ b] = .instr (.eoriCcr b) [] ∧
     decode [0x003C#16, high ++ b] = .instr (.oriCcr b) [] ∧
     exec (.andiCcr b) s = ccr (s.ccr.toByte &&& b) ∧ exec (.eoriCcr b) s = ccr (s.ccr.toByte ^^^ b) ∧
     exec (.oriCcr b) s = ccr (s.ccr.toByte ||| b) ∧
     (s.sr.s = true →
       exec (.andiSr w) s = sr (s.sr.toWord &&& w) ∧ exec (.eoriSr w) s = sr (s.sr.toWord ^^^ w) ∧
       exec (.oriSr w) s = sr (s.sr.toWord ||| w))) ∧
  ((∀ sr : Sr, Sr.ofWord sr.toWord = sr) ∧ ∀ w : Word, (Sr.ofWord w).toWord = w &&& 0xF71F#16)

/-- MOVE from SR, MOVE to SR, RESET, STOP, MOVE USP for a supervisor program (R399, R400, R406, R408, R412). RESET gives
the devices of the platform their initial state back (R705; what that is: log 4) and leaves coprocessors and processor
alone. -/
def Obligations.SupervisorMoves : Prop :=
  ∀ (s : State) (ea : Ea) (imm : Word) (a : Reg), Quiet s → s.sr.s = true →
    let stop := advance 2 (markFlow (flush { s with sr := .ofWord imm }))
    CompletesAs (exec (.moveFromSr ea) s) (advance (1 + eaLen .w ea)
      (putAt (eaStep s .w ea) .w (s.sr.toWord.setWidth 32) (eaLoc s .w 0 ea))) ∧
    CompletesAs (exec (.moveToSr ea) s) (advance (1 + eaLen .w ea)
      (markFlow (flush { eaStep s .w ea with sr := .ofWord ((eaVal s .w 0 ea).setWidth 16) }))) ∧
    (∃ t, exec .reset s = .next t ∧
      t = { s with pc := pcAfter s 1, platform := { s.platform with
        faults := s.platform.onReset.faults, silent := s.platform.onReset.silent, iack := s.platform.onReset.iack,
        access := s.platform.onReset.access, deviceResets := s.platform.deviceResets + 1 } }) ∧
    exec (.stop imm) s = .next (if stop.trace.pending then stop else { stop with run := .stopped }) ∧
    exec (.moveUsp true a) s = .next (advance 1 (s.setA a s.regs.usp)) ∧
    exec (.moveUsp false a) s = .next (advance 1 { s with regs := { s.regs with usp := s.a a } })

/-- MOVEC (R414): the eight control registers read, and all of them but CACR written, by a supervisor program (a write to
CACR is in InstructionCache); another code is an illegal instruction. That CAAR stores and reads all 32 bits is the spec's
decision D5 (R41, log 24). -/
def Obligations.ControlRegisters : Prop :=
  ∀ (s : State) (rn : Rn) (code : BitVec 12), s.sr.s = true →
    let v := s.rn rn
    let reads := fun (c : BitVec 12) (x : Long) => exec (.movec false rn c) s = .next (advance 2 (s.setRn rn x))
    let writes := fun (c : BitVec 12) (t : State) => exec (.movec true rn c) s = .next (advance 2 t)
    reads 0x000#12 (s.sfc.setWidth 32) ∧ reads 0x001#12 (s.dfc.setWidth 32) ∧
    reads 0x002#12 ((BitVec.ofBool s.cacrF ++ BitVec.ofBool s.cacrE).setWidth 32) ∧ reads 0x800#12 s.regs.usp ∧
    reads 0x801#12 s.vbr ∧ reads 0x802#12 s.caar ∧ reads 0x803#12 s.regs.msp ∧ reads 0x804#12 s.regs.isp ∧
    writes 0x000#12 { s with sfc := v.setWidth 3 } ∧ writes 0x001#12 { s with dfc := v.setWidth 3 } ∧
    writes 0x800#12 { s with regs := { s.regs with usp := v } } ∧ writes 0x801#12 { s with vbr := v } ∧
    writes 0x802#12 { s with caar := v } ∧ writes 0x803#12 { s with regs := { s.regs with msp := v } } ∧
    writes 0x804#12 { s with regs := { s.regs with isp := v } } ∧
    (code ∉ [0x000#12, 0x001#12, 0x002#12, 0x800#12, 0x801#12, 0x802#12, 0x803#12, 0x804#12] → ∀ b,
      exec (.movec b rn code) s = .next (abandoned s 4#8))

/-- MOVES (R416) in the spaces SFC and DFC name, but for CPU space: a byte or word replaces part of Dn, or is
sign-extended into An. Of a register that its own address changes, a free value is stored (log 14). -/
def Obligations.AlternateSpaces : Prop :=
  ∀ (s : State) (sz : Size) (rn : Rn) (ea : Ea), Quiet s → s.sr.s = true → ea.wf .memAlt sz = true →
    let a := (eaLoc s sz 1 ea).addr
    let u := eaStep s sz ea
    let v := load s s.sfc a (bytesOf sz)
    let own := ∃ n, rn = anNum n ∧ (ea = .postInc n ∨ ea = .preDec n)
    (s.dfc ≠ 7#3 → ¬ own → CompletesAs (exec (.moves sz rn true ea) s)
      (advance (2 + eaLen sz ea) (store u s.dfc (bytesOf sz) a (s.rn rn)))) ∧
    (s.dfc ≠ 7#3 → own → CompletesAs (exec (.moves sz rn true ea) s)
      (advance (2 + eaLen sz ea) (store u.tick s.dfc (bytesOf sz) a (Config.freeLong s.freeIdx)))) ∧
    (s.sfc ≠ 7#3 → CompletesAs (exec (.moves sz rn false ea) s)
      (advance (2 + eaLen sz ea) (if rn.getLsbD 3 then u.setA (rn.extractLsb' 0 3) (sext sz v)
        else u.setDSized sz (rn.extractLsb' 0 3) v)))

/-! ## Results: traps -/

/-- The instructions that take an exception (R424-R429), the words of TRAP, ILLEGAL and A-line, and TRAPcc and TRAPV
where they do not. CpID 0 follows the spec's choice C12 (log 19), unassigned words log 32. BKPT (R420): the word that
answers the acknowledge cycle takes its place, which the model does in a step of its own (log 27); where nothing answers
it is an illegal instruction. -/
def Obligations.TrapInstructions : Prop :=
  (∀ (s : State) (v : BitVec 4) (cc : Cond) (w : Word) (l : Long) (x12 : BitVec 12) (x9 : BitVec 9) (id : BitVec 3)
     (x7 : BitVec 7),
     let ends := fun (b : Bool) (n : Nat) => Host.Outcome.next (if b then trapSixState s 7#8 n else advance n s)
     decode [0b010011100100#12 ++ v] = .instr (.trap v) [] ∧ decode [0x4AFC#16] = .instr .illegal [] ∧
     decode [10#4 ++ x12] = .instr (.aline x12) [] ∧
     exec (.trap v) s = .next (takeEntry (markFlow s)
       { vector := 32#8 + v.setWidth 8, body := .four, pc := s.pc + 2#32, level := none }) ∧
     exec (.trapcc cc) s = ends (cond cc s.ccr) 1 ∧ exec (.trapccW cc w) s = ends (cond cc s.ccr) 2 ∧
     exec (.trapccL cc l) s = ends (cond cc s.ccr) 3 ∧ exec .trapv s = ends s.ccr.v 1 ∧
     exec .illegal s = .next (abandoned s 4#8) ∧ exec (.aline x12) s = .next (abandoned s 10#8) ∧
     exec (.flineBadType id x7) s = .next (abandoned s 11#8) ∧
     exec (.unassigned w) s = .next (abandoned s (if w.extractLsb' 12 4 = 15#4 then 11#8 else 4#8)) ∧
     (hasCoprocessor s.platform 0#3 = false →
       exec (.flineCpid0 x9) s = .next (abandoned s (if s.sr.s then 11#8 else 8#8)))) ∧
  (∀ (s : State) (n : BitVec 3), Quiet s →
     (∀ w, bkptAnswer s.platform n = some w → exec (.bkpt n) s = .next
       { s with pipe := { s.pipe with d := { valid := true, addr := s.pc, word := w, fault := false } },
                resume := some .decode }) ∧
     (bkptAnswer s.platform n = none → (∀ r ∈ s.platform.cpuSpace, ¬ (r.1 ≤ 4 * n.toNat ∧ 4 * n.toNat ≤ r.2)) →
       exec (.bkpt n) s = .next (abandoned s 4#8)))

/-- CHK (R422): the exception of vector 6 if the register is negative or above the bound, else the next instruction.
CMP2 and CHK2 (R248, R423): the bounds at the address and after it, against Dn at the size or all of An; the test serves
unsigned and signed bounds; CHK2 takes the exception of vector 6 if C is set. Flags the rules leave undefined are free
(log 14). -/
def Obligations.RegisterChecks : Prop :=
  (∀ (sz : Size) (v lo hi : Long), sz.fits v = true → sz.fits lo = true → sz.fits hi = true →
    (lo.toNat ≤ hi.toNat → (outOfBounds sz v lo hi = true ↔ v.toNat < lo.toNat ∨ hi.toNat < v.toNat)) ∧
    ((sext sz lo).toInt ≤ (sext sz hi).toInt →
      (outOfBounds sz v lo hi = true ↔
        (sext sz v).toInt < (sext sz lo).toInt ∨ (sext sz hi).toInt < (sext sz v).toInt))) ∧
  (∀ (s : State) (sz : Size) (d : Reg) (ea : Ea), Quiet s → sz = .w ∨ sz = .l →
     let i := if sz = .w then Instr.chkW d ea else .chkL d ea
     let v := (sext sz (s.d d)).toInt
     let b := (sext sz (eaVal s sz 0 ea)).toInt
     let i0 := s.freeIdx
     let flags := fun (n : Bool) => ({ x := s.ccr.x, n := n, z := Config.freeBit (i0 + 1), v := Config.freeBit (i0 + 2),
                                       c := Config.freeBit (i0 + 3) } : Ccr)
     (0 ≤ v ∧ v ≤ b → CompletesAs (exec i s)
       ((finish (eaStep s sz ea) (1 + eaLen sz ea) (flags (Config.freeBit s.freeIdx))).tickBy 4)) ∧
     (¬ (0 ≤ v ∧ v ≤ b) → ∃ dn, exec i s = .next
       (trapSixState ((((eaStep s sz ea).withDone dn).setCcr (flags (decide (v < 0)))).tickBy 4) 6#8 (1 + eaLen sz ea)))) ∧
  (∀ (s : State) (sz : Size) (rn : Rn) (ea : Ea), Quiet s → ea.wf .control sz = true →
     let loc := eaLoc s sz 1 ea
     let lo := load s (spaceFc s loc.prog) loc.addr (bytesOf sz)
     let hi := load s (spaceFc s loc.prog) (loc.addr + BitVec.ofNat 32 (bytesOf sz)) (bytesOf sz)
     let an := rn.getLsbD 3
     let wide := if an then Size.l else sz
     let v := trunc wide (s.rn rn)
     let lo' := if an then sext sz lo else lo
     let hi' := if an then sext sz hi else hi
     let c := outOfBounds wide v lo' hi'
     let f : Ccr := { x := s.ccr.x, n := Config.freeBit s.freeIdx, z := decide (v = lo' ∨ v = hi'),
                      v := Config.freeBit (s.freeIdx + 1), c := c }
     let done := (finish s (2 + eaLen sz ea) f).tickBy 2
     CompletesAs (exec (.cmp2 sz rn ea) s) done ∧ (c = false → CompletesAs (exec (.chk2 sz rn ea) s) done) ∧
     (c = true → ∃ dn, exec (.chk2 sz rn ea) s =
       .next (trapSixState (((s.withDone dn).setCcr f).tickBy 2) 6#8 (2 + eaLen sz ea))))

/-! ## Results: read-modify-write and modules -/

/-- TAS, CAS, CAS2 (R440-R442): a failed comparison writes no memory and loads the compare registers. -/
def Obligations.LockedInstructions : Prop :=
  ∀ (s : State) (sz : Size) (dc du dc2 du2 : Reg) (rn rn2 : Rn) (ea : Ea), Quiet s →
    let free := fun (t : State) => { t with rmc := false }
    let loc := eaLoc s sz 1 ea
    let v := eaVal s sz 1 ea
    let u := eaStep s sz ea
    let same := fun (sz : Size) (x : Long) (r : Reg) => trunc sz x = trunc sz (s.d r)
    let cas2 := fun (sz : Size) =>
      let n := bytesOf sz
      let fc := dataFc s
      let v1 := load s fc (s.rn rn) n
      let v2 := load s fc (s.rn rn2) n
      if same sz v1 dc ∧ same sz v2 dc2 then
        finish (free (store (store s fc n (s.rn rn) (trunc sz (s.d du))) fc n (s.rn rn2) (trunc sz (s.d du2)))) 3
          (cmpFlags s.ccr sz v2 (trunc sz (s.d dc2)))
      else finish (free ((s.setDSized sz dc2 v2).setDSized sz dc v1)) 3
        (if same sz v1 dc then cmpFlags s.ccr sz v2 (trunc sz (s.d dc2)) else cmpFlags s.ccr sz v1 (trunc sz (s.d dc)))
    CompletesAs (exec (.tas ea) s) (finish (free (putAt (eaStep s .b ea) .b (eaVal s .b 0 ea ||| 0x80#32)
      (eaLoc s .b 0 ea))) (1 + eaLen .b ea) (logicFlags s.ccr .b (eaVal s .b 0 ea))) ∧
    CompletesAs (exec (.cas sz dc du ea) s)
      (finish (free (if same sz v dc then putAt u sz (trunc sz (s.d du)) loc else u.setDSized sz dc v))
        (2 + eaLen sz ea) (cmpFlags s.ccr sz v (trunc sz (s.d dc)))) ∧
    CompletesAs (exec (.cas2W rn du dc rn2 du2 dc2) s) (cas2 .w) ∧
    CompletesAs (exec (.cas2L rn du dc rn2 du2 dc2) s) (cas2 .l)

/-- CALLM and RTM of type $00 (R444, R445, R447, R448); an improper option or type is a format error, and nothing of the
instruction is done; RTE does not accept the frame. The layouts of descriptor, entry word and frame, and the checks, rest on
PRESUMED readings (log 21; low confidence, G4), and that descriptor and entry word are read from data space on choices of
the model and the spec. Type $01 is in ModuleAccess. -/
def Obligations.Modules : Prop :=
  ∀ (s : State) (argc : Byte) (rn : Rn) (ea : Ea), Quiet s → ea.wf .control .l = true →
    let d := (eaLoc s .l 1 ea).addr
    let w0 := load s (dataFc s) d 4
    let opt : BitVec 3 := w0.extractLsb' 29 3
    let type : BitVec 5 := w0.extractLsb' 24 5
    let w := load s (dataFc s) s.sp 2
    let popt : BitVec 3 := w.extractLsb' 13 3
    let ptype : BitVec 5 := w.extractLsb' 8 5
    let error := fun (i : Instr) => ∃ dn, exec i s = .next (takeEntry (markFlow (s.withDone dn))
      { vector := 14#8, body := .four, pc := s.pc, level := none })
    let call := called s (s.sp - 24#32) d (pcAfter s (2 + eaLen .l ea)) argc opt type
    let ret := returned s rn ptype
    (opt = 0#3 ∨ opt = 4#3 → type = 0#5 → GoesTo (exec (.callm argc ea) s) call.1 call.2) ∧
    (¬ ((opt = 0#3 ∨ opt = 4#3) ∧ (type = 0#5 ∨ type = 1#5)) → error (.callm argc ea)) ∧
    (popt = 0#3 ∨ popt = 4#3 → ptype = 0#5 → GoesTo (exec (.rtm rn) s) ret.1 ret.2) ∧
    (¬ ((popt = 0#3 ∨ popt = 4#3) ∧ (ptype = 0#5 ∨ ptype = 1#5)) → error (.rtm rn)) ∧
    (frameReserved s).extractLsb' 14 2 = 3#2 ∧
    (s.sr.s = true → (load s 5#3 (s.sp + 6#32) 2).extractLsb' 14 2 = 3#2 → error .rte)

/-- CALLM and RTM of type $01 (R444-R448): the level goes to the access-level hardware by a write of CPU space. Granted,
CALLM builds its frame on the caller's stack, or, where the stack changes, on the stack the descriptor names, to which the
arguments have been copied; RTM takes the stack pointer of the frame. Denied, it is a format error and nothing is done. A
write that nothing answers is a bus error. The layouts and the registers of the exchange rest on PRESUMED readings (log 21;
low confidence, G4). -/
def Obligations.ModuleAccess : Prop :=
  ∀ (s : State) (argc : Byte) (rn : Rn) (ea : Ea), Quiet s → ea.wf .control .l = true →
    let d := (eaLoc s .l 1 ea).addr
    let w0 := load s (dataFc s) d 4
    let opt : BitVec 3 := w0.extractLsb' 29 3
    let next := pcAfter s (2 + eaLen .l ea)
    let w := load s (dataFc s) s.sp 2
    let popt : BitVec 3 := w.extractLsb' 13 3
    let asks := fun (i : Instr) (decrease : Bool) (level : Byte) (done : Bool → State × Long) =>
      let reg : Nat := if decrease then 0x10044 else 0x10040
      (∀ change, accessAnswer s.platform decrease level = .granted change →
        GoesTo (exec i s) (done change).1 (done change).2) ∧
      (accessAnswer s.platform decrease level = .denied → ∃ dn, exec i s = .next (takeEntry (markFlow (s.withDone dn))
        { vector := 14#8, body := .four, pc := s.pc, level := none })) ∧
      (accessAnswer s.platform decrease level = .busError → (∀ r ∈ s.platform.cpuSpace, ¬ (r.1 ≤ reg ∧ reg ≤ r.2)) →
        ∃ dn, exec i s = .next (dataFault (s.withDone dn)
          { addr := BitVec.ofNat 32 reg, fc := 7#3, read := false, bytes := 1, data := level.setWidth 32 } 0#32))
    (opt = 0#3 ∨ opt = 4#3 → w0.extractLsb' 24 5 = 1#5 →
      asks (.callm argc ea) false (w0.extractLsb' 16 8) fun change =>
        let base := load s (dataFc s) (d + 12#32) 4 - argc.setWidth 32
        if change then called (argsCopied argc.toNat s s.sp base) (base - 24#32) d next argc opt 1#5
        else called s (s.sp - 24#32) d next argc opt 1#5) ∧
    (popt = 0#3 ∨ popt = 4#3 → w.extractLsb' 8 5 = 1#5 →
      asks (.rtm rn) true (w.extractLsb' 0 8) fun _ => returned s rn 1#5)

/-! ## Results: coprocessors -/

/-- Without a coprocessor that answers, its instructions are unimplemented F-line instructions (R429, R486), cpSAVE and
cpRESTORE (R468, R469) for a supervisor program; at user level they are in PrivilegedInUser. -/
def Obligations.AbsentCoprocessor : Prop :=
  ∀ (s : State) (id m r : BitVec 3) (w : Word) (sel : BitVec 6) (d : Reg), Quiet s →
    hasCoprocessor s.platform id = false →
    (∀ i ∈ [Instr.cpGen id m r w, .cpDbcc id d w, .cpTrapccW id w, .cpTrapccL id w, .cpTrapcc id w, .cpScc id m r w,
           .cpBccW id sel, .cpBccL id sel], exec i s = .next (abandoned s 11#8)) ∧
    (s.sr.s = true → ∀ ea : Ea, exec (.cpSave id ea) s = .next (abandoned s 11#8) ∧
      (ea.wf .controlOrPost .l = true → ∃ dn, exec (.cpRestore id ea) s = .next (abandoned (s.withDone dn) 11#8)))

/-- General and conditional instructions whose coprocessor releases the processor at once (R462-R467, R522, R531):
cpGEN; cpTRAPcc and cpBcc with the condition false, cpDBcc with it true, cpScc to a mode without extension words, and
a taken cpBcc.W, for which an odd target is an address error (R622). -/
def Obligations.CoprocessorRelease : Prop :=
  (∀ (s : State) (id m r : BitVec 3) (w : Word) (sel : BitVec 6) (d : Reg) (v : Long) (tf : Bool)
     (cs : List Coprocessor), Quiet s → Wide s →
     let after := fun (n k : Nat) =>
       ({ answered s cs n with pc := s.pc + BitVec.ofNat 32 (n + k) } : State)
     (Answers s id 0x0A#5 (w.setWidth 32) v cs → Releases s true v tf →
       CompletesAs (exec (.cpGen id m r w) s) (after 4 0)) ∧
     (Answers s id 0x0E#5 (w.setWidth 32) v cs → Releases s false v tf →
       (tf = false → CompletesAs (exec (.cpTrapcc id w) s) (after 4 0) ∧
         CompletesAs (exec (.cpTrapccW id w) s) (after 4 2) ∧ CompletesAs (exec (.cpTrapccL id w) s) (after 4 4)) ∧
       (tf = true → CompletesAs (exec (.cpDbcc id d w) s) (after 4 2)) ∧
       ∀ ea, getEa .dataAlt .b m r [] = .ok (ea, []) →
         CompletesAs (exec (.cpScc id m r w) s)
           { putAt (eaStep (answered s cs 4) .b ea) .b (if tf then 0xFF#32 else 0#32)
               (locAt s .b (s.pc + 4#32) ea) with pc := s.pc + 4#32 }) ∧
     (Answers s id 0x0E#5 ((opword (.cpBccW id sel)).setWidth 32) v cs → Releases s false v false →
       CompletesAs (exec (.cpBccW id sel) s) (after 2 2)) ∧
     (Answers s id 0x0E#5 ((opword (.cpBccL id sel)).setWidth 32) v cs → Releases s false v false →
       CompletesAs (exec (.cpBccL id sel) s) (after 2 4))) ∧
  (∀ (s u : State) (id : BitVec 3) (sel : BitVec 6) (v : Long) (cs : List Coprocessor) (disp : Word), Quiet s → Wide s →
     Answers s id 0x0E#5 ((opword (.cpBccW id sel)).setWidth 32) v cs → Releases s false v true →
     fetchWord (answered s cs 2) (s.pc + 2#32) = .ok (disp, u) →
     GoesTo (exec (.cpBccW id sel) s) u (s.pc + 2#32 + disp.signExtend 32))

/-- cpSAVE and cpRESTORE of an empty/reset state frame (R468, R469, R481) for a supervisor program: the format word is
moved between memory and the coprocessor, and a stepped register moves by four. -/
def Obligations.CoprocessorContext : Prop :=
  ∀ (s : State) (id : BitVec 3) (ea : Ea) (f g : Long) (cs : List Coprocessor), Quiet s → Wide s → s.sr.s = true →
    let a := match ea with | .preDec n => s.a n - 4#32 | .postInc n => s.a n | _ => (eaLoc s .l 0 ea).addr
    let prog := (eaLoc s .l 0 ea).prog
    let stepped := match ea with
      | .preDec n => s.setA n (s.a n - 4#32)
      | .postInc n => s.setA n (s.a n + 4#32)
      | _ => s
    let fmt := load s (spaceFc s prog) a 2
    (ea.wf .controlAltOrPre .l = true → converse id [.read f] s.platform.coprocessors = some cs →
      formatCode f = 0 →
      CompletesAs (exec (.cpSave id ea) s)
        { store { stepped with platform := { s.platform with coprocessors := cs } } (dataFc s) 2 a f with
          pc := pcAfter s (1 + eaLen .l ea) }) ∧
    (ea.wf .controlOrPost .l = true → formatCode fmt = 0 →
      converse id [.write 6#5 2 fmt, .read g] s.platform.coprocessors = some cs → formatCode g = 0 →
      CompletesAs (exec (.cpRestore id ea) s)
        { stepped with platform := { s.platform with coprocessors := cs }, pc := pcAfter s (1 + eaLen .l ea) })

/-- The services of a general instruction (R533-R543, R566): the coprocessor asks for one and then releases the
processor. Each clause names the accesses of the dialogue after the command's write, and what the service changes; `n`
is a length that one bus cycle moves. The address that a stepped register leaves for a later write is the spec's reading
of R543. -/
def Obligations.CoprocessorServices : Prop :=
  ∀ (s u : State) (id m r : BitVec 3) (w x : Word) (n : Byte) (rn : Rn) (v v' a : Long) (valid : BitVec 3)
    (cs : List Coprocessor), Quiet s → Wide s → s.trace.pending = false → s.trace.flow = false →
    let op := opword (.cpGen id m r w)
    let fc := dataFc s
    let k := n.toNat
    let at_ := s.a r
    let asks := fun (code : BitVec 6) (param : Byte) => CirEvent.read ((0#2 ++ code ++ param : Word).setWidth 32)
    let out := CirEvent.write 0x10#5
    let serves := fun (es : List CirEvent) (t : State) =>
      converse id (.write 0x0A#5 2 (w.setWidth 32) :: es) s.platform.coprocessors = some cs →
      CompletesAs (exec (.cpGen id m r w) s)
        { t with pc := t.scanPc, platform := { s.platform with coprocessors := cs } }
    let s := { s with scanPc := s.pc + 4#32 }
    let tmp := fun (t : State) (b : Long) => ({ t with eaTmp := b, eaValid := true } : State)
    -- the operation word and registers
    (serves [asks 0x07#6 0#8, .write 8#5 2 (op.setWidth 32)] s ∧
     serves [asks 0x0C#6 (0#4 ++ rn), out 4 (s.rn rn)] s ∧ serves [asks 0x2C#6 (0#4 ++ rn), .read v] (s.setRn rn v) ∧
     serves [asks 0x06#6 0#8, .read 0x8181#32, out 4 (s.d 7#3), out 4 (s.d 0#3), out 4 (s.a 7#3), out 4 (s.a 0#3)] s ∧
     serves [asks 0x26#6 0#8, .read 0x0101#32, .read v, .read v'] ((s.setD 0#3 v).setA 0#3 v') ∧
     (∀ c, readCtl s (x.setWidth 12) = some c → serves [asks 0x0D#6 0#8, .read (x.setWidth 32), out 4 c] s) ∧
     (∀ t, writeCtl s (x.setWidth 12) v = some t → serves [asks 0x2D#6 0#8, .read (x.setWidth 32), .read v] t) ∧
     serves [asks 0x02#6 0#8, out 2 (s.sr.toWord.setWidth 32)] s ∧
     serves [asks 0x03#6 0#8, .write 0x18#5 4 (s.pc + 4#32), out 2 (s.sr.toWord.setWidth 32)] s ∧
     serves [asks 0x22#6 0#8, .read (x.setWidth 32)] (flush { s with sr := .ofWord x }) ∧
     (a.getLsbD 0 = false → serves [asks 0x23#6 0#8, .read (x.setWidth 32), .read a]
       (flush { s with sr := .ofWord x, scanPc := a }))) ∧
    -- operands in memory
    (1 ≤ k → k ≤ 4 →
      serves [asks 0x05#6 n, .read a, out k (load s fc a k)] s ∧
      serves [asks 0x25#6 n, .read a, .read v] (store s fc k a v) ∧
      (s.eaValid = true → serves [asks 0x20#6 n, .read v] (store s fc k s.eaTmp v)) ∧
      (m = 2#3 → serves [asks 0x0A#6 0#8, .write 0x1C#5 4 at_] (tmp s at_) ∧
        serves [asks (0b010#3 ++ valid) n, out k (load s fc at_ k)] (tmp s at_) ∧
        serves [asks (0b110#3 ++ valid) n, .read v] (store (tmp s at_) fc k at_ v))) ∧
    -- operands in registers, stepped operands and the stack
    (k = 1 ∨ k = 2 ∨ k = 4 →
      let sz := if k = 1 then Size.b else if k = 2 then .w else .l
      let up := at_ + incOf sz r
      let down := at_ - incOf sz r
      serves [asks 0x0E#6 n, out k (load s fc s.sp k)] (s.setSp (s.sp + incOf sz 7#3)) ∧
      serves [asks 0x2E#6 n, .read v] (store (s.setSp (s.sp - incOf sz 7#3)) fc k (s.sp - incOf sz 7#3) v) ∧
      (m = 0#3 → valid.getLsbD 0 = true →
        serves [asks (0b010#3 ++ valid) n, out k (trunc sz (s.d r))] { s with eaValid := false } ∧
        serves [asks (0b110#3 ++ valid) n, .read v] ({ s with eaValid := false }.setDSized sz r v)) ∧
      (m = 1#3 → valid = 3#3 ∨ valid = 7#3 →
        serves [asks (0b010#3 ++ valid) n, out k (trunc sz at_)] { s with eaValid := false } ∧
        serves [asks (0b110#3 ++ valid) n, .read v] ({ s with eaValid := false }.setA r (sext sz v))) ∧
      (m = 3#3 → valid ≠ 0#3 → valid ≠ 4#3 →
        serves [asks (0b010#3 ++ valid) n, out k (load s fc at_ k)] ((tmp s at_).setA r up) ∧
        serves [asks (0b110#3 ++ valid) n, .read v] ((store (tmp s at_) fc k at_ v).setA r up)) ∧
      (m = 4#3 → valid ≠ 0#3 → valid ≠ 4#3 →
        serves [asks (0b010#3 ++ valid) n, out k (load s fc down k)] ((tmp s down).setA r down) ∧
        serves [asks (0b110#3 ++ valid) n, .read v] (store ((tmp s down).setA r down) fc k down v))) ∧
    -- several coprocessor registers: two, of four bytes
    ((m = 3#3 → serves [asks 0x01#6 4#8, .read 3#32, out 4 (load s fc at_ 4), out 4 (load s fc (at_ + 4#32) 4)]
       (tmp (s.setA r (at_ + 8#32)) (at_ + 8#32))) ∧
     (m = 4#3 → serves [asks 0x21#6 4#8, .read 3#32, .read v, .read v']
       (tmp (store (store (s.setA r (at_ - 8#32)) fc 4 (at_ - 4#32) v) fc 4 (at_ - 8#32) v') (at_ - 8#32)))) ∧
    -- the instruction stream
    (fetchWord s (s.pc + 4#32) = .ok (x, u) →
      serves [asks 0x0F#6 2#8, out 2 (x.setWidth 32)] { u with scanPc := s.pc + 6#32 })

/-- The responses to a general instruction that move no operand: null with CA set and a supervisor check that succeeds let
the dialogue go on (R522, R531, R532); an interrupt pending at an interruptible point leaves frame $9 (R555); busy leaves
the instruction to be started again, not traced (R530; that it does so with CA clear too is the spec's decision D21); the supervisor check fails at user level (R532); the three take exception primitives (R544-R546), with the frames $0, $9 and
$2; a response that is no primitive is a protocol violation with frame $9 (R550), and so is one that only general
instructions allow, for a conditional instruction, whether CA is clear or set (R521). What the internal word of frame $9 holds is log 33. -/
def Obligations.CoprocessorExceptions : Prop :=
  ∀ (s : State) (id m r : BitVec 3) (w : Word) (vector : Byte) (cs : List Coprocessor), Quiet s → Wide s →
    let u := answered s cs 4
    let starts := fun (offset : BitVec 5) (es : List CirEvent) =>
      converse id (.write offset 2 (w.setWidth 32) :: es) s.platform.coprocessors = some cs
    let response := fun (p : Word) => CirEvent.read (p.setWidth 32)
    let ends := fun (i : Instr) (f : State → State) => ∃ dn, exec i s = .next (f (u.withDone dn))
    let frame := fun (op : Word) =>
      FrameBody.mid s.pc (0#13 ++ BitVec.ofBool s.eaValid ++ BitVec.ofBool s.trace.flow ++ BitVec.ofBool s.trace.pending)
        op (if s.eaValid then s.eaTmp else s.freeLong)
    let mid := fun (op : Word) (vec : Byte) (t : State) =>
      takeEntry (clearTrace t.tick) { vector := vec, pc := s.pc + 4#32, level := none, body := frame op }
    let gen := Instr.cpGen id m r w
    let released := CompletesAs (exec gen s) { u with pc := s.pc + 4#32 }
    (starts 0x0A#5 [response 0x8800#16, response 0x0802#16] → released) ∧
    (s.sr.s = true → starts 0x0A#5 [response 0x8400#16, response 0x0802#16] → released) ∧
    (s.platform.inputs = [] → (sampleIpl s).irq.pending = true → starts 0x0A#5 [response 0x8900#16] →
      ends gen fun t => takeInterrupt (clearTrace (sampleIpl t).tick) (frame (opword gen)) (s.pc + 4#32)) ∧
    (∀ p ∈ [0x2400#16, 0xA400#16], starts 0x0A#5 [response p] → ends gen clearTrace) ∧
    (s.sr.s = false → starts 0x0A#5 [response 0x8400#16, .write 2#5 2 1#32] → ends gen fun t => abandoned t 8#8) ∧
    (starts 0x0A#5 [response (0x1C#8 ++ vector), .write 2#5 2 2#32] → ends gen fun t => abandoned t vector) ∧
    (starts 0x0A#5 [response (0x1D#8 ++ vector), .write 2#5 2 2#32] → ends gen (mid (opword gen) vector)) ∧
    (starts 0x0A#5 [response (0x1E#8 ++ vector), .write 2#5 2 2#32] → ends gen fun t =>
      takeEntry t { vector := vector, body := .six s.pc, pc := s.pc + 4#32, level := none }) ∧
    (∀ c ∈ [0x00#8, 0x0B#8, 0x18#8, 0x1F#8, 0x2A#8, 0x3F#8],
      starts 0x0A#5 [response (c ++ vector)] → ends gen (mid (opword gen) 13#8)) ∧
    (∀ c ∈ [0x01#8, 0x02#8, 0x03#8, 0x0A#8, 0x10#8, 0x17#8, 0x20#8, 0x21#8, 0x22#8, 0x23#8, 0x30#8, 0x37#8,
            0x81#8, 0x82#8, 0x83#8, 0x8A#8, 0x90#8, 0x97#8, 0xA0#8, 0xA1#8, 0xA2#8, 0xA3#8, 0xB0#8, 0xB7#8],
      starts 0x0E#5 [response (c ++ vector)] → ends (.cpTrapcc id w) (mid (opword (.cpTrapcc id w)) 13#8))

/-! ## Frames -/

/-- What the instructions with a data register as destination, and the comparisons, leave unchanged: every byte of
memory, every other data register, every address register but one stepped by the operand's mode, and the rest of the
processor. -/
def Obligations.FrameRegisterForms : Prop :=
  ∀ (s t : State) (sz : Size) (d : Reg) (ea : Ea), Quiet s →
    ∀ p ∈ [(sz, Instr.add sz false d ea), (sz, .sub sz false d ea), (sz, .and sz false d ea), (sz, .or sz false d ea),
           (.w, .muluW d ea), (.w, .mulsW d ea), (sz, .cmp sz d ea), (sz, .tst sz ea), (.w, .moveToCcr ea)],
      exec p.2 s = .next t →
        SameMem s t ∧ (∀ r, r ≠ d → t.d r = s.d r) ∧ (∀ r, steppedReg ea ≠ some r → t.a r = s.a r) ∧
        (∀ r, steppedReg ea = some r → t.a r = (eaStep s p.1 ea).a r) ∧
        t.system = s.system ∧ t.otherSps = s.otherSps ∧ t.platform = s.platform

/-- What the instructions that replace or write an operand leave unchanged: every byte of memory outside the operand at
the address the mode gives, all of memory for a register, every register but the operand and a stepped one, and the rest
of the processor. -/
def Obligations.FrameOperandForms : Prop :=
  ∀ (s t : State) (sz : Size) (imm : Long) (d : Reg) (q : BitVec 3) (ea : Ea), Quiet s →
    Memory.wf s.mem = true → ea.wf .dataAlt sz = true →
    let own := if sz = .l then 2 else 1
    ∀ p ∈ [(own, Instr.addi sz imm ea), (own, .subi sz imm ea), (own, .andi sz imm ea), (own, .ori sz imm ea),
           (own, .eori sz imm ea), (0, .addq sz q ea), (0, .subq sz q ea), (0, .neg sz ea), (0, .negx sz ea),
           (0, .not sz ea), (0, .clr sz ea), (0, .eor sz d ea), (0, .add sz true d ea), (0, .sub sz true d ea),
           (0, .and sz true d ea), (0, .or sz true d ea)],
      exec p.2 s = .next t →
        (∀ a, eaLoc s sz p.1 ea = .mem false a → SameMemBut s t (dataFc s) a (bytesOf sz)) ∧
        (∀ n, ea = .dn n → SameMem s t) ∧ (∀ r, ea ≠ .dn r → t.d r = s.d r) ∧
        (∀ r, steppedReg ea ≠ some r → t.a r = s.a r) ∧ t.system = s.system ∧ t.otherSps = s.otherSps ∧
        t.platform = s.platform

end Statements
end

