-- ==== Sys2Proof/Laws/Memory.lean ====
section
/-! SUPPORT. Memory keeps its canonical form, and reads after writes. -/

namespace Sys2Proof.Laws

open Sys2Proof.Machine

/-- The parts of the canonical form of a non-empty memory. -/
theorem wf_cons {k : Nat} {b : Byte} {m : List Host.Cell} :
    Memory.wf ((k, b) :: m) = true ↔
      b ≠ Memory.unwritten ∧ (∀ c ∈ m, k < c.1) ∧ Memory.wf m = true := by
  simp [Memory.wf, and_assoc]

/-- A key below all listed ones reads as unwritten. -/
theorem read_below {m : List Host.Cell} {a : Nat} (h : ∀ c ∈ m, a < c.1) : Memory.read m a = Memory.unwritten := by
  induction m with
  | nil => rfl
  | cons c m ih =>
    have hc := h c (by simp)
    simp only [Memory.read]
    rw [if_neg (by omega)]
    exact ih fun x hx => h x (by simp [hx])

/-- Every key listed after a write was listed before or is the key written. -/
theorem mem_write {m : List Host.Cell} {a : Nat} {v : Byte} {c : Host.Cell} (h : c ∈ Memory.write m a v) :
    c.1 = a ∨ c ∈ m := by
  induction m with
  | nil =>
    simp only [Memory.write] at h
    split at h <;> simp_all
  | cons x m ih =>
    simp only [Memory.write] at h
    split at h
    · split at h
      · exact .inr h
      · rcases List.mem_cons.1 h with rfl | h
        · exact .inl rfl
        · exact .inr h
    · split at h
      · split at h
        · exact .inr (List.mem_cons_of_mem _ h)
        · rcases List.mem_cons.1 h with rfl | h
          · exact .inl rfl
          · exact .inr (List.mem_cons_of_mem _ h)
      · rcases List.mem_cons.1 h with rfl | h
        · exact .inr (by simp)
        · exact (ih h).imp_right (List.mem_cons_of_mem _)

/-- A write keeps the canonical form. -/
theorem write_wf {m : List Host.Cell} (a : Nat) (v : Byte) (h : Memory.wf m = true) :
    Memory.wf (Memory.write m a v) = true := by
  induction m with
  | nil =>
    simp only [Memory.write]
    split
    · rfl
    · exact wf_cons.2 ⟨‹_›, by simp, rfl⟩
  | cons c m ih =>
    obtain ⟨hb, hk, hm⟩ := wf_cons.1 h
    simp only [Memory.write]
    split
    · split
      · exact h
      · refine wf_cons.2 ⟨‹_›, ?_, h⟩
        intro x hx
        rcases List.mem_cons.1 hx with rfl | hx
        · assumption
        · exact lt_trans (by assumption) (hk x hx)
    · split
      · split
        · exact hm
        · subst_vars
          exact wf_cons.2 ⟨‹_›, hk, hm⟩
      · refine wf_cons.2 ⟨hb, ?_, ih hm⟩
        intro x hx
        rcases mem_write hx with hx | hx
        · omega
        · exact hk x hx

/-- A read after a write. -/
theorem read_write {m : List Host.Cell} (a b : Nat) (v : Byte) (h : Memory.wf m = true) :
    Memory.read (Memory.write m a v) b = if b = a then v else Memory.read m b := by
  induction m with
  | nil =>
    simp only [Memory.write]
    split
    · subst_vars
      simp [Memory.read]
    · simp [Memory.read]
  | cons c m ih =>
    obtain ⟨hb, hk, hm⟩ := wf_cons.1 h
    simp only [Memory.write]
    split
    · split
      · subst_vars
        split
        · subst_vars
          exact read_below fun x hx => by
            rcases List.mem_cons.1 hx with rfl | hx
            · assumption
            · exact lt_trans (by assumption) (hk x hx)
        · rfl
      · simp [Memory.read]
    · split
      · split
        · subst_vars
          simp only [Memory.read]
          split
          · subst_vars
            exact read_below hk
          · rfl
        · subst_vars
          simp only [Memory.read]
          split <;> simp_all
      · simp only [Memory.read]
        split
        · subst_vars
          split <;> simp_all
        · exact ih hm

/-! ## Bytes and operands of a state -/

/-- Storing a byte changes memory only. -/
theorem setByteAt_eq (s : State) (fc : Fc) (a : Long) (b : Byte) :
    setByteAt s fc a b = { s with mem := Memory.write s.mem (memKey s.platform fc a) b } := rfl

/-- Storing keeps the canonical form. -/
theorem store_wf (fc : Fc) (n : Nat) (a v : Long) (s : State) (h : Memory.wf s.mem = true) :
    Memory.wf (store s fc n a v).mem = true := by
  induction n generalizing s a with
  | zero => exact h
  | succ n ih => exact ih _ _ (write_wf _ _ h)

/-- Storing changes memory only. -/
theorem store_eq (fc : Fc) (n : Nat) (a v : Long) (s : State) :
    store s fc n a v = { s with mem := (store s fc n a v).mem } := by
  induction n generalizing s a with
  | zero => rfl
  | succ n ih =>
    rw [store, ih]
    rfl

/-- What a byte reads as depends on memory and platform alone. -/
theorem byteAt_congr {s t : State} (hm : t.mem = s.mem) (hp : t.platform = s.platform) (fc : Fc) (a : Long) :
    byteAt t fc a = byteAt s fc a := by
  simp [byteAt, hm, hp]

/-- What an operand reads as depends on memory and platform alone. -/
theorem load_congr {s t : State} (hm : t.mem = s.mem) (hp : t.platform = s.platform) (fc : Fc) (a : Long) (n : Nat) :
    load t fc a n = load s fc a n := by
  have : ∀ n a acc, loadAcc t fc n a acc = loadAcc s fc n a acc := by
    intro n
    induction n with
    | zero => intros; rfl
    | succ n ih => intro a acc; simp [loadAcc, ih, byteAt_congr hm hp]
  exact this _ _ _

/-- Reading `k + m` bytes reads the first `k`, then the others. -/
theorem loadAcc_add (s : State) (fc : Fc) (k m : Nat) (a acc : Long) :
    loadAcc s fc (k + m) a acc = loadAcc s fc m (a + BitVec.ofNat 32 k) (loadAcc s fc k a acc) := by
  induction k generalizing a acc with
  | zero => simp [loadAcc]
  | succ k ih =>
    rw [Nat.add_right_comm, loadAcc, ih, loadAcc, BitVec.add_assoc]
    congr 2
    rw [BitVec.ofNat_add, BitVec.add_comm]

/-- The bytes above those read are shifted up. -/
theorem loadAcc_eq (s : State) (fc : Fc) (n : Nat) (a acc : Long) :
    loadAcc s fc n a acc = (acc <<< (8 * n)) ||| load s fc a n := by
  induction n generalizing a acc with
  | zero => simp [loadAcc, load]
  | succ n ih =>
    rw [load, loadAcc, loadAcc, ih, ih, BitVec.shiftLeft_or_distrib, BitVec.shiftLeft_or_distrib,
      ← BitVec.shiftLeft_add, Nat.mul_add, Nat.add_comm (8 * n)]
    simp [BitVec.or_assoc]

/-- Byte `i` of the part of a value that is `m` bytes up. -/
theorem byteOf_part (v : Long) (k m i : Nat) (h : i < k) :
    byteOf (lowBits (8 * k) (v >>> (8 * m))) i = byteOf v (i + m) := by
  ext j hj
  have h2 : 8 * i + j < 8 * k := by omega
  have h3 : 8 * m + (8 * i + j) = 8 * (i + m) + j := by omega
  have h4 : (decide (8 * i + j < 32) && v.getLsbD (8 * (i + m) + j)) = v.getLsbD (8 * (i + m) + j) := by
    by_cases hb : 8 * i + j < 32
    · simp [hb]
    · simp [hb, BitVec.getLsbD_of_ge v (8 * (i + m) + j) (by omega)]
  simp only [byteOf, lowBits, BitVec.getElem_setWidth, BitVec.getLsbD_ushiftRight, BitVec.getLsbD_and,
    BitVec.getLsbD_ofNat, Nat.testBit_two_pow_sub_one, h2, h3, decide_true, Bool.and_true]
  rw [Bool.and_comm, h4]

/-- A store depends on the bytes stored only. -/
theorem store_bytes (fc : Fc) (n : Nat) (s : State) (a v w : Long) (h : ∀ i < n, byteOf v i = byteOf w i) :
    store s fc n a v = store s fc n a w := by
  induction n generalizing s a with
  | zero => rfl
  | succ n ih => rw [store, store, h n (Nat.lt_succ_self n), ih _ _ fun i hi => h i (Nat.lt_succ_of_lt hi)]

/-- Storing `k + m` bytes stores the first `k`, then the others. -/
theorem store_add (fc : Fc) (k m : Nat) (s : State) (a v : Long) :
    store s fc (k + m) a v =
      store (store s fc k a (lowBits (8 * k) (v >>> (8 * m)))) fc m (a + BitVec.ofNat 32 k) v := by
  have key : ∀ (w : Long), (∀ i < k, byteOf w i = byteOf v (i + m)) →
      store s fc (k + m) a v = store (store s fc k a w) fc m (a + BitVec.ofNat 32 k) v := by
    intro w
    induction k generalizing s a with
    | zero => simp [store]
    | succ k ih =>
      intro hw
      rw [Nat.add_right_comm, store, store, hw k (Nat.lt_succ_self k),
        ih _ _ fun i hi => hw i (Nat.lt_succ_of_lt hi), BitVec.add_assoc]
      congr 2
      rw [BitVec.ofNat_add, BitVec.add_comm]
  exact key _ fun i hi => byteOf_part v k m i hi

end Sys2Proof.Laws
end

