-- ==== Sys2Proof/Laws/State.lean ====
section
/-! SUPPORT. What each update of the state does to each field, by definition. -/

namespace Sys2Proof.Laws

open Sys2Proof.Machine

variable (s : State)

/-! ## setCcr -/

@[simp] theorem setCcr_regs (f : Ccr) : (s.setCcr f).regs = s.regs := rfl
@[simp] theorem setCcr_pc (f : Ccr) : (s.setCcr f).pc = s.pc := rfl
@[simp] theorem setCcr_sr (f : Ccr) : (s.setCcr f).sr = { s.sr with ccr := f } := rfl
@[simp] theorem setCcr_vbr (f : Ccr) : (s.setCcr f).vbr = s.vbr := rfl
@[simp] theorem setCcr_sfc (f : Ccr) : (s.setCcr f).sfc = s.sfc := rfl
@[simp] theorem setCcr_dfc (f : Ccr) : (s.setCcr f).dfc = s.dfc := rfl
@[simp] theorem setCcr_cacrE (f : Ccr) : (s.setCcr f).cacrE = s.cacrE := rfl
@[simp] theorem setCcr_cacrF (f : Ccr) : (s.setCcr f).cacrF = s.cacrF := rfl
@[simp] theorem setCcr_caar (f : Ccr) : (s.setCcr f).caar = s.caar := rfl
@[simp] theorem setCcr_cache (f : Ccr) : (s.setCcr f).cache = s.cache := rfl
@[simp] theorem setCcr_holding (f : Ccr) : (s.setCcr f).holding = s.holding := rfl
@[simp] theorem setCcr_pipe (f : Ccr) : (s.setCcr f).pipe = s.pipe := rfl
@[simp] theorem setCcr_run (f : Ccr) : (s.setCcr f).run = s.run := rfl
@[simp] theorem setCcr_irq (f : Ccr) : (s.setCcr f).irq = s.irq := rfl
@[simp] theorem setCcr_trace (f : Ccr) : (s.setCcr f).trace = s.trace := rfl
@[simp] theorem setCcr_rmc (f : Ccr) : (s.setCcr f).rmc = s.rmc := rfl
@[simp] theorem setCcr_scanPc (f : Ccr) : (s.setCcr f).scanPc = s.scanPc := rfl
@[simp] theorem setCcr_eaTmp (f : Ccr) : (s.setCcr f).eaTmp = s.eaTmp := rfl
@[simp] theorem setCcr_eaValid (f : Ccr) : (s.setCcr f).eaValid = s.eaValid := rfl
@[simp] theorem setCcr_current (f : Ccr) : (s.setCcr f).current = s.current := rfl
@[simp] theorem setCcr_start (f : Ccr) : (s.setCcr f).start = s.start := rfl
@[simp] theorem setCcr_done (f : Ccr) : (s.setCcr f).done = s.done := rfl
@[simp] theorem setCcr_replay (f : Ccr) : (s.setCcr f).replay = s.replay := rfl
@[simp] theorem setCcr_landing (f : Ccr) : (s.setCcr f).landing = s.landing := rfl
@[simp] theorem setCcr_suspended (f : Ccr) : (s.setCcr f).suspended = s.suspended := rfl
@[simp] theorem setCcr_serial (f : Ccr) : (s.setCcr f).serial = s.serial := rfl
@[simp] theorem setCcr_resume (f : Ccr) : (s.setCcr f).resume = s.resume := rfl
@[simp] theorem setCcr_freeIdx (f : Ccr) : (s.setCcr f).freeIdx = s.freeIdx := rfl
@[simp] theorem setCcr_platform (f : Ccr) : (s.setCcr f).platform = s.platform := rfl
@[simp] theorem setCcr_mem (f : Ccr) : (s.setCcr f).mem = s.mem := rfl

/-! ## setD -/

@[simp] theorem setD_pc (n : Reg) (v : Long) : (s.setD n v).pc = s.pc := rfl
@[simp] theorem setD_sr (n : Reg) (v : Long) : (s.setD n v).sr = s.sr := rfl
@[simp] theorem setD_vbr (n : Reg) (v : Long) : (s.setD n v).vbr = s.vbr := rfl
@[simp] theorem setD_sfc (n : Reg) (v : Long) : (s.setD n v).sfc = s.sfc := rfl
@[simp] theorem setD_dfc (n : Reg) (v : Long) : (s.setD n v).dfc = s.dfc := rfl
@[simp] theorem setD_cacrE (n : Reg) (v : Long) : (s.setD n v).cacrE = s.cacrE := rfl
@[simp] theorem setD_cacrF (n : Reg) (v : Long) : (s.setD n v).cacrF = s.cacrF := rfl
@[simp] theorem setD_caar (n : Reg) (v : Long) : (s.setD n v).caar = s.caar := rfl
@[simp] theorem setD_cache (n : Reg) (v : Long) : (s.setD n v).cache = s.cache := rfl
@[simp] theorem setD_holding (n : Reg) (v : Long) : (s.setD n v).holding = s.holding := rfl
@[simp] theorem setD_pipe (n : Reg) (v : Long) : (s.setD n v).pipe = s.pipe := rfl
@[simp] theorem setD_run (n : Reg) (v : Long) : (s.setD n v).run = s.run := rfl
@[simp] theorem setD_irq (n : Reg) (v : Long) : (s.setD n v).irq = s.irq := rfl
@[simp] theorem setD_trace (n : Reg) (v : Long) : (s.setD n v).trace = s.trace := rfl
@[simp] theorem setD_rmc (n : Reg) (v : Long) : (s.setD n v).rmc = s.rmc := rfl
@[simp] theorem setD_scanPc (n : Reg) (v : Long) : (s.setD n v).scanPc = s.scanPc := rfl
@[simp] theorem setD_eaTmp (n : Reg) (v : Long) : (s.setD n v).eaTmp = s.eaTmp := rfl
@[simp] theorem setD_eaValid (n : Reg) (v : Long) : (s.setD n v).eaValid = s.eaValid := rfl
@[simp] theorem setD_current (n : Reg) (v : Long) : (s.setD n v).current = s.current := rfl
@[simp] theorem setD_start (n : Reg) (v : Long) : (s.setD n v).start = s.start := rfl
@[simp] theorem setD_done (n : Reg) (v : Long) : (s.setD n v).done = s.done := rfl
@[simp] theorem setD_replay (n : Reg) (v : Long) : (s.setD n v).replay = s.replay := rfl
@[simp] theorem setD_landing (n : Reg) (v : Long) : (s.setD n v).landing = s.landing := rfl
@[simp] theorem setD_suspended (n : Reg) (v : Long) : (s.setD n v).suspended = s.suspended := rfl
@[simp] theorem setD_serial (n : Reg) (v : Long) : (s.setD n v).serial = s.serial := rfl
@[simp] theorem setD_resume (n : Reg) (v : Long) : (s.setD n v).resume = s.resume := rfl
@[simp] theorem setD_freeIdx (n : Reg) (v : Long) : (s.setD n v).freeIdx = s.freeIdx := rfl
@[simp] theorem setD_platform (n : Reg) (v : Long) : (s.setD n v).platform = s.platform := rfl
@[simp] theorem setD_mem (n : Reg) (v : Long) : (s.setD n v).mem = s.mem := rfl

/-! ## setSp -/

@[simp] theorem setSp_regs (v : Long) : (s.setSp v).regs = setActiveSp s.regs s.sr v := rfl
@[simp] theorem setSp_pc (v : Long) : (s.setSp v).pc = s.pc := rfl
@[simp] theorem setSp_sr (v : Long) : (s.setSp v).sr = s.sr := rfl
@[simp] theorem setSp_vbr (v : Long) : (s.setSp v).vbr = s.vbr := rfl
@[simp] theorem setSp_sfc (v : Long) : (s.setSp v).sfc = s.sfc := rfl
@[simp] theorem setSp_dfc (v : Long) : (s.setSp v).dfc = s.dfc := rfl
@[simp] theorem setSp_cacrE (v : Long) : (s.setSp v).cacrE = s.cacrE := rfl
@[simp] theorem setSp_cacrF (v : Long) : (s.setSp v).cacrF = s.cacrF := rfl
@[simp] theorem setSp_caar (v : Long) : (s.setSp v).caar = s.caar := rfl
@[simp] theorem setSp_cache (v : Long) : (s.setSp v).cache = s.cache := rfl
@[simp] theorem setSp_holding (v : Long) : (s.setSp v).holding = s.holding := rfl
@[simp] theorem setSp_pipe (v : Long) : (s.setSp v).pipe = s.pipe := rfl
@[simp] theorem setSp_run (v : Long) : (s.setSp v).run = s.run := rfl
@[simp] theorem setSp_irq (v : Long) : (s.setSp v).irq = s.irq := rfl
@[simp] theorem setSp_trace (v : Long) : (s.setSp v).trace = s.trace := rfl
@[simp] theorem setSp_rmc (v : Long) : (s.setSp v).rmc = s.rmc := rfl
@[simp] theorem setSp_scanPc (v : Long) : (s.setSp v).scanPc = s.scanPc := rfl
@[simp] theorem setSp_eaTmp (v : Long) : (s.setSp v).eaTmp = s.eaTmp := rfl
@[simp] theorem setSp_eaValid (v : Long) : (s.setSp v).eaValid = s.eaValid := rfl
@[simp] theorem setSp_current (v : Long) : (s.setSp v).current = s.current := rfl
@[simp] theorem setSp_start (v : Long) : (s.setSp v).start = s.start := rfl
@[simp] theorem setSp_done (v : Long) : (s.setSp v).done = s.done := rfl
@[simp] theorem setSp_replay (v : Long) : (s.setSp v).replay = s.replay := rfl
@[simp] theorem setSp_landing (v : Long) : (s.setSp v).landing = s.landing := rfl
@[simp] theorem setSp_suspended (v : Long) : (s.setSp v).suspended = s.suspended := rfl
@[simp] theorem setSp_serial (v : Long) : (s.setSp v).serial = s.serial := rfl
@[simp] theorem setSp_resume (v : Long) : (s.setSp v).resume = s.resume := rfl
@[simp] theorem setSp_freeIdx (v : Long) : (s.setSp v).freeIdx = s.freeIdx := rfl
@[simp] theorem setSp_platform (v : Long) : (s.setSp v).platform = s.platform := rfl
@[simp] theorem setSp_mem (v : Long) : (s.setSp v).mem = s.mem := rfl

/-! ## tick -/

@[simp] theorem tick_regs : (s.tick).regs = s.regs := rfl
@[simp] theorem tick_pc : (s.tick).pc = s.pc := rfl
@[simp] theorem tick_sr : (s.tick).sr = s.sr := rfl
@[simp] theorem tick_vbr : (s.tick).vbr = s.vbr := rfl
@[simp] theorem tick_sfc : (s.tick).sfc = s.sfc := rfl
@[simp] theorem tick_dfc : (s.tick).dfc = s.dfc := rfl
@[simp] theorem tick_cacrE : (s.tick).cacrE = s.cacrE := rfl
@[simp] theorem tick_cacrF : (s.tick).cacrF = s.cacrF := rfl
@[simp] theorem tick_caar : (s.tick).caar = s.caar := rfl
@[simp] theorem tick_cache : (s.tick).cache = s.cache := rfl
@[simp] theorem tick_holding : (s.tick).holding = s.holding := rfl
@[simp] theorem tick_pipe : (s.tick).pipe = s.pipe := rfl
@[simp] theorem tick_run : (s.tick).run = s.run := rfl
@[simp] theorem tick_irq : (s.tick).irq = s.irq := rfl
@[simp] theorem tick_trace : (s.tick).trace = s.trace := rfl
@[simp] theorem tick_rmc : (s.tick).rmc = s.rmc := rfl
@[simp] theorem tick_scanPc : (s.tick).scanPc = s.scanPc := rfl
@[simp] theorem tick_eaTmp : (s.tick).eaTmp = s.eaTmp := rfl
@[simp] theorem tick_eaValid : (s.tick).eaValid = s.eaValid := rfl
@[simp] theorem tick_current : (s.tick).current = s.current := rfl
@[simp] theorem tick_start : (s.tick).start = s.start := rfl
@[simp] theorem tick_done : (s.tick).done = s.done := rfl
@[simp] theorem tick_replay : (s.tick).replay = s.replay := rfl
@[simp] theorem tick_landing : (s.tick).landing = s.landing := rfl
@[simp] theorem tick_suspended : (s.tick).suspended = s.suspended := rfl
@[simp] theorem tick_serial : (s.tick).serial = s.serial := rfl
@[simp] theorem tick_resume : (s.tick).resume = s.resume := rfl
@[simp] theorem tick_freeIdx : (s.tick).freeIdx = s.freeIdx + 1 := rfl
@[simp] theorem tick_platform : (s.tick).platform = s.platform := rfl
@[simp] theorem tick_mem : (s.tick).mem = s.mem := rfl

/-! ## tickBy -/

@[simp] theorem tickBy_regs (k : Nat) : (s.tickBy k).regs = s.regs := rfl
@[simp] theorem tickBy_pc (k : Nat) : (s.tickBy k).pc = s.pc := rfl
@[simp] theorem tickBy_sr (k : Nat) : (s.tickBy k).sr = s.sr := rfl
@[simp] theorem tickBy_vbr (k : Nat) : (s.tickBy k).vbr = s.vbr := rfl
@[simp] theorem tickBy_sfc (k : Nat) : (s.tickBy k).sfc = s.sfc := rfl
@[simp] theorem tickBy_dfc (k : Nat) : (s.tickBy k).dfc = s.dfc := rfl
@[simp] theorem tickBy_cacrE (k : Nat) : (s.tickBy k).cacrE = s.cacrE := rfl
@[simp] theorem tickBy_cacrF (k : Nat) : (s.tickBy k).cacrF = s.cacrF := rfl
@[simp] theorem tickBy_caar (k : Nat) : (s.tickBy k).caar = s.caar := rfl
@[simp] theorem tickBy_cache (k : Nat) : (s.tickBy k).cache = s.cache := rfl
@[simp] theorem tickBy_holding (k : Nat) : (s.tickBy k).holding = s.holding := rfl
@[simp] theorem tickBy_pipe (k : Nat) : (s.tickBy k).pipe = s.pipe := rfl
@[simp] theorem tickBy_run (k : Nat) : (s.tickBy k).run = s.run := rfl
@[simp] theorem tickBy_irq (k : Nat) : (s.tickBy k).irq = s.irq := rfl
@[simp] theorem tickBy_trace (k : Nat) : (s.tickBy k).trace = s.trace := rfl
@[simp] theorem tickBy_rmc (k : Nat) : (s.tickBy k).rmc = s.rmc := rfl
@[simp] theorem tickBy_scanPc (k : Nat) : (s.tickBy k).scanPc = s.scanPc := rfl
@[simp] theorem tickBy_eaTmp (k : Nat) : (s.tickBy k).eaTmp = s.eaTmp := rfl
@[simp] theorem tickBy_eaValid (k : Nat) : (s.tickBy k).eaValid = s.eaValid := rfl
@[simp] theorem tickBy_current (k : Nat) : (s.tickBy k).current = s.current := rfl
@[simp] theorem tickBy_start (k : Nat) : (s.tickBy k).start = s.start := rfl
@[simp] theorem tickBy_done (k : Nat) : (s.tickBy k).done = s.done := rfl
@[simp] theorem tickBy_replay (k : Nat) : (s.tickBy k).replay = s.replay := rfl
@[simp] theorem tickBy_landing (k : Nat) : (s.tickBy k).landing = s.landing := rfl
@[simp] theorem tickBy_suspended (k : Nat) : (s.tickBy k).suspended = s.suspended := rfl
@[simp] theorem tickBy_serial (k : Nat) : (s.tickBy k).serial = s.serial := rfl
@[simp] theorem tickBy_resume (k : Nat) : (s.tickBy k).resume = s.resume := rfl
@[simp] theorem tickBy_freeIdx (k : Nat) : (s.tickBy k).freeIdx = s.freeIdx + k := rfl
@[simp] theorem tickBy_platform (k : Nat) : (s.tickBy k).platform = s.platform := rfl
@[simp] theorem tickBy_mem (k : Nat) : (s.tickBy k).mem = s.mem := rfl

/-! ## advance -/

@[simp] theorem advance_regs (n : Nat) : (advance n s).regs = s.regs := rfl
@[simp] theorem advance_pc (n : Nat) : (advance n s).pc = pcAfter s n := rfl
@[simp] theorem advance_sr (n : Nat) : (advance n s).sr = s.sr := rfl
@[simp] theorem advance_vbr (n : Nat) : (advance n s).vbr = s.vbr := rfl
@[simp] theorem advance_sfc (n : Nat) : (advance n s).sfc = s.sfc := rfl
@[simp] theorem advance_dfc (n : Nat) : (advance n s).dfc = s.dfc := rfl
@[simp] theorem advance_cacrE (n : Nat) : (advance n s).cacrE = s.cacrE := rfl
@[simp] theorem advance_cacrF (n : Nat) : (advance n s).cacrF = s.cacrF := rfl
@[simp] theorem advance_caar (n : Nat) : (advance n s).caar = s.caar := rfl
@[simp] theorem advance_cache (n : Nat) : (advance n s).cache = s.cache := rfl
@[simp] theorem advance_holding (n : Nat) : (advance n s).holding = s.holding := rfl
@[simp] theorem advance_pipe (n : Nat) : (advance n s).pipe = s.pipe := rfl
@[simp] theorem advance_run (n : Nat) : (advance n s).run = s.run := rfl
@[simp] theorem advance_irq (n : Nat) : (advance n s).irq = s.irq := rfl
@[simp] theorem advance_trace (n : Nat) : (advance n s).trace = s.trace := rfl
@[simp] theorem advance_rmc (n : Nat) : (advance n s).rmc = s.rmc := rfl
@[simp] theorem advance_scanPc (n : Nat) : (advance n s).scanPc = s.scanPc := rfl
@[simp] theorem advance_eaTmp (n : Nat) : (advance n s).eaTmp = s.eaTmp := rfl
@[simp] theorem advance_eaValid (n : Nat) : (advance n s).eaValid = s.eaValid := rfl
@[simp] theorem advance_current (n : Nat) : (advance n s).current = s.current := rfl
@[simp] theorem advance_start (n : Nat) : (advance n s).start = s.start := rfl
@[simp] theorem advance_done (n : Nat) : (advance n s).done = s.done := rfl
@[simp] theorem advance_replay (n : Nat) : (advance n s).replay = s.replay := rfl
@[simp] theorem advance_landing (n : Nat) : (advance n s).landing = s.landing := rfl
@[simp] theorem advance_suspended (n : Nat) : (advance n s).suspended = s.suspended := rfl
@[simp] theorem advance_serial (n : Nat) : (advance n s).serial = s.serial := rfl
@[simp] theorem advance_resume (n : Nat) : (advance n s).resume = s.resume := rfl
@[simp] theorem advance_freeIdx (n : Nat) : (advance n s).freeIdx = s.freeIdx := rfl
@[simp] theorem advance_platform (n : Nat) : (advance n s).platform = s.platform := rfl
@[simp] theorem advance_mem (n : Nat) : (advance n s).mem = s.mem := rfl

/-! ## markFlow -/

@[simp] theorem markFlow_regs : (markFlow s).regs = s.regs := rfl
@[simp] theorem markFlow_pc : (markFlow s).pc = s.pc := rfl
@[simp] theorem markFlow_sr : (markFlow s).sr = s.sr := rfl
@[simp] theorem markFlow_vbr : (markFlow s).vbr = s.vbr := rfl
@[simp] theorem markFlow_sfc : (markFlow s).sfc = s.sfc := rfl
@[simp] theorem markFlow_dfc : (markFlow s).dfc = s.dfc := rfl
@[simp] theorem markFlow_cacrE : (markFlow s).cacrE = s.cacrE := rfl
@[simp] theorem markFlow_cacrF : (markFlow s).cacrF = s.cacrF := rfl
@[simp] theorem markFlow_caar : (markFlow s).caar = s.caar := rfl
@[simp] theorem markFlow_cache : (markFlow s).cache = s.cache := rfl
@[simp] theorem markFlow_holding : (markFlow s).holding = s.holding := rfl
@[simp] theorem markFlow_pipe : (markFlow s).pipe = s.pipe := rfl
@[simp] theorem markFlow_run : (markFlow s).run = s.run := rfl
@[simp] theorem markFlow_irq : (markFlow s).irq = s.irq := rfl
@[simp] theorem markFlow_rmc : (markFlow s).rmc = s.rmc := rfl
@[simp] theorem markFlow_scanPc : (markFlow s).scanPc = s.scanPc := rfl
@[simp] theorem markFlow_eaTmp : (markFlow s).eaTmp = s.eaTmp := rfl
@[simp] theorem markFlow_eaValid : (markFlow s).eaValid = s.eaValid := rfl
@[simp] theorem markFlow_current : (markFlow s).current = s.current := rfl
@[simp] theorem markFlow_start : (markFlow s).start = s.start := rfl
@[simp] theorem markFlow_done : (markFlow s).done = s.done := rfl
@[simp] theorem markFlow_replay : (markFlow s).replay = s.replay := rfl
@[simp] theorem markFlow_landing : (markFlow s).landing = s.landing := rfl
@[simp] theorem markFlow_suspended : (markFlow s).suspended = s.suspended := rfl
@[simp] theorem markFlow_serial : (markFlow s).serial = s.serial := rfl
@[simp] theorem markFlow_resume : (markFlow s).resume = s.resume := rfl
@[simp] theorem markFlow_freeIdx : (markFlow s).freeIdx = s.freeIdx := rfl
@[simp] theorem markFlow_platform : (markFlow s).platform = s.platform := rfl
@[simp] theorem markFlow_mem : (markFlow s).mem = s.mem := rfl

/-! ## clearTrace -/

@[simp] theorem clearTrace_regs : (clearTrace s).regs = s.regs := rfl
@[simp] theorem clearTrace_pc : (clearTrace s).pc = s.pc := rfl
@[simp] theorem clearTrace_sr : (clearTrace s).sr = s.sr := rfl
@[simp] theorem clearTrace_vbr : (clearTrace s).vbr = s.vbr := rfl
@[simp] theorem clearTrace_sfc : (clearTrace s).sfc = s.sfc := rfl
@[simp] theorem clearTrace_dfc : (clearTrace s).dfc = s.dfc := rfl
@[simp] theorem clearTrace_cacrE : (clearTrace s).cacrE = s.cacrE := rfl
@[simp] theorem clearTrace_cacrF : (clearTrace s).cacrF = s.cacrF := rfl
@[simp] theorem clearTrace_caar : (clearTrace s).caar = s.caar := rfl
@[simp] theorem clearTrace_cache : (clearTrace s).cache = s.cache := rfl
@[simp] theorem clearTrace_holding : (clearTrace s).holding = s.holding := rfl
@[simp] theorem clearTrace_pipe : (clearTrace s).pipe = s.pipe := rfl
@[simp] theorem clearTrace_run : (clearTrace s).run = s.run := rfl
@[simp] theorem clearTrace_irq : (clearTrace s).irq = s.irq := rfl
@[simp] theorem clearTrace_trace : (clearTrace s).trace = { s.trace with pending := false, flow := false } := rfl
@[simp] theorem clearTrace_rmc : (clearTrace s).rmc = s.rmc := rfl
@[simp] theorem clearTrace_scanPc : (clearTrace s).scanPc = s.scanPc := rfl
@[simp] theorem clearTrace_eaTmp : (clearTrace s).eaTmp = s.eaTmp := rfl
@[simp] theorem clearTrace_eaValid : (clearTrace s).eaValid = s.eaValid := rfl
@[simp] theorem clearTrace_current : (clearTrace s).current = s.current := rfl
@[simp] theorem clearTrace_start : (clearTrace s).start = s.start := rfl
@[simp] theorem clearTrace_done : (clearTrace s).done = s.done := rfl
@[simp] theorem clearTrace_replay : (clearTrace s).replay = s.replay := rfl
@[simp] theorem clearTrace_landing : (clearTrace s).landing = s.landing := rfl
@[simp] theorem clearTrace_suspended : (clearTrace s).suspended = s.suspended := rfl
@[simp] theorem clearTrace_serial : (clearTrace s).serial = s.serial := rfl
@[simp] theorem clearTrace_resume : (clearTrace s).resume = s.resume := rfl
@[simp] theorem clearTrace_freeIdx : (clearTrace s).freeIdx = s.freeIdx := rfl
@[simp] theorem clearTrace_platform : (clearTrace s).platform = s.platform := rfl
@[simp] theorem clearTrace_mem : (clearTrace s).mem = s.mem := rfl

/-! ## enterSupervisor -/

@[simp] theorem enterSupervisor_regs : (enterSupervisor s).regs = s.regs := rfl
@[simp] theorem enterSupervisor_pc : (enterSupervisor s).pc = s.pc := rfl
@[simp] theorem enterSupervisor_sr : (enterSupervisor s).sr = { s.sr with s := true, t1 := false, t0 := false } := rfl
@[simp] theorem enterSupervisor_vbr : (enterSupervisor s).vbr = s.vbr := rfl
@[simp] theorem enterSupervisor_sfc : (enterSupervisor s).sfc = s.sfc := rfl
@[simp] theorem enterSupervisor_dfc : (enterSupervisor s).dfc = s.dfc := rfl
@[simp] theorem enterSupervisor_cacrE : (enterSupervisor s).cacrE = s.cacrE := rfl
@[simp] theorem enterSupervisor_cacrF : (enterSupervisor s).cacrF = s.cacrF := rfl
@[simp] theorem enterSupervisor_caar : (enterSupervisor s).caar = s.caar := rfl
@[simp] theorem enterSupervisor_cache : (enterSupervisor s).cache = s.cache := rfl
@[simp] theorem enterSupervisor_holding : (enterSupervisor s).holding = s.holding := rfl
@[simp] theorem enterSupervisor_pipe : (enterSupervisor s).pipe = s.pipe := rfl
@[simp] theorem enterSupervisor_run : (enterSupervisor s).run = s.run := rfl
@[simp] theorem enterSupervisor_irq : (enterSupervisor s).irq = s.irq := rfl
@[simp] theorem enterSupervisor_trace : (enterSupervisor s).trace = s.trace := rfl
@[simp] theorem enterSupervisor_rmc : (enterSupervisor s).rmc = s.rmc := rfl
@[simp] theorem enterSupervisor_scanPc : (enterSupervisor s).scanPc = s.scanPc := rfl
@[simp] theorem enterSupervisor_eaTmp : (enterSupervisor s).eaTmp = s.eaTmp := rfl
@[simp] theorem enterSupervisor_eaValid : (enterSupervisor s).eaValid = s.eaValid := rfl
@[simp] theorem enterSupervisor_current : (enterSupervisor s).current = s.current := rfl
@[simp] theorem enterSupervisor_start : (enterSupervisor s).start = s.start := rfl
@[simp] theorem enterSupervisor_done : (enterSupervisor s).done = s.done := rfl
@[simp] theorem enterSupervisor_replay : (enterSupervisor s).replay = s.replay := rfl
@[simp] theorem enterSupervisor_landing : (enterSupervisor s).landing = s.landing := rfl
@[simp] theorem enterSupervisor_suspended : (enterSupervisor s).suspended = s.suspended := rfl
@[simp] theorem enterSupervisor_serial : (enterSupervisor s).serial = s.serial := rfl
@[simp] theorem enterSupervisor_resume : (enterSupervisor s).resume = s.resume := rfl
@[simp] theorem enterSupervisor_freeIdx : (enterSupervisor s).freeIdx = s.freeIdx := rfl
@[simp] theorem enterSupervisor_platform : (enterSupervisor s).platform = s.platform := rfl
@[simp] theorem enterSupervisor_mem : (enterSupervisor s).mem = s.mem := rfl

/-! ## flush -/

@[simp] theorem flush_regs : (flush s).regs = s.regs := rfl
@[simp] theorem flush_pc : (flush s).pc = s.pc := rfl
@[simp] theorem flush_sr : (flush s).sr = s.sr := rfl
@[simp] theorem flush_vbr : (flush s).vbr = s.vbr := rfl
@[simp] theorem flush_sfc : (flush s).sfc = s.sfc := rfl
@[simp] theorem flush_dfc : (flush s).dfc = s.dfc := rfl
@[simp] theorem flush_cacrE : (flush s).cacrE = s.cacrE := rfl
@[simp] theorem flush_cacrF : (flush s).cacrF = s.cacrF := rfl
@[simp] theorem flush_caar : (flush s).caar = s.caar := rfl
@[simp] theorem flush_cache : (flush s).cache = s.cache := rfl
@[simp] theorem flush_holding : (flush s).holding = .empty := rfl
@[simp] theorem flush_pipe : (flush s).pipe = .empty := rfl
@[simp] theorem flush_run : (flush s).run = s.run := rfl
@[simp] theorem flush_irq : (flush s).irq = s.irq := rfl
@[simp] theorem flush_trace : (flush s).trace = s.trace := rfl
@[simp] theorem flush_rmc : (flush s).rmc = s.rmc := rfl
@[simp] theorem flush_scanPc : (flush s).scanPc = s.scanPc := rfl
@[simp] theorem flush_eaTmp : (flush s).eaTmp = s.eaTmp := rfl
@[simp] theorem flush_eaValid : (flush s).eaValid = s.eaValid := rfl
@[simp] theorem flush_current : (flush s).current = s.current := rfl
@[simp] theorem flush_start : (flush s).start = s.start := rfl
@[simp] theorem flush_done : (flush s).done = s.done := rfl
@[simp] theorem flush_replay : (flush s).replay = s.replay := rfl
@[simp] theorem flush_landing : (flush s).landing = s.landing := rfl
@[simp] theorem flush_suspended : (flush s).suspended = s.suspended := rfl
@[simp] theorem flush_serial : (flush s).serial = s.serial := rfl
@[simp] theorem flush_resume : (flush s).resume = s.resume := rfl
@[simp] theorem flush_freeIdx : (flush s).freeIdx = s.freeIdx := rfl
@[simp] theorem flush_platform : (flush s).platform = s.platform := rfl
@[simp] theorem flush_mem : (flush s).mem = s.mem := rfl

/-! ## startAt -/

@[simp] theorem startAt_regs (t : Long) : (startAt s t).regs = s.regs := rfl
@[simp] theorem startAt_pc (t : Long) : (startAt s t).pc = t := rfl
@[simp] theorem startAt_sr (t : Long) : (startAt s t).sr = s.sr := rfl
@[simp] theorem startAt_vbr (t : Long) : (startAt s t).vbr = s.vbr := rfl
@[simp] theorem startAt_sfc (t : Long) : (startAt s t).sfc = s.sfc := rfl
@[simp] theorem startAt_dfc (t : Long) : (startAt s t).dfc = s.dfc := rfl
@[simp] theorem startAt_cacrE (t : Long) : (startAt s t).cacrE = s.cacrE := rfl
@[simp] theorem startAt_cacrF (t : Long) : (startAt s t).cacrF = s.cacrF := rfl
@[simp] theorem startAt_caar (t : Long) : (startAt s t).caar = s.caar := rfl
@[simp] theorem startAt_cache (t : Long) : (startAt s t).cache = s.cache := rfl
@[simp] theorem startAt_holding (t : Long) : (startAt s t).holding = .empty := rfl
@[simp] theorem startAt_pipe (t : Long) : (startAt s t).pipe = .empty := rfl
@[simp] theorem startAt_run (t : Long) : (startAt s t).run = s.run := rfl
@[simp] theorem startAt_irq (t : Long) : (startAt s t).irq = s.irq := rfl
@[simp] theorem startAt_trace (t : Long) : (startAt s t).trace = s.trace := rfl
@[simp] theorem startAt_rmc (t : Long) : (startAt s t).rmc = s.rmc := rfl
@[simp] theorem startAt_scanPc (t : Long) : (startAt s t).scanPc = s.scanPc := rfl
@[simp] theorem startAt_eaTmp (t : Long) : (startAt s t).eaTmp = s.eaTmp := rfl
@[simp] theorem startAt_eaValid (t : Long) : (startAt s t).eaValid = s.eaValid := rfl
@[simp] theorem startAt_current (t : Long) : (startAt s t).current = s.current := rfl
@[simp] theorem startAt_start (t : Long) : (startAt s t).start = s.start := rfl
@[simp] theorem startAt_done (t : Long) : (startAt s t).done = s.done := rfl
@[simp] theorem startAt_replay (t : Long) : (startAt s t).replay = s.replay := rfl
@[simp] theorem startAt_landing (t : Long) : (startAt s t).landing = s.landing := rfl
@[simp] theorem startAt_suspended (t : Long) : (startAt s t).suspended = s.suspended := rfl
@[simp] theorem startAt_serial (t : Long) : (startAt s t).serial = s.serial := rfl
@[simp] theorem startAt_resume (t : Long) : (startAt s t).resume = s.resume := rfl
@[simp] theorem startAt_freeIdx (t : Long) : (startAt s t).freeIdx = s.freeIdx := rfl
@[simp] theorem startAt_platform (t : Long) : (startAt s t).platform = s.platform := rfl
@[simp] theorem startAt_mem (t : Long) : (startAt s t).mem = s.mem := rfl

/-! ## setByteAt -/

@[simp] theorem setByteAt_regs (fc : Fc) (a : Long) (b : Byte) : (setByteAt s fc a b).regs = s.regs := rfl
@[simp] theorem setByteAt_pc (fc : Fc) (a : Long) (b : Byte) : (setByteAt s fc a b).pc = s.pc := rfl
@[simp] theorem setByteAt_sr (fc : Fc) (a : Long) (b : Byte) : (setByteAt s fc a b).sr = s.sr := rfl
@[simp] theorem setByteAt_vbr (fc : Fc) (a : Long) (b : Byte) : (setByteAt s fc a b).vbr = s.vbr := rfl
@[simp] theorem setByteAt_sfc (fc : Fc) (a : Long) (b : Byte) : (setByteAt s fc a b).sfc = s.sfc := rfl
@[simp] theorem setByteAt_dfc (fc : Fc) (a : Long) (b : Byte) : (setByteAt s fc a b).dfc = s.dfc := rfl
@[simp] theorem setByteAt_cacrE (fc : Fc) (a : Long) (b : Byte) : (setByteAt s fc a b).cacrE = s.cacrE := rfl
@[simp] theorem setByteAt_cacrF (fc : Fc) (a : Long) (b : Byte) : (setByteAt s fc a b).cacrF = s.cacrF := rfl
@[simp] theorem setByteAt_caar (fc : Fc) (a : Long) (b : Byte) : (setByteAt s fc a b).caar = s.caar := rfl
@[simp] theorem setByteAt_cache (fc : Fc) (a : Long) (b : Byte) : (setByteAt s fc a b).cache = s.cache := rfl
@[simp] theorem setByteAt_holding (fc : Fc) (a : Long) (b : Byte) : (setByteAt s fc a b).holding = s.holding := rfl
@[simp] theorem setByteAt_pipe (fc : Fc) (a : Long) (b : Byte) : (setByteAt s fc a b).pipe = s.pipe := rfl
@[simp] theorem setByteAt_run (fc : Fc) (a : Long) (b : Byte) : (setByteAt s fc a b).run = s.run := rfl
@[simp] theorem setByteAt_irq (fc : Fc) (a : Long) (b : Byte) : (setByteAt s fc a b).irq = s.irq := rfl
@[simp] theorem setByteAt_trace (fc : Fc) (a : Long) (b : Byte) : (setByteAt s fc a b).trace = s.trace := rfl
@[simp] theorem setByteAt_rmc (fc : Fc) (a : Long) (b : Byte) : (setByteAt s fc a b).rmc = s.rmc := rfl
@[simp] theorem setByteAt_scanPc (fc : Fc) (a : Long) (b : Byte) : (setByteAt s fc a b).scanPc = s.scanPc := rfl
@[simp] theorem setByteAt_eaTmp (fc : Fc) (a : Long) (b : Byte) : (setByteAt s fc a b).eaTmp = s.eaTmp := rfl
@[simp] theorem setByteAt_eaValid (fc : Fc) (a : Long) (b : Byte) : (setByteAt s fc a b).eaValid = s.eaValid := rfl
@[simp] theorem setByteAt_current (fc : Fc) (a : Long) (b : Byte) : (setByteAt s fc a b).current = s.current := rfl
@[simp] theorem setByteAt_start (fc : Fc) (a : Long) (b : Byte) : (setByteAt s fc a b).start = s.start := rfl
@[simp] theorem setByteAt_done (fc : Fc) (a : Long) (b : Byte) : (setByteAt s fc a b).done = s.done := rfl
@[simp] theorem setByteAt_replay (fc : Fc) (a : Long) (b : Byte) : (setByteAt s fc a b).replay = s.replay := rfl
@[simp] theorem setByteAt_landing (fc : Fc) (a : Long) (b : Byte) : (setByteAt s fc a b).landing = s.landing := rfl
@[simp] theorem setByteAt_suspended (fc : Fc) (a : Long) (b : Byte) : (setByteAt s fc a b).suspended = s.suspended := rfl
@[simp] theorem setByteAt_serial (fc : Fc) (a : Long) (b : Byte) : (setByteAt s fc a b).serial = s.serial := rfl
@[simp] theorem setByteAt_resume (fc : Fc) (a : Long) (b : Byte) : (setByteAt s fc a b).resume = s.resume := rfl
@[simp] theorem setByteAt_freeIdx (fc : Fc) (a : Long) (b : Byte) : (setByteAt s fc a b).freeIdx = s.freeIdx := rfl
@[simp] theorem setByteAt_platform (fc : Fc) (a : Long) (b : Byte) : (setByteAt s fc a b).platform = s.platform := rfl
@[simp] theorem setByteAt_mem (fc : Fc) (a : Long) (b : Byte) : (setByteAt s fc a b).mem = Memory.write s.mem (memKey s.platform fc a) b := rfl

/-! ## lockBus -/

@[simp] theorem lockBus_regs : (lockBus s).regs = s.regs := rfl
@[simp] theorem lockBus_pc : (lockBus s).pc = s.pc := rfl
@[simp] theorem lockBus_sr : (lockBus s).sr = s.sr := rfl
@[simp] theorem lockBus_vbr : (lockBus s).vbr = s.vbr := rfl
@[simp] theorem lockBus_sfc : (lockBus s).sfc = s.sfc := rfl
@[simp] theorem lockBus_dfc : (lockBus s).dfc = s.dfc := rfl
@[simp] theorem lockBus_cacrE : (lockBus s).cacrE = s.cacrE := rfl
@[simp] theorem lockBus_cacrF : (lockBus s).cacrF = s.cacrF := rfl
@[simp] theorem lockBus_caar : (lockBus s).caar = s.caar := rfl
@[simp] theorem lockBus_cache : (lockBus s).cache = s.cache := rfl
@[simp] theorem lockBus_holding : (lockBus s).holding = s.holding := rfl
@[simp] theorem lockBus_pipe : (lockBus s).pipe = s.pipe := rfl
@[simp] theorem lockBus_run : (lockBus s).run = s.run := rfl
@[simp] theorem lockBus_irq : (lockBus s).irq = s.irq := rfl
@[simp] theorem lockBus_trace : (lockBus s).trace = s.trace := rfl
@[simp] theorem lockBus_rmc : (lockBus s).rmc = true := rfl
@[simp] theorem lockBus_scanPc : (lockBus s).scanPc = s.scanPc := rfl
@[simp] theorem lockBus_eaTmp : (lockBus s).eaTmp = s.eaTmp := rfl
@[simp] theorem lockBus_eaValid : (lockBus s).eaValid = s.eaValid := rfl
@[simp] theorem lockBus_current : (lockBus s).current = s.current := rfl
@[simp] theorem lockBus_start : (lockBus s).start = s.start := rfl
@[simp] theorem lockBus_done : (lockBus s).done = s.done := rfl
@[simp] theorem lockBus_replay : (lockBus s).replay = s.replay := rfl
@[simp] theorem lockBus_landing : (lockBus s).landing = s.landing := rfl
@[simp] theorem lockBus_suspended : (lockBus s).suspended = s.suspended := rfl
@[simp] theorem lockBus_serial : (lockBus s).serial = s.serial := rfl
@[simp] theorem lockBus_resume : (lockBus s).resume = s.resume := rfl
@[simp] theorem lockBus_freeIdx : (lockBus s).freeIdx = s.freeIdx := rfl
@[simp] theorem lockBus_platform : (lockBus s).platform = (otherMasters s).platform := rfl
@[simp] theorem lockBus_mem : (lockBus s).mem = (otherMasters s).mem := rfl

/-! ## unlockBus -/

@[simp] theorem unlockBus_regs : (unlockBus s).regs = s.regs := rfl
@[simp] theorem unlockBus_pc : (unlockBus s).pc = s.pc := rfl
@[simp] theorem unlockBus_sr : (unlockBus s).sr = s.sr := rfl
@[simp] theorem unlockBus_vbr : (unlockBus s).vbr = s.vbr := rfl
@[simp] theorem unlockBus_sfc : (unlockBus s).sfc = s.sfc := rfl
@[simp] theorem unlockBus_dfc : (unlockBus s).dfc = s.dfc := rfl
@[simp] theorem unlockBus_cacrE : (unlockBus s).cacrE = s.cacrE := rfl
@[simp] theorem unlockBus_cacrF : (unlockBus s).cacrF = s.cacrF := rfl
@[simp] theorem unlockBus_caar : (unlockBus s).caar = s.caar := rfl
@[simp] theorem unlockBus_cache : (unlockBus s).cache = s.cache := rfl
@[simp] theorem unlockBus_holding : (unlockBus s).holding = s.holding := rfl
@[simp] theorem unlockBus_pipe : (unlockBus s).pipe = s.pipe := rfl
@[simp] theorem unlockBus_run : (unlockBus s).run = s.run := rfl
@[simp] theorem unlockBus_irq : (unlockBus s).irq = s.irq := rfl
@[simp] theorem unlockBus_trace : (unlockBus s).trace = s.trace := rfl
@[simp] theorem unlockBus_rmc : (unlockBus s).rmc = false := rfl
@[simp] theorem unlockBus_scanPc : (unlockBus s).scanPc = s.scanPc := rfl
@[simp] theorem unlockBus_eaTmp : (unlockBus s).eaTmp = s.eaTmp := rfl
@[simp] theorem unlockBus_eaValid : (unlockBus s).eaValid = s.eaValid := rfl
@[simp] theorem unlockBus_current : (unlockBus s).current = s.current := rfl
@[simp] theorem unlockBus_start : (unlockBus s).start = s.start := rfl
@[simp] theorem unlockBus_done : (unlockBus s).done = s.done := rfl
@[simp] theorem unlockBus_replay : (unlockBus s).replay = s.replay := rfl
@[simp] theorem unlockBus_landing : (unlockBus s).landing = s.landing := rfl
@[simp] theorem unlockBus_suspended : (unlockBus s).suspended = s.suspended := rfl
@[simp] theorem unlockBus_serial : (unlockBus s).serial = s.serial := rfl
@[simp] theorem unlockBus_resume : (unlockBus s).resume = s.resume := rfl
@[simp] theorem unlockBus_freeIdx : (unlockBus s).freeIdx = s.freeIdx := rfl
@[simp] theorem unlockBus_platform : (unlockBus s).platform = s.platform := rfl
@[simp] theorem unlockBus_mem : (unlockBus s).mem = s.mem := rfl

/-! ## Registers -/

/-- Data registers after a write of one. -/
theorem d_setD (n r : Reg) (v : Long) : (s.setD n v).d r = if r = n then v else s.d r := by
  simp only [State.d, State.setD, Vector.get_eq_getElem, Vector.getElem_set]
  by_cases h : r = n
  · subst h; simp
  · have : n.toNat ≠ r.toNat := fun e => h (BitVec.eq_of_toNat_eq e.symm)
    simp [h, this]

@[simp] theorem d_setD_same (n : Reg) (v : Long) : (s.setD n v).d n = v := by simp [d_setD]

@[simp] theorem a_setD (n r : Reg) (v : Long) : (s.setD n v).a r = s.a r := rfl

@[simp] theorem sp_setD (n : Reg) (v : Long) : (s.setD n v).sp = s.sp := rfl

@[simp] theorem sp_setSp (v : Long) : (s.setSp v).sp = v := by
  simp only [State.sp, State.setSp, activeSp, setActiveSp]
  split
  · split <;> rfl
  · rfl

/-- Writing an address register changes `regs` only. -/
theorem setA_eq (n : Reg) (v : Long) : s.setA n v = { s with regs := (s.setA n v).regs } := by
  unfold State.setA
  split <;> rfl

@[simp] theorem d_setA (n r : Reg) (v : Long) : (s.setA n v).d r = s.d r := by
  unfold State.setA State.d
  split
  · rfl
  · simp only [setActiveSp]
    split
    · split <;> rfl
    · rfl

/-- Address registers after a write of one. -/
theorem a_setA (n r : Reg) (v : Long) : (s.setA n v).a r = if r = n then v else s.a r := by
  have hlt : ∀ x : Reg, ¬ x.toNat < 7 → x = 7#3 := by decide
  by_cases hn : n.toNat < 7
  · by_cases hr : r.toNat < 7
    · simp only [State.a, State.setA, hn, hr, dif_pos, Vector.get_eq_getElem, Vector.getElem_set]
      by_cases h : r = n
      · subst h; simp
      · have : n.toNat ≠ r.toNat := fun e => h (BitVec.eq_of_toNat_eq e.symm)
        simp [h, this]
    · have : r ≠ n := fun e => hr (e ▸ hn)
      simp [State.a, State.setA, hn, hr, this, activeSp]
  · by_cases hr : r.toNat < 7
    · have : r ≠ n := fun e => hn (e ▸ hr)
      simp only [State.a, State.setA, hn, hr, dif_pos, dif_neg, not_false_eq_true, this, if_false, setActiveSp]
      split
      · split <;> rfl
      · rfl
    · have : r = n := (hlt r hr).trans (hlt n hn).symm
      simp only [State.a, State.setA, hn, dif_neg, not_false_eq_true, this, if_true, setActiveSp, activeSp]
      split
      · split <;> rfl
      · rfl

@[simp] theorem setA_pc (n : Reg) (v : Long) : (s.setA n v).pc = s.pc := by rw [setA_eq]
@[simp] theorem setA_sr (n : Reg) (v : Long) : (s.setA n v).sr = s.sr := by rw [setA_eq]
@[simp] theorem setA_vbr (n : Reg) (v : Long) : (s.setA n v).vbr = s.vbr := by rw [setA_eq]
@[simp] theorem setA_sfc (n : Reg) (v : Long) : (s.setA n v).sfc = s.sfc := by rw [setA_eq]
@[simp] theorem setA_dfc (n : Reg) (v : Long) : (s.setA n v).dfc = s.dfc := by rw [setA_eq]
@[simp] theorem setA_cacrE (n : Reg) (v : Long) : (s.setA n v).cacrE = s.cacrE := by rw [setA_eq]
@[simp] theorem setA_cacrF (n : Reg) (v : Long) : (s.setA n v).cacrF = s.cacrF := by rw [setA_eq]
@[simp] theorem setA_caar (n : Reg) (v : Long) : (s.setA n v).caar = s.caar := by rw [setA_eq]
@[simp] theorem setA_cache (n : Reg) (v : Long) : (s.setA n v).cache = s.cache := by rw [setA_eq]
@[simp] theorem setA_holding (n : Reg) (v : Long) : (s.setA n v).holding = s.holding := by rw [setA_eq]
@[simp] theorem setA_pipe (n : Reg) (v : Long) : (s.setA n v).pipe = s.pipe := by rw [setA_eq]
@[simp] theorem setA_run (n : Reg) (v : Long) : (s.setA n v).run = s.run := by rw [setA_eq]
@[simp] theorem setA_irq (n : Reg) (v : Long) : (s.setA n v).irq = s.irq := by rw [setA_eq]
@[simp] theorem setA_trace (n : Reg) (v : Long) : (s.setA n v).trace = s.trace := by rw [setA_eq]
@[simp] theorem setA_rmc (n : Reg) (v : Long) : (s.setA n v).rmc = s.rmc := by rw [setA_eq]
@[simp] theorem setA_scanPc (n : Reg) (v : Long) : (s.setA n v).scanPc = s.scanPc := by rw [setA_eq]
@[simp] theorem setA_eaTmp (n : Reg) (v : Long) : (s.setA n v).eaTmp = s.eaTmp := by rw [setA_eq]
@[simp] theorem setA_eaValid (n : Reg) (v : Long) : (s.setA n v).eaValid = s.eaValid := by rw [setA_eq]
@[simp] theorem setA_current (n : Reg) (v : Long) : (s.setA n v).current = s.current := by rw [setA_eq]
@[simp] theorem setA_start (n : Reg) (v : Long) : (s.setA n v).start = s.start := by rw [setA_eq]
@[simp] theorem setA_done (n : Reg) (v : Long) : (s.setA n v).done = s.done := by rw [setA_eq]
@[simp] theorem setA_replay (n : Reg) (v : Long) : (s.setA n v).replay = s.replay := by rw [setA_eq]
@[simp] theorem setA_landing (n : Reg) (v : Long) : (s.setA n v).landing = s.landing := by rw [setA_eq]
@[simp] theorem setA_suspended (n : Reg) (v : Long) : (s.setA n v).suspended = s.suspended := by rw [setA_eq]
@[simp] theorem setA_serial (n : Reg) (v : Long) : (s.setA n v).serial = s.serial := by rw [setA_eq]
@[simp] theorem setA_resume (n : Reg) (v : Long) : (s.setA n v).resume = s.resume := by rw [setA_eq]
@[simp] theorem setA_freeIdx (n : Reg) (v : Long) : (s.setA n v).freeIdx = s.freeIdx := by rw [setA_eq]
@[simp] theorem setA_platform (n : Reg) (v : Long) : (s.setA n v).platform = s.platform := by rw [setA_eq]
@[simp] theorem setA_mem (n : Reg) (v : Long) : (s.setA n v).mem = s.mem := by rw [setA_eq]

/-! ## setCoprocessors -/

@[simp] theorem setCoprocessors_regs (cs : List Coprocessor) : (s.setCoprocessors cs).regs = s.regs := rfl
@[simp] theorem setCoprocessors_pc (cs : List Coprocessor) : (s.setCoprocessors cs).pc = s.pc := rfl
@[simp] theorem setCoprocessors_sr (cs : List Coprocessor) : (s.setCoprocessors cs).sr = s.sr := rfl
@[simp] theorem setCoprocessors_vbr (cs : List Coprocessor) : (s.setCoprocessors cs).vbr = s.vbr := rfl
@[simp] theorem setCoprocessors_sfc (cs : List Coprocessor) : (s.setCoprocessors cs).sfc = s.sfc := rfl
@[simp] theorem setCoprocessors_dfc (cs : List Coprocessor) : (s.setCoprocessors cs).dfc = s.dfc := rfl
@[simp] theorem setCoprocessors_cacrE (cs : List Coprocessor) : (s.setCoprocessors cs).cacrE = s.cacrE := rfl
@[simp] theorem setCoprocessors_cacrF (cs : List Coprocessor) : (s.setCoprocessors cs).cacrF = s.cacrF := rfl
@[simp] theorem setCoprocessors_caar (cs : List Coprocessor) : (s.setCoprocessors cs).caar = s.caar := rfl
@[simp] theorem setCoprocessors_cache (cs : List Coprocessor) : (s.setCoprocessors cs).cache = s.cache := rfl
@[simp] theorem setCoprocessors_holding (cs : List Coprocessor) : (s.setCoprocessors cs).holding = s.holding := rfl
@[simp] theorem setCoprocessors_pipe (cs : List Coprocessor) : (s.setCoprocessors cs).pipe = s.pipe := rfl
@[simp] theorem setCoprocessors_run (cs : List Coprocessor) : (s.setCoprocessors cs).run = s.run := rfl
@[simp] theorem setCoprocessors_irq (cs : List Coprocessor) : (s.setCoprocessors cs).irq = s.irq := rfl
@[simp] theorem setCoprocessors_trace (cs : List Coprocessor) : (s.setCoprocessors cs).trace = s.trace := rfl
@[simp] theorem setCoprocessors_rmc (cs : List Coprocessor) : (s.setCoprocessors cs).rmc = s.rmc := rfl
@[simp] theorem setCoprocessors_scanPc (cs : List Coprocessor) : (s.setCoprocessors cs).scanPc = s.scanPc := rfl
@[simp] theorem setCoprocessors_eaTmp (cs : List Coprocessor) : (s.setCoprocessors cs).eaTmp = s.eaTmp := rfl
@[simp] theorem setCoprocessors_eaValid (cs : List Coprocessor) : (s.setCoprocessors cs).eaValid = s.eaValid := rfl
@[simp] theorem setCoprocessors_current (cs : List Coprocessor) : (s.setCoprocessors cs).current = s.current := rfl
@[simp] theorem setCoprocessors_start (cs : List Coprocessor) : (s.setCoprocessors cs).start = s.start := rfl
@[simp] theorem setCoprocessors_done (cs : List Coprocessor) : (s.setCoprocessors cs).done = s.done := rfl
@[simp] theorem setCoprocessors_replay (cs : List Coprocessor) : (s.setCoprocessors cs).replay = s.replay := rfl
@[simp] theorem setCoprocessors_landing (cs : List Coprocessor) : (s.setCoprocessors cs).landing = s.landing := rfl
@[simp] theorem setCoprocessors_suspended (cs : List Coprocessor) : (s.setCoprocessors cs).suspended = s.suspended := rfl
@[simp] theorem setCoprocessors_serial (cs : List Coprocessor) : (s.setCoprocessors cs).serial = s.serial := rfl
@[simp] theorem setCoprocessors_resume (cs : List Coprocessor) : (s.setCoprocessors cs).resume = s.resume := rfl
@[simp] theorem setCoprocessors_freeIdx (cs : List Coprocessor) : (s.setCoprocessors cs).freeIdx = s.freeIdx := rfl
@[simp] theorem setCoprocessors_platform (cs : List Coprocessor) : (s.setCoprocessors cs).platform = { s.platform with coprocessors := cs } := rfl
@[simp] theorem setCoprocessors_mem (cs : List Coprocessor) : (s.setCoprocessors cs).mem = s.mem := rfl

/-! ## setInputs -/

@[simp] theorem setInputs_regs (bs : List (List Input)) : (s.setInputs bs).regs = s.regs := rfl
@[simp] theorem setInputs_pc (bs : List (List Input)) : (s.setInputs bs).pc = s.pc := rfl
@[simp] theorem setInputs_sr (bs : List (List Input)) : (s.setInputs bs).sr = s.sr := rfl
@[simp] theorem setInputs_vbr (bs : List (List Input)) : (s.setInputs bs).vbr = s.vbr := rfl
@[simp] theorem setInputs_sfc (bs : List (List Input)) : (s.setInputs bs).sfc = s.sfc := rfl
@[simp] theorem setInputs_dfc (bs : List (List Input)) : (s.setInputs bs).dfc = s.dfc := rfl
@[simp] theorem setInputs_cacrE (bs : List (List Input)) : (s.setInputs bs).cacrE = s.cacrE := rfl
@[simp] theorem setInputs_cacrF (bs : List (List Input)) : (s.setInputs bs).cacrF = s.cacrF := rfl
@[simp] theorem setInputs_caar (bs : List (List Input)) : (s.setInputs bs).caar = s.caar := rfl
@[simp] theorem setInputs_cache (bs : List (List Input)) : (s.setInputs bs).cache = s.cache := rfl
@[simp] theorem setInputs_holding (bs : List (List Input)) : (s.setInputs bs).holding = s.holding := rfl
@[simp] theorem setInputs_pipe (bs : List (List Input)) : (s.setInputs bs).pipe = s.pipe := rfl
@[simp] theorem setInputs_run (bs : List (List Input)) : (s.setInputs bs).run = s.run := rfl
@[simp] theorem setInputs_irq (bs : List (List Input)) : (s.setInputs bs).irq = s.irq := rfl
@[simp] theorem setInputs_trace (bs : List (List Input)) : (s.setInputs bs).trace = s.trace := rfl
@[simp] theorem setInputs_rmc (bs : List (List Input)) : (s.setInputs bs).rmc = s.rmc := rfl
@[simp] theorem setInputs_scanPc (bs : List (List Input)) : (s.setInputs bs).scanPc = s.scanPc := rfl
@[simp] theorem setInputs_eaTmp (bs : List (List Input)) : (s.setInputs bs).eaTmp = s.eaTmp := rfl
@[simp] theorem setInputs_eaValid (bs : List (List Input)) : (s.setInputs bs).eaValid = s.eaValid := rfl
@[simp] theorem setInputs_current (bs : List (List Input)) : (s.setInputs bs).current = s.current := rfl
@[simp] theorem setInputs_start (bs : List (List Input)) : (s.setInputs bs).start = s.start := rfl
@[simp] theorem setInputs_done (bs : List (List Input)) : (s.setInputs bs).done = s.done := rfl
@[simp] theorem setInputs_replay (bs : List (List Input)) : (s.setInputs bs).replay = s.replay := rfl
@[simp] theorem setInputs_landing (bs : List (List Input)) : (s.setInputs bs).landing = s.landing := rfl
@[simp] theorem setInputs_suspended (bs : List (List Input)) : (s.setInputs bs).suspended = s.suspended := rfl
@[simp] theorem setInputs_serial (bs : List (List Input)) : (s.setInputs bs).serial = s.serial := rfl
@[simp] theorem setInputs_resume (bs : List (List Input)) : (s.setInputs bs).resume = s.resume := rfl
@[simp] theorem setInputs_freeIdx (bs : List (List Input)) : (s.setInputs bs).freeIdx = s.freeIdx := rfl
@[simp] theorem setInputs_platform (bs : List (List Input)) : (s.setInputs bs).platform = { s.platform with inputs := bs } := rfl
@[simp] theorem setInputs_mem (bs : List (List Input)) : (s.setInputs bs).mem = s.mem := rfl

end Sys2Proof.Laws
end

