-- ==== Sys2Proof/Laws/Ops.lean ====
section
/-! SUPPORT. What the shared operations do in a state in which no bus cycle fails, and what a restarted instruction lands
in: one law per operation. -/

namespace Sys2Proof.Laws

open Sys2Proof.Machine

/-! ## Logs -/

@[simp] theorem withDone_self (s : State) : s.withDone s.done = s := rfl

@[simp] theorem withDone_withDone (s : State) (d e : List BusRec) : (s.withDone d).withDone e = s.withDone e := rfl

@[simp] theorem load_withDone (s : State) (d : List BusRec) (fc : Fc) (a : Long) (n : Nat) :
    load (s.withDone d) fc a n = load s fc a n := load_congr (s := s) (t := s.withDone d) rfl rfl fc a n

/-- A state keeps its own log. -/
theorem withDone_of_eq {s : State} {d : List BusRec} (h : s.done = d) : s.withDone d = s := by
  subst h
  rfl

/-- Going on after a part that has completed. -/
@[simp] theorem ok_bind {ε α β : Type} (a : α) (f : α → Except ε β) : (Except.ok a >>= f) = f a := rfl

@[simp] theorem setA_withDone (s : State) (d : List BusRec) (n : Reg) (v : Long) :
    (s.withDone d).setA n v = (s.setA n v).withDone d := by
  unfold State.setA
  split <;> rfl

@[simp] theorem setCcr_withDone (s : State) (d : List BusRec) (f : Ccr) :
    (s.withDone d).setCcr f = (s.setCcr f).withDone d := rfl

@[simp] theorem setD_withDone (s : State) (d : List BusRec) (n : Reg) (v : Long) :
    (s.withDone d).setD n v = (s.setD n v).withDone d := rfl

@[simp] theorem setSp_withDone (s : State) (d : List BusRec) (v : Long) :
    (s.withDone d).setSp v = (s.setSp v).withDone d := rfl

@[simp] theorem advance_withDone (s : State) (d : List BusRec) (n : Nat) :
    advance n (s.withDone d) = (advance n s).withDone d := rfl

/-- Storing leaves the log alone. -/
theorem store_withDone (fc : Fc) (n : Nat) (a v : Long) (s : State) (d : List BusRec) :
    store (s.withDone d) fc n a v = (store s fc n a v).withDone d := by
  induction n generalizing s a with
  | zero => rfl
  | succ n ih =>
    simp only [store]
    exact ih _ (setByteAt s fc a (byteOf v n))

@[simp] theorem store_done (fc : Fc) (n : Nat) (a v : Long) (s : State) : (store s fc n a v).done = s.done := by
  rw [store_eq]

@[simp] theorem store_replay (fc : Fc) (n : Nat) (a v : Long) (s : State) : (store s fc n a v).replay = s.replay := by
  rw [store_eq]

@[simp] theorem store_landing (fc : Fc) (n : Nat) (a v : Long) (s : State) : (store s fc n a v).landing = s.landing := by
  rw [store_eq]

@[simp] theorem store_platform (fc : Fc) (n : Nat) (a v : Long) (s : State) :
    (store s fc n a v).platform = s.platform := by
  rw [store_eq]

@[simp] theorem store_regs (fc : Fc) (n : Nat) (a v : Long) (s : State) : (store s fc n a v).regs = s.regs := by
  rw [store_eq]

@[simp] theorem store_sr (fc : Fc) (n : Nat) (a v : Long) (s : State) : (store s fc n a v).sr = s.sr := by
  rw [store_eq]

@[simp] theorem store_pc (fc : Fc) (n : Nat) (a v : Long) (s : State) : (store s fc n a v).pc = s.pc := by
  rw [store_eq]

/-! ## Quiet states -/

/-- Quietness depends on the platform and on what is taken over. -/
theorem quiet_congr {s t : State} (h : Quiet s) (hp : t.platform = s.platform) (hr : t.replay = s.replay)
    (hl : t.landing = s.landing) : Quiet t :=
  ⟨⟨hr.trans h.1.1, hl.trans h.1.2.1, hp ▸ h.1.2.2.1, hp ▸ h.1.2.2.2⟩, fun fc read ext => hp ▸ h.2 fc read ext⟩

theorem quiet_withDone {s : State} (h : Quiet s) (d : List BusRec) : Quiet (s.withDone d) := quiet_congr h rfl rfl rfl

theorem quiet_setA {s : State} (h : Quiet s) (n : Reg) (v : Long) : Quiet (s.setA n v) :=
  quiet_congr h (by simp) (by simp) (by simp)

theorem quiet_store {s : State} (h : Quiet s) (fc : Fc) (n : Nat) (a v : Long) : Quiet (store s fc n a v) :=
  quiet_congr h (by simp) (by simp) (by simp)

/-- Where no master stores, a bus cycle finds the state as it is. -/
theorem otherMasters_none {s : State} (h : s.platform.masters = []) : otherMasters s = s := by
  simp [otherMasters, h]

/-- Where no master stores, a locked sequence begins without further effect. -/
theorem lockBus_none {s : State} (h : s.platform.masters = []) : lockBus s = { s with rmc := true } := by
  simp [lockBus, otherMasters_none h]

/-- Locking leaves a quiet state quiet. -/
theorem quiet_lockFor {s : State} (h : Quiet s) (loc : Loc) : Quiet (lockFor s loc) := by
  cases loc <;> simp only [lockFor, lockBus_none h.1.2.2.1] <;> exact quiet_congr h rfl rfl rfl

/-- Without anything to land in, nothing changes. -/
theorem land_none {s : State} (h : s.landing = none) : land s = s := by
  simp [land, h]

/-- A restarted instruction lands in the registers it was restarted in, and in its own stream position. -/
theorem land_again (s : State) (i : Instr) (st : Snapshot) (ops : List BusRec) (late : Bool) :
    land (again s i st ops late) =
      { s with pc := st.pc, start := st, current := i, done := [], replay := ops, landing := none, rmc := false,
               eaValid := false, resume := some (.instr i) } := rfl

/-- Where no device leaves a cycle without an end, none waits. -/
theorem cycleWaits_none {p : Platform} (h : p.silent = []) (fc : Fc) (read : Bool) (ext : Nat) :
    cycleWaits p fc read ext = false := by
  simp [cycleWaits, inRegions, h]

/-- A cycle that ends at once is not waited in. -/
theorem runCycle_ok {β : Type} {cycle : State → Sys2Proof.Machine.Cycle β} {s : State} {v : β} (h : cycle s = .ok v) :
    runCycle cycle s = .ok v := by
  simp [runCycle, awaitCycle, h]

/-- A cycle that ends in bus error at once is not waited in. -/
theorem runCycle_err {β : Type} {cycle : State → Sys2Proof.Machine.Cycle β} {s t : State} (h : cycle s = .error (.err t)) :
    runCycle cycle s = .error (.err t) := by
  simp [runCycle, awaitCycle, h]

/-- A cycle moves between one byte and all that are left. -/
theorem cycleBytes_bounds (p : Platform) (fc : Fc) (a : Long) (rem : Nat) (h : rem ≠ 0) :
    1 ≤ cycleBytes p fc a rem ∧ cycleBytes p fc a rem ≤ rem := by
  have hp : 0 < portBytes p fc (extAddr p.variant a) := by
    unfold portBytes
    split
    · decide
    · split <;> decide
  have hm := Nat.mod_lt a.toNat hp
  simp only [cycleBytes]
  omega

theorem dataFc_ne (s : State) : dataFc s ≠ 7#3 := by
  unfold dataFc
  split <;> decide

theorem progFc_ne (s : State) : progFc s ≠ 7#3 := by
  unfold progFc
  split <;> decide

theorem spaceFc_ne (s : State) (prog : Bool) : spaceFc s prog ≠ 7#3 := by
  cases prog
  · exact dataFc_ne s
  · exact progFc_ne s

/-- The cycles of a read deliver what memory holds. -/
theorem readCycles_quiet {s : State} (h : Quiet s) {fc : Fc} (hf : fc ≠ 7#3) (fuel : Nat) (a : Long) (rem : Nat)
    (acc : Long) (hr : rem ≤ fuel) : readCycles fc fuel s a rem acc = .ok (loadAcc s fc rem a acc, s) := by
  induction fuel generalizing a rem acc with
  | zero =>
    obtain rfl : rem = 0 := by omega
    rfl
  | succ fuel ih =>
    by_cases h0 : rem = 0
    · simp [readCycles, h0, loadAcc]
    · obtain ⟨k1, k2⟩ := cycleBytes_bounds s.platform fc a rem h0
      have hs : rem = cycleBytes s.platform fc a rem + (rem - cycleBytes s.platform fc a rem) := by omega
      have hc : readCycle s fc a (cycleBytes s.platform fc a rem) = .ok (load s fc a (cycleBytes s.platform fc a rem), s) := by
        simp only [readCycle, h.2, cycleWaits_none h.1.2.2.2, Bool.false_eq_true, hf, if_false]
      simp only [readCycles, h0, if_false, otherMasters_none h.1.2.2.1, runCycle_ok (cycle := fun s => readCycle s fc a _) hc]
      rw [ih _ _ _ (by omega), ← loadAcc_eq, ← loadAcc_add, ← hs]

/-- A read answers what memory holds. -/
theorem busRead_quiet {s : State} (h : Quiet s) {fc : Fc} (hf : fc ≠ 7#3) (a : Long) (n : Nat) :
    busRead s fc a n = .ok (load s fc a n, s) := readCycles_quiet h hf n a n 0#32 (Nat.le_refl n)

/-- The cycles of a write store. -/
theorem writeCycles_quiet {fc : Fc} (hf : fc ≠ 7#3) (fuel : Nat) {s : State} (h : Quiet s) (a : Long) (rem : Nat)
    (v : Long) (hr : rem ≤ fuel) : writeCycles fc fuel s a rem v = .ok (store s fc rem a v) := by
  induction fuel generalizing s a rem with
  | zero =>
    obtain rfl : rem = 0 := by omega
    rfl
  | succ fuel ih =>
    by_cases h0 : rem = 0
    · simp [writeCycles, h0, store]
    · obtain ⟨k1, k2⟩ := cycleBytes_bounds s.platform fc a rem h0
      have hs : rem = cycleBytes s.platform fc a rem + (rem - cycleBytes s.platform fc a rem) := by omega
      have hc : ∀ k v, writeCycle s fc a k v = .ok (store s fc k a v) := fun k v => by
        simp only [writeCycle, h.2, cycleWaits_none h.1.2.2.2, Bool.false_eq_true, hf, if_false]
      simp only [writeCycles, h0, if_false, otherMasters_none h.1.2.2.1, runCycle_ok (cycle := fun s => writeCycle s fc a _ _) (hc _ _)]
      rw [ih (quiet_store h ..) _ _ (by omega), ← store_add, ← hs]

/-- A write stores. -/
theorem busWrite_quiet {s : State} (h : Quiet s) {fc : Fc} (hf : fc ≠ 7#3) (a : Long) (n : Nat) (v : Long) :
    busWrite s fc a n v = .ok (store s fc n a v) := writeCycles_quiet hf n h a n v (Nat.le_refl n)

/-- An instruction's read. -/
theorem readFc_quiet {s : State} (h : Quiet s) {fc : Fc} (hf : fc ≠ 7#3) (a : Long) (n : Nat) :
    readFc s fc a n = .ok (load s fc a n, s.withDone (s.done ++ [.read (load s fc a n)])) := by
  simp [readFc, h.1.1, land_none h.1.2.1, busRead_quiet h hf, State.withDone]

/-- An instruction's write. -/
theorem writeFc_quiet {s : State} (h : Quiet s) {fc : Fc} (hf : fc ≠ 7#3) (a : Long) (n : Nat) (v : Long) :
    writeFc s fc a n v = .ok ((store s fc n a v).withDone (s.done ++ [.write])) := by
  simp [writeFc, h.1.1, land_none h.1.2.1, busWrite_quiet h hf, State.withDone]

/-- MemRead. -/
theorem memRead_quiet {s : State} (h : Quiet s) (a : Long) (n : Nat) :
    memRead s a n = .ok (load s (dataFc s) a n, s.withDone (s.done ++ [.read (load s (dataFc s) a n)])) :=
  readFc_quiet h (dataFc_ne s) a n

/-- MemWrite. -/
theorem memWrite_quiet {s : State} (h : Quiet s) (a : Long) (n : Nat) (v : Long) :
    memWrite s a n v = .ok ((store s (dataFc s) n a v).withDone (s.done ++ [.write])) :=
  writeFc_quiet h (dataFc_ne s) a n v

/-! ## Effective addresses -/

/-- The address of an indexed or memory indirect mode. -/
theorem indexAddr_quiet {s : State} (h : Quiet s) (prog : Bool) (base : Long) (x : Index) :
    ∃ dn, indexAddr s prog base x = .ok (indexAt s prog base x, s.withDone dn) := by
  cases x with
  | brief x d8 => exact ⟨s.done, rfl⟩
  | full x bs is bd ind =>
    cases ind with
    | none => exact ⟨s.done, rfl⟩
    | pre od => exact ⟨_, by simp only [indexAddr, readFc_quiet h (spaceFc_ne s prog)]; rfl⟩
    | post od => exact ⟨_, by simp only [indexAddr, readFc_quiet h (spaceFc_ne s prog)]; rfl⟩

/-- Evaluating an effective address. -/
theorem evalEa_quiet {s : State} (h : Quiet s) (sz : Size) (pcx : Long) (ea : Ea) :
    ∃ dn, evalEa s sz pcx ea = .ok (locAt s sz pcx ea, (eaStep s sz ea).withDone dn) := by
  cases ea with
  | idx n x =>
    obtain ⟨dn, e⟩ := indexAddr_quiet h false (s.a n) x
    exact ⟨dn, by simp only [evalEa, e]; rfl⟩
  | pcIdx x =>
    obtain ⟨dn, e⟩ := indexAddr_quiet h true pcx x
    exact ⟨dn, by simp only [evalEa, e]; rfl⟩
  | postInc n => exact ⟨s.done, by rw [withDone_of_eq (by simp [eaStep])]; rfl⟩
  | preDec n => exact ⟨s.done, by rw [withDone_of_eq (by simp [eaStep])]; rfl⟩
  | _ => exact ⟨s.done, rfl⟩

/-- The register update leaves a quiet state quiet. -/
theorem quiet_eaStep {s : State} (h : Quiet s) (sz : Size) (ea : Ea) : Quiet (eaStep s sz ea) := by
  cases ea <;> simp [eaStep, h, quiet_setA]

/-- Reading an operand. -/
theorem readLoc_quiet {s : State} (h : Quiet s) (sz : Size) (loc : Loc) :
    ∃ dn, readLoc s sz loc = .ok (valueAt s sz loc, s.withDone dn) := by
  cases loc with
  | mem prog a => exact ⟨_, by simp only [readLoc, readFc_quiet h (spaceFc_ne s prog)]; rfl⟩
  | _ => exact ⟨s.done, rfl⟩

/-- Writing an operand. -/
theorem writeLoc_quiet {s : State} (h : Quiet s) (sz : Size) (v : Long) (loc : Loc) :
    ∃ dn, writeLoc s sz v loc = .ok ((putAt s sz v loc).withDone dn) := by
  cases loc with
  | mem prog a =>
    cases prog with
    | false => exact ⟨_, by simp only [writeLoc, memWrite_quiet h]; rfl⟩
    | true => exact ⟨s.done, rfl⟩
  | areg n => exact ⟨s.done, by rw [withDone_of_eq (by simp [putAt])]; rfl⟩
  | _ => exact ⟨s.done, rfl⟩

/-- What an operand reads as does not depend on the log. -/
@[simp] theorem valueAt_withDone (s : State) (d : List BusRec) (sz : Size) (loc : Loc) :
    valueAt (s.withDone d) sz loc = valueAt s sz loc := by
  cases loc with
  | mem prog a => cases prog <;> exact load_withDone s d _ a (bytesOf sz)
  | _ => rfl

/-- Writing an operand leaves the log alone. -/
@[simp] theorem putAt_withDone (s : State) (d : List BusRec) (sz : Size) (v : Long) (loc : Loc) :
    putAt (s.withDone d) sz v loc = (putAt s sz v loc).withDone d := by
  cases loc with
  | mem prog a =>
    cases prog with
    | false => exact store_withDone (dataFc s) _ _ _ s d
    | true => rfl
  | areg n => simp [putAt]
  | _ => rfl

/-- Reading an effective address. -/
theorem readEa_quiet {s : State} (h : Quiet s) (sz : Size) (own : Nat) (ea : Ea) :
    ∃ dn, readEa s sz own ea = .ok (eaVal s sz own ea, (eaStep s sz ea).withDone dn) := by
  obtain ⟨d1, e1⟩ := evalEa_quiet h sz (extAt s own) ea
  obtain ⟨d2, e2⟩ := readLoc_quiet (quiet_withDone (quiet_eaStep h sz ea) d1) sz (locAt s sz (extAt s own) ea)
  refine ⟨d2, ?_⟩
  simpa [readEa, e1, eaVal, eaLoc] using e2

/-! ## Shapes of instructions -/

/-- `pc` of a state after the register update. -/
@[simp] theorem eaStep_pc (s : State) (sz : Size) (ea : Ea) : (eaStep s sz ea).pc = s.pc := by
  cases ea <;> simp [eaStep]

/-- An instruction that replaces its operand. -/
theorem modifyEa_quiet {s : State} (h : Quiet s) (sz : Size) (own : Nat) (ea : Ea) (f : Long → Long × Ccr) :
    CompletesAs (modifyEa s sz own ea f) (modified s sz own ea f) := by
  obtain ⟨d1, e1⟩ := evalEa_quiet h sz (extAt s own) ea
  have q1 := quiet_withDone (quiet_eaStep h sz ea) d1
  obtain ⟨d2, e2⟩ := readLoc_quiet q1 sz (locAt s sz (extAt s own) ea)
  have q2 := quiet_withDone q1 d2
  obtain ⟨d3, e3⟩ := writeLoc_quiet q2 sz (f (eaVal s sz own ea)).1 (locAt s sz (extAt s own) ea)
  refine ⟨d3, ?_⟩
  simp only [valueAt_withDone, withDone_withDone] at e2
  simp only [eaVal, eaLoc, withDone_withDone, putAt_withDone] at e3
  simp only [modifyEa, e1, e2, e3, ok_bind, setCcr_withDone, advance_withDone, toRes, modified, finish, eaVal, eaLoc]

/-- An instruction that goes on with an operand. -/
theorem withOperand_quiet {s : State} (h : Quiet s) (sz : Size) (own : Nat) (ea : Ea) (k : Long → State → Res) :
    ∃ dn, withOperand s sz own ea k = k (eaVal s sz own ea) ((eaStep s sz ea).withDone dn) := by
  obtain ⟨dn, e⟩ := readEa_quiet h sz own ea
  exact ⟨dn, by simp [withOperand, e]⟩

/-- An instruction that only writes its operand. -/
theorem setEa_quiet {s : State} (h : Quiet s) (sz : Size) (ea : Ea) (v : Long) (f : Ccr) :
    CompletesAs (setEa s sz ea v f) (finish (putAt (eaStep s sz ea) sz v (eaLoc s sz 0 ea)) (1 + eaLen sz ea) f) := by
  obtain ⟨d1, e1⟩ := evalEa_quiet h sz (extAt s 0) ea
  obtain ⟨d2, e2⟩ :=
    writeLoc_quiet (quiet_withDone (quiet_eaStep h sz ea) d1) sz v (locAt s sz (extAt s 0) ea)
  refine ⟨d2, ?_⟩
  simp only [setEa, e1, e2, ok_bind, putAt_withDone, setCcr_withDone, advance_withDone, withDone_withDone, toRes, finish,
    eaLoc]

@[simp] theorem tickBy_withDone (s : State) (d : List BusRec) (k : Nat) :
    (s.withDone d).tickBy k = (s.tickBy k).withDone d := rfl

@[simp] theorem setDSized_withDone (s : State) (d : List BusRec) (sz : Size) (n : Reg) (v : Long) :
    (s.withDone d).setDSized sz n v = (s.setDSized sz n v).withDone d := rfl

@[simp] theorem d_withDone (s : State) (d : List BusRec) (n : Reg) : (s.withDone d).d n = s.d n := rfl

@[simp] theorem a_withDone (s : State) (d : List BusRec) (n : Reg) : (s.withDone d).a n = s.a n := rfl

/-- The register update leaves the data registers alone. -/
@[simp] theorem eaStep_d (s : State) (sz : Size) (ea : Ea) (n : Reg) : (eaStep s sz ea).d n = s.d n := by
  cases ea <;> simp [eaStep]

@[simp] theorem eaStep_sr (s : State) (sz : Size) (ea : Ea) : (eaStep s sz ea).sr = s.sr := by
  cases ea <;> simp [eaStep]

@[simp] theorem eaStep_freeIdx (s : State) (sz : Size) (ea : Ea) : (eaStep s sz ea).freeIdx = s.freeIdx := by
  cases ea <;> simp [eaStep]

@[simp] theorem eaStep_platform (s : State) (sz : Size) (ea : Ea) : (eaStep s sz ea).platform = s.platform := by
  cases ea <;> simp [eaStep]

@[simp] theorem eaStep_mem (s : State) (sz : Size) (ea : Ea) : (eaStep s sz ea).mem = s.mem := by
  cases ea <;> simp [eaStep]

/-- An instruction that only tests its operand. -/
theorem testEa_quiet {s : State} (h : Quiet s) (sz : Size) (own : Nat) (ea : Ea) (f : Long → Ccr) :
    CompletesAs (testEa s sz own ea f) (tested s sz own ea f) := by
  obtain ⟨dn, e⟩ := withOperand_quiet h sz own ea fun v s1 => .next (advance (1 + own + eaLen sz ea) (s1.setCcr (f v)))
  exact ⟨dn, e⟩

/-- An instruction whose destination is a data register. -/
theorem eaToDn_quiet {s : State} (h : Quiet s) (sz : Size) (d : Reg) (ea : Ea) (f : Long → Long → Long × Ccr) :
    CompletesAs (eaToDn s sz d ea f) (intoDn s sz d ea f) := by
  obtain ⟨dn, e⟩ := readEa_quiet h sz 0 ea
  refine ⟨dn, ?_⟩
  simp only [eaToDn, withOperand, e, d_withDone, setDSized_withDone, setCcr_withDone, advance_withDone, intoDn, finish,
    eaStep_d]

/-- An instruction whose destination is an address register. -/
theorem eaToAn_quiet {s : State} (h : Quiet s) (sz : Size) (a : Reg) (ea : Ea) (f : Long → Long → Long) :
    CompletesAs (eaToAn s sz a ea f) (intoAn s sz a ea f) := by
  obtain ⟨dn, e⟩ := readEa_quiet h sz 0 ea
  refine ⟨dn, ?_⟩
  simp only [eaToAn, withOperand, e, a_withDone, setA_withDone, advance_withDone, intoAn]

/-- The address of a control operand. -/
theorem eaAddr_quiet {s : State} (h : Quiet s) (own : Nat) (ea : Ea) :
    ∃ dn, eaAddr s own ea = .ok ((eaLoc s .l own ea).addr, (eaStep s .l ea).withDone dn) := by
  obtain ⟨dn, e⟩ := evalEa_quiet h .l (extAt s own) ea
  exact ⟨dn, by simp only [eaAddr, e, ok_bind, eaLoc]⟩

/-- A push. -/
theorem pushLong_quiet {s : State} (h : Quiet s) (v : Long) :
    ∃ dn, pushLong s v = .ok ((pushed s v).withDone dn) := by
  have q : Quiet (s.setSp (s.sp - 4#32)) := quiet_congr h rfl rfl rfl
  exact ⟨s.done ++ [.write], by rw [pushLong, memWrite_quiet q, sp_setSp]; rfl⟩

/-- A pop. -/
theorem pop_quiet {s : State} (h : Quiet s) (n : Nat) :
    ∃ dn, pop s n = .ok (load s (dataFc s) s.sp n, (s.setSp (s.sp + BitVec.ofNat 32 n)).withDone dn) :=
  ⟨_, by simp only [pop, memRead_quiet h]; rfl⟩

end Sys2Proof.Laws
end

