-- ==== Sys2Proof/Laws/Bus.lean ====
section
/-! SUPPORT. What bus operations and the processing of bus faults do where a cycle fails, and what an access to a
coprocessor does: one law per operation. -/

namespace Sys2Proof.Laws

open Sys2Proof.Machine

/-! ## Failing cycles (R93) -/

/-- An input changes memory and platform only. -/
theorem applyInput_frame (s : State) (i : Input) : ∃ m p, applyInput s i = { s with mem := m, platform := p } := by
  cases i <;> exact ⟨_, _, rfl⟩

/-- So does a batch of them, up to a reset. -/
theorem takeBatch_frame (is : List Input) (s : State) : ∃ m p, (takeBatch is s).1 = { s with mem := m, platform := p } := by
  induction is generalizing s with
  | nil => exact ⟨_, _, rfl⟩
  | cons i is ih =>
    unfold takeBatch
    split
    · exact ⟨_, _, rfl⟩
    · obtain ⟨m, p, h⟩ := applyInput_frame s i
      obtain ⟨m', p', h'⟩ := ih (applyInput s i)
      exact ⟨m', p', by rw [h', h]⟩

/-- So does a batch that arrives while a bus cycle waits. -/
theorem awaitInputs_frame (s : State) : ∃ m p, (awaitInputs s).2 = { s with mem := m, platform := p } := by
  unfold awaitInputs
  split
  · exact ⟨_, _, rfl⟩
  · rename_i batch rest _
    dsimp only
    generalize (if s.rmc = true then batch.filter fun i => !i.isStore else batch) = l
    generalize (if s.rmc = true then batch.filter Input.isStore else []) = off
    obtain ⟨m, p, h⟩ := takeBatch_frame l (s.setInputs rest)
    split <;> exact ⟨m, _, by rw [h]; rfl⟩

/-- A bus cycle with its wait is a cycle of the same kind, in a state that inputs may have changed, which does not wait, or
it waits for ever. -/
theorem runCycle_cases {β : Type} (cycle : State → Sys2Proof.Machine.Cycle β) (s : State) :
    (∃ t, runCycle cycle s = cycle t ∧ ∀ u, cycle t ≠ .error (.wait u)) ∨ ∃ t, runCycle cycle s = .error (.wait t) := by
  have h : ∀ n t, (∃ t', awaitCycle cycle n t = cycle t' ∧ ∀ u, cycle t' ≠ .error (.wait u)) ∨
      ∃ t', awaitCycle cycle n t = .error (.wait t') := by
    intro n
    induction n with
    | zero => exact fun t => .inr ⟨t, rfl⟩
    | succ n ih =>
      intro t
      unfold awaitCycle
      split
      · split
        · exact ih _
        · exact .inr ⟨_, rfl⟩
      · exact .inl ⟨t, rfl, by assumption⟩
  exact h _ s

/-- What decides how the cycles of a transfer run is the same, and no cycle waits. -/
def SameBus (p q : Platform) : Prop :=
  p.faults = q.faults ∧ p.ports = q.ports ∧ p.variant = q.variant ∧ p.silent = []

theorem sameBus_errs {p q : Platform} (h : SameBus p q) (fc : Fc) (read : Bool) (a : Nat) :
    cycleErrs p fc read a = cycleErrs q fc read a := by
  simp only [cycleErrs, h.1]

theorem sameBus_bytes {p q : Platform} (h : SameBus p q) (fc : Fc) (a : Long) (rem : Nat) :
    cycleBytes p fc a rem = cycleBytes q fc a rem := by
  simp only [cycleBytes, portBytes, h.2.1, h.2.2.1]

theorem sameBus_otherMasters {s : State} {p : Platform} (h : SameBus s.platform p) :
    SameBus (otherMasters s).platform p := by
  unfold otherMasters
  split
  · exact h
  · split <;> exact h

/-- A read some cycle of which ends in bus error does not complete. -/
theorem readCycles_errs {fc : Fc} (hf : fc ≠ 7#3) {p : Platform} (fuel : Nat) {s : State} (hp : SameBus s.platform p)
    (a : Long) (rem : Nat) (acc : Long)
    (h : ∃ b ∈ cycleStarts p fc fuel a rem, cycleErrs p fc true (extAddr p.variant b) = true) :
    ∃ f got t, readCycles fc fuel s a rem acc = .error (.fault f got t) := by
  induction fuel generalizing s a rem acc with
  | zero => simp [cycleStarts] at h
  | succ fuel ih =>
    by_cases h0 : rem = 0
    · simp [cycleStarts, h0] at h
    · have q := sameBus_otherMasters hp
      simp only [cycleStarts, h0, if_false, List.mem_cons, exists_eq_or_imp] at h
      simp only [readCycles, h0, if_false, sameBus_bytes q]
      by_cases e : cycleErrs p fc true (extAddr p.variant a) = true
      · have hc : readCycle (otherMasters s) fc a (cycleBytes p fc a rem) = .error (.err (otherMasters s)) := by
          simp only [readCycle, sameBus_errs q, q.2.2.1, e, if_true]
        exact ⟨_, _, _, by rw [runCycle_err (cycle := fun s => readCycle s fc a _) hc]⟩
      · have hc : readCycle (otherMasters s) fc a (cycleBytes p fc a rem) =
            .ok (load (otherMasters s) fc a (cycleBytes p fc a rem), otherMasters s) := by
          simp only [readCycle, sameBus_errs q, q.2.2.1, e, cycleWaits_none q.2.2.2, hf, if_false, Bool.false_eq_true]
        rw [runCycle_ok (cycle := fun s => readCycle s fc a _) hc]
        exact ih q _ _ _ (h.resolve_left e)

/-- A read some cycle of which ends in bus error does not complete. -/
theorem busRead_errs {s : State} (hs : s.platform.silent = []) {fc : Fc} (hf : fc ≠ 7#3) {a : Long} {n : Nat}
    (h : TransferErrs s.platform fc true a n) : ∃ f got t, busRead s fc a n = .error (.fault f got t) :=
  readCycles_errs hf n ⟨rfl, rfl, rfl, hs⟩ a n 0#32 h

/-- A write some cycle of which ends in bus error does not complete. -/
theorem writeCycles_errs {fc : Fc} (hf : fc ≠ 7#3) {p : Platform} (fuel : Nat) {s : State} (hp : SameBus s.platform p)
    (a : Long) (rem : Nat) (v : Long)
    (h : ∃ b ∈ cycleStarts p fc fuel a rem, cycleErrs p fc false (extAddr p.variant b) = true) :
    ∃ f got t, writeCycles fc fuel s a rem v = .error (.fault f got t) := by
  induction fuel generalizing s a rem with
  | zero => simp [cycleStarts] at h
  | succ fuel ih =>
    by_cases h0 : rem = 0
    · simp [cycleStarts, h0] at h
    · have q := sameBus_otherMasters hp
      simp only [cycleStarts, h0, if_false, List.mem_cons, exists_eq_or_imp] at h
      simp only [writeCycles, h0, if_false, sameBus_bytes q]
      by_cases e : cycleErrs p fc false (extAddr p.variant a) = true
      · have hc : ∀ x, writeCycle (otherMasters s) fc a (cycleBytes p fc a rem) x = .error (.err (otherMasters s)) := by
          simp only [writeCycle, sameBus_errs q, q.2.2.1, e, if_true, implies_true]
        exact ⟨_, _, _, by rw [runCycle_err (cycle := fun s => writeCycle s fc a _ _) (hc _)]⟩
      · have hc : ∀ x, writeCycle (otherMasters s) fc a (cycleBytes p fc a rem) x =
            .ok (store (otherMasters s) fc (cycleBytes p fc a rem) a x) := by
          simp only [writeCycle, sameBus_errs q, q.2.2.1, e, cycleWaits_none q.2.2.2, hf, if_false, Bool.false_eq_true,
            implies_true]
        rw [runCycle_ok (cycle := fun s => writeCycle s fc a _ _) (hc _)]
        exact ih (by rw [store_platform]; exact q) _ _ (h.resolve_left e)

/-- A write some cycle of which ends in bus error does not complete. -/
theorem busWrite_errs {s : State} (hs : s.platform.silent = []) {fc : Fc} (hf : fc ≠ 7#3) {a : Long} {n : Nat} (v : Long)
    (h : TransferErrs s.platform fc false a n) : ∃ f got t, busWrite s fc a n v = .error (.fault f got t) :=
  writeCycles_errs hf n ⟨rfl, rfl, rfl, hs⟩ a n v h

/-! ## Bus faults (R604, R618) -/

@[simp] theorem halt_run (s : State) : (halt s).run = .halted := rfl

@[simp] theorem hang_run (s : State) : (hang s).run = .waiting := rfl

/-- Fetching a word to find out whether it can be fetched succeeds, or ends in the halted or the waiting state. -/
theorem prefetch_cases (s : State) (a : Long) :
    (∃ t, prefetch s a = .ok t) ∨ (∃ t, prefetch s a = .error (halt t)) ∨ ∃ t, prefetch s a = .error (hang t) := by
  unfold prefetch
  split
  · exact .inl ⟨_, rfl⟩
  · exact .inr (.inr ⟨_, rfl⟩)
  · exact .inr (.inl ⟨_, rfl⟩)

/-- The processing of a bus fault halts the processor, or waits in a cycle that nothing ends, or has stacked the frame,
read the vector and fetched the handler's first word. -/
theorem takeFault_cases (s : State) (f : FaultFrame) :
    (∃ t, takeFault s f = halt t) ∨ (∃ t, takeFault s f = hang t) ∨
    ∃ t target u v, pushFields (suspend s f) (faultFields s f) = .ok t ∧
      busRead t 5#3 (vectorAddr t f.vector) 4 = .ok (target, u) ∧ prefetch (startAt u target) target = .ok v ∧
      takeFault s f = v := by
  have hb : ∀ stop : BusStop, (∃ t, stop.halted = halt t) ∨ ∃ t, stop.halted = hang t := by
    intro stop
    cases stop
    · exact .inl ⟨_, rfl⟩
    · exact .inr ⟨_, rfl⟩
  unfold takeFault
  split
  · exact (hb _).elim .inl fun h => .inr (.inl h)
  · rename_i t h1
    split
    · exact (hb _).elim .inl fun h => .inr (.inl h)
    · rename_i target u h2
      rcases prefetch_cases (startAt u target) target with ⟨v, h3⟩ | ⟨v, h3⟩ | ⟨v, h3⟩
      · exact .inr (.inr ⟨t, target, u, v, h1, h2, h3, by simp only [h3, endState]⟩)
      · exact .inl ⟨v, by simp only [h3, endState]⟩
      · exact .inr (.inl ⟨v, by simp only [h3, endState]⟩)

/-! ## Restarting (log 11) -/

/-- A record that is not the last is taken over, and the instruction lands later. -/
theorem tookOver_cons (s : State) (r x : BusRec) (rest : List BusRec) :
    tookOver s r (x :: rest) = { s with replay := x :: rest, done := s.done ++ [r] } := by
  simp [tookOver]

/-- With the last record an instruction lands, unless that is the access after it. -/
theorem tookOver_last (s : State) (r : BusRec) (l : Landing) (h : s.landing = some l) :
    tookOver s r [] = if l.late then { s with replay := [], done := s.done ++ [r] }
      else land { s with replay := [], done := s.done ++ [r] } := by
  cases hl : l.late <;> simp [tookOver, h, hl]

/-! ## Coprocessor accesses (R461) -/

/-- A read that one cycle of a coprocessor answers. -/
theorem readFc_cir {s : State} (h : Quiet s) (hw : Wide s) {a : Long} {k : Nat} {v : Long} {cs : List Coprocessor}
    (hk : k ≠ 0) (ha : a.toNat % 4 + k ≤ 4) (ht : cpuType a = 2)
    (hp : popAnswer (a.extractLsb' 13 3) s.platform.coprocessors = some (some (.data v, cs))) :
    readFc s 7#3 a k = .ok (lowBits (8 * k) v, { s.setCoprocessors cs with done := s.done ++ [.read (lowBits (8 * k) v)] }) := by
  have hb : cycleBytes s.platform 7#3 a k = k := by
    have := hw (extAddr s.platform.variant a)
    simp only [cycleBytes, this]
    omega
  obtain ⟨n, rfl⟩ := Nat.exists_eq_succ_of_ne_zero hk
  have hr : ∀ t : State, readCycles 7#3 n t (a + BitVec.ofNat 32 (n + 1)) 0 (lowBits (8 * (n + 1)) v) =
      .ok (lowBits (8 * (n + 1)) v, t) := by
    intro t
    cases n <;> simp [readCycles]
  have hc : readCycle s 7#3 a (n + 1) = .ok (lowBits (8 * (n + 1)) v, s.setCoprocessors cs) := by
    simp only [readCycle, h.2, cycleWaits_none h.1.2.2.2, Bool.false_eq_true, if_false, if_true, cpuReadCycle, ht, hp]
  simp only [readFc, h.1.1, land_none h.1.2.1, busRead, readCycles, hk, if_false, otherMasters_none h.1.2.2.1, hb,
    Nat.succ_eq_add_one, runCycle_ok (cycle := fun s => readCycle s 7#3 a (n + 1)) hc, Nat.sub_self,
    BitVec.zero_shiftLeft, BitVec.zero_or, hr]
  rfl

/-- A write that one cycle of a coprocessor takes. -/
theorem writeFc_cir {s : State} (h : Quiet s) (hw : Wide s) {a : Long} {k : Nat} {v : Long} {cs : List Coprocessor}
    (hk : k ≠ 0) (ha : a.toNat % 4 + k ≤ 4) (ht : cpuType a = 2)
    (hp : logWrite (a.extractLsb' 13 3) { offset := a.extractLsb' 0 5, bytes := k, data := lowBits (8 * k) v }
      s.platform.coprocessors = some (some (true, cs))) :
    writeFc s 7#3 a k v = .ok { s.setCoprocessors cs with done := s.done ++ [.write] } := by
  have hb : cycleBytes s.platform 7#3 a k = k := by
    have := hw (extAddr s.platform.variant a)
    simp only [cycleBytes, this]
    omega
  obtain ⟨n, rfl⟩ := Nat.exists_eq_succ_of_ne_zero hk
  have hr : ∀ t : State, writeCycles 7#3 n t (a + BitVec.ofNat 32 (n + 1)) 0 v = .ok t := by
    intro t
    cases n <;> simp [writeCycles]
  simp only [Nat.succ_eq_add_one] at hp hb ⊢
  have hc : writeCycle s 7#3 a (n + 1) (lowBits (8 * (n + 1)) v) = .ok (s.setCoprocessors cs) := by
    simp only [writeCycle, h.2, cycleWaits_none h.1.2.2.2, Bool.false_eq_true, if_false, if_true, cpuWriteCycle, ht, hp]
  simp only [writeFc, h.1.1, land_none h.1.2.1, busWrite, writeCycles, Nat.succ_ne_zero, if_false,
    otherMasters_none h.1.2.2.1, hb, Nat.sub_self, Nat.mul_zero, BitVec.ushiftRight_zero,
    runCycle_ok (cycle := fun s => writeCycle s 7#3 a (n + 1) _) hc, hr]
  rfl

end Sys2Proof.Laws
end

