-- ==== Sys2Proof/Laws/Exec.lean ====
section
/-! SUPPORT. The meaning of each instruction, by name: `exec` of a constructor is its arm. -/

namespace Sys2Proof.Laws

open Sys2Proof.Machine

variable (s : State)

theorem exec_oriCcr : ∀ imm, exec (.oriCcr imm) s = execOriCcr imm s := fun _ => rfl
theorem exec_oriSr : ∀ imm, exec (.oriSr imm) s = execOriSr imm s := fun _ => rfl
theorem exec_andiCcr : ∀ imm, exec (.andiCcr imm) s = execAndiCcr imm s := fun _ => rfl
theorem exec_andiSr : ∀ imm, exec (.andiSr imm) s = execAndiSr imm s := fun _ => rfl
theorem exec_eoriCcr : ∀ imm, exec (.eoriCcr imm) s = execEoriCcr imm s := fun _ => rfl
theorem exec_eoriSr : ∀ imm, exec (.eoriSr imm) s = execEoriSr imm s := fun _ => rfl
theorem exec_cas2W : ∀ rn1 du1 dc1 rn2 du2 dc2, exec (.cas2W rn1 du1 dc1 rn2 du2 dc2) s = execCas2W rn1 du1 dc1 rn2 du2 dc2 s :=
  fun _ _ _ _ _ _ => rfl
theorem exec_cas2L : ∀ rn1 du1 dc1 rn2 du2 dc2, exec (.cas2L rn1 du1 dc1 rn2 du2 dc2) s = execCas2L rn1 du1 dc1 rn2 du2 dc2 s :=
  fun _ _ _ _ _ _ => rfl
theorem exec_rtm : ∀ rn, exec (.rtm rn) s = execRtm rn s := fun _ => rfl
theorem exec_callm : ∀ argc ea, exec (.callm argc ea) s = execCallm argc ea s := fun _ _ => rfl
theorem exec_cmp2 : ∀ sz rn ea, exec (.cmp2 sz rn ea) s = execCmp2 sz rn ea s := fun _ _ _ => rfl
theorem exec_chk2 : ∀ sz rn ea, exec (.chk2 sz rn ea) s = execChk2 sz rn ea s := fun _ _ _ => rfl
theorem exec_btst : ∀ n ea, exec (.btst n ea) s = execBtst n ea s := fun _ _ => rfl
theorem exec_bchg : ∀ n ea, exec (.bchg n ea) s = execBchg n ea s := fun _ _ => rfl
theorem exec_bclr : ∀ n ea, exec (.bclr n ea) s = execBclr n ea s := fun _ _ => rfl
theorem exec_bset : ∀ n ea, exec (.bset n ea) s = execBset n ea s := fun _ _ => rfl
theorem exec_cas : ∀ sz dc du ea, exec (.cas sz dc du ea) s = execCas sz dc du ea s := fun _ _ _ _ => rfl
theorem exec_moves : ∀ sz rn toMem ea, exec (.moves sz rn toMem ea) s = execMoves sz rn toMem ea s :=
  fun _ _ _ _ => rfl
theorem exec_movep : ∀ long toMem d a d16, exec (.movep long toMem d a d16) s = execMovep long toMem d a d16 s :=
  fun _ _ _ _ _ => rfl
theorem exec_btstDn : ∀ d ea, exec (.btstDn d ea) s = execBtstDn d ea s := fun _ _ => rfl
theorem exec_bchgDn : ∀ d ea, exec (.bchgDn d ea) s = execBchgDn d ea s := fun _ _ => rfl
theorem exec_bclrDn : ∀ d ea, exec (.bclrDn d ea) s = execBclrDn d ea s := fun _ _ => rfl
theorem exec_bsetDn : ∀ d ea, exec (.bsetDn d ea) s = execBsetDn d ea s := fun _ _ => rfl
theorem exec_ori : ∀ sz imm ea, exec (.ori sz imm ea) s = execOri sz imm ea s := fun _ _ _ => rfl
theorem exec_andi : ∀ sz imm ea, exec (.andi sz imm ea) s = execAndi sz imm ea s := fun _ _ _ => rfl
theorem exec_subi : ∀ sz imm ea, exec (.subi sz imm ea) s = execSubi sz imm ea s := fun _ _ _ => rfl
theorem exec_addi : ∀ sz imm ea, exec (.addi sz imm ea) s = execAddi sz imm ea s := fun _ _ _ => rfl
theorem exec_eori : ∀ sz imm ea, exec (.eori sz imm ea) s = execEori sz imm ea s := fun _ _ _ => rfl
theorem exec_cmpi : ∀ sz imm ea, exec (.cmpi sz imm ea) s = execCmpi sz imm ea s := fun _ _ _ => rfl
theorem exec_moveB : ∀ src dst, exec (.moveB src dst) s = execMoveB src dst s := fun _ _ => rfl
theorem exec_moveaW : ∀ a src, exec (.moveaW a src) s = execMoveaW a src s := fun _ _ => rfl
theorem exec_moveW : ∀ src dst, exec (.moveW src dst) s = execMoveW src dst s := fun _ _ => rfl
theorem exec_moveaL : ∀ a src, exec (.moveaL a src) s = execMoveaL a src s := fun _ _ => rfl
theorem exec_moveL : ∀ src dst, exec (.moveL src dst) s = execMoveL src dst s := fun _ _ => rfl
theorem exec_illegal : exec .illegal s = execIllegal s := rfl
theorem exec_reset : exec .reset s = execReset s := rfl
theorem exec_nop : exec .nop s = execNop s := rfl
theorem exec_stop : ∀ imm, exec (.stop imm) s = execStop imm s := fun _ => rfl
theorem exec_rte : exec .rte s = execRte s := rfl
theorem exec_rtd : ∀ d16, exec (.rtd d16) s = execRtd d16 s := fun _ => rfl
theorem exec_rts : exec .rts s = execRts s := rfl
theorem exec_trapv : exec .trapv s = execTrapv s := rfl
theorem exec_rtr : exec .rtr s = execRtr s := rfl
theorem exec_movec : ∀ toCtl rn code, exec (.movec toCtl rn code) s = execMovec toCtl rn code s := fun _ _ _ => rfl
theorem exec_trap : ∀ v, exec (.trap v) s = execTrap v s := fun _ => rfl
theorem exec_linkW : ∀ a d16, exec (.linkW a d16) s = execLinkW a d16 s := fun _ _ => rfl
theorem exec_unlk : ∀ a, exec (.unlk a) s = execUnlk a s := fun _ => rfl
theorem exec_moveUsp : ∀ fromUsp a, exec (.moveUsp fromUsp a) s = execMoveUsp fromUsp a s := fun _ _ => rfl
theorem exec_jsr : ∀ ea, exec (.jsr ea) s = execJsr ea s := fun _ => rfl
theorem exec_jmp : ∀ ea, exec (.jmp ea) s = execJmp ea s := fun _ => rfl
theorem exec_swap : ∀ d, exec (.swap d) s = execSwap d s := fun _ => rfl
theorem exec_bkpt : ∀ v, exec (.bkpt v) s = execBkpt v s := fun _ => rfl
theorem exec_pea : ∀ ea, exec (.pea ea) s = execPea ea s := fun _ => rfl
theorem exec_linkL : ∀ a d32, exec (.linkL a d32) s = execLinkL a d32 s := fun _ _ => rfl
theorem exec_nbcd : ∀ ea, exec (.nbcd ea) s = execNbcd ea s := fun _ => rfl
theorem exec_extW : ∀ d, exec (.extW d) s = execExtW d s := fun _ => rfl
theorem exec_extL : ∀ d, exec (.extL d) s = execExtL d s := fun _ => rfl
theorem exec_extbL : ∀ d, exec (.extbL d) s = execExtbL d s := fun _ => rfl
theorem exec_movemToMem : ∀ long mask ea, exec (.movemToMem long mask ea) s = execMovemToMem long mask ea s :=
  fun _ _ _ => rfl
theorem exec_movemToRegs : ∀ long mask ea, exec (.movemToRegs long mask ea) s = execMovemToRegs long mask ea s :=
  fun _ _ _ => rfl
theorem exec_muluL : ∀ quad dl dh ea, exec (.muluL quad dl dh ea) s = execMuluL quad dl dh ea s := fun _ _ _ _ => rfl
theorem exec_mulsL : ∀ quad dl dh ea, exec (.mulsL quad dl dh ea) s = execMulsL quad dl dh ea s := fun _ _ _ _ => rfl
theorem exec_divuL : ∀ quad dq dr ea, exec (.divuL quad dq dr ea) s = execDivuL quad dq dr ea s := fun _ _ _ _ => rfl
theorem exec_divsL : ∀ quad dq dr ea, exec (.divsL quad dq dr ea) s = execDivsL quad dq dr ea s := fun _ _ _ _ => rfl
theorem exec_tas : ∀ ea, exec (.tas ea) s = execTas ea s := fun _ => rfl
theorem exec_tst : ∀ sz ea, exec (.tst sz ea) s = execTst sz ea s := fun _ _ => rfl
theorem exec_moveFromSr : ∀ ea, exec (.moveFromSr ea) s = execMoveFromSr ea s := fun _ => rfl
theorem exec_negx : ∀ sz ea, exec (.negx sz ea) s = execNegx sz ea s := fun _ _ => rfl
theorem exec_moveFromCcr : ∀ ea, exec (.moveFromCcr ea) s = execMoveFromCcr ea s := fun _ => rfl
theorem exec_clr : ∀ sz ea, exec (.clr sz ea) s = execClr sz ea s := fun _ _ => rfl
theorem exec_moveToCcr : ∀ ea, exec (.moveToCcr ea) s = execMoveToCcr ea s := fun _ => rfl
theorem exec_neg : ∀ sz ea, exec (.neg sz ea) s = execNeg sz ea s := fun _ _ => rfl
theorem exec_moveToSr : ∀ ea, exec (.moveToSr ea) s = execMoveToSr ea s := fun _ => rfl
theorem exec_not : ∀ sz ea, exec (.not sz ea) s = execNot sz ea s := fun _ _ => rfl
theorem exec_chkW : ∀ d ea, exec (.chkW d ea) s = execChkW d ea s := fun _ _ => rfl
theorem exec_chkL : ∀ d ea, exec (.chkL d ea) s = execChkL d ea s := fun _ _ => rfl
theorem exec_lea : ∀ a ea, exec (.lea a ea) s = execLea a ea s := fun _ _ => rfl
theorem exec_dbcc : ∀ cc d d16, exec (.dbcc cc d d16) s = execDbcc cc d d16 s := fun _ _ _ => rfl
theorem exec_trapccW : ∀ cc op, exec (.trapccW cc op) s = execTrapccW cc op s := fun _ _ => rfl
theorem exec_trapccL : ∀ cc op, exec (.trapccL cc op) s = execTrapccL cc op s := fun _ _ => rfl
theorem exec_trapcc : ∀ cc, exec (.trapcc cc) s = execTrapcc cc s := fun _ => rfl
theorem exec_scc : ∀ cc ea, exec (.scc cc ea) s = execScc cc ea s := fun _ _ => rfl
theorem exec_addq : ∀ sz q ea, exec (.addq sz q ea) s = execAddq sz q ea s := fun _ _ _ => rfl
theorem exec_subq : ∀ sz q ea, exec (.subq sz q ea) s = execSubq sz q ea s := fun _ _ _ => rfl
theorem exec_bra : ∀ d, exec (.bra d) s = execBra d s := fun _ => rfl
theorem exec_bsr : ∀ d, exec (.bsr d) s = execBsr d s := fun _ => rfl
theorem exec_bcc : ∀ cc d, exec (.bcc cc d) s = execBcc cc d s := fun _ _ => rfl
theorem exec_moveq : ∀ d imm, exec (.moveq d imm) s = execMoveq d imm s := fun _ _ => rfl
theorem exec_divuW : ∀ d ea, exec (.divuW d ea) s = execDivuW d ea s := fun _ _ => rfl
theorem exec_divsW : ∀ d ea, exec (.divsW d ea) s = execDivsW d ea s := fun _ _ => rfl
theorem exec_sbcd : ∀ mem src dst, exec (.sbcd mem src dst) s = execSbcd mem src dst s := fun _ _ _ => rfl
theorem exec_pack : ∀ mem src dst adj, exec (.pack mem src dst adj) s = execPack mem src dst adj s :=
  fun _ _ _ _ => rfl
theorem exec_unpk : ∀ mem src dst adj, exec (.unpk mem src dst adj) s = execUnpk mem src dst adj s :=
  fun _ _ _ _ => rfl
theorem exec_or : ∀ sz toEa d ea, exec (.or sz toEa d ea) s = execOr sz toEa d ea s := fun _ _ _ _ => rfl
theorem exec_suba : ∀ long a ea, exec (.suba long a ea) s = execSuba long a ea s := fun _ _ _ => rfl
theorem exec_subx : ∀ sz mem src dst, exec (.subx sz mem src dst) s = execSubx sz mem src dst s := fun _ _ _ _ => rfl
theorem exec_sub : ∀ sz toEa d ea, exec (.sub sz toEa d ea) s = execSub sz toEa d ea s := fun _ _ _ _ => rfl
theorem exec_aline : ∀ x, exec (.aline x) s = execAline x s := fun _ => rfl
theorem exec_cmpa : ∀ long a ea, exec (.cmpa long a ea) s = execCmpa long a ea s := fun _ _ _ => rfl
theorem exec_cmpm : ∀ sz src dst, exec (.cmpm sz src dst) s = execCmpm sz src dst s := fun _ _ _ => rfl
theorem exec_eor : ∀ sz d ea, exec (.eor sz d ea) s = execEor sz d ea s := fun _ _ _ => rfl
theorem exec_cmp : ∀ sz d ea, exec (.cmp sz d ea) s = execCmp sz d ea s := fun _ _ _ => rfl
theorem exec_muluW : ∀ d ea, exec (.muluW d ea) s = execMuluW d ea s := fun _ _ => rfl
theorem exec_mulsW : ∀ d ea, exec (.mulsW d ea) s = execMulsW d ea s := fun _ _ => rfl
theorem exec_abcd : ∀ mem src dst, exec (.abcd mem src dst) s = execAbcd mem src dst s := fun _ _ _ => rfl
theorem exec_exgDD : ∀ x y, exec (.exgDD x y) s = execExgDD x y s := fun _ _ => rfl
theorem exec_exgAA : ∀ x y, exec (.exgAA x y) s = execExgAA x y s := fun _ _ => rfl
theorem exec_exgDA : ∀ x y, exec (.exgDA x y) s = execExgDA x y s := fun _ _ => rfl
theorem exec_and : ∀ sz toEa d ea, exec (.and sz toEa d ea) s = execAnd sz toEa d ea s := fun _ _ _ _ => rfl
theorem exec_adda : ∀ long a ea, exec (.adda long a ea) s = execAdda long a ea s := fun _ _ _ => rfl
theorem exec_addx : ∀ sz mem src dst, exec (.addx sz mem src dst) s = execAddx sz mem src dst s := fun _ _ _ _ => rfl
theorem exec_add : ∀ sz toEa d ea, exec (.add sz toEa d ea) s = execAdd sz toEa d ea s := fun _ _ _ _ => rfl
theorem exec_bftst : ∀ f ea, exec (.bftst f ea) s = execBftst f ea s := fun _ _ => rfl
theorem exec_bfextu : ∀ d f ea, exec (.bfextu d f ea) s = execBfextu d f ea s := fun _ _ _ => rfl
theorem exec_bfchg : ∀ f ea, exec (.bfchg f ea) s = execBfchg f ea s := fun _ _ => rfl
theorem exec_bfexts : ∀ d f ea, exec (.bfexts d f ea) s = execBfexts d f ea s := fun _ _ _ => rfl
theorem exec_bfclr : ∀ f ea, exec (.bfclr f ea) s = execBfclr f ea s := fun _ _ => rfl
theorem exec_bfffo : ∀ d f ea, exec (.bfffo d f ea) s = execBfffo d f ea s := fun _ _ _ => rfl
theorem exec_bfset : ∀ f ea, exec (.bfset f ea) s = execBfset f ea s := fun _ _ => rfl
theorem exec_bfins : ∀ d f ea, exec (.bfins d f ea) s = execBfins d f ea s := fun _ _ _ => rfl
theorem exec_asrEa : ∀ ea, exec (.asrEa ea) s = execAsrEa ea s := fun _ => rfl
theorem exec_aslEa : ∀ ea, exec (.aslEa ea) s = execAslEa ea s := fun _ => rfl
theorem exec_lsrEa : ∀ ea, exec (.lsrEa ea) s = execLsrEa ea s := fun _ => rfl
theorem exec_lslEa : ∀ ea, exec (.lslEa ea) s = execLslEa ea s := fun _ => rfl
theorem exec_roxrEa : ∀ ea, exec (.roxrEa ea) s = execRoxrEa ea s := fun _ => rfl
theorem exec_roxlEa : ∀ ea, exec (.roxlEa ea) s = execRoxlEa ea s := fun _ => rfl
theorem exec_rorEa : ∀ ea, exec (.rorEa ea) s = execRorEa ea s := fun _ => rfl
theorem exec_rolEa : ∀ ea, exec (.rolEa ea) s = execRolEa ea s := fun _ => rfl
theorem exec_asr : ∀ sz byReg c d, exec (.asr sz byReg c d) s = execAsr sz byReg c d s := fun _ _ _ _ => rfl
theorem exec_asl : ∀ sz byReg c d, exec (.asl sz byReg c d) s = execAsl sz byReg c d s := fun _ _ _ _ => rfl
theorem exec_lsr : ∀ sz byReg c d, exec (.lsr sz byReg c d) s = execLsr sz byReg c d s := fun _ _ _ _ => rfl
theorem exec_lsl : ∀ sz byReg c d, exec (.lsl sz byReg c d) s = execLsl sz byReg c d s := fun _ _ _ _ => rfl
theorem exec_roxr : ∀ sz byReg c d, exec (.roxr sz byReg c d) s = execRoxr sz byReg c d s := fun _ _ _ _ => rfl
theorem exec_roxl : ∀ sz byReg c d, exec (.roxl sz byReg c d) s = execRoxl sz byReg c d s := fun _ _ _ _ => rfl
theorem exec_ror : ∀ sz byReg c d, exec (.ror sz byReg c d) s = execRor sz byReg c d s := fun _ _ _ _ => rfl
theorem exec_rol : ∀ sz byReg c d, exec (.rol sz byReg c d) s = execRol sz byReg c d s := fun _ _ _ _ => rfl
theorem exec_flineCpid0 : ∀ x, exec (.flineCpid0 x) s = execFlineCpid0 x s := fun _ => rfl
theorem exec_cpGen : ∀ id mode reg cmd, exec (.cpGen id mode reg cmd) s = execCpGen id mode reg cmd s :=
  fun _ _ _ _ => rfl
theorem exec_cpDbcc : ∀ id d cond, exec (.cpDbcc id d cond) s = execCpDbcc id d cond s := fun _ _ _ => rfl
theorem exec_cpTrapccW : ∀ id cond, exec (.cpTrapccW id cond) s = execCpTrapccW id cond s := fun _ _ => rfl
theorem exec_cpTrapccL : ∀ id cond, exec (.cpTrapccL id cond) s = execCpTrapccL id cond s := fun _ _ => rfl
theorem exec_cpTrapcc : ∀ id cond, exec (.cpTrapcc id cond) s = execCpTrapcc id cond s := fun _ _ => rfl
theorem exec_cpScc : ∀ id mode reg cond, exec (.cpScc id mode reg cond) s = execCpScc id mode reg cond s :=
  fun _ _ _ _ => rfl
theorem exec_cpBccW : ∀ id sel, exec (.cpBccW id sel) s = execCpBccW id sel s := fun _ _ => rfl
theorem exec_cpBccL : ∀ id sel, exec (.cpBccL id sel) s = execCpBccL id sel s := fun _ _ => rfl
theorem exec_cpSave : ∀ id ea, exec (.cpSave id ea) s = execCpSave id ea s := fun _ _ => rfl
theorem exec_cpRestore : ∀ id ea, exec (.cpRestore id ea) s = execCpRestore id ea s := fun _ _ => rfl
theorem exec_flineBadType : ∀ id x, exec (.flineBadType id x) s = execFlineBadType id x s := fun _ _ => rfl
theorem exec_unassigned : ∀ opword, exec (.unassigned opword) s = execUnassigned opword s := fun _ => rfl

end Sys2Proof.Laws
end

