-- ==== Sys2Proof/Laws/PerInstr.lean ====
section
/-! SUPPORT. What holds of every instruction as syntax, one lemma per constructor: a well-formed instruction has one to
eleven words (R140). -/

namespace Sys2Proof.Laws

/-! ## Lengths of the parts of an encoding -/

@[simp] theorem longWords_length (v : Long) : (longWords v).length = 2 := rfl

theorem immWords_length (sz : Size) (v : Long) : (immWords sz v).length ≤ 2 := by cases sz <;> simp [immWords]

theorem disp_words_length (d : Disp) : d.words.length ≤ 2 := by cases d <;> simp [Disp.words]

theorem indirect_words_length (i : Indirect) : i.words.length ≤ 2 := by
  cases i <;> simp [Indirect.words, disp_words_length]

theorem index_words_length (x : Index) : x.words.length ≤ 5 := by
  cases x with
  | brief x d8 => simp [Index.words]
  | full x bs is bd ind =>
    have h1 := disp_words_length bd
    have h2 := indirect_words_length ind
    simp [Index.words]
    omega

/-- An effective address has at most five extension words (R167). -/
theorem ea_words_length (sz : Size) (ea : Ea) : (ea.words sz).length ≤ 5 := by
  cases ea with
  | idx n x => exact index_words_length x
  | pcIdx x => exact index_words_length x
  | imm v => exact le_trans (immWords_length sz v) (by omega)
  | _ => simp [Ea.words]

/-- Bounds that evaluation shows. -/
theorem of_ble {n : Nat} (h1 : Nat.ble 1 n = true) (h2 : Nat.ble n 11 = true) : 1 ≤ n ∧ n ≤ 11 :=
  ⟨Nat.le_of_ble_eq_true h1, Nat.le_of_ble_eq_true h2⟩

theorem encEa_length (line : BitVec 4) (r9 op : BitVec 3) (own : List Word) (sz : Size) (ea : Ea) (h : own.length ≤ 5) :
    1 ≤ (encEa line r9 op own sz ea).length ∧ (encEa line r9 op own sz ea).length ≤ 11 := by
  have := ea_words_length sz ea
  simp [encEa]
  omega

theorem encMove_length (line : BitVec 4) (sz : Size) (src dst : Ea) :
    1 ≤ (encMove line sz src dst).length ∧ (encMove line sz src dst).length ≤ 11 := by
  have h1 := ea_words_length sz src
  have h2 := ea_words_length sz dst
  simp [encMove]
  omega

theorem encBranch_length (cc : Cond) (d : BrDisp) :
    1 ≤ (encBranch cc d).length ∧ (encBranch cc d).length ≤ 11 := by
  cases d <;> simp [encBranch, BrDisp.words]

end Sys2Proof.Laws

namespace Sys2Proof.Laws.EncodeLength

/-- A well-formed instruction has one to eleven words (R140). -/
def Statement (i : Instr) : Prop := i.wf = true → 1 ≤ (encode i).length ∧ (encode i).length ≤ 11

theorem oriCcr : ∀ imm, Statement (.oriCcr imm) := fun _ _ => of_ble rfl rfl

theorem oriSr : ∀ imm, Statement (.oriSr imm) := fun _ _ => of_ble rfl rfl

theorem andiCcr : ∀ imm, Statement (.andiCcr imm) := fun _ _ => of_ble rfl rfl

theorem andiSr : ∀ imm, Statement (.andiSr imm) := fun _ _ => of_ble rfl rfl

theorem eoriCcr : ∀ imm, Statement (.eoriCcr imm) := fun _ _ => of_ble rfl rfl

theorem eoriSr : ∀ imm, Statement (.eoriSr imm) := fun _ _ => of_ble rfl rfl

theorem cas2W : ∀ rn1 du1 dc1 rn2 du2 dc2, Statement (.cas2W rn1 du1 dc1 rn2 du2 dc2) :=
  fun _ _ _ _ _ _ _ => of_ble rfl rfl

theorem cas2L : ∀ rn1 du1 dc1 rn2 du2 dc2, Statement (.cas2L rn1 du1 dc1 rn2 du2 dc2) :=
  fun _ _ _ _ _ _ _ => of_ble rfl rfl

theorem rtm : ∀ rn, Statement (.rtm rn) := fun _ _ => of_ble rfl rfl

theorem callm : ∀ argc ea, Statement (.callm argc ea) := fun _ _ _ => encEa_length _ _ _ _ _ _ (by simp)

theorem cmp2 : ∀ sz rn ea, Statement (.cmp2 sz rn ea) := fun _ _ _ _ => encEa_length _ _ _ _ _ _ (by simp)

theorem chk2 : ∀ sz rn ea, Statement (.chk2 sz rn ea) := fun _ _ _ _ => encEa_length _ _ _ _ _ _ (by simp)

theorem btst : ∀ n ea, Statement (.btst n ea) := fun _ _ _ => encEa_length _ _ _ _ _ _ (by simp)

theorem bchg : ∀ n ea, Statement (.bchg n ea) := fun _ _ _ => encEa_length _ _ _ _ _ _ (by simp)

theorem bclr : ∀ n ea, Statement (.bclr n ea) := fun _ _ _ => encEa_length _ _ _ _ _ _ (by simp)

theorem bset : ∀ n ea, Statement (.bset n ea) := fun _ _ _ => encEa_length _ _ _ _ _ _ (by simp)

theorem cas : ∀ sz dc du ea, Statement (.cas sz dc du ea) := fun _ _ _ _ _ => encEa_length _ _ _ _ _ _ (by simp)

theorem moves : ∀ sz rn toMem ea, Statement (.moves sz rn toMem ea) :=
  fun _ _ _ _ _ => encEa_length _ _ _ _ _ _ (by simp)

theorem movep : ∀ long toMem d a d16, Statement (.movep long toMem d a d16) := fun _ _ _ _ _ _ => of_ble rfl rfl

theorem btstDn : ∀ d ea, Statement (.btstDn d ea) := fun _ _ _ => encEa_length _ _ _ _ _ _ (by simp)

theorem bchgDn : ∀ d ea, Statement (.bchgDn d ea) := fun _ _ _ => encEa_length _ _ _ _ _ _ (by simp)

theorem bclrDn : ∀ d ea, Statement (.bclrDn d ea) := fun _ _ _ => encEa_length _ _ _ _ _ _ (by simp)

theorem bsetDn : ∀ d ea, Statement (.bsetDn d ea) := fun _ _ _ => encEa_length _ _ _ _ _ _ (by simp)

theorem ori : ∀ sz imm ea, Statement (.ori sz imm ea) :=
  fun _ _ _ _ => encEa_length _ _ _ _ _ _ (le_trans (immWords_length _ _) (by omega))

theorem andi : ∀ sz imm ea, Statement (.andi sz imm ea) :=
  fun _ _ _ _ => encEa_length _ _ _ _ _ _ (le_trans (immWords_length _ _) (by omega))

theorem subi : ∀ sz imm ea, Statement (.subi sz imm ea) :=
  fun _ _ _ _ => encEa_length _ _ _ _ _ _ (le_trans (immWords_length _ _) (by omega))

theorem addi : ∀ sz imm ea, Statement (.addi sz imm ea) :=
  fun _ _ _ _ => encEa_length _ _ _ _ _ _ (le_trans (immWords_length _ _) (by omega))

theorem eori : ∀ sz imm ea, Statement (.eori sz imm ea) :=
  fun _ _ _ _ => encEa_length _ _ _ _ _ _ (le_trans (immWords_length _ _) (by omega))

theorem cmpi : ∀ sz imm ea, Statement (.cmpi sz imm ea) :=
  fun _ _ _ _ => encEa_length _ _ _ _ _ _ (le_trans (immWords_length _ _) (by omega))

theorem moveB : ∀ src dst, Statement (.moveB src dst) := fun _ _ _ => encMove_length _ _ _ _

theorem moveaW : ∀ a src, Statement (.moveaW a src) := fun _ _ _ => encEa_length _ _ _ _ _ _ (by simp)

theorem moveW : ∀ src dst, Statement (.moveW src dst) := fun _ _ _ => encMove_length _ _ _ _

theorem moveaL : ∀ a src, Statement (.moveaL a src) := fun _ _ _ => encEa_length _ _ _ _ _ _ (by simp)

theorem moveL : ∀ src dst, Statement (.moveL src dst) := fun _ _ _ => encMove_length _ _ _ _

theorem illegal : Statement (.illegal) := fun _ => of_ble rfl rfl

theorem reset : Statement (.reset) := fun _ => of_ble rfl rfl

theorem nop : Statement (.nop) := fun _ => of_ble rfl rfl

theorem stop : ∀ imm, Statement (.stop imm) := fun _ _ => of_ble rfl rfl

theorem rte : Statement (.rte) := fun _ => of_ble rfl rfl

theorem rtd : ∀ d16, Statement (.rtd d16) := fun _ _ => of_ble rfl rfl

theorem rts : Statement (.rts) := fun _ => of_ble rfl rfl

theorem trapv : Statement (.trapv) := fun _ => of_ble rfl rfl

theorem rtr : Statement (.rtr) := fun _ => of_ble rfl rfl

theorem movec : ∀ toCtl rn code, Statement (.movec toCtl rn code) := fun _ _ _ _ => of_ble rfl rfl

theorem trap : ∀ v, Statement (.trap v) := fun _ _ => of_ble rfl rfl

theorem linkW : ∀ a d16, Statement (.linkW a d16) := fun _ _ _ => of_ble rfl rfl

theorem unlk : ∀ a, Statement (.unlk a) := fun _ _ => of_ble rfl rfl

theorem moveUsp : ∀ fromUsp a, Statement (.moveUsp fromUsp a) := fun _ _ _ => of_ble rfl rfl

theorem jsr : ∀ ea, Statement (.jsr ea) := fun _ _ => encEa_length _ _ _ _ _ _ (by simp)

theorem jmp : ∀ ea, Statement (.jmp ea) := fun _ _ => encEa_length _ _ _ _ _ _ (by simp)

theorem swap : ∀ d, Statement (.swap d) := fun _ _ => of_ble rfl rfl

theorem bkpt : ∀ v, Statement (.bkpt v) := fun _ _ => of_ble rfl rfl

theorem pea : ∀ ea, Statement (.pea ea) := fun _ _ => encEa_length _ _ _ _ _ _ (by simp)

theorem linkL : ∀ a d32, Statement (.linkL a d32) := fun _ _ _ => of_ble rfl rfl

theorem nbcd : ∀ ea, Statement (.nbcd ea) := fun _ _ => encEa_length _ _ _ _ _ _ (by simp)

theorem extW : ∀ d, Statement (.extW d) := fun _ _ => of_ble rfl rfl

theorem extL : ∀ d, Statement (.extL d) := fun _ _ => of_ble rfl rfl

theorem extbL : ∀ d, Statement (.extbL d) := fun _ _ => of_ble rfl rfl

theorem movemToMem : ∀ long mask ea, Statement (.movemToMem long mask ea) :=
  fun _ _ _ _ => encEa_length _ _ _ _ _ _ (by simp)

theorem movemToRegs : ∀ long mask ea, Statement (.movemToRegs long mask ea) :=
  fun _ _ _ _ => encEa_length _ _ _ _ _ _ (by simp)

theorem muluL : ∀ quad dl dh ea, Statement (.muluL quad dl dh ea) :=
  fun _ _ _ _ _ => encEa_length _ _ _ _ _ _ (by simp)

theorem mulsL : ∀ quad dl dh ea, Statement (.mulsL quad dl dh ea) :=
  fun _ _ _ _ _ => encEa_length _ _ _ _ _ _ (by simp)

theorem divuL : ∀ quad dq dr ea, Statement (.divuL quad dq dr ea) :=
  fun _ _ _ _ _ => encEa_length _ _ _ _ _ _ (by simp)

theorem divsL : ∀ quad dq dr ea, Statement (.divsL quad dq dr ea) :=
  fun _ _ _ _ _ => encEa_length _ _ _ _ _ _ (by simp)

theorem tas : ∀ ea, Statement (.tas ea) := fun _ _ => encEa_length _ _ _ _ _ _ (by simp)

theorem tst : ∀ sz ea, Statement (.tst sz ea) := fun _ _ _ => encEa_length _ _ _ _ _ _ (by simp)

theorem moveFromSr : ∀ ea, Statement (.moveFromSr ea) := fun _ _ => encEa_length _ _ _ _ _ _ (by simp)

theorem negx : ∀ sz ea, Statement (.negx sz ea) := fun _ _ _ => encEa_length _ _ _ _ _ _ (by simp)

theorem moveFromCcr : ∀ ea, Statement (.moveFromCcr ea) := fun _ _ => encEa_length _ _ _ _ _ _ (by simp)

theorem clr : ∀ sz ea, Statement (.clr sz ea) := fun _ _ _ => encEa_length _ _ _ _ _ _ (by simp)

theorem moveToCcr : ∀ ea, Statement (.moveToCcr ea) := fun _ _ => encEa_length _ _ _ _ _ _ (by simp)

theorem neg : ∀ sz ea, Statement (.neg sz ea) := fun _ _ _ => encEa_length _ _ _ _ _ _ (by simp)

theorem moveToSr : ∀ ea, Statement (.moveToSr ea) := fun _ _ => encEa_length _ _ _ _ _ _ (by simp)

theorem not : ∀ sz ea, Statement (.not sz ea) := fun _ _ _ => encEa_length _ _ _ _ _ _ (by simp)

theorem chkW : ∀ d ea, Statement (.chkW d ea) := fun _ _ _ => encEa_length _ _ _ _ _ _ (by simp)

theorem chkL : ∀ d ea, Statement (.chkL d ea) := fun _ _ _ => encEa_length _ _ _ _ _ _ (by simp)

theorem lea : ∀ a ea, Statement (.lea a ea) := fun _ _ _ => encEa_length _ _ _ _ _ _ (by simp)

theorem dbcc : ∀ cc d d16, Statement (.dbcc cc d d16) := fun _ _ _ _ => of_ble rfl rfl

theorem trapccW : ∀ cc op, Statement (.trapccW cc op) := fun _ _ _ => of_ble rfl rfl

theorem trapccL : ∀ cc op, Statement (.trapccL cc op) := fun _ _ _ => of_ble rfl rfl

theorem trapcc : ∀ cc, Statement (.trapcc cc) := fun _ _ => of_ble rfl rfl

theorem scc : ∀ cc ea, Statement (.scc cc ea) := fun _ _ _ => encEa_length _ _ _ _ _ _ (by simp)

theorem addq : ∀ sz q ea, Statement (.addq sz q ea) := fun _ _ _ _ => encEa_length _ _ _ _ _ _ (by simp)

theorem subq : ∀ sz q ea, Statement (.subq sz q ea) := fun _ _ _ _ => encEa_length _ _ _ _ _ _ (by simp)

theorem bra : ∀ d, Statement (.bra d) := fun _ _ => encBranch_length _ _

theorem bsr : ∀ d, Statement (.bsr d) := fun _ _ => encBranch_length _ _

theorem bcc : ∀ cc d, Statement (.bcc cc d) := fun _ _ _ => encBranch_length _ _

theorem moveq : ∀ d imm, Statement (.moveq d imm) := fun _ _ _ => of_ble rfl rfl

theorem divuW : ∀ d ea, Statement (.divuW d ea) := fun _ _ _ => encEa_length _ _ _ _ _ _ (by simp)

theorem divsW : ∀ d ea, Statement (.divsW d ea) := fun _ _ _ => encEa_length _ _ _ _ _ _ (by simp)

theorem sbcd : ∀ mem src dst, Statement (.sbcd mem src dst) := fun _ _ _ _ => of_ble rfl rfl

theorem pack : ∀ mem src dst adj, Statement (.pack mem src dst adj) := fun _ _ _ _ _ => of_ble rfl rfl

theorem unpk : ∀ mem src dst adj, Statement (.unpk mem src dst adj) := fun _ _ _ _ _ => of_ble rfl rfl

theorem or : ∀ sz toEa d ea, Statement (.or sz toEa d ea) := fun _ _ _ _ _ => encEa_length _ _ _ _ _ _ (by simp)

theorem suba : ∀ long a ea, Statement (.suba long a ea) := fun _ _ _ _ => encEa_length _ _ _ _ _ _ (by simp)

theorem subx : ∀ sz mem src dst, Statement (.subx sz mem src dst) := fun _ _ _ _ _ => of_ble rfl rfl

theorem sub : ∀ sz toEa d ea, Statement (.sub sz toEa d ea) := fun _ _ _ _ _ => encEa_length _ _ _ _ _ _ (by simp)

theorem aline : ∀ x, Statement (.aline x) := fun _ _ => of_ble rfl rfl

theorem cmpa : ∀ long a ea, Statement (.cmpa long a ea) := fun _ _ _ _ => encEa_length _ _ _ _ _ _ (by simp)

theorem cmpm : ∀ sz src dst, Statement (.cmpm sz src dst) := fun _ _ _ _ => of_ble rfl rfl

theorem eor : ∀ sz d ea, Statement (.eor sz d ea) := fun _ _ _ _ => encEa_length _ _ _ _ _ _ (by simp)

theorem cmp : ∀ sz d ea, Statement (.cmp sz d ea) := fun _ _ _ _ => encEa_length _ _ _ _ _ _ (by simp)

theorem muluW : ∀ d ea, Statement (.muluW d ea) := fun _ _ _ => encEa_length _ _ _ _ _ _ (by simp)

theorem mulsW : ∀ d ea, Statement (.mulsW d ea) := fun _ _ _ => encEa_length _ _ _ _ _ _ (by simp)

theorem abcd : ∀ mem src dst, Statement (.abcd mem src dst) := fun _ _ _ _ => of_ble rfl rfl

theorem exgDD : ∀ x y, Statement (.exgDD x y) := fun _ _ _ => of_ble rfl rfl

theorem exgAA : ∀ x y, Statement (.exgAA x y) := fun _ _ _ => of_ble rfl rfl

theorem exgDA : ∀ x y, Statement (.exgDA x y) := fun _ _ _ => of_ble rfl rfl

theorem and : ∀ sz toEa d ea, Statement (.and sz toEa d ea) := fun _ _ _ _ _ => encEa_length _ _ _ _ _ _ (by simp)

theorem adda : ∀ long a ea, Statement (.adda long a ea) := fun _ _ _ _ => encEa_length _ _ _ _ _ _ (by simp)

theorem addx : ∀ sz mem src dst, Statement (.addx sz mem src dst) := fun _ _ _ _ _ => of_ble rfl rfl

theorem add : ∀ sz toEa d ea, Statement (.add sz toEa d ea) := fun _ _ _ _ _ => encEa_length _ _ _ _ _ _ (by simp)

theorem bftst : ∀ f ea, Statement (.bftst f ea) := fun _ _ _ => encEa_length _ _ _ _ _ _ (by simp)

theorem bfextu : ∀ d f ea, Statement (.bfextu d f ea) := fun _ _ _ _ => encEa_length _ _ _ _ _ _ (by simp)

theorem bfchg : ∀ f ea, Statement (.bfchg f ea) := fun _ _ _ => encEa_length _ _ _ _ _ _ (by simp)

theorem bfexts : ∀ d f ea, Statement (.bfexts d f ea) := fun _ _ _ _ => encEa_length _ _ _ _ _ _ (by simp)

theorem bfclr : ∀ f ea, Statement (.bfclr f ea) := fun _ _ _ => encEa_length _ _ _ _ _ _ (by simp)

theorem bfffo : ∀ d f ea, Statement (.bfffo d f ea) := fun _ _ _ _ => encEa_length _ _ _ _ _ _ (by simp)

theorem bfset : ∀ f ea, Statement (.bfset f ea) := fun _ _ _ => encEa_length _ _ _ _ _ _ (by simp)

theorem bfins : ∀ d f ea, Statement (.bfins d f ea) := fun _ _ _ _ => encEa_length _ _ _ _ _ _ (by simp)

theorem asrEa : ∀ ea, Statement (.asrEa ea) := fun _ _ => encEa_length _ _ _ _ _ _ (by simp)

theorem aslEa : ∀ ea, Statement (.aslEa ea) := fun _ _ => encEa_length _ _ _ _ _ _ (by simp)

theorem lsrEa : ∀ ea, Statement (.lsrEa ea) := fun _ _ => encEa_length _ _ _ _ _ _ (by simp)

theorem lslEa : ∀ ea, Statement (.lslEa ea) := fun _ _ => encEa_length _ _ _ _ _ _ (by simp)

theorem roxrEa : ∀ ea, Statement (.roxrEa ea) := fun _ _ => encEa_length _ _ _ _ _ _ (by simp)

theorem roxlEa : ∀ ea, Statement (.roxlEa ea) := fun _ _ => encEa_length _ _ _ _ _ _ (by simp)

theorem rorEa : ∀ ea, Statement (.rorEa ea) := fun _ _ => encEa_length _ _ _ _ _ _ (by simp)

theorem rolEa : ∀ ea, Statement (.rolEa ea) := fun _ _ => encEa_length _ _ _ _ _ _ (by simp)

theorem asr : ∀ sz byReg c d, Statement (.asr sz byReg c d) := fun _ _ _ _ _ => of_ble rfl rfl

theorem asl : ∀ sz byReg c d, Statement (.asl sz byReg c d) := fun _ _ _ _ _ => of_ble rfl rfl

theorem lsr : ∀ sz byReg c d, Statement (.lsr sz byReg c d) := fun _ _ _ _ _ => of_ble rfl rfl

theorem lsl : ∀ sz byReg c d, Statement (.lsl sz byReg c d) := fun _ _ _ _ _ => of_ble rfl rfl

theorem roxr : ∀ sz byReg c d, Statement (.roxr sz byReg c d) := fun _ _ _ _ _ => of_ble rfl rfl

theorem roxl : ∀ sz byReg c d, Statement (.roxl sz byReg c d) := fun _ _ _ _ _ => of_ble rfl rfl

theorem ror : ∀ sz byReg c d, Statement (.ror sz byReg c d) := fun _ _ _ _ _ => of_ble rfl rfl

theorem rol : ∀ sz byReg c d, Statement (.rol sz byReg c d) := fun _ _ _ _ _ => of_ble rfl rfl

theorem flineCpid0 : ∀ x, Statement (.flineCpid0 x) := fun _ _ => of_ble rfl rfl

theorem cpGen : ∀ id mode reg cmd, Statement (.cpGen id mode reg cmd) := fun _ _ _ _ _ => of_ble rfl rfl

theorem cpDbcc : ∀ id d cond, Statement (.cpDbcc id d cond) := fun _ _ _ _ => of_ble rfl rfl

theorem cpTrapccW : ∀ id cond, Statement (.cpTrapccW id cond) := fun _ _ _ => of_ble rfl rfl

theorem cpTrapccL : ∀ id cond, Statement (.cpTrapccL id cond) := fun _ _ _ => of_ble rfl rfl

theorem cpTrapcc : ∀ id cond, Statement (.cpTrapcc id cond) := fun _ _ _ => of_ble rfl rfl

theorem cpScc : ∀ id mode reg cond, Statement (.cpScc id mode reg cond) := fun _ _ _ _ _ => of_ble rfl rfl

theorem cpBccW : ∀ id sel, Statement (.cpBccW id sel) := fun _ _ _ => of_ble rfl rfl

theorem cpBccL : ∀ id sel, Statement (.cpBccL id sel) := fun _ _ _ => of_ble rfl rfl

theorem cpSave : ∀ id ea, Statement (.cpSave id ea) := fun _ _ _ => encEa_length _ _ _ _ _ _ (by simp)

theorem cpRestore : ∀ id ea, Statement (.cpRestore id ea) := fun _ _ _ => encEa_length _ _ _ _ _ _ (by simp)

theorem flineBadType : ∀ id x, Statement (.flineBadType id x) := fun _ _ _ => of_ble rfl rfl

theorem unassigned : ∀ opword, Statement (.unassigned opword) := fun _ _ => of_ble rfl rfl

end Sys2Proof.Laws.EncodeLength
end

