-- ==== Sys2Proof/Tests/Slice0.lean ====
section
/-! SUPPORT. Tests: ill-formed terms refused, every constructor's decoding from a word written out from the opcode
table's encoding, single steps with the results that spec/95_test_vectors.md gives, and for each statement of
Certificates/Slice0/Obligations.lean a state and operands that meet its hypotheses. -/

namespace Sys2Proof.Tests

open Sys2Proof Sys2Proof.Machine

set_option Elab.async false

/-! ### Well-formedness: for each check, a term it refuses -/

/-- A bit field specification. -/
def bf : BfSpec := { offReg := false, off := 0, widReg := false, wid := 0 }
/-- Postindexing with the index suppressed, which no encoding holds (R157). -/
def post : Index := .full { rn := 0, long := false, scale := 0 } false true .null (.post .null)

theorem test_wf_refuses_data_class : (Ea.an 1).wf .data .w = false := by decide
theorem test_wf_refuses_dataNoImm_class : (Ea.imm 1).wf .dataNoImm .b = false := by decide
theorem test_wf_refuses_alterable_class : (Ea.pcDisp 1).wf .alterable .w = false := by decide
theorem test_wf_refuses_dataAlt_class : (Ea.an 1).wf .dataAlt .w = false := by decide
theorem test_wf_refuses_memAlt_class : (Ea.dn 1).wf .memAlt .w = false := by decide
theorem test_wf_refuses_control_class : (Ea.preDec 1).wf .control .l = false := by decide
theorem test_wf_refuses_controlAltOrPre_class : (Ea.pcDisp 1).wf .controlAltOrPre .l = false := by decide
theorem test_wf_refuses_controlOrPost_class : (Ea.preDec 1).wf .controlOrPost .l = false := by decide
theorem test_wf_refuses_dnOrControl_class : (Ea.postInc 1).wf .dnOrControl .l = false := by decide
theorem test_wf_refuses_dnOrControlAlt_class : (Ea.pcIdx post).wf .dnOrControlAlt .l = false := by decide
theorem test_wf_refuses_byte_of_address_register : (Ea.an 1).wf .any .b = false := by decide
theorem test_wf_refuses_wide_immediate_operand : (Ea.imm 0x100).wf .any .b = false := by decide
theorem test_wf_refuses_postindexing_without_index : (Ea.idx 1 post).wf .any .l = false := by decide
theorem test_wf_refuses_wide_immediate : (Instr.addi .w 0x10000 (.dn 0)).wf = false := by decide
theorem test_wf_refuses_byte_displacement_of_a_wider_form :
    (Instr.bra (.byte 0)).wf = false ∧ (Instr.bsr (.byte 0xFF)).wf = false := by decide
theorem test_wf_refuses_bcc_with_the_conditions_of_bra_and_bsr :
    (Instr.bcc 0 (.byte 2)).wf = false ∧ (Instr.bcc 1 (.byte 2)).wf = false := by decide
theorem test_wf_refuses_coprocessor_zero : (Instr.cpGen 0 0 0 0).wf = false := by decide
theorem test_wf_refuses_cpScc_to_a_bad_mode :
    (Instr.cpScc 1 7 2 0).wf = false ∧ (Instr.cpScc 1 7 5 0).wf = false ∧ (Instr.cpScc 1 1 0 0).wf = false := by decide
theorem test_wf_refuses_each_checked_instruction : ([
    .callm 0 (.postInc 0), .cmp2 .b 0 (.postInc 0), .chk2 .b 0 (.postInc 0), .btst 0 (.imm 0), .bchg 0 (.pcDisp 0),
    .bclr 0 (.pcDisp 0), .bset 0 (.pcDisp 0), .cas .b 0 0 (.dn 0), .moves .b 0 false (.dn 0), .btstDn 0 (.an 0),
    .bchgDn 0 (.pcDisp 0), .bclrDn 0 (.pcDisp 0), .bsetDn 0 (.pcDisp 0), .ori .b 0 (.pcDisp 0),
    .andi .b 0 (.pcDisp 0), .subi .b 0 (.pcDisp 0), .addi .b 0 (.pcDisp 0), .eori .b 0 (.pcDisp 0),
    .cmpi .b 0 (.imm 0), .moveB (.dn 0) (.pcDisp 0), .moveaW 0 (.imm 0x10000), .moveW (.dn 0) (.pcDisp 0),
    .moveaL 0 (.idx 0 post), .moveL (.dn 0) (.pcDisp 0), .jsr (.postInc 0), .jmp (.postInc 0), .pea (.postInc 0),
    .nbcd (.pcDisp 0), .movemToMem false 0 (.postInc 0), .movemToRegs false 0 (.preDec 0),
    .muluL false 0 0 (.an 0), .mulsL false 0 0 (.an 0), .divuL false 0 0 (.an 0), .divsL false 0 0 (.an 0),
    .tas (.pcDisp 0), .tst .b (.an 0), .moveFromSr (.pcDisp 0), .negx .b (.pcDisp 0), .moveFromCcr (.pcDisp 0),
    .clr .b (.pcDisp 0), .moveToCcr (.an 0), .neg .b (.pcDisp 0), .moveToSr (.an 0), .not .b (.pcDisp 0),
    .chkW 0 (.an 0), .chkL 0 (.an 0), .lea 0 (.postInc 0), .scc 2 (.pcDisp 0), .addq .b 0 (.imm 0),
    .subq .b 0 (.imm 0), .bra (.byte 0), .bsr (.byte 0), .bcc 2 (.byte 0), .divuW 0 (.an 0), .divsW 0 (.an 0),
    .or .b false 0 (.an 0), .suba false 0 (.imm 0x10000), .sub .b false 0 (.an 0), .cmpa false 0 (.imm 0x10000),
    .eor .b 0 (.pcDisp 0), .cmp .b 0 (.an 0), .muluW 0 (.an 0), .mulsW 0 (.an 0), .and .b false 0 (.an 0),
    .adda false 0 (.imm 0x10000), .add .b false 0 (.an 0), .bftst bf (.an 0), .bfextu 0 bf (.an 0),
    .bfchg bf (.pcDisp 0), .bfexts 0 bf (.an 0), .bfclr bf (.pcDisp 0), .bfffo 0 bf (.an 0), .bfset bf (.pcDisp 0),
    .bfins 0 bf (.pcDisp 0), .asrEa (.dn 0), .aslEa (.dn 0), .lsrEa (.dn 0), .lslEa (.dn 0), .roxrEa (.dn 0),
    .roxlEa (.dn 0), .rorEa (.dn 0), .rolEa (.dn 0), .cpGen 0 0 0 0, .cpDbcc 0 0 0, .cpTrapccW 0 0, .cpTrapccL 0 0,
    .cpTrapcc 0 0, .cpScc 0 0 0 0, .cpBccW 0 0, .cpBccL 0 0, .cpSave 1 (.postInc 0), .cpRestore 1 (.preDec 0),
    .flineBadType 0 0, .unassigned 0] : List Instr).all (fun i => !i.wf) = true := by decide

/-! ### Decoding: the fields of each encoding set apart by underscores -/

theorem test_decode_oriCcr : decode [0b0000000000111100#16, 0x0015#16] = .instr (.oriCcr 0x15#8) [] := by decide
theorem test_decode_oriSr : decode [0b0000000001111100#16, 0x0700#16] = .instr (.oriSr 0x0700#16) [] := by decide
theorem test_decode_andiCcr : decode [0b0000001000111100#16, 0x001E#16] = .instr (.andiCcr 0x1E#8) [] := by decide
theorem test_decode_andiSr : decode [0b0000001001111100#16, 0xF8FF#16] = .instr (.andiSr 0xF8FF#16) [] := by decide
theorem test_decode_eoriCcr : decode [0b0000101000111100#16, 0x0005#16] = .instr (.eoriCcr 0x05#8) [] := by decide
theorem test_decode_eoriSr : decode [0b0000101001111100#16, 0x2000#16] = .instr (.eoriSr 0x2000#16) [] := by decide
theorem test_decode_cas2W : decode [0b0000110011111100#16, 0x8080#16, 0x90C1#16] =
    .instr (.cas2W 8#4 2#3 0#3 9#4 3#3 1#3) [] := by decide
theorem test_decode_cas2L : decode [0b0000111011111100#16, 0x4146#16, 0xF1C1#16] =
    .instr (.cas2L 4#4 5#3 6#3 15#4 7#3 1#3) [] := by decide
theorem test_decode_rtm : decode [0b000001101100_1_101#16] = .instr (.rtm 13#4) [] := by decide
theorem test_decode_callm : decode [0b0000011011_101_001#16, 0x000C#16, 0x0010#16] =
    .instr (.callm 0x0C#8 (.disp 1#3 0x0010#16)) [] := by decide
theorem test_decode_cmp2 : decode [0b00000_01_011_010_010#16, 0x3000#16] =
    .instr (.cmp2 .w 3#4 (.ind 2#3)) [] := by decide
theorem test_decode_chk2 : decode [0b00000_10_011_010_110#16, 0xC800#16] =
    .instr (.chk2 .l 12#4 (.ind 6#3)) [] := by decide
theorem test_decode_btst : decode [0b0000100000_011_001#16, 0x0009#16] =
    .instr (.btst 9#8 (.postInc 1#3)) [] := by decide
theorem test_decode_bchg : decode [0b0000100001_000_110#16, 0x001F#16] = .instr (.bchg 31#8 (.dn 6#3)) [] := by decide
theorem test_decode_bclr : decode [0b0000100010_111_000#16, 0x0003#16, 0x8000#16] =
    .instr (.bclr 3#8 (.absW 0x8000#16)) [] := by decide
theorem test_decode_bset : decode [0b0000100011_100_011#16, 0x0007#16] =
    .instr (.bset 7#8 (.preDec 3#3)) [] := by decide
theorem test_decode_cas : decode [0b00001_10_011_010_101#16, 0x0183#16] =
    .instr (.cas .w 3#3 6#3 (.ind 5#3)) [] := by decide
theorem test_decode_moves : decode [0b00001110_10_010_011#16, 0xA800#16] =
    .instr (.moves .l 10#4 true (.ind 3#3)) [] := by decide
theorem test_decode_movep : decode [0b0000_101_1_10_001_011#16, 0x0004#16] =
    .instr (.movep false true 5#3 3#3 0x0004#16) [] := by decide
theorem test_decode_btstDn : decode [0b0000_110_100_111_100#16, 0x0080#16] =
    .instr (.btstDn 6#3 (.imm 0x80#32)) [] := by decide
theorem test_decode_bchgDn : decode [0b0000_001_101_000_100#16] = .instr (.bchgDn 1#3 (.dn 4#3)) [] := by decide
theorem test_decode_bclrDn : decode [0b0000_100_110_010_001#16] = .instr (.bclrDn 4#3 (.ind 1#3)) [] := by decide
theorem test_decode_bsetDn : decode [0b0000_111_111_101_010#16, 0xFFFE#16] =
    .instr (.bsetDn 7#3 (.disp 2#3 0xFFFE#16)) [] := by decide
theorem test_decode_ori : decode [0b00000000_00_000_011#16, 0x0081#16] =
    .instr (.ori .b 0x81#32 (.dn 3#3)) [] := by decide
theorem test_decode_andi : decode [0b00000010_10_010_100#16, 0x1234#16, 0x5678#16] =
    .instr (.andi .l 0x12345678#32 (.ind 4#3)) [] := by decide
theorem test_decode_subi : decode [0b00000100_01_111_001#16, 0x8000#16, 0x00FF#16, 0x0102#16] =
    .instr (.subi .w 0x8000#32 (.absL 0x00FF0102#32)) [] := by decide
theorem test_decode_addi : decode [0b00000110_10_000_110#16, 0x0001#16, 0x0002#16] =
    .instr (.addi .l 0x00010002#32 (.dn 6#3)) [] := by decide
theorem test_decode_eori : decode [0b00001010_01_100_001#16, 0xFFFF#16] =
    .instr (.eori .w 0xFFFF#32 (.preDec 1#3)) [] := by decide
theorem test_decode_cmpi : decode [0b00001100_00_111_010#16, 0x007F#16, 0x0006#16] =
    .instr (.cmpi .b 0x7F#32 (.pcDisp 0x0006#16)) [] := by decide
theorem test_decode_moveB : decode [0b0001_101_101_111_100#16, 0x0012#16, 0x0003#16] =
    .instr (.moveB (.imm 0x12#32) (.disp 5#3 0x0003#16)) [] := by decide
theorem test_decode_moveaW : decode [0b0011_110_001_001_011#16] = .instr (.moveaW 6#3 (.an 3#3)) [] := by decide
theorem test_decode_moveW : decode [0b0011_101_100_011_010#16] =
    .instr (.moveW (.postInc 2#3) (.preDec 5#3)) [] := by decide
theorem test_decode_moveaL : decode [0b0010_001_001_111_001#16, 0xFFFF#16, 0x8000#16] =
    .instr (.moveaL 1#3 (.absL 0xFFFF8000#32)) [] := by decide
theorem test_decode_moveL : decode [0b0010_110_000_111_000#16, 0x1234#16] =
    .instr (.moveL (.absW 0x1234#16) (.dn 6#3)) [] := by decide
theorem test_decode_illegal : decode [0b0100101011111100#16] = .instr (.illegal) [] := by decide
theorem test_decode_reset : decode [0b0100111001110000#16] = .instr (.reset) [] := by decide
theorem test_decode_nop : decode [0b0100111001110001#16] = .instr (.nop) [] := by decide
theorem test_decode_stop : decode [0b0100111001110010#16, 0x2300#16] = .instr (.stop 0x2300#16) [] := by decide
theorem test_decode_rte : decode [0b0100111001110011#16] = .instr (.rte) [] := by decide
theorem test_decode_rtd : decode [0b0100111001110100#16, 0xFFF8#16] = .instr (.rtd 0xFFF8#16) [] := by decide
theorem test_decode_rts : decode [0b0100111001110101#16] = .instr (.rts) [] := by decide
theorem test_decode_trapv : decode [0b0100111001110110#16] = .instr (.trapv) [] := by decide
theorem test_decode_rtr : decode [0b0100111001110111#16] = .instr (.rtr) [] := by decide
theorem test_decode_movec : decode [0b010011100111101_1#16, 0x9801#16] =
    .instr (.movec true 9#4 0x801#12) [] := by decide
theorem test_decode_trap : decode [0b010011100100_1011#16] = .instr (.trap 11#4) [] := by decide
theorem test_decode_linkW : decode [0b0100111001010_110#16, 0xFFF0#16] = .instr (.linkW 6#3 0xFFF0#16) [] := by decide
theorem test_decode_unlk : decode [0b0100111001011_101#16] = .instr (.unlk 5#3) [] := by decide
theorem test_decode_moveUsp : decode [0b010011100110_1_011#16] = .instr (.moveUsp true 3#3) [] := by decide
theorem test_decode_jsr : decode [0b0100111010_111_010#16, 0x7FFE#16] =
    .instr (.jsr (.pcDisp 0x7FFE#16)) [] := by decide
theorem test_decode_jmp : decode [0b0100111011_010_100#16] = .instr (.jmp (.ind 4#3)) [] := by decide
theorem test_decode_swap : decode [0b0100100001000_011#16] = .instr (.swap 3#3) [] := by decide
theorem test_decode_bkpt : decode [0b0100100001001_110#16] = .instr (.bkpt 6#3) [] := by decide
theorem test_decode_pea : decode [0b0100100001_111_000#16, 0x0400#16] = .instr (.pea (.absW 0x0400#16)) [] := by decide
theorem test_decode_linkL : decode [0b0100100000001_100#16, 0xFFFF#16, 0x0000#16] =
    .instr (.linkL 4#3 0xFFFF0000#32) [] := by decide
theorem test_decode_nbcd : decode [0b0100100000_100_010#16] = .instr (.nbcd (.preDec 2#3)) [] := by decide
theorem test_decode_extW : decode [0b0100100010000_001#16] = .instr (.extW 1#3) [] := by decide
theorem test_decode_extL : decode [0b0100100011000_100#16] = .instr (.extL 4#3) [] := by decide
theorem test_decode_extbL : decode [0b0100100111000_110#16] = .instr (.extbL 6#3) [] := by decide
theorem test_decode_movemToMem : decode [0b010010001_1_100_111#16, 0xC080#16] =
    .instr (.movemToMem true 0xC080#16 (.preDec 7#3)) [] := by decide
theorem test_decode_movemToRegs : decode [0b010011001_0_011_110#16, 0x0103#16] =
    .instr (.movemToRegs false 0x0103#16 (.postInc 6#3)) [] := by decide
theorem test_decode_muluL : decode [0b0100110000_000_011#16, 0x2405#16] =
    .instr (.muluL true 2#3 5#3 (.dn 3#3)) [] := by decide
theorem test_decode_mulsL : decode [0b0100110000_010_100#16, 0x6801#16] =
    .instr (.mulsL false 6#3 1#3 (.ind 4#3)) [] := by decide
theorem test_decode_divuL : decode [0b0100110001_000_001#16, 0x3004#16] =
    .instr (.divuL false 3#3 4#3 (.dn 1#3)) [] := by decide
theorem test_decode_divsL : decode [0b0100110001_010_110#16, 0x5C02#16] =
    .instr (.divsL true 5#3 2#3 (.ind 6#3)) [] := by decide
theorem test_decode_tas : decode [0b0100101011_010_011#16] = .instr (.tas (.ind 3#3)) [] := by decide
theorem test_decode_tst : decode [0b01001010_10_001_110#16] = .instr (.tst .l (.an 6#3)) [] := by decide
theorem test_decode_moveFromSr : decode [0b0100000011_000_101#16] = .instr (.moveFromSr (.dn 5#3)) [] := by decide
theorem test_decode_negx : decode [0b01000000_01_011_100#16] = .instr (.negx .w (.postInc 4#3)) [] := by decide
theorem test_decode_moveFromCcr : decode [0b0100001011_000_110#16] = .instr (.moveFromCcr (.dn 6#3)) [] := by decide
theorem test_decode_clr : decode [0b01000010_10_010_001#16] = .instr (.clr .l (.ind 1#3)) [] := by decide
theorem test_decode_moveToCcr : decode [0b0100010011_111_100#16, 0x001F#16] =
    .instr (.moveToCcr (.imm 0x001F#32)) [] := by decide
theorem test_decode_neg : decode [0b01000100_00_000_011#16] = .instr (.neg .b (.dn 3#3)) [] := by decide
theorem test_decode_moveToSr : decode [0b0100011011_000_100#16] = .instr (.moveToSr (.dn 4#3)) [] := by decide
theorem test_decode_not : decode [0b01000110_01_101_110#16, 0x0002#16] =
    .instr (.not .w (.disp 6#3 0x0002#16)) [] := by decide
theorem test_decode_chkW : decode [0b0100_101_110_000_010#16] = .instr (.chkW 5#3 (.dn 2#3)) [] := by decide
theorem test_decode_chkL : decode [0b0100_001_100_010_110#16] = .instr (.chkL 1#3 (.ind 6#3)) [] := by decide
theorem test_decode_lea : decode [0b0100_110_111_111_010#16, 0xFFFE#16] =
    .instr (.lea 6#3 (.pcDisp 0xFFFE#16)) [] := by decide
theorem test_decode_dbcc : decode [0b0101_0111_11001_011#16, 0xFFFA#16] =
    .instr (.dbcc 7#4 3#3 0xFFFA#16) [] := by decide
theorem test_decode_trapccW : decode [0b0101_0110_11111010#16, 0xABCD#16] =
    .instr (.trapccW 6#4 0xABCD#16) [] := by decide
theorem test_decode_trapccL : decode [0b0101_1101_11111011#16, 0x1234#16, 0xABCD#16] =
    .instr (.trapccL 13#4 0x1234ABCD#32) [] := by decide
theorem test_decode_trapcc : decode [0b0101_1001_11111100#16] = .instr (.trapcc 9#4) [] := by decide
theorem test_decode_scc : decode [0b0101_1110_11_010_101#16] = .instr (.scc 14#4 (.ind 5#3)) [] := by decide
theorem test_decode_addq : decode [0b0101_011_0_01_001_110#16] = .instr (.addq .w 3#3 (.an 6#3)) [] := by decide
theorem test_decode_subq : decode [0b0101_000_1_00_000_101#16] = .instr (.subq .b 0#3 (.dn 5#3)) [] := by decide
theorem test_decode_bra : decode [0b01100000_11111110#16] = .instr (.bra (.byte 0xFE#8)) [] := by decide
theorem test_decode_bsr : decode [0b01100001_00000000#16, 0x0100#16] = .instr (.bsr (.word 0x0100#16)) [] := by decide
theorem test_decode_bcc : decode [0b0110_0110_11111111#16, 0x0001#16, 0x0000#16] =
    .instr (.bcc 6#4 (.long 0x00010000#32)) [] := by decide
theorem test_decode_moveq : decode [0b0111_101_0_10000000#16] = .instr (.moveq 5#3 0x80#8) [] := by decide
theorem test_decode_divuW : decode [0b1000_011_011_000_110#16] = .instr (.divuW 3#3 (.dn 6#3)) [] := by decide
theorem test_decode_divsW : decode [0b1000_110_111_010_001#16] = .instr (.divsW 6#3 (.ind 1#3)) [] := by decide
theorem test_decode_sbcd : decode [0b1000_001_10000_1_100#16] = .instr (.sbcd true 4#3 1#3) [] := by decide
theorem test_decode_pack : decode [0b1000_110_10100_0_001#16, 0xD0D0#16] =
    .instr (.pack false 1#3 6#3 0xD0D0#16) [] := by decide
theorem test_decode_unpk : decode [0b1000_010_11000_1_101#16, 0x3030#16] =
    .instr (.unpk true 5#3 2#3 0x3030#16) [] := by decide
theorem test_decode_or : decode [0b1000_100_110_010_011#16] = .instr (.or .l true 4#3 (.ind 3#3)) [] := by decide
theorem test_decode_suba : decode [0b1001_110_1_11_001_001#16] = .instr (.suba true 6#3 (.an 1#3)) [] := by decide
theorem test_decode_subx : decode [0b1001_110_1_01_00_1_011#16] = .instr (.subx .w true 3#3 6#3) [] := by decide
theorem test_decode_sub : decode [0b1001_001_001_001_100#16] = .instr (.sub .w false 1#3 (.an 4#3)) [] := by decide
theorem test_decode_aline : decode [0b1010_000100100011#16] = .instr (.aline 0x123#12) [] := by decide
theorem test_decode_cmpa : decode [0b1011_101_0_11_000_010#16] = .instr (.cmpa false 5#3 (.dn 2#3)) [] := by decide
theorem test_decode_cmpm : decode [0b1011_001_1_10_001_110#16] = .instr (.cmpm .l 6#3 1#3) [] := by decide
theorem test_decode_eor : decode [0b1011_011_1_10_000_101#16] = .instr (.eor .l 3#3 (.dn 5#3)) [] := by decide
theorem test_decode_cmp : decode [0b1011_110_0_01_001_001#16] = .instr (.cmp .w 6#3 (.an 1#3)) [] := by decide
theorem test_decode_muluW : decode [0b1100_010_011_000_101#16] = .instr (.muluW 2#3 (.dn 5#3)) [] := by decide
theorem test_decode_mulsW : decode [0b1100_101_111_111_100#16, 0xFFFE#16] =
    .instr (.mulsW 5#3 (.imm 0xFFFE#32)) [] := by decide
theorem test_decode_abcd : decode [0b1100_001_10000_0_100#16] = .instr (.abcd false 4#3 1#3) [] := by decide
theorem test_decode_exgDD : decode [0b1100_010_101000_101#16] = .instr (.exgDD 2#3 5#3) [] := by decide
theorem test_decode_exgAA : decode [0b1100_110_101001_001#16] = .instr (.exgAA 6#3 1#3) [] := by decide
theorem test_decode_exgDA : decode [0b1100_011_110001_100#16] = .instr (.exgDA 3#3 4#3) [] := by decide
theorem test_decode_and : decode [0b1100_110_000_011_001#16] = .instr (.and .b false 6#3 (.postInc 1#3)) [] := by decide
theorem test_decode_adda : decode [0b1101_011_0_11_011_101#16] = .instr (.adda false 3#3 (.postInc 5#3)) [] := by decide
theorem test_decode_addx : decode [0b1101_110_1_10_00_0_001#16] = .instr (.addx .l false 1#3 6#3) [] := by decide
theorem test_decode_add : decode [0b1101_101_101_100_010#16] = .instr (.add .w true 5#3 (.preDec 2#3)) [] := by decide
theorem test_decode_bftst : decode [0b1110100011_010_100#16, 0x08C0#16] =
    .instr (.bftst { offReg := true, off := 3#5, widReg := false, wid := 0#5 } (.ind 4#3)) [] := by decide
theorem test_decode_bfextu : decode [0b1110100111_000_000#16, 0x1108#16] =
    .instr (.bfextu 1#3 { offReg := false, off := 4#5, widReg := false, wid := 8#5 } (.dn 0#3)) [] := by decide
theorem test_decode_bfchg : decode [0b1110101011_000_110#16, 0x07E2#16] =
    .instr (.bfchg { offReg := false, off := 31#5, widReg := true, wid := 2#5 } (.dn 6#3)) [] := by decide
theorem test_decode_bfexts : decode [0b1110101111_111_010#16, 0x6251#16, 0x0010#16] =
    .instr (.bfexts 6#3 { offReg := false, off := 9#5, widReg := false, wid := 17#5 } (.pcDisp 0x0010#16)) [] := by decide
theorem test_decode_bfclr : decode [0b1110110011_010_101#16, 0x09E1#16] =
    .instr (.bfclr { offReg := true, off := 7#5, widReg := true, wid := 1#5 } (.ind 5#3)) [] := by decide
theorem test_decode_bfffo : decode [0b1110110111_010_010#16, 0x3840#16] =
    .instr (.bfffo 3#3 { offReg := true, off := 1#5, widReg := false, wid := 0#5 } (.ind 2#3)) [] := by decide
theorem test_decode_bfset : decode [0b1110111011_111_000#16, 0x0041#16, 0x0100#16] =
    .instr (.bfset { offReg := false, off := 1#5, widReg := false, wid := 1#5 } (.absW 0x0100#16)) [] := by decide
theorem test_decode_bfins : decode [0b1110111111_000_010#16, 0x7405#16] =
    .instr (.bfins 7#3 { offReg := false, off := 16#5, widReg := false, wid := 5#5 } (.dn 2#3)) [] := by decide
theorem test_decode_asrEa : decode [0b1110000011_010_001#16] = .instr (.asrEa (.ind 1#3)) [] := by decide
theorem test_decode_aslEa : decode [0b1110000111_011_010#16] = .instr (.aslEa (.postInc 2#3)) [] := by decide
theorem test_decode_lsrEa : decode [0b1110001011_100_011#16] = .instr (.lsrEa (.preDec 3#3)) [] := by decide
theorem test_decode_lslEa : decode [0b1110001111_010_100#16] = .instr (.lslEa (.ind 4#3)) [] := by decide
theorem test_decode_roxrEa : decode [0b1110010011_010_101#16] = .instr (.roxrEa (.ind 5#3)) [] := by decide
theorem test_decode_roxlEa : decode [0b1110010111_010_110#16] = .instr (.roxlEa (.ind 6#3)) [] := by decide
theorem test_decode_rorEa : decode [0b1110011011_111_000#16, 0x0200#16] =
    .instr (.rorEa (.absW 0x0200#16)) [] := by decide
theorem test_decode_rolEa : decode [0b1110011111_101_001#16, 0x0004#16] =
    .instr (.rolEa (.disp 1#3 0x0004#16)) [] := by decide
theorem test_decode_asr : decode [0b1110_000_0_01_0_00_101#16] = .instr (.asr .w false 0#3 5#3) [] := by decide
theorem test_decode_asl : decode [0b1110_011_1_10_1_00_110#16] = .instr (.asl .l true 3#3 6#3) [] := by decide
theorem test_decode_lsr : decode [0b1110_111_0_00_0_01_001#16] = .instr (.lsr .b false 7#3 1#3) [] := by decide
theorem test_decode_lsl : decode [0b1110_100_1_01_1_01_010#16] = .instr (.lsl .w true 4#3 2#3) [] := by decide
theorem test_decode_roxr : decode [0b1110_001_0_10_0_10_011#16] = .instr (.roxr .l false 1#3 3#3) [] := by decide
theorem test_decode_roxl : decode [0b1110_110_1_00_1_10_101#16] = .instr (.roxl .b true 6#3 5#3) [] := by decide
theorem test_decode_ror : decode [0b1110_010_0_01_0_11_100#16] = .instr (.ror .w false 2#3 4#3) [] := by decide
theorem test_decode_rol : decode [0b1110_101_1_10_1_11_001#16] = .instr (.rol .l true 5#3 1#3) [] := by decide
theorem test_decode_flineCpid0 : decode [0b1111000_101010101#16] = .instr (.flineCpid0 0x155#9) [] := by decide
theorem test_decode_cpGen : decode [0b1111_001_000_010_101#16, 0x4422#16] =
    .instr (.cpGen 1#3 2#3 5#3 0x4422#16) [] := by decide
theorem test_decode_cpDbcc : decode [0b1111_010_001001_101#16, 0x0013#16] =
    .instr (.cpDbcc 2#3 5#3 0x0013#16) [] := by decide
theorem test_decode_cpTrapccW : decode [0b1111_011_001111010#16, 0x0001#16] =
    .instr (.cpTrapccW 3#3 0x0001#16) [] := by decide
theorem test_decode_cpTrapccL : decode [0b1111_100_001111011#16, 0x0002#16] =
    .instr (.cpTrapccL 4#3 0x0002#16) [] := by decide
theorem test_decode_cpTrapcc : decode [0b1111_101_001111100#16, 0x000F#16] =
    .instr (.cpTrapcc 5#3 0x000F#16) [] := by decide
theorem test_decode_cpScc : decode [0b1111_110_001_010_001#16, 0x000E#16] =
    .instr (.cpScc 6#3 2#3 1#3 0x000E#16) [] := by decide
theorem test_decode_cpBccW : decode [0b1111_001_010_101010#16] = .instr (.cpBccW 1#3 0x2A#6) [] := by decide
theorem test_decode_cpBccL : decode [0b1111_111_011_001111#16] = .instr (.cpBccL 7#3 0x0F#6) [] := by decide
theorem test_decode_cpSave : decode [0b1111_001_100_100_110#16] = .instr (.cpSave 1#3 (.preDec 6#3)) [] := by decide
theorem test_decode_cpRestore : decode [0b1111_101_101_011_011#16] =
    .instr (.cpRestore 5#3 (.postInc 3#3)) [] := by decide
theorem test_decode_flineBadType : decode [0b1111_010_11_1000001#16] = .instr (.flineBadType 2#3 0x41#7) [] := by decide
theorem test_decode_unassigned : decode [0b0100_1010_1111_1011#16] = .instr (.unassigned 0x4AFB#16) [] := by decide

/-! ### One step -/

/-- Supervisor state with the PC at $1000 and the stack at $8000 (95_test_vectors.md). -/
def start : State :=
  { State.reset with regs := { State.reset.regs with isp := 0x8000 }, pc := 0x1000, sr := .ofWord 0x2000 }

/-- Sets SR. -/
def sr (v : Word) (s : State) : State := { s with sr := .ofWord v }
/-- Sets the PC. -/
def pc (v : Long) (s : State) : State := { s with pc := v }
/-- Sets a data register. -/
def dr (n : Reg) (v : Long) (s : State) : State := s.setD n v
/-- Sets an address register. -/
def ar (n : Reg) (v : Long) (s : State) : State := s.setA n v
/-- Sets the user stack pointer. -/
def usp (v : Long) (s : State) : State := { s with regs := { s.regs with usp := v } }
/-- Sets the master stack pointer. -/
def msp (v : Long) (s : State) : State := { s with regs := { s.regs with msp := v } }
/-- Stores `n` bytes. -/
def put (n : Nat) (a v : Long) (s : State) : State := store s 5 n a v
/-- A coprocessor 1 with these answers. -/
def coprocessor (vs : List Long) : Coprocessor :=
  { id := 1, answers := vs.map .data, refusals := [], acknowledges := true, log := [], onReset := [], refusalsOnReset := [] }
/-- Adds coprocessor 1 with these answers. -/
def cp (vs : List Long) (s : State) : State := { s with platform := { s.platform with coprocessors := [coprocessor vs] } }
/-- Bus errors at these addresses of the spaces whose bit is set. -/
def errs (spaces : BitVec 8) (first last : Nat) (s : State) : State :=
  { s with platform := { s.platform with
      faults := [{ spaces := spaces, first := first, last := last, onRead := true, onWrite := true }] } }
/-- Nothing ends a cycle at these addresses of the spaces whose bit is set. -/
def silent (spaces : BitVec 8) (first last : Nat) (s : State) : State :=
  { s with platform := { s.platform with
      silent := [{ spaces := spaces, first := first, last := last, onRead := true, onWrite := true }] } }
/-- Batches of inputs. -/
def inputs (bs : List (List Input)) (s : State) : State := s.setInputs bs
/-- Reads a byte. -/
def at1 (s : State) (a : Long) : Long := load s 5 a 1
/-- Reads a word. -/
def at2 (s : State) (a : Long) : Long := load s 5 a 2
/-- Reads a long word. -/
def at4 (s : State) (a : Long) : Long := load s 5 a 4
/-- Flags from the digits X N Z V C. -/
def flags (v : Byte) : Ccr := .ofByte v

/-- One step on the words at the PC answers a next state with this property. -/
def after (ws : List Word) (s : State) (p : State → Bool) : Bool :=
  match step (placeWords s s.pc ws) with
  | .next t => p t
  | _ => false

/-! The vectors V1 to V8 of spec/95_test_vectors.md, by the number before each test; X, P and Co are its exception,
program and coprocessor vectors. -/

-- V1-1
theorem test_step_moveW_brief_index :
    after [0x3030, 0x1406] (start |> sr 0x2000 |> pc 0x2000 |> ar 0 0x1000 |> dr 1 0xFFFE |> put 2 0xFFE 0x1234) fun t
      => t.d 0 = 0x1234 ∧ t.pc = 0x2004 := by decide +kernel
-- V1-6
theorem test_step_moveL_memory_indirect_postindexed :
    after [0x2030, 0x1326, 0x10, 4] (start |> pc 0x2000 |> ar 0 0x1000 |> dr 1 0xFFFE |> put 4 0x1010 0x3000 |> put 4
      0x3000 0x11223344) fun t => t.d 0 = 0x11223344 ∧ t.pc = 0x2008 := by decide +kernel
-- V1-7
theorem test_step_moveL_memory_indirect_preindexed :
    after [0x2030, 0x1322, 0x10, 4] (start |> pc 0x2000 |> ar 0 0x1000 |> dr 1 0xFFFE |> put 4 0x100C 0x5000 |> put 4
      0x5004 0x11223344) fun t => t.d 0 = 0x11223344 := by decide +kernel
-- V1-9
theorem test_step_moveB_predecrement_a7_by_two :
    after [0x1F00] (start |> sr 0x2000 |> pc 0x2000 |> ar 7 0x1000 |> dr 0 0x55) fun t => t.a 7 = 0xFFE ∧ at1 t 0xFFE
      = 0x55 ∧ at1 t 0xFFF = 0 := by decide +kernel
-- V2-1
theorem test_step_moveB_keeps_upper_bits :
    after [0x1200] (start |> sr 0x2013 |> dr 0 0x12345680 |> dr 1 0xFFFFFF00) fun t => t.d 1 = 0xFFFFFF80 ∧ t.ccr =
      flags 0b11000 := by decide +kernel
-- V2-3
theorem test_step_moveW_to_odd_address :
    after [0x30C0] (start |> dr 0 0xBEEF |> ar 0 0x3001) fun t => at1 t 0x3001 = 0xBE ∧ at1 t 0x3002 = 0xEF ∧ t.a 0 =
      0x3003 ∧ t.ccr = flags 0b01000 := by decide +kernel
-- V2-6
theorem test_step_moveaW_sign_extends :
    after [0x307C, 0x8000] (start |> sr 0x201F) fun t => t.a 0 = 0xFFFF8000 ∧ t.sr.toWord = 0x201F
      := by decide +kernel
-- V2-7
theorem test_step_moveq_sign_extends :
    after [0x7080] (start |> dr 0 0) fun t => t.d 0 = 0xFFFFFF80 ∧ t.ccr = flags 0b01000 := by decide +kernel
-- V2-8
theorem test_step_movem_predecrement_stores_decremented_base :
    after [0x48E0, 0x80] (start |> ar 0 0x2000) fun t => at4 t 0x1FFC = 0x1FFC ∧ t.a 0 = 0x1FFC := by decide +kernel
-- V2-11
theorem test_step_movem_control_order :
    after [0x48D1, 0x103] (start |> dr 0 1 |> dr 1 2 |> ar 0 3 |> ar 1 0x4000) fun t => at4 t 0x4000 = 1 ∧ at4 t
      0x4004 = 2 ∧ at4 t 0x4008 = 3 ∧ t.a 1 = 0x4000 := by decide +kernel
-- V2-9
theorem test_step_movem_postincrement_words :
    after [0x4C98, 0x101] (start |> ar 0 0x3000 |> put 2 0x3000 0x8000 |> put 2 0x3002 0x1234) fun t => t.d 0 =
      0xFFFF8000 ∧ t.a 0 = 0x3004 := by decide +kernel
-- V2-12
theorem test_step_movep_long_from_memory :
    after [0x148, 2] (start |> ar 0 0x4000 |> put 1 0x4002 0x11 |> put 1 0x4004 0x22 |> put 1 0x4006 0x33 |> put 1
      0x4008 0x44) fun t => t.d 0 = 0x11223344 := by decide +kernel
-- V2-13
theorem test_step_pea_of_a7_indirect :
    after [0x4857] (start |> ar 7 0x2000) fun t => at4 t 0x1FFC = 0x2000 ∧ t.a 7 = 0x1FFC := by decide +kernel
-- V2-14
theorem test_step_exg_same_register :
    after [0xC140] (start |> dr 0 0x12345678) fun t => t.d 0 = 0x12345678 := by decide +kernel
-- V2-15
theorem test_step_exg_address_registers :
    after [0xC149] (start |> ar 0 1 |> ar 1 2) fun t => t.a 0 = 2 ∧ t.a 1 = 1 := by decide +kernel
-- V2-16
theorem test_step_link_long :
    after [0x480D, 1, 0] (start |> pc 0x2000 |> ar 7 0x1000 |> ar 5 0x55) fun t => at4 t 0xFFC = 0x55 ∧ t.a 5 = 0xFFC
      ∧ t.a 7 = 0x10FFC := by decide +kernel
-- V2-17
theorem test_step_lea_pc_relative :
    after [0x41FA, 0xFFFE] (start |> pc 0x2000) fun t => t.a 0 = 0x2000 := by decide +kernel
-- V3-29
theorem test_step_adda_word :
    after [0xD0C0] (start |> dr 0 0x8000 |> ar 0 0x10000) fun t => t.a 0 = 0x8000 := by decide +kernel
-- V3-30
theorem test_step_suba_long_same_register :
    after [0x93C9] (start |> ar 1 0x33) fun t => t.a 1 = 0 := by decide +kernel
-- V3-31
theorem test_step_addq_long_carry :
    after [0x5080] (start |> dr 0 0xFFFFFFF8) fun t => t.d 0 = 0 ∧ t.ccr = flags 0b10101 := by decide +kernel
-- V3-32
theorem test_step_subq_address_register_all_bits :
    after [0x5348] (start |> ar 0 0x10000) fun t => t.a 0 = 0xFFFF := by decide +kernel
-- V3-33
theorem test_step_cmpa_word_sign_extended :
    after [0xB0FC, 0xFFFF] (start |> ar 0 0xFFFFFFFF) fun t => t.a 0 = 0xFFFFFFFF ∧ t.ccr = flags 0b00100
      := by decide +kernel
-- V3-34
theorem test_step_cmpm_byte :
    after [0xB308] (start |> ar 0 0x2000 |> ar 1 0x3000 |> put 1 0x2000 5 |> put 1 0x3000 5) fun t => t.a 0 = 0x2001 ∧
      t.a 1 = 0x3001 ∧ t.ccr = flags 0b00100 := by decide +kernel
-- V3-35
theorem test_step_clr_long :
    after [0x4280] (start |> sr 0x2010 |> dr 0 0x12345678) fun t => t.d 0 = 0 ∧ t.ccr = flags 0b10100
      := by decide +kernel
-- V3-36
theorem test_step_tst_negative :
    after [0x4A00] (start |> dr 0 0x80) fun t => t.ccr = flags 0b01000 := by decide +kernel
-- V3-37
theorem test_step_ext_word :
    after [0x4880] (start |> dr 0 0x123456FF) fun t => t.d 0 = 0x1234FFFF ∧ t.ccr = flags 0b01000 := by decide +kernel
-- V3-38
theorem test_step_ext_long :
    after [0x48C0] (start |> dr 0 0x12348000) fun t => t.d 0 = 0xFFFF8000 ∧ t.ccr = flags 0b01000 := by decide +kernel
-- V3-39
theorem test_step_extb_long :
    after [0x49C0] (start |> dr 0 0xFFFFFF7F) fun t => t.d 0 = 0x7F ∧ t.ccr = flags 0b00000 := by decide +kernel
-- V3-40
theorem test_step_cmp2_at_lower_bound :
    after [0x2D0, 0] (start |> ar 0 0x3000 |> put 2 0x3000 0xFFF6 |> put 2 0x3002 0xA |> dr 0 0xFFF6) fun t => t.ccr.x
      = false ∧ t.ccr.z = true ∧ t.ccr.c = false := by decide +kernel
-- V3-41
theorem test_step_cmp2_above_bound :
    after [0x2D0, 0] (start |> ar 0 0x3000 |> put 2 0x3000 0xFFF6 |> put 2 0x3002 0xA |> dr 0 0xB) fun t => t.ccr.x =
      false ∧ t.ccr.z = false ∧ t.ccr.c = true := by decide +kernel
-- V3-43
theorem test_step_muls_word :
    after [0xC1C1] (start |> dr 0 0x8000 |> dr 1 0x8000) fun t => t.d 0 = 0x40000000 ∧ t.ccr = flags 0b00000
      := by decide +kernel
-- V3-45
theorem test_step_mulu_word_uses_low_word :
    after [0xC0C1] (start |> dr 0 0x12340000 |> dr 1 0xFFFF) fun t => t.d 0 = 0 ∧ t.ccr = flags 0b00100
      := by decide +kernel
-- V3-46
theorem test_step_mulu_long_overflow :
    after [0x4C01, 0] (start |> dr 0 0x10000 |> dr 1 0x10000) fun t => t.d 0 = 0 ∧ t.ccr = flags 0b00110
      := by decide +kernel
-- V3-48
theorem test_step_mulu_quad :
    after [0x4C01, 0xC02] (start |> dr 0 0xFFFFFFFF |> dr 1 0xFFFFFFFF |> dr 2 9) fun t => t.d 2 = 0 ∧ t.d 0 = 1 ∧
      t.ccr = flags 0b00000 := by decide +kernel
-- V3-47
theorem test_step_muls_long_overflow :
    after [0x4C01, 0x800] (start |> dr 0 0x40000000 |> dr 1 2) fun t => t.d 0 = 0x80000000 ∧ t.ccr = flags 0b01010
      := by decide +kernel
-- V3-51
theorem test_step_divu_word :
    after [0x80C1] (start |> dr 0 0x1FFFE |> dr 1 0xFFFF) fun t => t.d 0 = 2 ∧ t.ccr = flags 0b00000
      := by decide +kernel
-- V3-52
theorem test_step_divs_word_negative_divisor :
    after [0x81C1] (start |> dr 0 7 |> dr 1 0xFFFE) fun t => t.d 0 = 0x1FFFD ∧ t.ccr = flags 0b01000
      := by decide +kernel
-- V3-53
theorem test_step_divs_word_negative_dividend :
    after [0x81C1] (start |> dr 0 0xFFFFFFF9 |> dr 1 2) fun t => t.d 0 = 0xFFFFFFFD ∧ t.ccr = flags 0b01000
      := by decide +kernel
-- V3-55
theorem test_step_divu_long :
    after [0x4C41, 0] (start |> dr 0 0xFFFFFFFF |> dr 1 0x10) fun t => t.d 0 = 0xFFFFFFF ∧ t.ccr = flags 0b00000
      := by decide +kernel
-- V3-56
theorem test_step_divu_quad :
    after [0x4C42, 0x401] (start |> dr 1 1 |> dr 0 0 |> dr 2 2) fun t => t.d 1 = 0 ∧ t.d 0 = 0x80000000 ∧ t.ccr =
      flags 0b01000 := by decide +kernel
-- V3-58
theorem test_step_divsl_long :
    after [0x4C42, 0x801] (start |> dr 0 0xFFFFFFEF |> dr 2 5) fun t => t.d 1 = 0xFFFFFFFE ∧ t.d 0 = 0xFFFFFFFD ∧
      t.ccr = flags 0b01000 := by decide +kernel
-- V4-1
theorem test_step_and_long :
    after [0xC081] (start |> dr 0 0xFF00FF00 |> dr 1 0xFF00FF0) fun t => t.d 0 = 0xF000F00 ∧ t.ccr = flags 0b00000
      := by decide +kernel
-- V4-2
theorem test_step_or_byte :
    after [0x8001] (start |> dr 0 0x80 |> dr 1 1) fun t => t.d 0 = 0x81 ∧ t.ccr = flags 0b01000 := by decide +kernel
-- V4-3
theorem test_step_eor_word :
    after [0xB340] (start |> dr 0 0xFFFF |> dr 1 0xFFFF) fun t => t.d 0 = 0 ∧ t.ccr = flags 0b00100
      := by decide +kernel
-- V4-4
theorem test_step_not_long :
    after [0x4680] (start |> dr 0 0) fun t => t.d 0 = 0xFFFFFFFF ∧ t.ccr = flags 0b01000 := by decide +kernel
-- V4-5
theorem test_step_andi_long :
    after [0x280, 0, 0xFFFF] (start |> dr 0 0x12348000) fun t => t.d 0 = 0x8000 ∧ t.ccr = flags 0b00000
      := by decide +kernel
-- V4-6
theorem test_step_swap :
    after [0x4840] (start |> dr 0 0x8000) fun t => t.d 0 = 0x80000000 ∧ t.ccr = flags 0b01000 := by decide +kernel
-- V4-7
theorem test_step_asl_memory_overflow :
    after [0xE1D0] (start |> ar 0 0x3000 |> put 2 0x3000 0x4000) fun t => at2 t 0x3000 = 0x8000 ∧ t.ccr = flags
      0b01010 := by decide +kernel
-- V4-8
theorem test_step_roxr_memory :
    after [0xE4D0] (start |> ar 0 0x3000 |> put 2 0x3000 1) fun t => at2 t 0x3000 = 0 ∧ t.ccr = flags 0b10101
      := by decide +kernel
-- V4-i1
theorem test_step_lsr_byte_by_eight :
    after [0xE008] (start |> dr 0 0xFF) fun t => t.d 0 = 0 ∧ t.ccr = flags 0b10101 := by decide +kernel
-- V4-i2
theorem test_step_asl_long_by_eight :
    after [0xE180] (start |> dr 0 1) fun t => t.d 0 = 0x100 := by decide +kernel
-- V5-1
theorem test_step_btst_memory_number_modulo_8 :
    after [0x310] (start |> sr 0x2004 |> ar 0 0x3000 |> dr 1 0xF |> put 1 0x3000 0x80) fun t => t.sr.toWord = 0x2000
      := by decide +kernel
-- V5-2
theorem test_step_btst_register_number_modulo_32 :
    after [0x800, 0x28] (start |> sr 0x2004 |> dr 0 0x100) fun t => t.sr.toWord = 0x2000 := by decide +kernel
-- V5-3
theorem test_step_bset_register :
    after [0x3C0] (start |> dr 1 0xFFFFFFFF |> dr 0 0) fun t => t.d 0 = 0x80000000 ∧ t.sr.toWord = 0x2004
      := by decide +kernel
-- V5-4
theorem test_step_bchg_memory :
    after [0x850, 7] (start |> ar 0 0x3000 |> put 1 0x3000 0x80) fun t => at1 t 0x3000 = 0 ∧ t.sr.toWord = 0x2000
      := by decide +kernel
-- V5-5
theorem test_step_bclr_memory :
    after [0x390] (start |> ar 0 0x3000 |> dr 1 8 |> put 1 0x3000 0xFF) fun t => at1 t 0x3000 = 0xFE ∧ t.sr.toWord =
      0x2000 := by decide +kernel
-- V5-6
theorem test_step_bfextu_wraps_register :
    after [0xE9C0, 0x1708] (start |> dr 0 0x12345678) fun t => t.d 1 = 0x81 ∧ t.ccr = flags 0b01000
      := by decide +kernel
-- V5-7
theorem test_step_bfexts_negative_offset :
    after [0xEBD0, 0x1888] (start |> ar 0 0x3001 |> dr 2 0xFFFFFFFC |> put 2 0x3000 0xABCD) fun t => t.d 1 =
      0xFFFFFFBC ∧ t.ccr = flags 0b01000 := by decide +kernel
-- V5-8
theorem test_step_bfffo :
    after [0xEDC0, 0x1108] (start |> dr 0 0xF00FFFFF) fun t => t.d 1 = 0xC ∧ t.ccr = flags 0b00100
      := by decide +kernel
-- V5-9
theorem test_step_bfins_five_bytes :
    after [0xEFD0, 0x11C0] (start |> ar 0 0x3000 |> dr 1 0xFFFFFFFF) fun t => at4 t 0x3000 = 0x1FFFFFF ∧ at1 t 0x3004
      = 0xFE ∧ at1 t 0x3005 = 0 ∧ t.ccr = flags 0b01000 := by decide +kernel
-- V5-10
theorem test_step_bftst_width_in_register :
    after [0xE8C0, 0x862] (start |> dr 1 0x21 |> dr 2 0 |> dr 0 0x40000000) fun t => t.ccr = flags 0b01000
      := by decide +kernel
-- V5-11
theorem test_step_bfclr_one_bit :
    after [0xECC0, 1] (start |> dr 0 0x80000000) fun t => t.d 0 = 0 ∧ t.ccr = flags 0b01000 := by decide +kernel
-- V5-12
theorem test_step_bfset_byte :
    after [0xEED0, 8] (start |> ar 0 0x3000) fun t => at1 t 0x3000 = 0xFF ∧ t.ccr = flags 0b00100 := by decide +kernel
-- R324
theorem test_step_bfchg_wraps_register :
    after [0xEAC0, 0x708] (start |> dr 0 0) fun t => t.d 0 = 0xF000000F ∧ t.ccr = flags 0b00100 := by decide +kernel
-- V5-16
theorem test_step_abcd_memory :
    after [0xC109] (start |> ar 1 0x2001 |> ar 0 0x3001 |> put 1 0x2000 0x25 |> put 1 0x3000 0x17) fun t => at1 t
      0x3000 = 0x42 ∧ t.a 1 = 0x2000 ∧ t.a 0 = 0x3000 ∧ t.ccr.x = false ∧ t.ccr.z = false ∧ t.ccr.c = false
      := by decide +kernel
-- V5-13
theorem test_step_abcd_register_carry :
    after [0xC101] (start |> sr 0x2004 |> dr 0 0x99 |> dr 1 1) fun t => t.d 0 = 0 ∧ t.ccr.x = true ∧ t.ccr.z = true ∧
      t.ccr.c = true := by decide +kernel
-- V5-17
theorem test_step_sbcd_register :
    after [0x8101] (start |> sr 0x2004 |> dr 0 0x10 |> dr 1 1) fun t => t.d 0 = 9 ∧ t.ccr.x = false ∧ t.ccr.z = false
      ∧ t.ccr.c = false := by decide +kernel
-- V5-18
theorem test_step_sbcd_borrow :
    after [0x8101] (start |> sr 0x2014 |> dr 0 0 |> dr 1 0) fun t => t.d 0 = 0x99 ∧ t.ccr.x = true ∧ t.ccr.z = false ∧
      t.ccr.c = true := by decide +kernel
-- V5-19
theorem test_step_nbcd_zero_with_x :
    after [0x4800] (start |> sr 0x2014 |> dr 0 0) fun t => t.d 0 = 0x99 ∧ t.ccr.x = true ∧ t.ccr.z = false ∧ t.ccr.c =
      true := by decide +kernel
-- V5-20
theorem test_step_nbcd :
    after [0x4800] (start |> sr 0x2004 |> dr 0 0x50) fun t => t.d 0 = 0x50 ∧ t.ccr.x = true ∧ t.ccr.z = false ∧
      t.ccr.c = true := by decide +kernel
-- V5-22
theorem test_step_unpk_register :
    after [0x8380, 0x3030] (start |> dr 0 0x99 |> dr 1 0xFFFF0000) fun t => t.d 1 = 0xFFFF3939 := by decide +kernel
-- V6-1
theorem test_step_bcc_taken :
    after [0x6700, 0x100] (start |> sr 0x2004) fun t => t.pc = 0x1102 := by decide +kernel
-- V6-2
theorem test_step_bcc_not_taken :
    after [0x6700, 0x100] (start |> sr 0x2000) fun t => t.pc = 0x1004 := by decide +kernel
-- V6-3
theorem test_step_bra_long :
    after [0x60FF, 1, 0] (start |> sr 0x2000) fun t => t.pc = 0x11002 := by decide +kernel
-- V6-5
theorem test_step_bsr :
    after [0x6100, 0xFFFE] (start |> pc 0x2000) fun t => at4 t 0x7FFC = 0x2004 ∧ t.a 7 = 0x7FFC ∧ t.pc = 0x2000
      := by decide +kernel
-- V6-6
theorem test_step_dbcc_expires :
    after [0x51C8, 0xFFFE] (start |> dr 0 0x12340000) fun t => t.d 0 = 0x1234FFFF ∧ t.pc = 0x1004 := by decide +kernel
-- V6-8
theorem test_step_dbcc_loops :
    after [0x57C8, 0xFFF0] (start |> sr 0x2000 |> dr 0 5) fun t => t.d 0 = 4 ∧ t.pc = 0xFF2 := by decide +kernel
-- V6-9
theorem test_step_scc_false :
    after [0x56D0] (start |> sr 0x2004 |> ar 0 0x3000 |> put 1 0x3000 0x55) fun t => at1 t 0x3000 = 0
      := by decide +kernel
-- V6-10
theorem test_step_scc_true :
    after [0x50C0] (start |> dr 0 0) fun t => t.d 0 = 0xFF := by decide +kernel
-- V6-11
theorem test_step_jmp_pc_relative :
    after [0x4EFA, 4] (start |> dr 0 0) fun t => t.pc = 0x1006 := by decide +kernel
-- V6-12
theorem test_step_jsr :
    after [0x4E90] (start |> ar 0 0x4000) fun t => at4 t 0x7FFC = 0x1002 ∧ t.a 7 = 0x7FFC ∧ t.pc = 0x4000
      := by decide +kernel
-- V6-13
theorem test_step_rts :
    after [0x4E75] (start |> ar 7 0x7FFC |> put 4 0x7FFC 0x1002) fun t => t.pc = 0x1002 ∧ t.a 7 = 0x8000
      := by decide +kernel
-- V6-14
theorem test_step_rtd :
    after [0x4E74, 8] (start |> ar 7 0x7FFC |> put 4 0x7FFC 0x1002) fun t => t.pc = 0x1002 ∧ t.a 7 = 0x8008
      := by decide +kernel
-- V6-15
theorem test_step_rtr :
    after [0x4E77] (start |> sr 0 |> ar 7 0x7FFA |> put 2 0x7FFA 0xFF1F |> put 2 0x7FFC 0 |> put 2 0x7FFE 0x1002) fun
      t => t.pc = 0x1002 ∧ t.a 7 = 0x8000 ∧ t.sr.toWord = 0x1F := by decide +kernel
-- V6-16
theorem test_step_nop :
    after [0x4E71] (start |> sr 0) fun t => t.pc = 0x1002 := by decide +kernel
-- V7-1
theorem test_step_andi_to_ccr :
    after [0x23C, 0xFE] (start |> sr 0x1F) fun t => t.sr.toWord = 0x1E ∧ t.pc = 0x1004 := by decide +kernel
-- V7-2
theorem test_step_move_from_ccr :
    after [0x42C0] (start |> sr 0x271F |> dr 0 0xFFFFFFFF) fun t => t.d 0 = 0xFFFF001F := by decide +kernel
-- V7-3
theorem test_step_move_to_ccr :
    after [0x44FC, 0xFFFF] (start |> sr 0) fun t => t.sr.toWord = 0x1F := by decide +kernel
-- V7-4
theorem test_step_move_to_sr_unimplemented_bits :
    after [0x46FC, 0x28E0] (start |> sr 0x2700) fun t => t.sr.toWord = 0x2000 := by decide +kernel
-- V7-5
theorem test_step_ori_to_sr :
    after [0x7C, 0x700] (start |> sr 0x2000) fun t => t.sr.toWord = 0x2700 := by decide +kernel
-- V7-7
theorem test_step_andi_to_sr_enters_user_level :
    after [0x27C, 0xDFFF] (start |> sr 0x2000 |> usp 0x6000) fun t => t.sr.toWord = 0 ∧ t.a 7 = 0x6000
      := by decide +kernel
-- V7-8
theorem test_step_move_from_sr_in_user_mode :
    after [0x40C0] (start |> sr 0) fun t => at2 t 0x7FF8 = 0 ∧ at2 t 0x7FFA = 0 ∧ at2 t 0x7FFC = 0x1000 ∧ at2 t 0x7FFE
      = 0x20 ∧ t.sr.toWord = 0x2000 := by decide +kernel
-- V7-10
theorem test_step_move_usp :
    after [0x4E60] (start |> ar 0 0x6000) fun t => t.regs.usp = 0x6000 ∧ t.regs.isp = 0x8000 := by decide +kernel
-- V7-11
theorem test_step_movec_vbr :
    after [0x4E7B, 0x801] (start |> dr 0 0x10000) fun t => t.vbr = 0x10000 := by decide +kernel
-- V7-15
theorem test_step_movec_bad_code :
    after [0x4E7A, 3] (start |> put 4 0x10 0x4444) fun t => t.pc = 0x4444 ∧ at2 t 0x7FF8 = 0x2000 ∧ at2 t 0x7FFA = 0 ∧
      at2 t 0x7FFC = 0x1000 ∧ at2 t 0x7FFE = 0x10 := by decide +kernel
-- V7-17
theorem test_step_moves_store_byte :
    after [0xE10, 0x800] (start |> ar 0 0x2000 |> dr 0 0x5A) fun t => at1 t 0x2000 = 0x5A := by decide +kernel
-- V7-18
theorem test_step_moves_load_word_address_register :
    after [0xE50, 0x9000] (start |> ar 0 0x2000 |> put 2 0x2000 0x8000) fun t => t.a 1 = 0xFFFF8000
      := by decide +kernel
-- V7-21
theorem test_step_stop_traced :
    after [0x4E72, 0x2000] (start |> sr 0xA700 |> put 4 0x24 0x4000) fun t => t.sr.toWord = 0x2000 ∧ t.pc = 0x4000 ∧
      at2 t 0x7FF4 = 0x2000 ∧ at2 t 0x7FF6 = 0 ∧ at2 t 0x7FF8 = 0x1004 ∧ at2 t 0x7FFA = 0x2024 := by decide +kernel
-- V7-22b
theorem test_step_reset :
    after [0x4E70] (start |> sr 0x2000) fun t => t.pc = 0x1002 ∧ t.platform.deviceResets = 1 := by decide +kernel
-- R406, R705: RESET gives devices their initial state, not coprocessors
theorem test_step_reset_devices :
    after [0x4E70] { cp [5] start with platform := { (cp [5] start).platform with
      iack := [(3, .vector 64)], onReset := { faults := [], silent := [], iack := [(3, .vector 15)], access := [] } } } fun t =>
      t.platform.iack = [(3, .vector 15)] ∧ t.platform.coprocessors = [coprocessor [5]] := by decide +kernel
-- V7-23
theorem test_step_trapv_taken :
    after [0x4E76] (start |> sr 0x2002) fun t => at2 t 0x7FF4 = 0x2002 ∧ at2 t 0x7FF6 = 0 ∧ at2 t 0x7FF8 = 0x1002 ∧
      at2 t 0x7FFA = 0x201C ∧ at2 t 0x7FFC = 0 ∧ at2 t 0x7FFE = 0x1000 := by decide +kernel
-- V7-25
theorem test_step_trapcc_long :
    after [0x5EFB, 0x1234, 0x5678] (start |> sr 0x2000) fun t => at2 t 0x7FF4 = 0x2000 ∧ at2 t 0x7FF6 = 0 ∧ at2 t
      0x7FF8 = 0x1006 ∧ at2 t 0x7FFA = 0x201C ∧ at2 t 0x7FFC = 0 ∧ at2 t 0x7FFE = 0x1000 := by decide +kernel
-- V7-27
theorem test_step_chk_word_in_bounds :
    after [0x4181] (start |> dr 0 0 |> dr 1 0) fun t => t.pc = 0x1002 := by decide +kernel
-- V7-29
theorem test_step_illegal :
    after [0x4AFC] (start |> sr 0x2000) fun t => at2 t 0x7FF8 = 0x2000 ∧ at2 t 0x7FFA = 0 ∧ at2 t 0x7FFC = 0x1000 ∧
      at2 t 0x7FFE = 0x10 := by decide +kernel
-- V7-30
theorem test_step_aline :
    after [0xA000] (start |> sr 0) fun t => at2 t 0x7FF8 = 0 ∧ at2 t 0x7FFA = 0 ∧ at2 t 0x7FFC = 0x1000 ∧ at2 t 0x7FFE
      = 0x28 := by decide +kernel
-- V7-32
theorem test_step_fline_cpid0_user :
    after [0xF000] (start |> sr 0) fun t => at2 t 0x7FF8 = 0 ∧ at2 t 0x7FFA = 0 ∧ at2 t 0x7FFC = 0x1000 ∧ at2 t 0x7FFE
      = 0x20 := by decide +kernel
-- V7-34
theorem test_step_bkpt_unanswered :
    after [0x484F] (start |> sr 0) fun t => at2 t 0x7FF8 = 0 ∧ at2 t 0x7FFA = 0 ∧ at2 t 0x7FFC = 0x1000 ∧ at2 t 0x7FFE
      = 0x10 := by decide +kernel
-- V8-1
theorem test_step_tas_memory :
    after [0x4AD0] (start |> ar 0 0x3000 |> put 1 0x3000 0x7F) fun t => at1 t 0x3000 = 0xFF ∧ t.ccr = flags 0b00000
      := by decide +kernel
-- V8-2
theorem test_step_tas_register :
    after [0x4AC0] (start |> dr 0 0x12345600) fun t => t.d 0 = 0x12345680 ∧ t.ccr = flags 0b00100 := by decide +kernel
-- V8-3
theorem test_step_cas_equal :
    after [0xCD0, 0x40] (start |> ar 0 0x3000 |> put 2 0x3000 0x1234 |> dr 0 0xAAAA1234 |> dr 1 0xBEEF) fun t => at2 t
      0x3000 = 0xBEEF ∧ t.d 0 = 0xAAAA1234 ∧ t.ccr = flags 0b00100 := by decide +kernel
-- V8-4
theorem test_step_cas_unequal :
    after [0xCD0, 0x40] (start |> ar 0 0x3000 |> put 2 0x3000 0x1234 |> dr 0 0xAAAA1235) fun t => at2 t 0x3000 =
      0x1234 ∧ t.d 0 = 0xAAAA1234 ∧ t.ccr = flags 0b01001 := by decide +kernel
-- V8-6
theorem test_step_cas2_equal :
    after [0xEFC, 0x8080, 0x90C1] (start |> ar 0 0x3000 |> ar 1 0x4000 |> put 4 0x3000 1 |> put 4 0x4000 2 |> dr 0 1
      |> dr 1 2 |> dr 2 0x10 |> dr 3 0x20) fun t => at4 t 0x3000 = 0x10 ∧ at4 t 0x4000 = 0x20 ∧ t.ccr = flags 0b00100
      ∧ t.pc = 0x1006 := by decide +kernel
-- V8-7
theorem test_step_cas2_second_unequal :
    after [0xEFC, 0x8080, 0x90C1] (start |> ar 0 0x3000 |> ar 1 0x4000 |> put 4 0x3000 1 |> put 4 0x4000 3 |> dr 0 1
      |> dr 1 2 |> dr 2 0x10 |> dr 3 0x20) fun t => at4 t 0x3000 = 1 ∧ at4 t 0x4000 = 3 ∧ t.d 0 = 1 ∧ t.d 1 = 3 ∧
      t.ccr = flags 0b00000 := by decide +kernel
-- V8-10
theorem test_step_callm :
    after [0x6D0, 4] (start |> sr 0x2004 |> ar 7 0x02000000 |> ar 0 0x01015000 |> put 4 0x01015000 0 |> put 4 0x01015004 0x01016002 |>
      put 4 0x01015008 0x01017001 |> put 2 0x01016002 0xD001) fun t => t.a 7 = 0x01FFFFE8 ∧ t.a 5 = 0x01017001 ∧
      t.pc = 0x01016004 := by decide +kernel
-- R446: where RTE or the handler completed the exchange, a later fault takes over the answer
theorem test_access_answer_kept :
    (match accessLevel { start with
        replay := [.write], platform := { start.platform with access := [⟨false, none, .granted true⟩] } } false 3 with
     | .ok (b, t) => b && decide (t.done = [.read 1])
     | .error _ => false) = true := by decide
-- V8-11
theorem test_step_rtm :
    after [0x6CD] (start |> sr 0x2000 |> ar 7 0x7FE8 |> put 2 0x7FE8 0 |> put 2 0x7FEA 4 |> put 2 0x7FEC 4 |> put 2
      0x7FEE 0 |> put 2 0x7FF0 0 |> put 2 0x7FF2 0x5000 |> put 2 0x7FF4 0 |> put 2 0x7FF6 0x1004 |> put 2 0x7FF8 0 |>
      put 2 0x7FFA 0x55 |> put 2 0x7FFC 0 |> put 2 0x7FFE 0x8000 |> ar 5 0x7000) fun t => t.a 7 = 0x8004 ∧ t.a 5 =
      0x55 ∧ t.pc = 0x1004 ∧ t.sr.toWord = 0x2004 := by decide +kernel
-- X4
theorem test_step_rte_bad_format :
    after [0x4E73] (start |> pc 0x3000 |> ar 7 0x7FF8 |> put 2 0x7FF8 0x2000 |> put 2 0x7FFA 0 |> put 2 0x7FFC 0x1002
      |> put 2 0x7FFE 0x3080 |> put 4 0x38 0x4000) fun t => t.pc = 0x4000 ∧ t.a 7 = 0x7FF0 ∧ at2 t 0x7FF0 = 0x2000 ∧
      at2 t 0x7FF2 = 0 ∧ at2 t 0x7FF4 = 0x3000 ∧ at2 t 0x7FF6 = 0x38 := by decide +kernel
-- X5
theorem test_step_rte_six_word_frame :
    after [0x4E73] (start |> ar 7 0x7FF4 |> put 2 0x7FF4 0x15 |> put 2 0x7FF6 0 |> put 2 0x7FF8 0x1002 |> put 2 0x7FFA
      0x2024 |> put 2 0x7FFC 0 |> put 2 0x7FFE 0x1000 |> usp 0x6000) fun t => t.sr.toWord = 0x15 ∧ t.pc = 0x1002 ∧
      t.regs.isp = 0x8000 ∧ t.a 7 = 0x6000 := by decide +kernel
-- X8
theorem test_step_trap_on_master_stack :
    after [0x4E40] (start |> sr 0x3000 |> msp 0x9000) fun t => at2 t 0x8FF8 = 0x3000 ∧ at2 t 0x8FFA = 0 ∧ at2 t 0x8FFC
      = 0x1002 ∧ at2 t 0x8FFE = 0x80 ∧ t.sr.toWord = 0x3000 := by decide +kernel
-- P7
theorem test_step_moveq_traced :
    after [0x7005] (start |> sr 0x8000 |> put 4 0x24 0x3300) fun t => t.sr.toWord = 0x2000 ∧ t.pc = 0x3300 ∧ t.d 0 = 5
      ∧ at2 t 0x7FF4 = 0x8000 ∧ at2 t 0x7FF6 = 0 ∧ at2 t 0x7FF8 = 0x1002 := by decide +kernel
-- Co1
theorem test_step_cpgen_transfers_operand :
    after [0xF210, 0x4000] (start |> ar 0 0x2000 |> put 4 0x2000 0xDEADBEEF |> cp [0x9504, 0x0802]) fun t => t.pc =
      0x1004 ∧ t.platform.coprocessors.map (·.log) = [[⟨10, 2, 0x4000⟩, ⟨16, 4, 0xDEADBEEF⟩]] := by decide +kernel
-- Co2a
theorem test_step_cpbcc_taken :
    after [0xF281, 0x10] (start |> cp [0x8900, 0x0801]) fun t => t.pc = 0x1012 := by decide +kernel
-- Co3b
theorem test_step_cpdbcc_loops :
    after [0xF249, 1, 0xFFFA] (start |> pc 0x2000 |> dr 1 5 |> cp [0x0800]) fun t => t.pc = 0x1FFE ∧ t.d 1 = 4
      := by decide +kernel
-- Co4
theorem test_step_cpscc :
    after [0xF240, 1] (start |> dr 0 0x12345600 |> cp [0x0801]) fun t => t.pc = 0x1004 ∧ t.d 0 = 0x123456FF
      := by decide +kernel
-- Co5
theorem test_step_cptrapcc :
    after [0xF27C, 1] (start |> put 4 0x1C 0x4000 |> cp [0x0801]) fun t => t.pc = 0x4000 ∧ at2 t 0x7FF4 = 0x2000 ∧ at2
      t 0x7FF6 = 0 ∧ at2 t 0x7FF8 = 0x1004 ∧ at2 t 0x7FFA = 0x201C ∧ at2 t 0x7FFC = 0 := by decide +kernel
-- Co5b
theorem test_step_cptrapcc_word_not_taken :
    after [0xF27A, 1, 2] (start |> cp [0x0800]) fun t => t.pc = 0x1006 := by decide +kernel
-- Co7a
theorem test_step_cpsave :
    after [0xF321] (start |> ar 1 0x3000 |> put 2 0x2FF6 0x9999 |> cp [0x1008, 0xAAAAAAAA, 0xBBBBBBBB]) fun t => t.a 1
      = 0x2FF4 ∧ at2 t 0x2FF4 = 0x1008 ∧ at2 t 0x2FF6 = 0x9999 ∧ at4 t 0x2FF8 = 0xBBBBBBBB ∧ at4 t 0x2FFC = 0xAAAAAAAA
      ∧ t.pc = 0x1002 := by decide +kernel
-- Co7b
theorem test_step_cprestore :
    after [0xF359] (start |> ar 1 0x2FF4 |> put 2 0x2FF4 0x1008 |> put 4 0x2FF8 0xBBBBBBBB |> put 4 0x2FFC 0xAAAAAAAA
      |> cp [0x1008]) fun t => t.a 1 = 0x3000 ∧ t.pc = 0x1002 ∧ t.platform.coprocessors.map (·.log) = [[⟨6, 2,
      0x1008⟩, ⟨16, 4, 0xBBBBBBBB⟩, ⟨16, 4, 0xAAAAAAAA⟩]] := by decide +kernel
-- R133: another master stores between the two cycles of a long word at a 16-bit port
theorem test_step_other_master_between_cycles :
    after [0x2010] { (start |> ar 0 0x2000) with platform := { start.platform with
      ports := [{ spaces := 0xFF, first := 0x2000, last := 0x2003, size := .p16 }],
      masters := [[], [], [(0x2000, 0x77), (0x2002, 0xAB)]] } } fun t => t.d 0 = 0xAB00 := by decide +kernel
-- R133, R105: another master stores before the first read cycle of TAS, but not before its write cycle
theorem test_step_other_master_before_tas :
    after [0x4AD0] { (start |> ar 0 0x3000) with platform := { start.platform with
      masters := [[], [(0x3000, 0x41)], [(0x3000, 0x11)]] } } fun t => at1 t 0x3000 = 0xC1 ∧ t.ccr = flags 0 ∧
      t.platform.masters = [[(0x3000, 0x11)]] := by decide +kernel
-- R75, R93: MOVES.W at an odd address of CPU space that answers as memory
theorem test_step_moves_cpu_space :
    after [0x0E50, 0x0000] { (start |> ar 0 0x30003 |> put 2 0x30003 0x1234) with
      sfc := 7, platform := { start.platform with cpuSpace := [(0x30000, 0x3FFFF)] } } fun t => t.d 0 = 0x1234
      := by decide +kernel
-- R15, R600 (log 35): the handler of a bus error cannot be fetched
theorem test_step_handler_not_fetched :
    after [0x4A90] { (start |> ar 0 0x2000 |> put 4 8 0x01015554) with platform := { start.platform with
      faults := [{ spaces := 0x20, first := 0x2000, last := 0x2000, onRead := true, onWrite := false },
                 { spaces := 0x40, first := 0x01015554, last := 0x01015554, onRead := true, onWrite := false }] } } fun t =>
      t.run = .halted := by decide +kernel
-- R390, R627 (log 37): a privileged instruction of a user program, with an extension word that cannot be fetched
theorem test_step_privilege_before_extension_word :
    after [0x4E7B] (start |> sr 0 |> pc 0x1002 |> errs 0x04 0x1004 0x1007) fun t => at2 t 0x7FF8 = 0 ∧
      at4 t 0x7FFA = 0x1002 ∧ at2 t 0x7FFE = 0x20 := by decide +kernel
/-- A suspended fetch of an operation word. -/
def suspended : Suspension :=
  { key := 0, long := false, kind := .fetch [], instr := .nop, locked := false, start := snapshot start,
    atFault := snapshot start, pcNext := 0, done := [],
    pipe := { Pipe.empty with c := { valid := true, addr := 0x1000, word := 0, fault := true } } }
-- R614, R663: an odd vector that the handler of a bus error on its read has delivered
theorem test_odd_vector_delivered :
    (let t := processEntry (put 4 12 0x01010102 start) { vector := 4, body := .four, pc := 0x01010304, level := none } start.sr
      (some 0x3001)
     t.pc = 0x01010102 ∧ at4 t (t.sp + 2) = 0x01010304) := by decide +kernel
-- R604, R667: a bus error while a traced RTE loads a bus fault frame
theorem test_step_rte_load_fault_halts :
    after [0x4E73] { (start |> sr 0xA000 |> put 2 0x8006 0xA008 |> errs 0x20 0x8014 0x8017) with suspended := [suspended] }
      fun t => t.run = .halted := by decide +kernel
-- R662, R670: a stage C word with its rerun bit clear
theorem test_step_rte_accepts_stage_c :
    after [0x4E73] { (start |> put 2 0x8000 0x2000 |> put 4 0x8002 0x3000 |> put 2 0x8006 0xA008 |> put 2 0x800C 0x4E71)
      with suspended := [suspended] } fun t => t.pc = 0x3000 ∧ t.a 7 = 0x8020 ∧ pipeWord t.pipe 0x1000 = some 0x4E71
      := by decide +kernel
-- R700, R705: reset ends a coprocessor's unanswered cycle, and the coprocessor starts again
theorem test_step_reset_ends_bus_cycle :
    after [0xF200, 0x4000] { start with platform := { start.platform with
      coprocessors := [{ coprocessor [] with onReset := [.data 5] }], inputs := [[.reset]] } } fun t =>
      t.pc = 0 ∧ t.platform.coprocessors = [{ coprocessor [5] with onReset := [.data 5] }] := by decide +kernel

-- R90, U19: an instruction fetch, an interrupt acknowledge, a vector read and a breakpoint acknowledge that nothing ends
theorem test_step_fetch_waits : after [0x4E71] (start |> silent 0x40 0x1000 0x1001) fun t =>
    t.run = .waiting ∧ t.pc = 0x1000 := by decide +kernel
theorem test_iack_waits :
    (let t := interruptStep (silent 0x80 0 0xFFFFFFFF { (sr 0x8000 start) with irq := { start.irq with pending := true, level := 3 } })
     t.run = .waiting ∧ t.sr.toWord = 0x2300) := by decide +kernel
theorem test_step_vector_waits : after [0x4E40] (start |> silent 0x20 0x80 0x83) fun t => t.run = .waiting
    := by decide +kernel
theorem test_step_bkpt_waits : after [0x4848] (start |> silent 0x80 0 0) fun t => t.run = .waiting := by decide +kernel
-- R90: an input ends the wait, in which a store arrives
theorem test_step_wait_ends : after [0x2010] (start |> ar 0 0x2000 |> silent 0x20 0x2000 0x2003 |>
    inputs [[.store 0x2003 7], [.silent []], [.cdis true]]) fun t => t.d 0 = 7 ∧ t.pc = 0x1002 ∧ t.run = .normal ∧
      t.platform.inputs = [] := by decide +kernel
-- R112, R111: CDIS is asserted while the fill read waits
theorem test_step_cdis_in_wait : after [0x4E71] { (start |> silent 0x40 0x1000 0x1003 |>
    inputs [[.cdis true, .silent []], [.cdis true]]) with cacrE := true } fun t =>
      (t.cache.get 0).valid = false ∧ t.pc = 0x1002 := by decide +kernel
-- R445, R200: a bus error on the stack pointer of a type $01 frame finds CCR and Rn unchanged
theorem test_step_rtm_fault_keeps_ccr : after [0x06CD] { (start |> sr 0 |> usp 0x6000 |> ar 5 0x55 |> put 2 0x6000 0x0100 |>
    put 2 0x6002 0x1F |> put 4 8 0x01010102 |> errs 0x02 0x6014 0x6017) with
    platform := { (errs 0x02 0x6014 0x6017 start).platform with
      access := [{ decrease := true, level := none, answer := .granted false }] } } fun t =>
      t.sr.toWord = 0x2000 ∧ t.ccr = flags 0 ∧ t.a 5 = 0x55 ∧ t.pc = 0x01010102 := by decide +kernel
-- R105, R133: no other master stores while the write cycle of TAS waits
theorem test_step_wait_locked : after [0x4AD0] { (start |> ar 0 0x3000 |> inputs [[.store 0x3000 1, .silent []]]) with
    platform := { start.platform with
      silent := [{ spaces := 0x20, first := 0x3000, last := 0x3000, onRead := false, onWrite := true }],
      inputs := [[.store 0x3000 1, .silent []]] } } fun t => at1 t 0x3000 = 1 ∧ t.ccr = flags 0b00100 ∧ t.run = .normal
    := by decide +kernel
-- R551: a coprocessor does not acknowledge a write cycle, until an input lets it
theorem test_step_write_not_acknowledged :
    let s := fun bs => inputs bs { start with platform := { start.platform with
      coprocessors := [{ coprocessor [0x0802] with acknowledges := false }] } }
    after [0xF200, 0x4000] (s []) (fun t => t.run = .waiting) ∧
    after [0xF200, 0x4000] (s [[.refusals 1 [false]]]) fun t => t.pc = 0x1004 ∧ t.run = .normal := by decide +kernel
-- R539: a push moves A7 before the operand CIR is read, a pop after it is written
theorem test_step_push_moves_first : after [0xF200, 0x4000] { (start |> sr 0 |> usp 0x6000 |> put 4 8 0x01010102) with
    platform := { start.platform with coprocessors := [{ coprocessor [] with answers := [.data 0xAE04, .busError] }] } } fun t =>
      t.regs.usp = 0x5FFC := by decide +kernel
theorem test_step_pop_moves_last : after [0xF200, 0x4000] { (start |> sr 0 |> usp 0x6000 |> put 4 8 0x01010102) with
    platform := { start.platform with
      coprocessors := [{ coprocessor [0x8E04] with refusals := [false, true] }] } } fun t => t.regs.usp = 0x6000
    := by decide +kernel
-- R468: a bus error on the second read of the save CIR
theorem test_step_cpsave_second_read : after [0xF321] { (start |> put 4 0x2C 0x4000) with platform := { start.platform with
    coprocessors := [{ coprocessor [] with answers := [.data 0x0100, .busError] }] } } fun t => t.pc = 0x4000
    := by decide +kernel
-- log 11: an instruction that goes on after its -(An) steps An once
theorem test_step_waiting_steps_once :
    (match step (again (start |> ar 1 0x1FFC |> cp [0x11223344, 0x0802]) (.cpGen 1 4 1 0x4000)
        (snapshot (start |> ar 1 0x2000)) [.write, .read 0xB504] true) with
     | .next t => decide (t.a 1 = 0x1FFC ∧ at4 t 0x1FFC = 0x11223344 ∧ t.pc = 0x1004)
     | _ => false) = true := by decide +kernel

/-! ### A state and operands that meet the hypotheses of each statement -/

theorem quiet_start : Quiet start := ⟨⟨rfl, rfl, rfl, rfl⟩, fun _ _ _ => rfl⟩
theorem wide_start : Wide start := fun _ => rfl

theorem witness_DecodeEncode : (Instr.moveq 5#3 0x80#8).wf = true := by decide
theorem witness_DecodedWellFormed : decode [0x4E71] = .instr .nop [] ∧ decode [0x4AFB] = .instr (.unassigned 0x4AFB) [] := by
  decide

/-- `start` with `ANDI #$1E,CCR` at the PC. -/
def loaded : State := placeWords start 0x1000 [0x023C, 0x001E]

theorem witness_StepRunsDecoded : loaded.run = .normal ∧ loaded.resume = none ∧ loaded.irq.pending = false ∧
    (∃ t, fetchInstr maxWords (beginInstr loaded) [] = .ok (.andiCcr 0x1E, t)) ∧ (Instr.andiCcr 0x1E).wf = true :=
  ⟨rfl, rfl, rfl, ⟨_, rfl⟩, rfl⟩
theorem witness_FetchReadsProgram : Quiet loaded ∧ (Instr.andiCcr 0x1E).wf = true ∧ loaded.pc.getLsbD 0 = false ∧
    cacheEnabled loaded = false ∧ loaded.pipe = .empty ∧ loaded.holding.valid = false ∧
    ∀ (k : Nat) (w : Word), (encode (.andiCcr 0x1E))[k]? = some w →
      load loaded (progFc loaded) (loaded.pc + BitVec.ofNat 32 (2 * k)) 2 = w.setWidth 32 :=
  ⟨⟨⟨rfl, rfl, rfl, rfl⟩, fun _ _ _ => rfl⟩, rfl, rfl, rfl, rfl, rfl, fun
    | 0, w, h => by cases h; decide +kernel
    | 1, w, h => by cases h; decide +kernel
    | _ + 2, w, h => by cases h⟩
theorem witness_TraceAndBoundary_every : (sr 0x8000 start).sr.t1 = true ∧ (sr 0x8000 start).sr.t0 = false := by decide
theorem witness_TraceAndBoundary_flow : (sr 0x4000 start).sr.t1 = false ∧ (sr 0x4000 start).sr.t0 = true := by decide
theorem witness_TraceAndBoundary_none : start.sr.t1 = false ∧ start.sr.t0 = false := by decide
/-- A trace is pending. -/
def traced : State := { start with trace := { pending := true, flow := false, addr := 0 } }
theorem witness_TraceAndBoundary_boundary :
    traced.resume = none ∧ traced.trace.pending = true ∧ traced.run ≠ .halted ∧ traced.run ≠ .waiting ∧ start.resume = none ∧ start.trace.pending = false := by decide
theorem witness_WaitingStates : let s : State := { start with run := .halted }
    let t : State := { start with run := .stopped }
    (∀ b ∈ s.platform.inputs.head?, Input.reset ∉ b) ∧ s.run = .halted ∧
      (∀ b ∈ t.platform.inputs.head?, Input.reset ∉ b) ∧ t.run = .stopped ∧ t.irq.pending = false := by decide
theorem witness_WaitingStates_waiting : let s : State := { start with run := .waiting }
    s.platform.inputs = [] ∧ (∀ b ∈ (inputs [[.ipl 3]] s).platform.inputs.head?, Input.reset ∉ b) ∧
      (inputs [[.ipl 3]] s).run = .waiting ∧ (inputs [[.ipl 3]] s).platform.inputs ≠ [] := by decide
theorem witness_WaitingStates_cycle : let s := silent 0x20 0x2000 0x2003 (ar 0 0x2000 start)
    s.replay = [] ∧ s.landing = none ∧ s.platform.masters = [] ∧
    cycleErrs s.platform (dataFc s) true (extAddr s.platform.variant (s.a 0)) = false ∧
    cycleWaits s.platform (dataFc s) true (extAddr s.platform.variant (s.a 0)) = true ∧ s.platform.inputs = [] ∧
    (inputs [[.reset]] s).platform.inputs = [[.reset]] ∧
    (inputs [[.silent []]] s).platform.inputs = [[.silent []]] := by decide
theorem witness_ResetSequence : Quiet { start with platform := resetPlatform start.platform } :=
  ⟨⟨rfl, rfl, rfl, rfl⟩, fun _ _ _ => rfl⟩
theorem witness_StepKeepsInv : Inv start ∧ ∃ t, step start = .next t := ⟨⟨rfl, by decide⟩, ⟨_, rfl⟩⟩
theorem witness_PrivilegedInUser : privileged .reset = true ∧ (sr 0 start).sr.s = false := by decide
theorem witness_UserIsolation :
    dialogues .nop = false ∧ (sr 0 start).sr.s = false ∧ start.landing = none ∧ ∃ t, exec .nop (sr 0 start) = .next t ∧ t.sr.s = false :=
  ⟨rfl, rfl, rfl, ⟨_, rfl, rfl⟩⟩
theorem witness_MemoryOperands : Memory.wf start.mem = true ∧ 4 ≤ 4 ∧ 3 < 4 := by decide
theorem witness_InstructionCache_write : start.sr.s = true ∧ ((dr 0 0xF start).rn 0).getLsbD 3 = true ∧
    ((dr 0 0xF start).rn 0).getLsbD 2 = true ∧ (start.rn 0).getLsbD 3 = false ∧ (start.rn 0).getLsbD 2 = false := by decide
/-- The cache enabled, with entry 1 valid for the long word at 4 of supervisor program space. -/
def cached : State :=
  { start with cacrE := true, cache := start.cache.set 1 { tag := 0, fc2 := true, valid := true, data := 0x4E714E75 } }
theorem witness_InstructionCache_hit : cached.pipe = .empty ∧ cached.holding.valid = false ∧
    (4 : Long).getLsbD 0 = false ∧ cacheHit cached (progFc cached) 4 = some 0x4E714E75 := by decide +kernel
/-- The holding register with the long word at 4 of supervisor program space. -/
def held : State := { start with holding := { valid := true, addr := 4, fc2 := true, data := 0x4E714E75 } }
theorem witness_InstructionCache_holding : held.pipe = .empty ∧ (6 : Long).getLsbD 0 = false ∧ held.holding.valid = true ∧
    held.holding.addr = longBase 6 ∧ held.holding.fc2 = held.sr.s := by decide
theorem witness_InstructionCache_miss : Alone cached ∧ cached.pipe = .empty ∧ cached.holding.valid = false ∧
    (0x104 : Long).getLsbD 0 = false ∧ cacheHit cached (progFc cached) 0x104 = none ∧ cacheEnabled cached = true ∧
    cached.cacrF = false ∧ ¬ TransferErrs cached.platform (progFc cached) true (longBase 0x104) 4 :=
  ⟨⟨rfl, rfl, rfl, rfl⟩, rfl, rfl, by decide, by decide +kernel, rfl, rfl, by
    rintro ⟨b, -, h⟩
    simp [cycleErrs, inRegions, cached, start, State.reset, Platform.default] at h⟩
theorem witness_InstructionCache_error : let s := errs 0x40 0x104 0x107 cached
    Alone s ∧ cacheHit s (progFc s) 0x104 = none ∧ TransferErrs s.platform (progFc s) true (longBase 0x104) 4 :=
  ⟨⟨rfl, rfl, rfl, rfl⟩, by decide +kernel, 0x104, by decide, by decide⟩
/-- An illegal instruction exception. -/
def entry : Entry := { vector := 4, body := .four, pc := 0x1000, level := none }
theorem witness_EntryFrame : Quiet start ∧ Memory.wf start.mem = true ∧ entry.level = none ∧
    (load (fieldsPut start 5 0x7FF8 (frameHead start.sr entry.pc 0 entry.vector)) 5
      (start.vbr + (entry.vector.setWidth 32 <<< 2)) 4).getLsbD 0 = false := ⟨quiet_start, rfl, rfl, by decide +kernel⟩
theorem witness_EntryFrame_mid : let b := FrameBody.mid 0xFFE 1 2 3
    (load (fieldsPut start 5 0x7FEC (frameHead start.sr 0x1000 b.format 4 ++ b.fields)) 5 16 4).getLsbD 0 = false := by
  decide +kernel
theorem witness_EntryFrame_six : let b := FrameBody.six 0xFFE
    (load (fieldsPut start 5 0x7FF4 (frameHead start.sr 0x1000 b.format 4 ++ b.fields)) 5 16 4).getLsbD 0 = false := by
  decide +kernel
/-- A pending interrupt of level 3. -/
def pending (s : State) : State := { s with irq := { s.irq with pending := true, level := 3 } }
theorem witness_Interrupts_interrupt : let s := pending start
    Quiet s ∧ Memory.wf s.mem = true ∧ s.sr.m = false ∧
      (load (fieldsPut s 5 0x7FF8 (frameHead s.sr s.pc 0 27)) 5
        (s.vbr + ((iackVector s.platform 3).setWidth 32 <<< 2)) 4).getLsbD 0 = false :=
  ⟨⟨⟨rfl, rfl, rfl, rfl⟩, fun _ _ _ => rfl⟩, rfl, rfl, by decide +kernel⟩
theorem witness_Interrupts_master : let s := pending (msp 0x9000 (sr 0x3000 start))
    Quiet s ∧ Memory.wf s.mem = true ∧ s.sr.m = true ∧
      (load (fieldsPut (fieldsPut s 5 0x8FF8 (frameHead s.sr s.pc 0 27)) 5 0x7FF8 (frameHead s.sr s.pc 1 27)) 5
        (s.vbr + ((iackVector s.platform 3).setWidth 32 <<< 2)) 4).getLsbD 0 = false ∧
      ∀ i < 8, ∀ j < 8, memKey s.platform 5 (s.regs.msp - 8 + BitVec.ofNat 32 i) ≠
        memKey s.platform 5 (s.regs.isp - 8 + BitVec.ofNat 32 j) :=
  ⟨⟨⟨rfl, rfl, rfl, rfl⟩, fun _ _ _ => rfl⟩, rfl, rfl, by decide +kernel, by decide +kernel⟩
theorem witness_Interrupts_sample : (0 : BitVec 3).toNat < (7 : BitVec 3).toNat ∧ start.irq.prev ≠ 7 := by decide
/-- User state with (A0) in a region of user data space that answers reads with bus error; the given vector 2. -/
def failing (vector : Long) : State :=
  put 4 8 vector { ar 0 0x2000 (sr 0 start) with
    platform := { start.platform with faults := [{ spaces := 2, first := 0x2000, last := 0x2003, onRead := true, onWrite := false }] } }
theorem witness_BusErrorFrame (v : Long) : Alone (failing v) ∧ (failing v).sr.s = false ∧ (failing v).rmc = false ∧
    (∀ (read : Bool) (ext : Nat), cycleErrs (failing v).platform 5 read ext = false) ∧
    (∀ ext : Nat, cycleErrs (failing v).platform 6 true ext = false) ∧
    cycleErrs (failing v).platform 1 true (extAddr (failing v).platform.variant ((failing v).a 0)) = true :=
  ⟨⟨rfl, rfl, rfl, rfl⟩, rfl, rfl, fun _ _ => rfl, fun _ => rfl, rfl⟩
theorem witness_BusErrorFrame_vectors : Memory.wf (failing 0x01010102).mem = true ∧ Memory.wf (failing 0x01010101).mem = true ∧
    (∃ t, exec (.tst .l (.ind 0)) (failing 0x01010102) = .next t ∧ (load t 5 (0 + 8) 4).getLsbD 0 = false) ∧
    ∃ t, exec (.tst .l (.ind 0)) (failing 0x01010101) = .next t ∧ (load t 5 (0 + 8) 4).getLsbD 0 = true :=
  ⟨by decide +kernel, by decide +kernel, ⟨_, rfl, by decide +kernel⟩, ⟨_, rfl, by decide +kernel⟩⟩
theorem witness_OddTargetFaults : let s := put 4 12 0x01010102 (put 4 16 0x3001 start)
    Quiet s ∧ Memory.wf s.mem = true ∧ entry.level = none ∧ (0x3001 : Long).getLsbD 0 = true ∧
    (load (jumpFault s 0x3001) 5 (s.vbr + 12) 4).getLsbD 0 = false ∧
    (∃ t, exec (.jmp (.absL 0x3001)) s = .next t ∧ (load t 5 (s.vbr + 12) 4).getLsbD 0 = false) ∧
    (load (fieldsPut s 5 0x7FF8 (frameHead s.sr entry.pc 0 4)) 5 (s.vbr + (entry.vector.setWidth 32 <<< 2)) 4).getLsbD 0 = true ∧
    (load (takeEntry s entry) 5 (s.vbr + 12) 4).getLsbD 0 = false :=
  ⟨⟨⟨rfl, rfl, rfl, rfl⟩, fun _ _ _ => rfl⟩, by decide +kernel, rfl, rfl, by decide +kernel, ⟨_, rfl, by decide +kernel⟩,
    by decide +kernel, by decide +kernel⟩
/-- A bus fault frame of format $A. -/
def shortFrame : FaultFrame :=
  { address := false, long := false, pc := 0, ssw := 0, faultAddr := 0, dataOut := 0, stageB := 0, kind := .stream }
theorem witness_DoubleFaultHalts_stacking : ∃ pre post n v, faultFields start shortFrame = pre ++ (n, v) :: post ∧
    pre.length = 10 ∧ TransferErrs (errs 0x20 0x7FFC 0x7FFC start).platform 5 false
      (activeSp start.regs { start.sr with s := true } - BitVec.ofNat 32 (fieldsSize (faultFields start shortFrame)) +
        BitVec.ofNat 32 (fieldsSize pre)) n :=
  ⟨(faultFields start shortFrame).take 10, [], 4, start.serial, rfl, rfl, 0x7FFC, by decide +kernel, by decide +kernel⟩
theorem witness_DoubleFaultHalts_vector :
    let failing := fun (a : Nat) => [{ spaces := 0x40, first := a, last := a, onRead := true, onWrite := false : FaultRegion }]
    let resetting := fun (a : Nat) => { start.platform with onReset := { faults := failing a, silent := [], iack := [], access := [] } }
    TransferErrs (errs 0x20 8 8 start).platform 5 true (vectorAddr start shortFrame.vector) 4 ∧
    TransferErrs (resetPlatform (resetting 0)) 6 true 0 4 ∧ TransferErrs (resetPlatform (resetting 4)) 6 true 4 4 :=
  ⟨⟨8, by decide, by decide⟩, ⟨0, by decide, by decide⟩, ⟨4, by decide, by decide⟩⟩
theorem witness_DoubleFaultHalts_handler : let s := errs 0x40 0x5554 0x5557 (put 4 8 0x01015554 start)
    (∃ t u, pushFields (suspend s shortFrame) (faultFields s shortFrame) = .ok t ∧
      busRead t 5 (vectorAddr s shortFrame.vector) 4 = .ok (0x01015554, u)) ∧ cacheEnabled s = false ∧
    TransferErrs (errs 0x40 0x01015554 0x01015557 s).platform 6 true (longBase 0x01015554) 4 :=
  ⟨⟨_, _, rfl, rfl⟩, rfl, 0x01015554, by decide, by decide⟩
/-- A user instruction at its start, whose operand at (A0) answers reads and writes with bus error. -/
def interrupted (i : Instr) : State :=
  let s := { errs 0x02 0x2000 0x2003 (failing 0x01010102) with current := i }
  { s with start := snapshot s }
theorem witness_BusFaultReturn (i : Instr) : Alone (interrupted i) ∧ (interrupted i).sr.s = false ∧
    (interrupted i).rmc = false ∧ Begun (interrupted i) i ∧
    (∀ (read : Bool) (ext : Nat), cycleErrs (interrupted i).platform 5 read ext = false) ∧
    ∀ read : Bool, cycleErrs (interrupted i).platform 1 read
      (extAddr (interrupted i).platform.variant ((interrupted i).a 0)) = true :=
  ⟨⟨rfl, rfl, rfl, rfl⟩, rfl, rfl, ⟨rfl, by simp only [interrupted, snapshot], rfl⟩, fun _ _ => rfl, fun r => by cases r <;> rfl⟩
theorem witness_BusFaultReturn_tst : Memory.wf (interrupted (.tst .b (.ind 0))).mem = true ∧
    ∃ t, exec (.tst .b (.ind 0)) (interrupted (.tst .b (.ind 0))) = .next t ∧ t.run = .normal :=
  ⟨by decide +kernel, _, rfl, rfl⟩
theorem witness_BusFaultReturn_move : Memory.wf (interrupted (.moveL (.dn 7) (.ind 0))).mem = true ∧
    ∃ t, exec (.moveL (.dn 7) (.ind 0)) (interrupted (.moveL (.dn 7) (.ind 0))) = .next t ∧ t.run = .normal :=
  ⟨by decide +kernel, _, rfl, rfl⟩
theorem witness_TrapReturn : Quiet start ∧ Memory.wf start.mem = true ∧ (pcAfter start 1).getLsbD 0 = false ∧
    (∃ t, exec (.trap 15) start = .next t) ∧
    (load (fieldsPut start 5 0x7FF8 (frameHead start.sr (pcAfter start 1) 0 47)) 5
      (start.vbr + ((32#8 + (15#4).setWidth 8).setWidth 32 <<< 2)) 4).getLsbD 0 = false :=
  ⟨quiet_start, rfl, rfl, ⟨_, rfl⟩, by decide +kernel⟩
theorem witness_AddSubFlags : Size.fits .b 0xFF = true ∧ Size.fits .w 0xFFFF = true ∧ Size.fits .l 0xFFFFFFFF = true := by
  decide
theorem witness_ShiftsAndRotates_shifts : Size.fits .b 0x80 = true ∧ Size.fits .w 0x8000 = true ∧ Size.fits .l 0x80000000 = true := by decide
theorem witness_ShiftsAndRotates_rings : Size.fits .b 0x80 = true ∧ 8 ≤ Size.bits .b ∧ 7 < Size.bits .b := by decide
theorem witness_RegisterChecks_bounds : Size.fits .b 0x80 = true ∧ Size.fits .b 0x7F = true ∧ (0x7F : Long).toNat ≤ (0x80 : Long).toNat ∧
    (sext .b 0x80).toInt ≤ (sext .b 0x7F).toInt := by decide
theorem witness_DecimalArithmetic : (0x99 : Long).toNat < 256 ∧ (0x9A : Long).toNat < 256 ∧
    ((0x99 : Long).toNat / 16 < 10 ∧ (0x99 : Long).toNat % 16 < 10) ∧
    ¬ ((0x9A : Long).toNat / 16 < 10 ∧ (0x9A : Long).toNat % 16 < 10) := by decide
theorem witness_BitFieldContents : Memory.wf start.mem = true ∧ 1 ≤ 1 ∧ 32 ≤ 32 ∧
    (∀ n, Ea.ind 0 ≠ .dn n) ∧ eaLoc start .l 1 (.ind 0) = .mem false 0 ∧ (0xFFFFFFFF : Long).toNat < 2 ^ 32 ∧
    (1 : Long).toNat < 2 ^ 1 := by decide
theorem witness_AddressingModes : Quiet start := quiet_start
theorem witness_AluForms : Quiet start := quiet_start
theorem witness_ImmediateToEa : Quiet start ∧ (∀ a, Ea.dn 0 ≠ .an a) ∧ Ea.an 7 = .an 7 := ⟨quiet_start, by decide, rfl⟩
theorem witness_UnaryOnEa : Quiet start := quiet_start
theorem witness_Compares : Quiet start := quiet_start
theorem witness_ToAddressRegister : Quiet start := quiet_start
theorem witness_Moves : Quiet start := quiet_start
theorem witness_MoveMultiple_stores : Quiet start ∧ Memory.wf start.mem = true ∧ (∀ r, Ea.ind 0 ≠ .preDec r) ∧
    (0x8000 : Word).getLsbD (15 - 0) = true ∧ (0x8000 : Word).getLsbD 15 = true ∧ 15 < 16 :=
  ⟨quiet_start, rfl, by decide, by decide, by decide, by decide⟩
theorem witness_MoveMultiple_loads : Quiet start ∧ (Ea.postInc 7).wf .controlOrPost .l = true ∧
    (Ea.ind 7).wf .controlOrPost .l = true ∧ (¬ ∃ r : Reg, Ea.postInc 7 = .postInc r ∧ 0 = 8 + r.toNat) ∧
    (0x8001 : Word).getLsbD 0 = true ∧ (0x8001 : Word).getLsbD 1 = false :=
  ⟨quiet_start, by decide, by decide, by decide, by decide, by decide⟩
theorem witness_MovepBytes : Quiet start ∧ Memory.wf start.mem = true := ⟨quiet_start, rfl⟩
theorem witness_StackFrames : Quiet start := quiet_start
theorem witness_Multiply : Quiet start := quiet_start
theorem witness_Divide : let s := dr 1 2 start
    Quiet s ∧ (Ea.dn 1).wf .data .w = true ∧ eaVal s .w 0 (.dn 1) ≠ 0 ∧ eaVal s .l 1 (.dn 1) ≠ 0 :=
  ⟨⟨⟨rfl, rfl, rfl, rfl⟩, fun _ _ _ => rfl⟩, by decide, by decide, by decide⟩
theorem witness_Divide_zero : Quiet start ∧ eaVal start .w 0 (.dn 1) = 0 ∧ eaVal start .l 1 (.dn 1) = 0 :=
  ⟨quiet_start, by decide, by decide⟩
theorem witness_ShiftForms : Quiet start := quiet_start
theorem witness_BitInstructions : Quiet start ∧ ∀ d, Ea.ind 0 ≠ .dn d := ⟨quiet_start, by decide⟩
theorem witness_BitFieldInstructions : Quiet start := quiet_start
theorem witness_PairInstructions : Quiet start := quiet_start
theorem witness_ControlFlow : Quiet start ∧ Machine.cond 1 start.ccr = false ∧ Machine.cond 0 start.ccr = true ∧
    (start.d 0).setWidth 16 - 1 = 0xFFFF#16 ∧ ((dr 0 5 start).d 0).setWidth 16 - 1 ≠ 0xFFFF#16 ∧
    (start.pc + 2 + (4 : Byte).signExtend 32).getLsbD 0 = false ∧ (start.pc + 2 + (5 : Byte).signExtend 32).getLsbD 0 = true :=
  ⟨quiet_start, by decide, by decide, by decide, by decide, by decide, by decide⟩
theorem witness_ReturnFromException : Quiet start ∧ start.sr.s = true ∧ (load start 5 (start.sp + 2) 4).getLsbD 0 = false ∧
    (load (put 1 0x8005 1 start) 5 (start.sp + 2) 4).getLsbD 0 = true ∧
    (load start 5 (start.sp + 6) 2).extractLsb' 12 4 = 0#4 ∧
    (load (put 2 0x8006 0x2024 start) 5 (start.sp + 6) 2).extractLsb' 12 4 = 2#4 :=
  ⟨quiet_start, by decide, by decide, by decide +kernel, by decide, by decide +kernel⟩
theorem witness_ReturnFromException_throwaway : let s := put 2 0x8006 0x1000 start
    Quiet s ∧ (load s 5 (s.sp + 6) 2).extractLsb' 12 4 = 1#4 ∧ (load s 5 (s.sp + 10) 4).getLsbD 0 = false ∧
    (load s 5 (s.sp + 14) 2).extractLsb' 12 4 = 0#4 ∧
    (load (put 2 0x8006 0xF000 start) 5 (s.sp + 6) 2).extractLsb' 12 4 = 15#4 :=
  ⟨⟨⟨rfl, rfl, rfl, rfl⟩, fun _ _ _ => rfl⟩, by decide +kernel, by decide +kernel, by decide +kernel, by decide +kernel⟩
theorem witness_ReturnFromException_mid : let s := cp [0x0802] (put 2 0x800E 0xF200 (put 2 0x8006 0x9000 start))
    Quiet s ∧ Wide s ∧ (load s 5 (s.sp + 6) 2).extractLsb' 12 4 = 9#4 ∧
    cpKind ((load s 5 (s.sp + 14) 2).setWidth 16) = .gen ∧
    (∃ cs, converse (cpId ((load s 5 (s.sp + 14) 2).setWidth 16)) [.read 0x0802] s.platform.coprocessors = some cs) ∧
    Releases s true 0x0802 false :=
  ⟨⟨⟨rfl, rfl, rfl, rfl⟩, fun _ _ _ => rfl⟩, fun _ => rfl, by decide +kernel, by decide +kernel, ⟨[coprocessor []], by decide +kernel⟩,
    ⟨by decide, rfl, rfl, rfl, fun _ => .inl rfl⟩⟩
theorem witness_ReturnFromException_fetch : let s := { put 2 0x8006 0xA000 start with suspended := [suspended] }
    Quiet s ∧ (load s 5 (s.sp + 6) 2).extractLsb' 12 4 = 10#4 ∧ suspended.kind = .fetch [] ∧
    s.suspended.find? (fun q => q.key == load s 5 (s.sp + 0x1C) 4 && q.long == false) = some suspended :=
  ⟨⟨⟨rfl, rfl, rfl, rfl⟩, fun _ _ _ => rfl⟩, by decide +kernel, rfl, by decide +kernel⟩
theorem witness_StatusRegister : start.sr.s = true := by decide
theorem witness_SupervisorMoves : Quiet start ∧ start.sr.s = true := ⟨quiet_start, rfl⟩
theorem witness_ControlRegisters : start.sr.s = true ∧
    (0x805 : BitVec 12) ∉ [0x000#12, 0x001#12, 0x002#12, 0x800#12, 0x801#12, 0x802#12, 0x803#12, 0x804#12] := by decide
theorem witness_AlternateSpaces : Quiet start ∧ start.sr.s = true ∧ (Ea.postInc 7).wf .memAlt .b = true ∧ start.dfc ≠ 7 ∧
    start.sfc ≠ 7 ∧ (¬ ∃ n, (0 : Rn) = anNum n ∧ (Ea.postInc 7 = .postInc n ∨ Ea.postInc 7 = .preDec n)) ∧
    ∃ n, (15 : Rn) = anNum n ∧ (Ea.postInc 7 = .postInc n ∨ Ea.postInc 7 = .preDec n) :=
  ⟨quiet_start, rfl, by decide, by decide, by decide, by decide, ⟨7, by decide, .inl rfl⟩⟩
/-- External hardware answers breakpoint 3 with NOP. -/
def answering : State := { start with platform := { start.platform with breakpoints := [(3, 0x4E71)] } }
theorem witness_TrapInstructions : hasCoprocessor start.platform 0 = false ∧ Quiet answering ∧
    bkptAnswer answering.platform 3 = some 0x4E71 ∧ bkptAnswer answering.platform 4 = none ∧
    ∀ r ∈ answering.platform.cpuSpace, ¬ (r.1 ≤ 4 * 4 ∧ 4 * 4 ≤ r.2) :=
  ⟨rfl, ⟨⟨rfl, rfl, rfl, rfl⟩, fun _ _ _ => rfl⟩, rfl, rfl, by decide⟩
theorem witness_RegisterChecks_chk : Quiet start ∧
    (0 ≤ (sext .w (start.d 0)).toInt ∧ (sext .w (start.d 0)).toInt ≤ (sext .w (eaVal start .w 0 (.dn 1))).toInt) ∧
    ¬ 0 ≤ (sext .l ((dr 0 0xFFFFFFFF start).d 0)).toInt := ⟨quiet_start, by decide, by decide⟩
theorem witness_RegisterChecks_chk2 : Quiet start ∧ (Ea.ind 0).wf .control .w = true ∧ outOfBounds .w 0 0 0 = false ∧
    outOfBounds .w 1 0 0 = true := ⟨quiet_start, by decide, by decide, by decide⟩
theorem witness_LockedInstructions : Quiet start := quiet_start
/-- A module descriptor of this first long word at $5000, whose entry word is at $01016002, and access-level hardware that
grants every change. -/
def described (w0 : Long) : State :=
  put 4 0x5004 0x01016002 (put 4 0x5000 w0 (ar 0 0x5000 { start with
    platform := { start.platform with access := [⟨false, none, .granted true⟩, ⟨true, none, .granted false⟩] } }))
theorem witness_Modules_callm : Quiet (described 0) ∧ (Ea.ind 0).wf .control .l = true ∧
    (let w0 := load (described 0) (dataFc (described 0)) 0x5000 4
     w0.extractLsb' 29 3 = 0#3 ∧ w0.extractLsb' 24 5 = 0#5) ∧
    (load (described 0x20000000) 5 0x5000 4).extractLsb' 29 3 = 1#3 :=
  ⟨⟨⟨rfl, rfl, rfl, rfl⟩, fun _ _ _ => rfl⟩, by decide, by decide +kernel, by decide +kernel⟩
theorem witness_Modules_rtm : (let w := load start (dataFc start) start.sp 2
    w.extractLsb' 13 3 = 0#3 ∧ w.extractLsb' 8 5 = 0#5 ∧ (load start (dataFc start) (start.sp + 12) 4).getLsbD 0 = false) ∧
    (load (put 2 0x8000 0x0200 start) 5 start.sp 2).extractLsb' 8 5 = 2#5 := ⟨by decide, by decide +kernel⟩
theorem witness_Modules_reserved :
    start.sr.s = true ∧ (load (put 2 0x8006 0xC001 start) 5 (start.sp + 6) 2).extractLsb' 14 2 = 3#2 :=
  ⟨rfl, by decide +kernel⟩
theorem witness_ModuleAccess : let s := described 0x01030000
    Quiet s ∧ (Ea.ind 0).wf .control .l = true ∧ (load s 5 0x5000 4).extractLsb' 24 5 = 1#5 ∧
    accessAnswer s.platform false 3 = .granted true ∧ accessAnswer s.platform true 0 = .granted false ∧
    (load (put 2 0x8000 0x0100 s) 5 s.sp 2).extractLsb' 8 5 = 1#5 :=
  ⟨⟨⟨rfl, rfl, rfl, rfl⟩, fun _ _ _ => rfl⟩, by decide, by decide +kernel, rfl, rfl, by decide +kernel⟩
theorem witness_ModuleAccess_refused : let p := { start.platform with access := [⟨false, none, .denied⟩] }
    accessAnswer p false 3 = .denied ∧ accessAnswer p true 0 = .busError ∧
    ∀ r ∈ p.cpuSpace, ¬ (r.1 ≤ 0x10044 ∧ 0x10044 ≤ r.2) := ⟨rfl, rfl, by decide⟩
theorem witness_AbsentCoprocessor : Quiet start ∧ hasCoprocessor start.platform 1 = false ∧ start.sr.s = true ∧
    (Ea.postInc 7).wf .controlOrPost .l = true := ⟨quiet_start, rfl, rfl, by decide⟩
theorem witness_CoprocessorRelease_general : let s := cp [0x0802] start
    Quiet s ∧ Wide s ∧ (∃ cs, Answers s 1 0x0A 0x4000 0x0802 cs) ∧ Releases s true 0x0802 false :=
  ⟨⟨⟨rfl, rfl, rfl, rfl⟩, fun _ _ _ => rfl⟩, fun _ => rfl, ⟨_, rfl⟩, ⟨by decide, rfl, rfl, rfl, fun _ => .inl rfl⟩⟩
theorem witness_CoprocessorRelease_false : let s := cp [0x0800] start
    (∃ cs, Answers s 1 0x0E 1 0x0800 cs) ∧ Releases s false 0x0800 false ∧ getEa .dataAlt .b 2 1 [] = .ok (.ind 1, []) :=
  ⟨⟨_, rfl⟩, ⟨by decide, rfl, rfl, rfl, by decide⟩, rfl⟩
theorem witness_CoprocessorRelease_true : let s := cp [0x0801] start
    (∃ cs, Answers s 1 0x0E ((opword (.cpBccW 1 1)).setWidth 32) 0x0801 cs) ∧ Releases s false 0x0801 true ∧
    (∃ cs u, fetchWord (answered s cs 2) (s.pc + 2) = .ok (0, u)) ∧ (s.pc + 2 + (0 : Word).signExtend 32).getLsbD 0 = false ∧
    (s.pc + 2 + (1 : Word).signExtend 32).getLsbD 0 = true :=
  ⟨⟨_, rfl⟩, ⟨by decide, rfl, rfl, rfl, by decide⟩, ⟨[], _, rfl⟩, by decide, by decide⟩
theorem witness_CoprocessorContext_save : let s := cp [0] start
    Quiet s ∧ Wide s ∧ s.sr.s = true ∧ (Ea.preDec 1).wf .controlAltOrPre .l = true ∧
    (∃ cs, converse 1 [.read 0] s.platform.coprocessors = some cs) ∧ formatCode 0 = 0 :=
  ⟨⟨⟨rfl, rfl, rfl, rfl⟩, fun _ _ _ => rfl⟩, fun _ => rfl, rfl, by decide, ⟨_, rfl⟩, rfl⟩
theorem witness_CoprocessorContext_restore : let s := cp [0] start
    (Ea.postInc 1).wf .controlOrPost .l = true ∧ formatCode (load s (spaceFc s false) (s.a 1) 2) = 0 ∧
    ∃ cs, converse 1 [.write 6 2 (load s (spaceFc s false) (s.a 1) 2), .read 0] s.platform.coprocessors = some cs :=
  ⟨by decide, by decide, ⟨_, rfl⟩⟩
/-- The data of the reads among accesses. -/
def reads : List CirEvent → List Long
  | [] => []
  | .write _ _ _ :: es => reads es
  | .read v :: es => v :: reads es
/-- For any accesses there is a coprocessor that takes part in them. -/
theorem witness_dialogue (es : List CirEvent) (log : List CirWrite) :
    ∃ cs, converse 1 es [{ coprocessor (reads es) with log := log }] = some cs := by
  induction es generalizing log with
  | nil => exact ⟨_, rfl⟩
  | cons e es ih =>
    cases e with
    | write o n d => exact ih (log ++ [⟨o, n, d⟩])
    | read v => simpa [converse, popAnswer, reads, coprocessor] using ih log
theorem witness_CoprocessorServices : Quiet start ∧ Wide start ∧ start.trace.pending = false ∧ start.trace.flow = false ∧
    (∃ c, readCtl start ((0x800 : Word).setWidth 12) = some c) ∧
    (∃ t, writeCtl start ((0x801 : Word).setWidth 12) 5 = some t) ∧ (0x2000 : Long).getLsbD 0 = false ∧
    1 ≤ (3 : Byte).toNat ∧ (3 : Byte).toNat ≤ 4 ∧ { start with eaValid := true }.eaValid = true ∧
    ((4 : Byte).toNat = 1 ∨ (4 : Byte).toNat = 2 ∨ (4 : Byte).toNat = 4) ∧ (7 : BitVec 3).getLsbD 0 = true ∧
    ∃ x u, fetchWord start (start.pc + 4) = .ok (x, u) :=
  ⟨quiet_start, wide_start, rfl, rfl, ⟨_, rfl⟩, ⟨_, rfl⟩, by decide, by decide, by decide, rfl, by decide, by decide,
    ⟨_, _, rfl⟩⟩
theorem witness_CoprocessorExceptions : Quiet start ∧ Wide start ∧ Quiet (sr 0 start) ∧ Wide (sr 0 start) ∧
    (sr 0 start).sr.s = false ∧ start.sr.s = true ∧ start.platform.inputs = [] ∧
    (sampleIpl (pending start)).irq.pending = true ∧ (pending start).platform.inputs = [] :=
  ⟨quiet_start, wide_start, ⟨⟨rfl, rfl, rfl, rfl⟩, fun _ _ _ => rfl⟩, fun _ => rfl, rfl, rfl, rfl, rfl, rfl⟩
theorem witness_FrameRegisterForms : Quiet start ∧ (∃ t, exec (.add .b false 0 (.postInc 1)) start = .next t) ∧
    steppedReg (.postInc 1) = some 1 ∧ steppedReg (.postInc 1) ≠ some 2 := ⟨quiet_start, ⟨_, rfl⟩, rfl, by decide⟩
theorem witness_FrameOperandForms : Quiet start ∧ Memory.wf start.mem = true ∧ (Ea.preDec 1).wf .dataAlt .l = true ∧
    (∃ t, exec (.addi .l 1 (.preDec 1)) start = .next t) ∧ eaLoc start .l 2 (.preDec 1) = .mem false 0xFFFFFFFC ∧
    (Ea.dn 1).wf .dataAlt .l = true ∧ ∃ t, exec (.addi .l 1 (.dn 1)) start = .next t :=
  ⟨quiet_start, rfl, by decide, ⟨_, rfl⟩, by decide, by decide, ⟨_, rfl⟩⟩

end Sys2Proof.Tests
end

section
/-! PROOFS. The state's registers (10_state.md): the status register as a word, the control registers, the reset state. -/

namespace Sys2Proof.Proofs

open Sys2Proof.Machine Sys2Proof.Laws

/-! ## The status register as a word (R30) -/

/-- The low part of two bit strings put together. -/
theorem extractLsb'_append_low {n m : Nat} (x : BitVec n) (y : BitVec m) : (x ++ y).extractLsb' 0 m = y := by
  ext i hi
  simp [BitVec.getLsbD_append, hi]

/-- The condition code byte holds every flag. -/
theorem ccr_ofByte_toByte (f : Ccr) : Ccr.ofByte f.toByte = f := by
  simp only [Ccr.ofByte, Ccr.toByte, BitVec.getLsbD_append]
  simp

/-- The word holds every implemented bit. -/
theorem sr_ofWord_toWord (sr : Sr) : Sr.ofWord sr.toWord = sr := by
  have hmask : sr.toWord.extractLsb' 8 3 = sr.mask := by
    ext i hi
    have : 8 + i < 16 := by omega
    simp only [Sr.toWord, BitVec.getLsbD_append, BitVec.getElem_extractLsb']
    simp [hi]
  have hccr : sr.toWord.extractLsb' 0 8 = sr.ccr.toByte := extractLsb'_append_low _ _
  simp only [Sr.ofWord, hmask, hccr, ccr_ofByte_toByte]
  simp only [Sr.toWord, BitVec.getLsbD_append]
  simp

/-- Of a word written to SR the unimplemented bits 11, 7, 6 and 5 are lost (D4). -/
theorem sr_toWord_ofWord (w : Word) : (Sr.ofWord w).toWord = w &&& 0xF71F#16 := by
  refine BitVec.eq_of_getLsbD_eq fun i hi => ?_
  simp only [Sr.toWord, Sr.ofWord, Ccr.toByte, Ccr.ofByte, BitVec.getLsbD_append]
  interval_cases i <;> simp

/-! ## Privilege (R390) -/

/-- A privileged instruction goes on at supervisor level. -/
theorem requireSupervisor_super {s : State} (h : s.sr.s = true) (k : State → Res) : requireSupervisor s k = k s := by
  simp only [requireSupervisor, h, if_true]

/-- A privileged instruction is a privilege violation at user level. -/
theorem requireSupervisor_user {s : State} (h : s.sr.s = false) (k : State → Res) :
    requireSupervisor s k = privilegeViolation s := by
  simp only [requireSupervisor, h, Bool.false_eq_true, if_false]

/-! ## ANDI, EORI, ORI to CCR and SR (R390-R393, R396-R398) -/

/-- The immediate byte of a CCR instruction is the low half of its word. -/
theorem field_low_byte (high b : Byte) : field (high ++ b) 0 8 = b := extractLsb'_append_low high b

/-- ANDI to CCR in words. -/
theorem decode_andiCcr (high b : Byte) : decode [0x023C#16, high ++ b] = .instr (.andiCcr b) [] :=
  congrArg (fun x => DecodeResult.instr (.andiCcr x) []) (field_low_byte high b)

/-- EORI to CCR in words. -/
theorem decode_eoriCcr (high b : Byte) : decode [0x0A3C#16, high ++ b] = .instr (.eoriCcr b) [] :=
  congrArg (fun x => DecodeResult.instr (.eoriCcr x) []) (field_low_byte high b)

/-- ORI to CCR in words. -/
theorem decode_oriCcr (high b : Byte) : decode [0x003C#16, high ++ b] = .instr (.oriCcr b) [] :=
  congrArg (fun x => DecodeResult.instr (.oriCcr x) []) (field_low_byte high b)

/-- An SR instruction with an immediate, for a supervisor program: SR written, pipe discarded, a change of flow. -/
theorem srImm_super {s : State} (h : s.sr.s = true) (f : Word → Word) :
    srImm s f = .next (advance 2 (markFlow (flush { s with sr := .ofWord (f s.sr.toWord) }))) :=
  requireSupervisor_super h _

/-- Settles O45: the CCR forms by definition, the SR forms by `srImm_super`, the words bit by bit. -/
theorem statusRegister : Obligations.StatusRegister := by
  unfold Obligations.StatusRegister
  refine ⟨fun s b high w => ⟨decode_andiCcr high b, decode_eoriCcr high b, decode_oriCcr high b, exec_andiCcr s b,
    exec_eoriCcr s b, exec_oriCcr s b, fun h => ⟨?_, ?_, ?_⟩⟩, sr_ofWord_toWord, sr_toWord_ofWord⟩
  · exact (exec_andiSr s w).trans (srImm_super h fun x => x &&& w)
  · exact (exec_eoriSr s w).trans (srImm_super h fun x => x ^^^ w)
  · exact (exec_oriSr s w).trans (srImm_super h fun x => x ||| w)

/-! ## MOVEC (R414) -/

/-- MOVEC from a control register that the code names. -/
theorem execMovec_read {s : State} (h : s.sr.s = true) {rn : Rn} {code : BitVec 12} {v : Long}
    (hv : readCtl s code = some v) : exec (.movec false rn code) s = .next (advance 2 (s.setRn rn v)) := by
  simp only [exec_movec, execMovec, requireSupervisor_super h, Bool.false_eq_true, if_false, hv, Option.map_some]

/-- MOVEC to a control register that the code names. -/
theorem execMovec_write {s t : State} (h : s.sr.s = true) {rn : Rn} {code : BitVec 12}
    (ht : writeCtl s code (s.rn rn) = some t) : exec (.movec true rn code) s = .next (advance 2 t) := by
  simp only [exec_movec, execMovec, requireSupervisor_super h, if_true, ht]

/-- The codes of the eight control registers. -/
def controlCodes : List (BitVec 12) :=
  [0x000#12, 0x001#12, 0x002#12, 0x800#12, 0x801#12, 0x802#12, 0x803#12, 0x804#12]

/-- A code that names no control register is none of the eight numbers. -/
theorem toNat_notMem_controlCodes {code : BitVec 12} (h : code ∉ controlCodes) :
    code.toNat ∉ [0x000, 0x001, 0x002, 0x800, 0x801, 0x802, 0x803, 0x804] := fun hm =>
  h ((List.mem_map_of_injective (f := BitVec.toNat) (l := controlCodes) fun _ _ => BitVec.eq_of_toNat_eq).1 hm)

/-- Another code names no control register to read. -/
theorem readCtl_none {code : BitVec 12} (h : code ∉ controlCodes) (s : State) : readCtl s code = none := by
  have hn := toNat_notMem_controlCodes h
  unfold readCtl
  split
  case h_9 => rfl
  all_goals simp_all

/-- Another code names no control register to write. -/
theorem writeCtl_none {code : BitVec 12} (h : code ∉ controlCodes) (s : State) (v : Long) : writeCtl s code v = none := by
  have hn := toNat_notMem_controlCodes h
  unfold writeCtl
  split
  case h_9 => rfl
  all_goals simp_all

/-- MOVEC with another code is an illegal instruction. -/
theorem execMovec_illegal {s : State} (h : s.sr.s = true) {code : BitVec 12} (hc : code ∉ controlCodes) (b : Bool)
    (rn : Rn) : exec (.movec b rn code) s = .next (abandoned s 4#8) := by
  cases b
  case' false => rw [exec_movec, execMovec, requireSupervisor_super h, if_neg Bool.false_ne_true, readCtl_none hc]
  case' true => rw [exec_movec, execMovec, requireSupervisor_super h, if_pos rfl, writeCtl_none hc]
  all_goals rfl

/-- Settles O47: one code after the other. -/
theorem controlRegisters : Obligations.ControlRegisters := by
  unfold Obligations.ControlRegisters
  intro s rn code h
  exact ⟨execMovec_read h rfl, execMovec_read h rfl, execMovec_read h rfl, execMovec_read h rfl, execMovec_read h rfl,
    execMovec_read h rfl, execMovec_read h rfl, execMovec_read h rfl, execMovec_write h rfl, execMovec_write h rfl,
    execMovec_write h rfl, execMovec_write h rfl, execMovec_write h rfl, execMovec_write h rfl, execMovec_write h rfl,
    fun hc b => execMovec_illegal h hc b rn⟩

/-! ## The state after reset (R60, R701) -/

/-- Settles O9: memory is empty, nothing is pending, the cache holds 64 empty entries. -/
theorem resetState : Obligations.ResetState := by
  unfold Obligations.ResetState
  have hinv : Inv State.reset := ⟨rfl, fun h => absurd h Bool.false_ne_true⟩
  have hcache : ∀ k : Fin 64, (State.reset.cache.get k).valid = false := fun k => by
    simp [State.reset, Vector.get_eq_getElem, CacheEntry.empty]
  exact ⟨hinv, rfl, rfl, rfl, rfl, rfl, rfl, rfl, rfl, hcache, rfl, rfl, rfl⟩

end Sys2Proof.Proofs
end

section
/-! PROOFS. Frames: what bus cycles, fetches and exception processing can change, for every state, whether they complete
or stop. -/

namespace Sys2Proof.Proofs

open Sys2Proof.Machine Sys2Proof.Laws

variable {s t u : State}

/-! ## Operations that leave a state either way -/

/-- The state an operation leaves satisfies `P`, whether it completes or stops. -/
def Leaves {ε β : Type} (P : State → Prop) (ok : β → State) (err : ε → State) : Except ε β → Prop
  | .ok v => P (ok v)
  | .error e => P (err e)

theorem Leaves.mono {ε β : Type} {P Q : State → Prop} {ok : β → State} {err : ε → State} {r : Except ε β}
    (h : Leaves P ok err r) (hPQ : ∀ t, P t → Q t) : Leaves Q ok err r := by
  cases r <;> exact hPQ _ h

/-- An operation, then another one from the state it leaves. -/
theorem Leaves.bind {ε β γ : Type} {P : State → Prop} {ok : β → State} {ok' : γ → State} {err : ε → State}
    {r : Except ε β} {k : β → Except ε γ} (h : Leaves P ok err r) (hk : ∀ v, P (ok v) → Leaves P ok' err (k v)) :
    Leaves P ok' err (r >>= k) := by
  cases r with
  | ok v => exact hk v h
  | error e => exact h

/-- The state in which a bus cycle stopped. -/
def cycleStopState : CycleStop → State
  | .err t => t
  | .wait t => t

/-- The state in which a bus operation stopped. -/
def busStopState : BusStop → State
  | .fault _ _ t => t
  | .never t => t

/-! ## Bus cycles -/

/-- What bus cycles can change: memory, the platform, and the counter of free values. -/
def BusFrame (s t : State) : Prop := ∃ m p k, t = { s with mem := m, platform := p, freeIdx := k }

theorem BusFrame.refl (s : State) : BusFrame s s := ⟨_, _, _, rfl⟩

theorem BusFrame.trans (h : BusFrame s t) (h' : BusFrame t u) : BusFrame s u := by
  obtain ⟨_, _, _, rfl⟩ := h
  obtain ⟨m, p, k, rfl⟩ := h'
  exact ⟨m, p, k, rfl⟩

theorem busFrame_store (s : State) (fc : Fc) (n : Nat) (a v : Long) : BusFrame s (store s fc n a v) :=
  ⟨_, s.platform, s.freeIdx, store_eq fc n a v s⟩

theorem busFrame_otherMasters (s : State) : BusFrame s (otherMasters s) := by
  unfold otherMasters
  split
  · exact .refl s
  · split
    · exact .refl s
    · exact ⟨_, _, _, rfl⟩

theorem busFrame_awaitInputs (s : State) : BusFrame s (awaitInputs s).2 := by
  obtain ⟨m, p, h⟩ := awaitInputs_frame s
  exact ⟨m, p, s.freeIdx, h⟩

theorem cpuMemRead_frame (s : State) (a : Long) (k : Nat) :
    Leaves (BusFrame s) Prod.snd cycleStopState (cpuMemRead s a k) := by
  unfold cpuMemRead
  dsimp only
  split <;> exact .refl s

theorem cpuMemWrite_frame (s : State) (a : Long) (k : Nat) (v : Long) :
    Leaves (BusFrame s) id cycleStopState (cpuMemWrite s a k v) := by
  unfold cpuMemWrite
  dsimp only
  split
  · exact busFrame_store s 7#3 k a v
  · exact .refl s

/-- A read cycle in CPU space, unit by unit. -/
theorem cpuReadCycle_frame (s : State) (a : Long) (k : Nat) :
    Leaves (BusFrame s) Prod.snd cycleStopState (cpuReadCycle s a k) := by
  have htick : BusFrame s s.tick := ⟨_, _, _, rfl⟩
  have hcs (cs : List Coprocessor) : BusFrame s (s.setCoprocessors cs) := ⟨_, _, _, rfl⟩
  unfold cpuReadCycle
  split
  case h_1 =>
    dsimp only
    split
    · split
      · exact .refl s
      · exact cpuMemRead_frame s a k
    · exact cpuMemRead_frame s a k
  case h_2 =>
    split
    · exact htick
    · exact cpuMemRead_frame s a k
  case h_3 =>
    split
    · exact .refl s
    · exact .refl s
    · exact hcs _
    · exact hcs _
  case h_4 =>
    split
    · split
      · exact .refl s
      · exact htick
      · exact .refl s
    · exact cpuMemRead_frame s a k
  case h_5 => exact cpuMemRead_frame s a k

/-- A write cycle in CPU space, unit by unit. -/
theorem cpuWriteCycle_frame (s : State) (a : Long) (k : Nat) (v : Long) :
    Leaves (BusFrame s) id cycleStopState (cpuWriteCycle s a k v) := by
  have hcs (cs : List Coprocessor) : BusFrame s (s.setCoprocessors cs) := ⟨_, _, _, rfl⟩
  unfold cpuWriteCycle
  split
  case h_1 =>
    dsimp only
    split
    · exact .refl s
    · exact cpuMemWrite_frame s a k v
  case h_2 =>
    split
    · exact .refl s
    · exact .refl s
    · exact hcs _
    · exact hcs _
  case h_3 => exact cpuMemWrite_frame s a k v

theorem readCycle_frame (s : State) (fc : Fc) (a : Long) (k : Nat) :
    Leaves (BusFrame s) Prod.snd cycleStopState (readCycle s fc a k) := by
  unfold readCycle
  split
  · exact .refl s
  · split
    · exact .refl s
    · split
      · exact cpuReadCycle_frame s a k
      · exact .refl s

theorem writeCycle_frame (s : State) (fc : Fc) (a : Long) (k : Nat) (v : Long) :
    Leaves (BusFrame s) id cycleStopState (writeCycle s fc a k v) := by
  unfold writeCycle
  split
  · exact .refl s
  · split
    · exact .refl s
    · split
      · exact cpuWriteCycle_frame s a k v
      · exact busFrame_store s fc k a v

/-- A cycle with its wait changes what the cycle and the inputs that arrive can change. -/
theorem runCycle_frame {β : Type} {ok : β → State} {cycle : State → Sys2Proof.Machine.Cycle β}
    (hc : ∀ t, Leaves (BusFrame t) ok cycleStopState (cycle t)) (s : State) :
    Leaves (BusFrame s) ok cycleStopState (runCycle cycle s) := by
  have hawait : ∀ n s, Leaves (BusFrame s) ok cycleStopState (awaitCycle cycle n s) := by
    intro n
    induction n with
    | zero => exact fun s => BusFrame.refl s
    | succ n ih =>
      intro s
      have h := hc s
      unfold awaitCycle
      split
      case h_1 t heq =>
        rw [heq] at h
        have ha : BusFrame s (awaitInputs t).2 := BusFrame.trans h (busFrame_awaitInputs t)
        split
        · exact (ih _).mono fun _ => ha.trans
        · exact ha
      case h_2 => exact h
  exact hawait _ s

/-- The cycles of a read. -/
theorem readCycles_frame (fc : Fc) (fuel : Nat) (s : State) (a : Long) (rem : Nat) (acc : Long) :
    Leaves (BusFrame s) Prod.snd busStopState (readCycles fc fuel s a rem acc) := by
  induction fuel generalizing s a rem acc with
  | zero => exact .refl s
  | succ fuel ih =>
    have h (k : Nat) := (runCycle_frame (fun t => readCycle_frame t fc a k) (otherMasters s)).mono fun _ =>
      (busFrame_otherMasters s).trans
    unfold readCycles
    split
    · exact .refl s
    · dsimp only
      generalize cycleBytes (otherMasters s).platform fc a rem = k
      specialize h k
      split
      all_goals
        rename_i heq
        rw [heq] at h
      · exact (ih ..).mono fun _ => BusFrame.trans h
      · exact h
      · exact h

/-- The cycles of a write. -/
theorem writeCycles_frame (fc : Fc) (fuel : Nat) (s : State) (a : Long) (rem : Nat) (v : Long) :
    Leaves (BusFrame s) id busStopState (writeCycles fc fuel s a rem v) := by
  induction fuel generalizing s a rem with
  | zero => exact .refl s
  | succ fuel ih =>
    have h (k : Nat) (x : Long) := (runCycle_frame (fun t => writeCycle_frame t fc a k x) (otherMasters s)).mono fun _ =>
      (busFrame_otherMasters s).trans
    unfold writeCycles
    split
    · exact .refl s
    · dsimp only
      generalize cycleBytes (otherMasters s).platform fc a rem = k
      specialize h k (lowBits (8 * k) (v >>> (8 * (rem - k))))
      split
      all_goals
        rename_i heq
        rw [heq] at h
      · exact (ih ..).mono fun _ => BusFrame.trans h
      · exact h
      · exact h

theorem busRead_frame (s : State) (fc : Fc) (a : Long) (n : Nat) :
    Leaves (BusFrame s) Prod.snd busStopState (busRead s fc a n) := readCycles_frame fc n s a n 0#32

theorem busWrite_frame (s : State) (fc : Fc) (a : Long) (n : Nat) (v : Long) :
    Leaves (BusFrame s) id busStopState (busWrite s fc a n v) := writeCycles_frame fc n s a n v

theorem writeFields_frame (s : State) (fc : Fc) (a : Long) (fs : List (Nat × Long)) :
    Leaves (BusFrame s) id busStopState (writeFields s fc a fs) := by
  induction fs generalizing s a with
  | nil => exact .refl s
  | cons f fs ih => exact (busWrite_frame s fc a f.1 f.2).bind fun t ht => (ih t _).mono fun _ => BusFrame.trans ht

/-- A frame pushed moves the stack pointer, then stores. -/
theorem pushFields_frame (s : State) (fs : List (Nat × Long)) :
    Leaves (BusFrame (s.setSp (s.sp - BitVec.ofNat 32 (fieldsSize fs)))) id busStopState (pushFields s fs) :=
  writeFields_frame _ _ _ _

/-! ## Instruction fetch -/

/-- What a fetch can change besides: cache, holding register and pipe. -/
def FetchFrame (s t : State) : Prop :=
  ∃ c h pi m p k, t = { s with cache := c, holding := h, pipe := pi, mem := m, platform := p, freeIdx := k }

theorem FetchFrame.refl (s : State) : FetchFrame s s := ⟨_, _, _, _, _, _, rfl⟩

theorem fetchLong_frame (s : State) (a : Long) : Leaves (FetchFrame s) Prod.snd Prod.snd (fetchLong s a) := by
  have h := busRead_frame s (progFc s) (longBase a) 4
  unfold fetchLong
  dsimp only
  split
  · exact .refl s
  · split
    · exact ⟨_, _, _, _, _, _, rfl⟩
    · split
      all_goals
        rename_i heq
        rw [heq] at h
        obtain ⟨m, p, k, rfl⟩ := h
      · split <;> exact ⟨_, _, _, _, _, _, rfl⟩
      · exact ⟨_, _, _, _, _, _, rfl⟩
      · dsimp only [Leaves]
        split <;> exact ⟨_, _, _, _, _, _, rfl⟩

theorem fetchWord_frame (s : State) (a : Long) : Leaves (FetchFrame s) Prod.snd Prod.snd (fetchWord s a) := by
  have h := fetchLong_frame s a
  unfold fetchWord
  split
  · exact .refl s
  · split
    · exact .refl s
    · split
      all_goals
        rename_i heq
        rw [heq] at h
      · obtain ⟨c, h, pi, m, p, k, rfl⟩ := h
        exact ⟨_, _, _, _, _, _, rfl⟩
      · exact h

/-! ## Exception processing (R610) -/

/-- At supervisor level, with the control registers of `s`. -/
def Entered (s t : State) : Prop := t.controls = s.controls ∧ t.sr.s = true

theorem Entered.congr (h : Entered s t) (hc : u.controls = t.controls) (hs : u.sr.s = t.sr.s) : Entered s u :=
  ⟨hc.trans h.1, hs.trans h.2⟩

theorem Entered.bus (h : Entered s t) (hf : BusFrame t u) : Entered s u := by
  obtain ⟨_, _, _, rfl⟩ := hf
  exact h

theorem Entered.fetch (h : Entered s t) (hf : FetchFrame t u) : Entered s u := by
  obtain ⟨_, _, _, _, _, _, rfl⟩ := hf
  exact h

theorem Entered.halted {stop : BusStop} (h : Entered s (busStopState stop)) : Entered s stop.halted := by
  cases stop <;> exact h

theorem pushFields_entered (h : Entered s t) (fs : List (Nat × Long)) :
    Leaves (Entered s) id busStopState (pushFields t fs) :=
  (pushFields_frame t fs).mono fun _ => Entered.bus (t := t.setSp _) h

theorem busRead_entered (h : Entered s t) (fc : Fc) (a : Long) (n : Nat) :
    Leaves (Entered s) Prod.snd busStopState (busRead t fc a n) := (busRead_frame t fc a n).mono fun _ => h.bus

theorem endState_of_leaves {P : State → Prop} {r : Except State State} (h : Leaves P id id r) : P (endState r) := by
  cases r <;> exact h

theorem prefetch_entered (h : Entered s t) (a : Long) : Leaves (Entered s) id id (prefetch t a) := by
  have hw := (fetchWord_frame t a).mono fun _ => h.fetch
  unfold prefetch
  split
  all_goals
    rename_i heq
    rw [heq] at hw
    exact hw

/-- The processing of a bus fault ends at supervisor level, also where it halts the processor. -/
theorem takeFault_entered (h : t.controls = s.controls) (f : FaultFrame) : Entered s (takeFault t f) := by
  have hsuspend : Entered s (suspend t f) := ⟨h, rfl⟩
  have hpush := pushFields_entered hsuspend (faultFields t f)
  unfold takeFault
  split
  case h_1 heq =>
    rw [heq] at hpush
    exact Entered.halted hpush
  case h_2 v heq =>
    rw [heq] at hpush
    have hvector := busRead_entered (t := v) hpush 5#3 (vectorAddr v f.vector) 4
    split
    all_goals
      rename_i heq
      rw [heq] at hvector
    · exact Entered.halted hvector
    · exact endState_of_leaves (prefetch_entered (t := startAt _ _) hvector _)

theorem takeOdd_entered (h : t.controls = s.controls) (pc a : Long) (kind : SuspKind) : Entered s (takeOdd t pc a kind) :=
  takeFault_entered (t := { t with pipe := oddPipe t.pipe a }) h _

/-- A bus operation of exception processing, and what follows it. -/
theorem entryBus_entered {β : Type} {ok : β → State} {r : BusRun β} {k : β → State} (e : Entry)
    (copy : Sr) (hr : Leaves (Entered s) ok busStopState r) (hk : ∀ v, Entered s (ok v) → Entered s (k v)) :
    Entered s (entryBus u e copy r k) := by
  unfold entryBus
  split
  · exact hk _ hr
  · exact takeFault_entered (t := backTo _ u) (And.left hr) _
  · exact hr

theorem enterHandler_entered (e : Entry) (copy : Sr) (ht : Entered s t) (target : Long) :
    Entered s (enterHandler u e copy t target) := by
  unfold enterHandler
  split
  · exact takeOdd_entered (t := backTo t u) ht.1 _ _ _
  · exact ht

theorem stackEntry_entered (hu : Entered s u) (e : Entry) (copy : Sr) :
    Leaves (Entered s) id busStopState (stackEntry u e copy) := by
  unfold stackEntry
  refine (pushFields_entered hu _).bind fun v hv => ?_
  split
  · exact pushFields_entered (t := { v with sr := { v.sr with m := false } }) hv _
  · exact hv

theorem processEntry_entered (hu : Entered s u) (e : Entry) (copy : Sr) (vector : Option Long) :
    Entered s (processEntry u e copy vector) := by
  refine entryBus_entered e copy (stackEntry_entered hu e copy) fun t ht => ?_
  split
  · exact enterHandler_entered e copy ht _
  · exact entryBus_entered e copy (busRead_entered ht ..) fun r hr => enterHandler_entered e copy hr _

/-- Every exception leads to supervisor level and leaves the control registers alone. -/
theorem takeEntry_entered (h : t.controls = s.controls) (e : Entry) : Entered s (takeEntry t e) :=
  processEntry_entered (u := stepOne t e.level) ⟨h, rfl⟩ e t.sr none

end Sys2Proof.Proofs
end

section
/-! PROOFS. What an instruction executed at user level can change (R33, R36): every part of an instruction keeps the state
confined, or ends the instruction in an exception, at supervisor level. -/

namespace Sys2Proof.Proofs

open Sys2Proof.Machine Sys2Proof.Laws

variable {s t u : State}

/-! ## Confined states -/

/-- At user level, and as `s` in all that a user program cannot change; nothing to land in (log 11). -/
structure Confined (s t : State) : Prop where
  user : t.sr.s = false
  controls : t.controls = s.controls
  sr : t.sr = { s.sr with ccr := t.sr.ccr }
  isp : t.regs.isp = s.regs.isp
  msp : t.regs.msp = s.regs.msp
  landing : t.landing = none

theorem Confined.refl (h : s.sr.s = false) (hl : s.landing = none) : Confined s s := ⟨h, rfl, rfl, rfl, rfl, hl⟩

/-- Confinement speaks of control registers, SR, registers and landing alone. -/
theorem Confined.congr (h : Confined s t) (hc : u.controls = t.controls) (hs : u.sr = t.sr) (hr : u.regs = t.regs)
    (hl : u.landing = none) : Confined s u :=
  ⟨hs ▸ h.user, hc.trans h.controls, hs ▸ h.sr, hr ▸ h.isp, hr ▸ h.msp, hl⟩

theorem Confined.bus (h : Confined s t) (hf : BusFrame t u) : Confined s u := by
  obtain ⟨_, _, _, rfl⟩ := hf
  exact h.congr rfl rfl rfl h.landing

theorem Confined.fetch (h : Confined s t) (hf : FetchFrame t u) : Confined s u := by
  obtain ⟨_, _, _, _, _, _, rfl⟩ := hf
  exact h.congr rfl rfl rfl h.landing

theorem Confined.setCcr (h : Confined s t) (f : Ccr) : Confined s (t.setCcr f) :=
  ⟨h.user, h.controls, by rw [setCcr_sr, h.sr], h.isp, h.msp, h.landing⟩

theorem Confined.setD (h : Confined s t) (n : Reg) (v : Long) : Confined s (t.setD n v) :=
  ⟨h.user, h.controls, h.sr, h.isp, h.msp, h.landing⟩

theorem Confined.setDSized (h : Confined s t) (sz : Size) (n : Reg) (v : Long) : Confined s (t.setDSized sz n v) :=
  h.setD n _

/-- At user level A7 is the user stack pointer (R23). -/
theorem setActiveSp_user {r : Regs} {sr : Sr} (h : sr.s = false) (v : Long) : setActiveSp r sr v = { r with usp := v } := by
  simp only [setActiveSp, h, Bool.false_eq_true, if_false]

theorem Confined.setSp (h : Confined s t) (v : Long) : Confined s (t.setSp v) := by
  have e := setActiveSp_user (r := t.regs) h.user v
  exact ⟨h.user, h.controls, h.sr, by rw [setSp_regs, e]; exact h.isp, by rw [setSp_regs, e]; exact h.msp, h.landing⟩

theorem Confined.setA (h : Confined s t) (n : Reg) (v : Long) : Confined s (t.setA n v) := by
  unfold State.setA
  split
  · exact ⟨h.user, h.controls, h.sr, h.isp, h.msp, h.landing⟩
  · exact h.setSp v

theorem Confined.setRn (h : Confined s t) (n : Rn) (v : Long) : Confined s (t.setRn n v) := by
  unfold State.setRn
  split
  · exact h.setA _ v
  · exact h.setD _ v

theorem Confined.tickBy (h : Confined s t) (k : Nat) : Confined s (t.tickBy k) := h.congr rfl rfl rfl h.landing

theorem Confined.tick (h : Confined s t) : Confined s t.tick := h.tickBy 1

theorem Confined.advance (h : Confined s t) (n : Nat) : Confined s (advance n t) := h.congr rfl rfl rfl h.landing

theorem Confined.hang (h : Confined s t) : Confined s (hang t) := h.congr rfl rfl rfl rfl

theorem Confined.lockBus (h : Confined s t) : Confined s (lockBus t) := h.congr rfl rfl rfl h.landing

theorem Confined.unlockBus (h : Confined s t) : Confined s (unlockBus t) := h.congr rfl rfl rfl h.landing

theorem Confined.lockFor (h : Confined s t) (loc : Loc) : Confined s (lockFor t loc) := by
  cases loc
  case mem => exact h.lockBus
  all_goals exact h

/-- Without anything to land in, taking over a record only moves it. -/
theorem Confined.tookOver (h : Confined s t) (r : BusRec) (rest : List BusRec) : Confined s (tookOver t r rest) := by
  unfold Sys2Proof.Machine.tookOver
  simp only [h.landing, Option.any_none, Bool.and_false, Bool.false_eq_true, if_false]
  exact h.congr rfl rfl rfl rfl

/-! ## Outcomes and parts of instructions -/

/-- How an instruction at user level may end: confined, or in an exception. -/
def Isolated (s t : State) : Prop := Confined s t ∨ Entered s t

/-- The outcome of an instruction, if it is a state, is an isolated one. -/
def Isolates (s : State) : Res → Prop
  | .next t => Isolated s t
  | _ => True

/-- A part of an instruction ends with `P`, or ends the instruction isolated. -/
def Yields {β : Type} (s : State) (P : β → Prop) : Run β → Prop
  | .ok v => P v
  | .error r => Isolates s r

theorem Yields.bind {β γ : Type} {P : β → Prop} {Q : γ → Prop} {r : Run β} {k : β → Run γ} (h : Yields s P r)
    (hk : ∀ v, P v → Yields s Q (k v)) : Yields s Q (r >>= k) := by
  cases r with
  | ok v => exact hk v h
  | error e => exact h

/-- A part that answers a value and a confined state, and what follows it. -/
theorem Yields.andThen {β γ : Type} {Q : γ → Prop} {r : Run (β × State)} {k : β × State → Run γ}
    (h : Yields s (Confined s ·.2) r) (hk : ∀ v t, Confined s t → Yields s Q (k (v, t))) : Yields s Q (r >>= k) :=
  h.bind fun v hv => hk v.1 v.2 hv

theorem Isolates.toRes {r : Run State} (h : Yields s (Isolated s) r) : Isolates s (toRes r) := by
  cases r <;> exact h

/-! ## Exceptions -/

theorem trapTo_isolates (h : Confined s t) (vector : Byte) (body : FrameBody) (pc : Long) :
    Isolates s (trapTo t vector body pc) := .inr (takeEntry_entered (t := markFlow t) h.controls _)

theorem abandonTo_isolates (h : Confined s t) (vector : Byte) : Isolates s (abandonTo t vector) :=
  .inr (takeEntry_entered (t := clearTrace t) h.controls _)

theorem requireSupervisor_isolates (h : Confined s t) (k : State → Res) : Isolates s (requireSupervisor t k) := by
  rw [requireSupervisor_user h.user]
  exact abandonTo_isolates h 8#8

theorem srImm_isolates (h : Confined s t) (f : Word → Word) : Isolates s (srImm t f) := requireSupervisor_isolates h _

theorem jumpTo_isolated (h : Confined s t) (target : Long) : Isolated s (jumpTo t target) := by
  unfold jumpTo
  split
  · exact .inr (takeOdd_entered (t := markFlow t) h.controls _ _ _)
  · exact .inl (h.congr rfl rfl rfl h.landing)

theorem stopRun_isolates {b : BusStop} (h : Confined s (busStopState b)) : Isolates s (stopRun b) := by
  cases b with
  | fault f got t => exact .inr (takeFault_entered (t := t) h.controls _)
  | never t => exact .inl (Confined.hang h)

/-! ## Accesses -/

theorem readFc_yields (h : Confined s t) (fc : Fc) (a : Long) (n : Nat) :
    Yields s (Confined s ·.2) (readFc t fc a n) := by
  have hb := (busRead_frame t fc a n).mono fun _ => h.bus
  unfold readFc
  split
  · exact h.tookOver _ _
  · exact h.tick.tookOver _ _
  · rw [land_none h.landing]
    split
    all_goals
      rename_i heq
      rw [heq] at hb
    · exact Confined.congr hb rfl rfl rfl hb.landing
    · exact stopRun_isolates hb

theorem writeFc_yields (h : Confined s t) (fc : Fc) (a : Long) (n : Nat) (v : Long) :
    Yields s (Confined s) (writeFc t fc a n v) := by
  have hb := (busWrite_frame t fc a n v).mono fun _ => h.bus
  unfold writeFc
  split
  · exact h.tookOver _ _
  · rw [land_none h.landing]
    split
    all_goals
      rename_i heq
      rw [heq] at hb
    · exact Confined.congr hb rfl rfl rfl hb.landing
    · exact stopRun_isolates hb

theorem memRead_yields (h : Confined s t) (a : Long) (n : Nat) : Yields s (Confined s ·.2) (memRead t a n) :=
  readFc_yields h _ a n

theorem memWrite_yields (h : Confined s t) (a : Long) (n : Nat) (v : Long) : Yields s (Confined s) (memWrite t a n v) :=
  writeFc_yields h _ a n v

theorem pushLong_yields (h : Confined s t) (v : Long) : Yields s (Confined s) (pushLong t v) :=
  memWrite_yields (h.setSp _) _ 4 v

theorem pop_yields (h : Confined s t) (n : Nat) : Yields s (Confined s ·.2) (pop t n) :=
  (memRead_yields h _ n).andThen fun _ _ hu => hu.setSp _

/-! ## Operands -/

theorem indexAddr_yields (h : Confined s t) (prog : Bool) (base : Long) (x : Index) :
    Yields s (Confined s ·.2) (indexAddr t prog base x) := by
  cases x with
  | brief x d8 => exact h
  | full x bs is bd ind =>
    cases ind with
    | none => exact h
    | pre od => exact (readFc_yields h _ _ 4).andThen fun _ _ hu => hu
    | post od => exact (readFc_yields h _ _ 4).andThen fun _ _ hu => hu

theorem evalEa_yields (h : Confined s t) (sz : Size) (pcx : Long) (ea : Ea) :
    Yields s (Confined s ·.2) (evalEa t sz pcx ea) := by
  cases ea with
  | postInc n => exact h.setA n _
  | preDec n => exact h.setA n _
  | idx n x => exact (indexAddr_yields h false _ x).andThen fun _ _ hu => hu
  | pcIdx x => exact (indexAddr_yields h true _ x).andThen fun _ _ hu => hu
  | _ => exact h

theorem readLoc_yields (h : Confined s t) (sz : Size) (loc : Loc) : Yields s (Confined s ·.2) (readLoc t sz loc) := by
  cases loc with
  | mem prog a => exact readFc_yields h _ a _
  | _ => exact h

theorem writeLoc_yields (h : Confined s t) (sz : Size) (v : Long) (loc : Loc) :
    Yields s (Confined s) (writeLoc t sz v loc) := by
  cases loc with
  | dreg n => exact h.setDSized sz n v
  | areg n => exact h.setA n _
  | mem prog a =>
    cases prog with
    | false => exact memWrite_yields h a _ v
    | true => exact h
  | imm _ => exact h

theorem readEa_yields (h : Confined s t) (sz : Size) (own : Nat) (ea : Ea) :
    Yields s (Confined s ·.2) (readEa t sz own ea) :=
  (evalEa_yields h sz _ ea).andThen fun loc _ hu => readLoc_yields hu sz loc

theorem eaAddr_yields (h : Confined s t) (own : Nat) (ea : Ea) : Yields s (Confined s ·.2) (eaAddr t own ea) :=
  (evalEa_yields h .l _ ea).andThen fun _ _ hu => hu

/-! ## Shapes of instructions -/

theorem modifyEa_isolates (h : Confined s t) (sz : Size) (own : Nat) (ea : Ea) (f : Long → Long × Ccr) :
    Isolates s (modifyEa t sz own ea f) :=
  .toRes <| (evalEa_yields h sz _ ea).andThen fun loc _ h1 => (readLoc_yields h1 sz loc).andThen fun _ _ h2 =>
    (writeLoc_yields h2 sz _ loc).bind fun _ h3 => .inl ((h3.setCcr _).advance _)

theorem setEa_isolates (h : Confined s t) (sz : Size) (ea : Ea) (v : Long) (f : Ccr) :
    Isolates s (setEa t sz ea v f) :=
  .toRes <| (evalEa_yields h sz _ ea).andThen fun loc _ h1 =>
    (writeLoc_yields h1 sz v loc).bind fun _ h2 => .inl ((h2.setCcr f).advance _)

theorem withOperand_isolates (h : Confined s t) (sz : Size) (own : Nat) (ea : Ea) {k : Long → State → Res}
    (hk : ∀ v u, Confined s u → Isolates s (k v u)) : Isolates s (withOperand t sz own ea k) := by
  have hr := readEa_yields h sz own ea
  unfold withOperand
  split
  all_goals
    rename_i heq
    rw [heq] at hr
  · exact hk _ _ hr
  · exact hr

theorem testEa_isolates (h : Confined s t) (sz : Size) (own : Nat) (ea : Ea) (f : Long → Ccr) :
    Isolates s (testEa t sz own ea f) :=
  withOperand_isolates h sz own ea fun _ _ hu => .inl ((hu.setCcr _).advance _)

theorem eaToDn_isolates (h : Confined s t) (sz : Size) (d : Reg) (ea : Ea) (f : Long → Long → Long × Ccr) :
    Isolates s (eaToDn t sz d ea f) :=
  withOperand_isolates h sz 0 ea fun _ _ hu => .inl (((hu.setDSized sz d _).setCcr _).advance _)

theorem eaToAn_isolates (h : Confined s t) (sz : Size) (a : Reg) (ea : Ea) (f : Long → Long → Long) :
    Isolates s (eaToAn t sz a ea f) :=
  withOperand_isolates h sz 0 ea fun _ _ hu => .inl ((hu.setA a _).advance _)

theorem twoWay_isolates (h : Confined s t) (sz : Size) (toEa : Bool) (d : Reg) (ea : Ea)
    (f : Long → Long → Long × Ccr) : Isolates s (twoWay t sz toEa d ea f) := by
  unfold twoWay
  split
  · exact modifyEa_isolates h sz 0 ea _
  · exact eaToDn_isolates h sz d ea f

theorem readPre_yields (h : Confined s t) (sz : Size) (n : Reg) : Yields s (Confined s ·.2) (readPre t sz n) :=
  memRead_yields (h.setA n _) _ _

theorem readPost_yields (h : Confined s t) (sz : Size) (n : Reg) : Yields s (Confined s ·.2) (readPost t sz n) :=
  (memRead_yields h _ _).andThen fun _ _ hu => hu.setA n _

theorem pairOp_isolates (h : Confined s t) (sz : Size) (mem : Bool) (src dst : Reg) (f : Long → Long → Long × Ccr) :
    Isolates s (pairOp t sz mem src dst f) := by
  unfold pairOp
  split
  · exact .toRes <| (readPre_yields h sz src).andThen fun _ _ h1 => (readPre_yields h1 sz dst).andThen fun _ _ h2 =>
      (memWrite_yields h2 _ _ _).bind fun _ h3 => .inl ((h3.setCcr _).advance 1)
  · exact .inl (((h.setDSized sz dst _).setCcr _).advance 1)

/-! ## Integer arithmetic and decimal instructions -/

theorem execAddq_isolates (h : Confined s t) (sz : Size) (q : BitVec 3) (ea : Ea) : Isolates s (execAddq sz q ea t) := by
  unfold execAddq
  split
  · exact .inl ((h.setA _ _).advance 1)
  · exact modifyEa_isolates h sz 0 _ _

theorem execSubq_isolates (h : Confined s t) (sz : Size) (q : BitVec 3) (ea : Ea) : Isolates s (execSubq sz q ea t) := by
  unfold execSubq
  split
  · exact .inl ((h.setA _ _).advance 1)
  · exact modifyEa_isolates h sz 0 _ _

theorem execCmpa_isolates (h : Confined s t) (long : Bool) (a : Reg) (ea : Ea) : Isolates s (execCmpa long a ea t) :=
  withOperand_isolates h _ 0 ea fun _ _ hu => .inl ((hu.setCcr _).advance _)

theorem execCmpm_isolates (h : Confined s t) (sz : Size) (src dst : Reg) : Isolates s (execCmpm sz src dst t) :=
  .toRes <| (readPost_yields h sz src).andThen fun _ _ h1 => (readPost_yields h1 sz dst).andThen fun _ _ h2 =>
    .inl ((h2.setCcr _).advance 1)

theorem readBounds_yields (h : Confined s t) (sz : Size) (ea : Ea) : Yields s (Confined s ·.2) (readBounds t sz ea) :=
  (evalEa_yields h sz _ ea).andThen fun _ _ h1 => (readLoc_yields h1 sz _).andThen fun _ _ h2 =>
    (readLoc_yields h2 sz _).andThen fun _ _ h3 => h3

theorem execCmp2_isolates (h : Confined s t) (sz : Size) (rn : Rn) (ea : Ea) : Isolates s (execCmp2 sz rn ea t) :=
  .toRes <| (readBounds_yields h sz ea).andThen fun _ _ hu => .inl (((hu.setCcr _).tickBy 2).advance _)

theorem execChk2_isolates (h : Confined s t) (sz : Size) (rn : Rn) (ea : Ea) : Isolates s (execChk2 sz rn ea t) := by
  have hb := readBounds_yields h sz ea
  unfold execChk2
  split
  case h_1 r heq =>
    rw [heq] at hb
    exact hb
  case h_2 b u heq =>
    rw [heq] at hb
    have hu := (Confined.setCcr hb (boundsFlags u sz rn b.1 b.2)).tickBy 2
    dsimp only
    split
    · exact trapTo_isolates hu 6#8 _ _
    · exact .inl (hu.advance _)

theorem chk_isolates (h : Confined s t) (sz : Size) (d : Reg) (ea : Ea) : Isolates s (chk sz d ea t) := by
  refine withOperand_isolates h sz 0 ea fun b u hu => ?_
  dsimp only
  split
  · exact trapTo_isolates ((hu.setCcr _).tickBy 4) 6#8 _ _
  · exact .inl (((hu.setCcr _).tickBy 4).advance _)

theorem mulWord16_isolates (h : Confined s t) (d : Reg) (ea : Ea) (ext : Long → Long) :
    Isolates s (mulWord16 t d ea ext) :=
  withOperand_isolates h .w 0 ea fun _ _ hu => .inl (((hu.setD d _).setCcr _).advance _)

theorem mulL_isolates (h : Confined s t) (signed quad : Bool) (dl dh : Reg) (ea : Ea) :
    Isolates s (mulL signed quad dl dh ea t) := by
  refine withOperand_isolates h .l 1 ea fun v u hu => .inl (Confined.advance (Confined.setCcr ?_ _) _)
  split
  · split
    · exact (hu.setD dl _).tick
    · exact (hu.setD dh _).setD dl _
  · exact hu.setD dl _

theorem zeroDivide_isolates (h : Confined s t) (n : Nat) : Isolates s (zeroDivide t n) :=
  trapTo_isolates ((h.setCcr _).tickBy 3) 5#8 _ _

theorem Confined.divOverflow (h : Confined s t) : Confined s (divOverflow t) := (h.setCcr _).tickBy 2

theorem Confined.putQuotient (h : Confined s t) (quad : Bool) (dq dr : Reg) (q r : Long) :
    Confined s (putQuotient quad dq dr q r t) := by
  unfold Sys2Proof.Machine.putQuotient
  split
  · exact (h.setD dq _).tick
  · split
    · exact h.setD dq q
    · exact (h.setD dr r).setD dq q

theorem divW_isolates (h : Confined s t) (signed : Bool) (d : Reg) (ea : Ea) : Isolates s (divW signed d ea t) := by
  refine withOperand_isolates h .w 0 ea fun v u hu => ?_
  dsimp only
  split
  · exact zeroDivide_isolates hu _
  · generalize divide _ _ = qr
    split
    · exact .inl (((hu.setD d _).setCcr _).advance _)
    · exact .inl (hu.divOverflow.advance _)

theorem divL_isolates (h : Confined s t) (signed quad : Bool) (dq dr : Reg) (ea : Ea) :
    Isolates s (divL signed quad dq dr ea t) := by
  refine withOperand_isolates h .l 1 ea fun v u hu => ?_
  dsimp only
  split
  · exact zeroDivide_isolates hu _
  · split
    · exact .inl (((hu.putQuotient ..).setCcr _).advance _)
    · exact .inl (hu.divOverflow.advance _)

theorem packRead_yields (h : Confined s t) (n : Reg) : Yields s (Confined s ·.2) (packRead t n) :=
  memRead_yields (h.setA n _) _ 1

theorem packWrite_yields (h : Confined s t) (n : Reg) (v : Long) : Yields s (Confined s) (packWrite t n v) :=
  memWrite_yields (h.setA n _) _ 1 v

theorem execPack_isolates (h : Confined s t) (mem : Bool) (src dst : Reg) (adj : Word) :
    Isolates s (execPack mem src dst adj t) := by
  unfold execPack
  split
  · exact .toRes <| (packRead_yields h src).andThen fun _ _ h1 => (packRead_yields h1 src).andThen fun _ _ h2 =>
      (packWrite_yields h2 dst _).bind fun _ h3 => .inl (h3.advance 2)
  · exact .inl ((h.setDSized .b dst _).advance 2)

theorem execUnpk_isolates (h : Confined s t) (mem : Bool) (src dst : Reg) (adj : Word) :
    Isolates s (execUnpk mem src dst adj t) := by
  unfold execUnpk
  split
  · exact .toRes <| (packRead_yields h src).andThen fun _ _ h1 => (packWrite_yields h1 dst _).bind fun _ h2 =>
      (packWrite_yields h2 dst _).bind fun _ h3 => .inl (h3.advance 2)
  · exact .inl ((h.setDSized .w dst _).advance 2)

/-! ## Bits and bit fields -/

theorem bitModify_isolates (h : Confined s t) (f : Long → Long → Long) (num : Long) (own : Nat) (ea : Ea) :
    Isolates s (bitModify f num own ea t) := by
  unfold bitModify
  split
  · exact .inl (((h.setD _ _).setCcr _).advance _)
  · exact modifyEa_isolates h .b own _ _

theorem bitTest_isolates (h : Confined s t) (num : Long) (own : Nat) (ea : Ea) : Isolates s (bitTest num own ea t) := by
  unfold bitTest
  split
  · exact .inl ((h.setCcr _).advance _)
  · exact testEa_isolates h .b own _ _

theorem readBytes_yields (prog : Bool) (n : Nat) (h : Confined s t) (a : Long) (acc : BitVec 40) :
    Yields s (Confined s ·.2) (readBytes prog n t a acc) := by
  induction n generalizing t a acc with
  | zero => exact h
  | succ n ih => exact (readFc_yields h _ a 1).andThen fun _ _ hu => ih hu _ _

theorem writeBytes_yields (n : Nat) (h : Confined s t) (a : Long) (v : BitVec 40) :
    Yields s (Confined s) (writeBytes n t a v) := by
  induction n generalizing t a with
  | zero => exact h
  | succ n ih => exact (memWrite_yields h a 1 _).bind fun _ hu => ih hu _

theorem bfPlace_yields (h : Confined s t) (off : Long) (w : Nat) (ea : Ea) :
    Yields s (Confined s ·.2) (bfPlace t off w ea) := by
  unfold bfPlace
  split
  · exact h
  · exact (evalEa_yields h .l _ _).andThen fun _ _ h1 => (readBytes_yields _ _ h1 _ _).andThen fun _ _ h2 => h2

theorem bfWrite_yields (h : Confined s t) (p : BfPlace) (w : Nat) (v : Long) :
    Yields s (Confined s) (bfWrite t p w v) := by
  unfold bfWrite
  split
  · exact h.setD _ _
  · exact writeBytes_yields _ h _ _

theorem bfRead_isolates (h : Confined s t) (f : BfSpec) (ea : Ea) {k : Long → Nat → Long → State → State}
    (hk : ∀ off w v u, Confined s u → Confined s (k off w v u)) : Isolates s (bfRead f ea t k) :=
  .toRes <| (bfPlace_yields h _ _ ea).andThen fun _ _ hu => .inl (((hk _ _ _ _ hu).setCcr _).advance _)

theorem bfModify_isolates (h : Confined s t) (f : BfSpec) (ea : Ea) (g : Nat → Long → Long) :
    Isolates s (bfModify f ea t g) :=
  .toRes <| (bfPlace_yields h _ _ ea).andThen fun _ _ h1 => (bfWrite_yields h1 _ _ _).bind fun _ h2 =>
    .inl ((h2.setCcr _).advance _)

theorem execBfins_isolates (h : Confined s t) (d : Reg) (f : BfSpec) (ea : Ea) : Isolates s (execBfins d f ea t) :=
  .toRes <| (bfPlace_yields h _ _ ea).andThen fun _ _ h1 => (bfWrite_yields h1 _ _ _).bind fun _ h2 =>
    .inl ((h2.setCcr _).advance _)

/-! ## Shifts -/

theorem shiftReg_isolates (h : Confined s t) (k : ShiftKind) (sz : Size) (byReg : Bool) (c : BitVec 3) (d : Reg) :
    Isolates s (shiftReg k sz byReg c d t) := .inl (((h.setDSized sz d _).setCcr _).advance 1)

theorem shiftEa_isolates (h : Confined s t) (k : ShiftKind) (ea : Ea) : Isolates s (shiftEa k ea t) :=
  modifyEa_isolates h .w 0 ea _

/-! ## Data movement -/

theorem moveSized_isolates (h : Confined s t) (sz : Size) (src dst : Ea) : Isolates s (moveSized sz src dst t) :=
  .toRes <| (readEa_yields h sz 0 src).andThen fun _ _ h1 => (evalEa_yields h1 sz _ dst).andThen fun loc _ h2 =>
    (writeLoc_yields h2 sz _ loc).bind fun _ h3 => .inl ((h3.setCcr _).advance _)

theorem storeRegs_yields (sz : Size) (rs : List Rn) (h : Confined s t) (a : Long) :
    Yields s (Confined s) (storeRegs sz t a rs) := by
  induction rs generalizing t a with
  | nil => exact h
  | cons r rs ih => exact (memWrite_yields h a _ _).bind fun _ hu => ih hu _

theorem storeRegsDown_yields (sz : Size) (an : Rn) (own : Long) (rs : List Rn) (h : Confined s t) (a : Long) :
    Yields s (Confined s ·.2) (storeRegsDown sz an own t a rs) := by
  induction rs generalizing t a with
  | nil => exact h
  | cons r rs ih => exact (memWrite_yields h _ _ _).bind fun _ hu => ih hu _

theorem loadRegs_yields (sz : Size) (prog : Bool) (rs : List Rn) (h : Confined s t) (a : Long) :
    Yields s (Confined s ·.2) (loadRegs sz prog t a rs) := by
  induction rs generalizing t a with
  | nil => exact h
  | cons r rs ih => exact (readFc_yields h _ a _).andThen fun _ _ hu => ih (hu.setRn r _) _

theorem execMovemToMem_isolates (h : Confined s t) (long : Bool) (mask : Word) (ea : Ea) :
    Isolates s (execMovemToMem long mask ea t) := by
  unfold execMovemToMem
  refine .toRes ?_
  split
  · exact (storeRegsDown_yields _ _ _ _ h _).andThen fun _ _ hu => .inl ((hu.setA _ _).advance 2)
  · exact (eaAddr_yields h 1 _).andThen fun _ _ h1 => (storeRegs_yields _ _ h1 _).bind fun _ h2 => .inl (h2.advance _)

theorem execMovemToRegs_isolates (h : Confined s t) (long : Bool) (mask : Word) (ea : Ea) :
    Isolates s (execMovemToRegs long mask ea t) := by
  unfold execMovemToRegs
  refine .toRes ?_
  split
  · exact (loadRegs_yields _ _ _ h _).andThen fun _ _ hu => .inl ((hu.setA _ _).advance 2)
  · exact (evalEa_yields h .l _ _).andThen fun _ _ h1 => (loadRegs_yields _ _ _ h1 _).andThen fun _ _ h2 =>
      .inl (h2.advance _)

theorem storeAlternate_yields (n : Nat) (h : Confined s t) (a v : Long) :
    Yields s (Confined s) (storeAlternate n t a v) := by
  induction n generalizing t a with
  | zero => exact h
  | succ n ih => exact (memWrite_yields h a 1 _).bind fun _ hu => ih hu _

theorem loadAlternate_yields (n : Nat) (h : Confined s t) (a acc : Long) :
    Yields s (Confined s ·.2) (loadAlternate n t a acc) := by
  induction n generalizing t a acc with
  | zero => exact h
  | succ n ih => exact (memRead_yields h a 1).andThen fun _ _ hu => ih hu _ _

theorem execMovep_isolates (h : Confined s t) (long toMem : Bool) (d a : Reg) (d16 : Word) :
    Isolates s (execMovep long toMem d a d16 t) := by
  unfold execMovep
  refine .toRes ?_
  split
  · exact (storeAlternate_yields _ h _ _).bind fun _ hu => .inl (hu.advance 2)
  · exact (loadAlternate_yields _ h _ _).andThen fun _ _ hu => .inl ((hu.setDSized _ d _).advance 2)

theorem execLea_isolates (h : Confined s t) (a : Reg) (ea : Ea) : Isolates s (execLea a ea t) :=
  .toRes <| (eaAddr_yields h 0 ea).andThen fun _ _ hu => .inl ((hu.setA a _).advance _)

theorem execPea_isolates (h : Confined s t) (ea : Ea) : Isolates s (execPea ea t) :=
  .toRes <| (eaAddr_yields h 0 ea).andThen fun _ _ h1 => (pushLong_yields h1 _).bind fun _ h2 => .inl (h2.advance _)

theorem link_isolates (h : Confined s t) (a : Reg) (disp : Long) (n : Nat) : Isolates s (link a disp n t) :=
  .toRes <| (memWrite_yields (h.setSp _) _ 4 _).bind fun _ hu => .inl (((hu.setA a _).setSp _).advance n)

theorem execUnlk_isolates (h : Confined s t) (a : Reg) : Isolates s (execUnlk a t) :=
  .toRes <| (memRead_yields (h.setSp _) _ 4).andThen fun _ _ hu => .inl (((hu.setA a _).setSp _).advance 1)

/-! ## Program control -/

theorem execBcc_isolates (h : Confined s t) (cc : Cond) (d : BrDisp) : Isolates s (execBcc cc d t) := by
  unfold execBcc
  split
  · exact jumpTo_isolated h _
  · exact .inl (h.advance _)

theorem execBsr_isolates (h : Confined s t) (d : BrDisp) : Isolates s (execBsr d t) :=
  .toRes <| (pushLong_yields h _).bind fun _ hu => jumpTo_isolated hu _

theorem execDbcc_isolates (h : Confined s t) (cc : Cond) (d : Reg) (d16 : Word) : Isolates s (execDbcc cc d d16 t) := by
  unfold execDbcc
  split
  · exact .inl (h.advance 2)
  · dsimp only
    split
    · exact .inl ((h.setDSized .w d _).advance 2)
    · exact jumpTo_isolated (h.setDSized .w d _) _

theorem execJmp_isolates (h : Confined s t) (ea : Ea) : Isolates s (execJmp ea t) :=
  .toRes <| (eaAddr_yields h 0 ea).andThen fun _ _ hu => jumpTo_isolated hu _

theorem execJsr_isolates (h : Confined s t) (ea : Ea) : Isolates s (execJsr ea t) :=
  .toRes <| (eaAddr_yields h 0 ea).andThen fun _ _ h1 => (pushLong_yields h1 _).bind fun _ h2 => jumpTo_isolated h2 _

theorem execRts_isolates (h : Confined s t) : Isolates s (execRts t) :=
  .toRes <| (pop_yields h 4).andThen fun _ _ hu => jumpTo_isolated hu _

theorem execRtd_isolates (h : Confined s t) (d16 : Word) : Isolates s (execRtd d16 t) :=
  .toRes <| (pop_yields h 4).andThen fun _ _ hu => jumpTo_isolated (hu.setSp _) _

theorem execRtr_isolates (h : Confined s t) : Isolates s (execRtr t) :=
  .toRes <| (pop_yields h 2).andThen fun _ _ h1 => (pop_yields (h1.setCcr _) 4).andThen fun _ _ h2 =>
    jumpTo_isolated h2 _

/-! ## Breakpoint, traps and unassigned words -/

theorem execBkpt_isolates (h : Confined s t) (v : BitVec 3) : Isolates s (execBkpt v t) := by
  have hb := (busRead_frame t 7#3 (v.setWidth 32 <<< 2) 2).mono fun _ => h.bus
  unfold execBkpt
  split
  all_goals
    rename_i heq
    rw [heq] at hb
  · exact .inl (Confined.congr hb rfl rfl rfl hb.landing)
  · exact abandonTo_isolates hb 4#8
  · exact .inl (Confined.hang hb)

theorem trapIf_isolates (h : Confined s t) (b : Bool) (n : Nat) : Isolates s (trapIf b n t) := by
  unfold trapIf
  split
  · exact trapTo_isolates h 7#8 _ _
  · exact .inl (h.advance n)

theorem execUnassigned_isolates (h : Confined s t) (w : Word) : Isolates s (execUnassigned w t) := by
  unfold execUnassigned
  split <;> exact abandonTo_isolates h _

/-! ## Locked instructions and modules -/

theorem execTas_isolates (h : Confined s t) (ea : Ea) : Isolates s (execTas ea t) :=
  .toRes <| (evalEa_yields h .b _ ea).andThen fun loc _ h1 => (readLoc_yields (h1.lockFor loc) .b loc).andThen
    fun _ _ h2 => (writeLoc_yields h2 .b _ loc).bind fun _ h3 => .inl ((h3.unlockBus.setCcr _).advance _)

theorem execCas_isolates (h : Confined s t) (sz : Size) (dc du : Reg) (ea : Ea) : Isolates s (execCas sz dc du ea t) := by
  refine .toRes <| (evalEa_yields h sz _ ea).andThen fun loc _ h1 => (readLoc_yields (h1.lockFor loc) sz loc).andThen
    fun v t2 h2 => ?_
  dsimp -zeta only
  extract_lets f rest
  have hrest (u : State) (hu : Confined s u) : Yields s (Isolated s) (rest u) := .inl ((hu.unlockBus.setCcr _).advance _)
  split
  · exact (writeLoc_yields h2 sz _ loc).bind hrest
  · exact hrest _ (h2.setDSized sz dc v)

theorem cas2_isolates (h : Confined s t) (sz : Size) (rn1 : Rn) (du1 dc1 : Reg) (rn2 : Rn) (du2 dc2 : Reg) :
    Isolates s (cas2 sz rn1 du1 dc1 rn2 du2 dc2 t) := by
  refine .toRes <| (memRead_yields h.lockBus _ _).andThen fun v1 t1 h1 => (memRead_yields h1 _ _).andThen
    fun v2 t2 h2 => ?_
  dsimp -zeta only
  extract_lets f1 f rest
  have hrest (u : State) (hu : Confined s u) : Yields s (Isolated s) (rest u) := .inl ((hu.unlockBus.setCcr _).advance 3)
  split
  · exact (memWrite_yields h2 _ _ _).bind fun _ h3 => (memWrite_yields h3 _ _ _).bind hrest
  · exact hrest _ ((h2.setDSized sz dc2 v2).setDSized sz dc1 v1)

theorem accessEnd_yields (h : Confined s t) (a : AccessAnswer) : Yields s (Confined s ·.2) (accessEnd t a) := by
  unfold accessEnd
  split
  · exact h
  · exact trapTo_isolates h 14#8 _ _
  · split
    · exact h.tickBy 2
    · exact trapTo_isolates (h.tickBy 2) 14#8 _ _

theorem accessLevel_yields (h : Confined s t) (decrease : Bool) (level : Byte) :
    Yields s (Confined s ·.2) (accessLevel t decrease level) := by
  have hb := (busWrite_frame t 7#3 (if decrease then 0x00010044#32 else 0x00010040#32) 1 (level.setWidth 32)).mono
    fun _ => h.bus
  unfold accessLevel
  dsimp only
  split
  · exact h.tookOver _ _
  · exact (accessEnd_yields (h.tookOver _ _) _).andThen fun _ _ hu => hu.congr rfl rfl rfl hu.landing
  · rw [land_none h.landing]
    split
    all_goals
      rename_i heq
      rw [heq] at hb
    · exact stopRun_isolates hb
    · exact (accessEnd_yields hb _).andThen fun _ _ hu => hu.congr rfl rfl rfl hu.landing

theorem accessFor_yields (h : Confined s t) (type : BitVec 5) (decrease : Bool) (level : Byte) :
    Yields s (Confined s ·.2) (accessFor t type decrease level) := by
  unfold accessFor
  split
  · exact accessLevel_yields h decrease level
  · exact h

theorem copyArgs_yields (n : Nat) (h : Confined s t) (src dst : Long) : Yields s (Confined s) (copyArgs n t src dst) := by
  induction n generalizing t src dst with
  | zero => exact h
  | succ n ih => exact (memRead_yields h src 1).andThen fun _ _ h1 => (memWrite_yields h1 dst 1 _).bind fun _ h2 => ih h2 _ _

theorem execCallm_isolates (h : Confined s t) (argc : Byte) (ea : Ea) : Isolates s (execCallm argc ea t) := by
  refine .toRes <| (eaAddr_yields h 1 ea).andThen fun d _ h1 => (memRead_yields h1 d 4).andThen fun w0 t2 h2 => ?_
  dsimp -zeta only
  extract_lets opt type
  split
  · exact trapTo_isolates h2 14#8 _ _
  · refine (accessFor_yields h2 type false _).andThen fun change t3 h3 => ?_
    dsimp -zeta only
    extract_lets osp frame
    have hframe (u : State) (hu : Confined s u) : Yields s (Isolated s) (frame u) :=
      (memWrite_yields (hu.tickBy 2) _ 2 _).bind fun _ hf => (memWrite_yields hf _ 2 _).bind fun _ hf =>
      (memWrite_yields hf _ 2 _).bind fun _ hf => (memWrite_yields hf _ 2 _).bind fun _ hf =>
      (memWrite_yields hf _ 4 _).bind fun _ hf => (memWrite_yields hf _ 4 _).bind fun _ hf =>
      (memWrite_yields hf _ 4 _).bind fun _ hf => (memRead_yields hf _ 4).andThen fun _ _ hf =>
      (memRead_yields hf _ 2).andThen fun _ _ hf => (memWrite_yields hf _ 4 _).bind fun _ hf =>
      (memRead_yields hf _ 4).andThen fun _ _ hf => jumpTo_isolated (hf.setRn _ _) _
    split
    · exact (memRead_yields h3 _ 4).andThen fun _ _ hn => (copyArgs_yields _ hn _ _).bind fun _ hc =>
        hframe _ (hc.setSp _)
    · exact hframe _ (h3.setSp _)

theorem execRtm_isolates (h : Confined s t) (rn : Rn) : Isolates s (execRtm rn t) := by
  refine .toRes <| (memRead_yields h _ 2).andThen fun w t1 h1 => ?_
  dsimp -zeta only
  extract_lets type
  split
  · exact trapTo_isolates h1 14#8 _ _
  · refine (accessFor_yields h1 type true _).andThen fun _ _ h2 => (memRead_yields h2 _ 2).andThen fun _ _ h3 =>
      (memRead_yields h3 _ 4).andThen fun _ _ h4 => (memRead_yields h4 _ 4).andThen fun _ _ h5 =>
      (memRead_yields h5 _ 2).andThen fun argc t6 h6 => ?_
    dsimp -zeta only
    extract_lets args rest
    have hrest (v : Long) (u : State) (hu : Confined s u) : Yields s (Isolated s) (rest (v, u)) :=
      jumpTo_isolated (((hu.setCcr _).setRn rn _).setSp _) _
    split
    · exact (memRead_yields h6 _ 4).andThen hrest
    · exact hrest _ _ h6

end Sys2Proof.Proofs
end

section
/-! PROOFS. User isolation (R33, R36): one arm per shape of instruction. -/

namespace Sys2Proof.Proofs

open Sys2Proof.Machine Sys2Proof.Laws

variable {s : State}

/-- Every instruction but those that hold a dialogue with a coprocessor isolates a user program. -/
theorem exec_isolates (h : Confined s s) (i : Instr) (hd : dialogues i = false) : Isolates s (exec i s) := by
  unfold exec
  cases i with
  -- privileged
  | oriSr | andiSr | eoriSr => exact srImm_isolates h _
  | moveFromSr | moveToSr | moveUsp | movec | moves | reset | stop | rte | cpSave | cpRestore =>
    exact requireSupervisor_isolates h _
  -- condition codes
  | oriCcr | andiCcr | eoriCcr => exact .inl ((h.setCcr _).advance 2)
  | moveFromCcr ea => exact setEa_isolates h .w ea _ _
  | moveToCcr ea => exact testEa_isolates h .w 0 ea _
  -- an operand replaced in place
  | ori sz _ ea | andi sz _ ea | subi sz _ ea | addi sz _ ea | eori sz _ ea => exact modifyEa_isolates h sz _ ea _
  | negx sz ea | neg sz ea | not sz ea | eor sz _ ea => exact modifyEa_isolates h sz 0 ea _
  | nbcd ea => exact modifyEa_isolates (h.tickBy 5) .b 0 ea _
  | addq sz q ea => exact execAddq_isolates h sz q ea
  | subq sz q ea => exact execSubq_isolates h sz q ea
  | asrEa ea | aslEa ea | lsrEa ea | lslEa ea | roxrEa ea | roxlEa ea | rorEa ea | rolEa ea =>
    exact shiftEa_isolates h _ ea
  -- an operand only written
  | clr sz ea => exact setEa_isolates h sz ea _ _
  | scc _ ea => exact setEa_isolates h .b ea _ _
  -- an operand only tested
  | tst sz ea | cmp sz _ ea => exact testEa_isolates h sz 0 ea _
  | cmpi sz _ ea => exact testEa_isolates h sz _ ea _
  | cmpa long a ea => exact execCmpa_isolates h long a ea
  | cmpm sz src dst => exact execCmpm_isolates h sz src dst
  | cmp2 sz rn ea => exact execCmp2_isolates h sz rn ea
  | chk2 sz rn ea => exact execChk2_isolates h sz rn ea
  | chkW d ea => exact chk_isolates h .w d ea
  | chkL d ea => exact chk_isolates h .l d ea
  -- two operands
  | or sz toEa d ea | sub sz toEa d ea | and sz toEa d ea | add sz toEa d ea => exact twoWay_isolates h sz toEa d ea _
  | suba _ a ea | adda _ a ea => exact eaToAn_isolates h _ a ea _
  | moveaW a src => exact eaToAn_isolates h .w a src _
  | moveaL a src => exact eaToAn_isolates h .l a src _
  | subx sz mem src dst | addx sz mem src dst => exact pairOp_isolates h sz mem src dst _
  | sbcd mem src dst | abcd mem src dst => exact pairOp_isolates (h.tickBy 5) .b mem src dst _
  | pack mem src dst adj => exact execPack_isolates h mem src dst adj
  | unpk mem src dst adj => exact execUnpk_isolates h mem src dst adj
  | muluW d ea | mulsW d ea => exact mulWord16_isolates h d ea _
  | muluL quad dl dh ea | mulsL quad dl dh ea => exact mulL_isolates h _ quad dl dh ea
  | divuW d ea | divsW d ea => exact divW_isolates h _ d ea
  | divuL quad dq dr ea | divsL quad dq dr ea => exact divL_isolates h _ quad dq dr ea
  -- registers only
  | extW d => exact .inl (((h.setDSized .w d _).setCcr _).advance 1)
  | extL d | extbL d | swap d | moveq d => exact .inl (((h.setD d _).setCcr _).advance 1)
  | exgDD x y => exact .inl (((h.setD x _).setD y _).advance 1)
  | exgAA x y => exact .inl (((h.setA x _).setA y _).advance 1)
  | exgDA x y => exact .inl (((h.setD x _).setA y _).advance 1)
  | asr sz byReg c d | asl sz byReg c d | lsr sz byReg c d | lsl sz byReg c d | roxr sz byReg c d | roxl sz byReg c d
  | ror sz byReg c d | rol sz byReg c d => exact shiftReg_isolates h _ sz byReg c d
  -- bits and bit fields
  | btst _ ea | btstDn _ ea => exact bitTest_isolates h _ _ ea
  | bchg _ ea | bclr _ ea | bset _ ea | bchgDn _ ea | bclrDn _ ea | bsetDn _ ea => exact bitModify_isolates h _ _ _ ea
  | bftst f ea => exact bfRead_isolates h f ea fun _ _ _ _ hu => hu
  | bfextu d f ea | bfexts d f ea | bfffo d f ea => exact bfRead_isolates h f ea fun _ _ _ _ hu => hu.setD d _
  | bfchg f ea | bfclr f ea | bfset f ea => exact bfModify_isolates h f ea _
  | bfins d f ea => exact execBfins_isolates h d f ea
  -- data movement
  | moveB src dst | moveW src dst | moveL src dst => exact moveSized_isolates h _ src dst
  | movep long toMem d a d16 => exact execMovep_isolates h long toMem d a d16
  | movemToMem long mask ea => exact execMovemToMem_isolates h long mask ea
  | movemToRegs long mask ea => exact execMovemToRegs_isolates h long mask ea
  | lea a ea => exact execLea_isolates h a ea
  | pea ea => exact execPea_isolates h ea
  | linkW a | linkL a => exact link_isolates h a _ _
  | unlk a => exact execUnlk_isolates h a
  -- program control
  | nop => exact .inl (h.advance 1)
  | bra => exact jumpTo_isolated h _
  | bsr d => exact execBsr_isolates h d
  | bcc cc d => exact execBcc_isolates h cc d
  | dbcc cc d d16 => exact execDbcc_isolates h cc d d16
  | jmp ea => exact execJmp_isolates h ea
  | jsr ea => exact execJsr_isolates h ea
  | rts => exact execRts_isolates h
  | rtd d16 => exact execRtd_isolates h d16
  | rtr => exact execRtr_isolates h
  -- exceptions
  | trap => exact trapTo_isolates h _ _ _
  | trapv | trapcc | trapccW | trapccL => exact trapIf_isolates h _ _
  | bkpt v => exact execBkpt_isolates h v
  | illegal | aline | flineBadType => exact abandonTo_isolates h _
  | unassigned w => exact execUnassigned_isolates h w
  -- locked instructions and modules
  | tas ea => exact execTas_isolates h ea
  | cas sz dc du ea => exact execCas_isolates h sz dc du ea
  | cas2W rn1 du1 dc1 rn2 du2 dc2 | cas2L rn1 du1 dc1 rn2 du2 dc2 => exact cas2_isolates h _ rn1 du1 dc1 rn2 du2 dc2
  | callm argc ea => exact execCallm_isolates h argc ea
  | rtm rn => exact execRtm_isolates h rn
  -- dialogues with a coprocessor
  | flineCpid0 | cpGen | cpDbcc | cpTrapccW | cpTrapccL | cpTrapcc | cpScc | cpBccW | cpBccL =>
    exact absurd hd Bool.noConfusion

/-- Settles O12: an instruction ends at user level in a confined state, or at supervisor level with the control registers
it found. -/
theorem userIsolation : Obligations.UserIsolation := by
  unfold Obligations.UserIsolation
  intro i s t hd hs hl ht
  have hi := exec_isolates (.refl hs hl) i hd
  rw [ht] at hi
  rcases hi with hc | ⟨hcontrols, hsuper⟩
  · exact ⟨hc.controls, fun _ => ⟨hc.sr, hc.isp, hc.msp⟩⟩
  · exact ⟨hcontrols, fun huser => absurd (hsuper.symm.trans huser) Bool.noConfusion⟩

end Sys2Proof.Proofs
end

section
/-! PROOFS. The instruction cache (R110-R117) and writes to CACR (R40, R45, R46). -/

namespace Sys2Proof.Proofs

open Sys2Proof.Machine Sys2Proof.Laws

variable {s : State}

/-! ## Entries of the cache (R43, R45) -/

/-- The entry an address selects, after it has been replaced. -/
theorem setCacheEntry_get_same (s : State) (a : Long) (e : CacheEntry) :
    (setCacheEntry s a e).cache.get (cacheIndex a) = e := by
  simp [setCacheEntry, Vector.get_eq_getElem]

/-- The other entries are left alone. -/
theorem setCacheEntry_get_ne (s : State) (a : Long) (e : CacheEntry) {k : Fin 64} (h : k ≠ cacheIndex a) :
    (setCacheEntry s a e).cache.get k = s.cache.get k := by
  have hne : (cacheIndex a).val ≠ k.val := fun he => h (Fin.ext he.symm)
  simp [setCacheEntry, Vector.get_eq_getElem, hne]

/-- A cleared cache holds nothing valid. -/
theorem clearCache_get_valid (s : State) (k : Fin 64) : ((clearCache s).cache.get k).valid = false := by
  simp [clearCache, Vector.get_eq_getElem]

/-! ## Writes to CACR (R40) -/

/-- C empties the cache. -/
theorem writeCacr_clear {v : Long} (hc : v.getLsbD 3 = true) (k : Fin 64) :
    ((writeCacr s v).cache.get k).valid = false := by
  simp only [writeCacr, hc, if_true]
  exact clearCache_get_valid _ k

/-- CE makes the entry that CAAR selects invalid. -/
theorem writeCacr_clearEntry {v : Long} (hce : v.getLsbD 2 = true) :
    ((writeCacr s v).cache.get (cacheIndex s.caar)).valid = false := by
  cases hc : v.getLsbD 3
  · simp only [writeCacr, hc, hce, Bool.false_eq_true, if_false, if_true, clearEntry, setCacheEntry_get_same]
  · exact writeCacr_clear hc _

/-- Without C, only the entry that CE clears changes. -/
theorem writeCacr_keeps {v : Long} (hc : v.getLsbD 3 = false) {k : Fin 64}
    (hk : v.getLsbD 2 = false ∨ k ≠ cacheIndex s.caar) : (writeCacr s v).cache.get k = s.cache.get k := by
  cases hce : v.getLsbD 2
  · simp only [writeCacr, hc, hce, Bool.false_eq_true, if_false]
  · have hne : k ≠ cacheIndex s.caar := hk.resolve_left (by simp [hce])
    simp only [writeCacr, hc, hce, Bool.false_eq_true, if_false, if_true]
    exact setCacheEntry_get_ne s s.caar _ hne

/-- A write to CACR changes the cache and the two bits it stores. -/
theorem writeCacr_eq (s : State) (v : Long) :
    writeCacr s v = { s with cache := (writeCacr s v).cache, cacrE := v.getLsbD 0, cacrF := v.getLsbD 1 } := by
  unfold writeCacr
  dsimp only
  split <;> split <;> rfl

/-- CACR reads as the two bits written to it. -/
theorem cacr_bits (v : Long) : (BitVec.ofBool (v.getLsbD 1) ++ BitVec.ofBool (v.getLsbD 0)).setWidth 32 = lowBits 2 v := by
  refine BitVec.eq_of_getLsbD_eq fun i hi => ?_
  simp only [lowBits, BitVec.getLsbD_setWidth, BitVec.getLsbD_append, BitVec.getLsbD_and]
  interval_cases i <;> simp

theorem readCtl_writeCacr (s : State) (v : Long) (n : Nat) :
    readCtl (advance n (writeCacr s v)) 2#12 = some (lowBits 2 v) := by
  rw [writeCacr_eq, ← cacr_bits]
  rfl

/-! ## Words of the instruction stream (R112-R117) -/

/-- The function code of a fetch tells the privilege level. -/
theorem progFc_supervisor (s : State) : (progFc s).getLsbD 2 = s.sr.s := by
  unfold progFc
  cases s.sr.s <;> rfl

/-- The word of an address in its long word. -/
def wordIn (a lw : Long) : Word := if a.getLsbD 1 then lw.extractLsb' 0 16 else lw.extractLsb' 16 16

/-- The stage in which a word enters the pipe. -/
def freshStage (a lw : Long) : PipeStage := { valid := true, addr := a, word := wordIn a lw, fault := false }

/-- With an empty pipe, a word at an even address comes from its long word, and enters the pipe. -/
theorem fetchWord_of_fetchLong {a lw : Long} {t : State} (hp : s.pipe = .empty) (ha : a.getLsbD 0 = false)
    (h : fetchLong s a = .ok (lw, t)) :
    fetchWord s a = .ok (wordIn a lw, { t with pipe := t.pipe.push (freshStage a lw) }) := by
  have hw : pipeWord s.pipe a = none := by rw [hp]; rfl
  simp only [fetchWord, hw, ha, Bool.false_eq_true, if_false, h]
  rfl

theorem fetchWord_of_fetchLong_error {a : Long} {e : FetchStop × State} (hp : s.pipe = .empty)
    (ha : a.getLsbD 0 = false) (h : fetchLong s a = .error e) : fetchWord s a = .error e := by
  have hw : pipeWord s.pipe a = none := by rw [hp]; rfl
  simp only [fetchWord, hw, ha, Bool.false_eq_true, if_false, h]

/-- An odd address is refused. -/
theorem fetchWord_odd {a : Long} (hp : s.pipe = .empty) (ha : a.getLsbD 0 = true) :
    fetchWord s a = .error (.odd, s) := by
  have hw : pipeWord s.pipe a = none := by rw [hp]; rfl
  simp only [fetchWord, hw, ha, if_true]

/-- The holding register with a long word just read. -/
def heldLong (s : State) (a lw : Long) : Holding :=
  { valid := true, addr := longBase a, fc2 := (progFc s).getLsbD 2, data := lw }

/-- A long word in the holding register (R113). -/
theorem fetchLong_held {a : Long} (hv : s.holding.valid = true) (ha : s.holding.addr = longBase a)
    (hs : s.holding.fc2 = s.sr.s) : fetchLong s a = .ok (s.holding.data, s) := by
  simp only [fetchLong, hv, ha, hs, progFc_supervisor, beq_self_eq_true, Bool.and_self, if_true]

/-- A long word in the cache, and not in the holding register (R112, R116). -/
theorem fetchLong_hit {a lw : Long} (hv : s.holding.valid = false) (hc : cacheHit s (progFc s) a = some lw) :
    fetchLong s a = .ok (lw, { s with holding := heldLong s a lw }) := by
  simp only [fetchLong, hv, hc, Bool.false_and, Bool.false_eq_true, if_false]
  rfl

/-- What a long word that has been read leaves in the cache: its entry filled, if the cache is enabled and not frozen
(R114, R115). -/
def cacheFilled (s : State) (a lw : Long) : Vector CacheEntry 64 :=
  if cacheEnabled s && !s.cacrF then
    (setCacheEntry s a { tag := a.extractLsb' 8 24, fc2 := s.sr.s, valid := true, data := lw }).cache
  else s.cache

/-- What a bus error leaves in the cache: the entry invalid, if the cache is enabled (R117). -/
def cacheSpoiled (s : State) (a : Long) : Vector CacheEntry 64 :=
  if cacheEnabled s then (setCacheEntry s a { s.cache.get (cacheIndex a) with valid := false }).cache else s.cache

/-- A long word that is read. -/
theorem fetchLong_miss {a lw : Long} (hv : s.holding.valid = false) (hc : cacheHit s (progFc s) a = none)
    (hb : busRead s (progFc s) (longBase a) 4 = .ok (lw, s)) :
    fetchLong s a = .ok (lw, { s with holding := heldLong s a lw, cache := cacheFilled s a lw }) := by
  simp only [fetchLong, hv, hc, hb, Bool.false_and, Bool.false_eq_true, if_false, cacheFilled, ← progFc_supervisor s]
  split <;> rfl

/-- A long word whose read ends in bus error. -/
theorem fetchLong_bus {a : Long} {f : BusFault} {got : Long} (hv : s.holding.valid = false)
    (hc : cacheHit s (progFc s) a = none) (hb : busRead s (progFc s) (longBase a) 4 = .error (.fault f got s)) :
    fetchLong s a = .error (.bus, { s with cache := cacheSpoiled s a }) := by
  simp only [fetchLong, hv, hc, hb, Bool.false_and, Bool.false_eq_true, if_false, cacheSpoiled]
  split <;> rfl

/-! ## Reads without interference -/

/-- One cycle of a read without interference, outside CPU space: it ends in bus error, or delivers what memory holds. -/
theorem readCycles_succ_alone (h : Alone s) {fc : Fc} (hf : fc ≠ 7#3) (fuel : Nat) (a : Long) {rem : Nat} (h0 : rem ≠ 0)
    (acc : Long) :
    readCycles fc (fuel + 1) s a rem acc =
      if cycleErrs s.platform fc true (extAddr s.platform.variant a) = true then
        .error (.fault { addr := a, fc := fc, read := true, bytes := rem, data := 0#32 } acc s)
      else
        let k := cycleBytes s.platform fc a rem
        readCycles fc fuel s (a + BitVec.ofNat 32 k) (rem - k) ((acc <<< (8 * k)) ||| load s fc a k) := by
  obtain ⟨-, -, hmasters, hsilent⟩ := h
  simp only [readCycles, h0, if_false, otherMasters_none hmasters]
  generalize cycleBytes s.platform fc a rem = k
  cases he : cycleErrs s.platform fc true (extAddr s.platform.variant a)
  · have hc : readCycle s fc a k = .ok (load s fc a k, s) := by
      simp only [readCycle, he, if_false, cycleWaits_none hsilent, Bool.false_eq_true, hf]
    rw [runCycle_ok (cycle := fun s => readCycle s fc a k) hc]
    rfl
  · have hc : readCycle s fc a k = .error (.err s) := by simp only [readCycle, he, if_true]
    rw [runCycle_err (cycle := fun s => readCycle s fc a k) hc]
    rfl

/-- A read without interference, no cycle of which ends in bus error, delivers what memory holds. -/
theorem readCycles_alone (h : Alone s) {fc : Fc} (hf : fc ≠ 7#3) (fuel : Nat) (a : Long) (rem : Nat) (acc : Long)
    (hr : rem ≤ fuel)
    (hn : ∀ b ∈ cycleStarts s.platform fc fuel a rem, ¬ cycleErrs s.platform fc true (extAddr s.platform.variant b) = true) :
    readCycles fc fuel s a rem acc = .ok (loadAcc s fc rem a acc, s) := by
  induction fuel generalizing a rem acc with
  | zero =>
    obtain rfl : rem = 0 := by omega
    rfl
  | succ fuel ih =>
    by_cases h0 : rem = 0
    · simp [readCycles, h0, loadAcc]
    · obtain ⟨k1, k2⟩ := cycleBytes_bounds s.platform fc a rem h0
      simp only [cycleStarts, h0, if_false, List.forall_mem_cons] at hn
      obtain ⟨hfirst, hrest⟩ := hn
      rw [readCycles_succ_alone h hf fuel a h0, if_neg hfirst]
      dsimp only
      rw [ih _ _ _ (by omega) hrest, ← loadAcc_eq, ← loadAcc_add, Nat.add_sub_cancel' k2]

/-- A read without interference, some cycle of which ends in bus error, stops there and leaves the state as it is. -/
theorem readCycles_alone_errs (h : Alone s) {fc : Fc} (hf : fc ≠ 7#3) (fuel : Nat) (a : Long) (rem : Nat) (acc : Long)
    (he : ∃ b ∈ cycleStarts s.platform fc fuel a rem, cycleErrs s.platform fc true (extAddr s.platform.variant b) = true) :
    ∃ f got, readCycles fc fuel s a rem acc = .error (.fault f got s) := by
  induction fuel generalizing a rem acc with
  | zero => simp [cycleStarts] at he
  | succ fuel ih =>
    by_cases h0 : rem = 0
    · simp [cycleStarts, h0] at he
    · simp only [cycleStarts, h0, if_false, List.mem_cons, exists_eq_or_imp] at he
      rw [readCycles_succ_alone h hf fuel a h0]
      split
      case isTrue => exact ⟨_, _, rfl⟩
      case isFalse hfirst => exact ih _ _ _ (he.resolve_left hfirst)

theorem busRead_alone (h : Alone s) {fc : Fc} (hf : fc ≠ 7#3) {a : Long} {n : Nat}
    (hn : ¬ TransferErrs s.platform fc true a n) : busRead s fc a n = .ok (load s fc a n, s) :=
  readCycles_alone h hf n a n 0#32 (Nat.le_refl n) fun b hb he => hn ⟨b, hb, he⟩

theorem busRead_alone_errs (h : Alone s) {fc : Fc} (hf : fc ≠ 7#3) {a : Long} {n : Nat}
    (he : TransferErrs s.platform fc true a n) : ∃ f got, busRead s fc a n = .error (.fault f got s) :=
  readCycles_alone_errs h hf n a n 0#32 he

/-! ## The cache after a miss -/

/-- An enabled cache that is not frozen holds the long word; its other entries stay. -/
theorem cacheFilled_enabled (a lw : Long) (he : cacheEnabled s = true) (hf : s.cacrF = false) :
    (cacheFilled s a lw).get (cacheIndex a) = { tag := a.extractLsb' 8 24, fc2 := s.sr.s, valid := true, data := lw } ∧
      ∀ j, j ≠ cacheIndex a → (cacheFilled s a lw).get j = s.cache.get j := by
  simp only [cacheFilled, he, hf, Bool.not_false, Bool.and_self, if_true]
  exact ⟨setCacheEntry_get_same s a _, fun j hj => setCacheEntry_get_ne s a _ hj⟩

/-- A cache that is off or frozen stays. -/
theorem cacheFilled_off (a lw : Long) (h : cacheEnabled s = false ∨ s.cacrF = true) : cacheFilled s a lw = s.cache := by
  rcases h with h | h <;> simp [cacheFilled, h]

/-- A bus error makes the entry of an enabled cache invalid; its other entries stay. -/
theorem cacheSpoiled_enabled (a : Long) (he : cacheEnabled s = true) :
    (cacheSpoiled s a).get (cacheIndex a) = { s.cache.get (cacheIndex a) with valid := false } ∧
      ∀ j, j ≠ cacheIndex a → (cacheSpoiled s a).get j = s.cache.get j := by
  simp only [cacheSpoiled, he, if_true]
  exact ⟨setCacheEntry_get_same s a _, fun j hj => setCacheEntry_get_ne s a _ hj⟩

theorem cacheSpoiled_off (a : Long) (h : cacheEnabled s = false) : cacheSpoiled s a = s.cache := by
  simp only [cacheSpoiled, h, Bool.false_eq_true, if_false]

/-! ## The instruction cache -/

/-- A write to CACR by a supervisor program. -/
theorem execMovec_cacr (h : s.sr.s = true) (rn : Rn) :
    exec (.movec true rn 2#12) s = .next (advance 2 (writeCacr s (s.rn rn))) := execMovec_write h rfl

/-- A store leaves the pipe alone. -/
@[simp] theorem store_pipe (fc : Fc) (n : Nat) (a v : Long) (s : State) : (store s fc n a v).pipe = s.pipe := by
  rw [store_eq]

/-- A store leaves the holding register alone. -/
@[simp] theorem store_holding (fc : Fc) (n : Nat) (a v : Long) (s : State) :
    (store s fc n a v).holding = s.holding := by
  rw [store_eq]

/-- A store does not change what is in the cache (R116). -/
theorem cacheHit_store (s : State) (fc : Fc) (n : Nat) (b v a : Long) :
    cacheHit (store s fc n b v) (progFc (store s fc n b v)) a = cacheHit s (progFc s) a := by
  rw [store_eq]
  rfl

/-- A word in the enabled cache, and not in the holding register, is fetched from there. -/
theorem fetchWord_hit {a lw : Long} (hp : s.pipe = .empty) (hh : s.holding.valid = false) (ha : a.getLsbD 0 = false)
    (hc : cacheHit s (progFc s) a = some lw) :
    ∃ h p, fetchWord s a = .ok (wordIn a lw, { s with holding := h, pipe := p }) := by
  have hw := fetchWord_of_fetchLong hp ha (fetchLong_hit hh hc)
  exact ⟨_, _, hw⟩

/-- A word in the holding register is fetched from there. -/
theorem fetchWord_held {a : Long} {x : Holding} (hp : s.pipe = .empty) (ha : a.getLsbD 0 = false) (hx : s.holding = x)
    (hv : x.valid = true) (hb : x.addr = longBase a) (hs : x.fc2 = s.sr.s) :
    ∃ p, fetchWord s a = .ok (wordIn a x.data, { s with pipe := p }) := by
  subst hx
  exact ⟨_, fetchWord_of_fetchLong hp ha (fetchLong_held hv hb hs)⟩

/-- Settles O14: a CACR write by `writeCacr`, a word in cache or holding register by where `fetchLong` finds it, a miss by
the read it makes. -/
theorem instructionCache : Obligations.InstructionCache := by
  unfold Obligations.InstructionCache
  refine ⟨fun s rn h => ⟨_, execMovec_cacr h rn, ?_⟩, fun s fc n a b v lw hp hh ha hc => ?_,
    fun s fc n a b v hp ha hv hb hs => ?_, fun s a hal hp hh ha hc => ⟨fun hn => ?_, fun he => ?_⟩⟩
  · have hw := writeCacr_eq s (s.rn rn)
    refine ⟨?_, writeCacr_clear, writeCacr_clearEntry, fun hc k hk => writeCacr_keeps hc hk, readCtl_writeCacr s _ 2,
      ?_, ?_, ?_⟩ <;> rw [hw] <;> rfl
  · exact fetchWord_hit ((store_pipe ..).trans hp) (by rw [store_holding, hh]) ha ((cacheHit_store ..).trans hc)
  · exact fetchWord_held ((store_pipe ..).trans hp) ha (store_holding ..) hv hb (by rw [store_sr, hs])
  · have hw := fetchWord_of_fetchLong hp ha (fetchLong_miss hh hc (busRead_alone hal (progFc_ne s) hn))
    exact ⟨_, _, _, hw, rfl, cacheFilled_enabled a _, cacheFilled_off a _⟩
  · obtain ⟨f, got, hb⟩ := busRead_alone_errs hal (progFc_ne s) he
    exact ⟨_, fetchWord_of_fetchLong_error hp ha (fetchLong_bus hh hc hb), cacheSpoiled_enabled a, cacheSpoiled_off a⟩

end Sys2Proof.Proofs
end

section
/-! PROOFS. The reset sequence (R701-R705). -/

namespace Sys2Proof.Proofs

open Sys2Proof.Machine Sys2Proof.Laws

variable {s t : State}

/-! ## Fetching with the cache off -/

/-- Where no bus cycle fails and the cache is off, a word at an even address is fetched, and only holding register and
pipe change. -/
theorem fetchWord_quiet_off (h : Quiet s) (hoff : s.cacrE = false) (hp : s.pipe = .empty) {a : Long}
    (ha : a.getLsbD 0 = false) : ∃ w x p, fetchWord s a = .ok (w, { s with holding := x, pipe := p }) := by
  have hen : cacheEnabled s = false := by simp [cacheEnabled, hoff]
  by_cases hheld : (s.holding.valid && s.holding.addr == longBase a && s.holding.fc2 == (progFc s).getLsbD 2) = true
  · have hl : fetchLong s a = .ok (s.holding.data, s) := by simp only [fetchLong, hheld, if_true]
    have hw := fetchWord_of_fetchLong hp ha hl
    exact ⟨_, _, _, hw⟩
  · have hb := busRead_quiet h (progFc_ne s) (longBase a) 4
    have hl : fetchLong s a = .ok (load s (progFc s) (longBase a) 4,
        { s with holding := heldLong s a (load s (progFc s) (longBase a) 4) }) := by
      simp only [fetchLong, hheld, if_false, cacheHit, hen, hb, Bool.false_and, Bool.false_eq_true]
      rfl
    have hw := fetchWord_of_fetchLong hp ha hl
    exact ⟨_, _, _, hw⟩

/-- The state with another long word held. -/
def withHolding (s : State) (x : Holding) : State := { s with holding := x }

/-- A word tried at an even address changes the holding register only. -/
theorem prefetch_even (h : Quiet s) (hoff : s.cacrE = false) (hp : s.pipe = .empty) {a : Long}
    (ha : a.getLsbD 0 = false) (x : Holding) : ∃ y, prefetch (withHolding s x) a = .ok (withHolding s y) := by
  have hq : Quiet (withHolding s x) := quiet_congr h rfl rfl rfl
  obtain ⟨w, y, p, hw⟩ := fetchWord_quiet_off hq hoff hp ha
  exact ⟨y, by simp only [prefetch, hw]; rfl⟩

/-- A word tried at an odd address halts the processor. -/
theorem prefetch_odd (hp : s.pipe = .empty) {a : Long} (ha : a.getLsbD 0 = true) :
    prefetch s a = .error (halt s) := by
  simp only [prefetch, fetchWord_odd hp ha]

/-- An even offset keeps an address even. -/
theorem even_add {a b : Long} (ha : a.getLsbD 0 = false) (hb : b.getLsbD 0 = false) : (a + b).getLsbD 0 = false := by
  simp only [BitVec.getLsbD, Nat.testBit_zero, decide_eq_false_iff_not, BitVec.toNat_add] at *
  omega

/-! ## The state of the reset sequence -/

/-- What an operand reads as depends on its bytes alone. -/
theorem load_of_bytes {fc : Fc} (h : ∀ a, byteAt t fc a = byteAt s fc a) (a : Long) (n : Nat) :
    load t fc a n = load s fc a n := by
  have hacc : ∀ n a acc, loadAcc t fc n a acc = loadAcc s fc n a acc := by
    intro n
    induction n with
    | zero => intros; rfl
    | succ n ih => intro a acc; simp only [loadAcc, h, ih]
  exact hacc n a 0#32

/-- A reset changes no byte of memory. -/
theorem load_resetState (s : State) (fc : Fc) (a : Long) (n : Nat) :
    load (Machine.resetState s) fc a n = load s fc a n := load_of_bytes (s := s) (t := Machine.resetState s) (fun _ => rfl) a n

/-- The state after steps 1 to 6 of the reset sequence with ISP and PC loaded (R701). -/
def vectored (s : State) : State :=
  { Machine.resetState s with regs := { s.regs with isp := load s 6#3 0#32 4 }, pc := load s 6#3 4#32 4 }

/-- Where no bus cycle fails after the reset, ISP and PC are loaded, and three words tried at the PC. -/
theorem resetProcessor_eq (h : Quiet (Machine.resetState s)) :
    resetProcessor s = endState (prefetch (vectored s) (vectored s).pc >>= fun t =>
      prefetch t ((vectored s).pc + 2#32) >>= fun t => prefetch t ((vectored s).pc + 4#32)) := by
  have hfc : (6#3 : Fc) ≠ 7#3 := by decide
  have hisp : busRead (Machine.resetState s) 6#3 0#32 4 = .ok (load s 6#3 0#32 4, Machine.resetState s) :=
    load_resetState s 6#3 0#32 4 ▸ busRead_quiet h hfc 0#32 4
  generalize hu : { Machine.resetState s with regs := { s.regs with isp := load s 6#3 0#32 4 } } = u
  have hpc : busRead u 6#3 4#32 4 = .ok (load s 6#3 4#32 4, u) := by
    rw [busRead_quiet (quiet_congr h (by rw [← hu]) (by rw [← hu]) (by rw [← hu])) hfc,
      load_of_bytes (t := u) (s := s) (fun a => by rw [← hu]; rfl)]
  have hv : vectored s = { u with pc := load s 6#3 4#32 4 } := by rw [← hu]; rfl
  simp only [resetProcessor, hisp]
  have hr : (Machine.resetState s).regs = s.regs := rfl
  rw [hr, hu, hpc, hv]

/-- At an even PC the processor starts. -/
theorem resetProcessor_even (h : Quiet (Machine.resetState s)) (he : (vectored s).pc.getLsbD 0 = false) :
    ∃ x, resetProcessor s = withHolding (vectored s) x := by
  have hq : Quiet (vectored s) := quiet_congr h rfl rfl rfl
  have htry {a : Long} (ha : a.getLsbD 0 = false) (x : Holding) := prefetch_even hq rfl rfl ha x
  obtain ⟨x1, h1⟩ := htry he (vectored s).holding
  obtain ⟨x2, h2⟩ := htry (even_add he (b := 2#32) (by decide)) x1
  obtain ⟨x3, h3⟩ := htry (even_add he (b := 4#32) (by decide)) x2
  have h1 : prefetch (vectored s) (vectored s).pc = .ok (withHolding (vectored s) x1) := h1
  refine ⟨x3, ?_⟩
  rw [resetProcessor_eq h, h1, ok_bind, h2, ok_bind, h3]
  rfl

/-- At an odd PC it halts (R703). -/
theorem resetProcessor_odd (h : Quiet (Machine.resetState s)) (ho : (vectored s).pc.getLsbD 0 = true) :
    resetProcessor s = halt (vectored s) := by
  rw [resetProcessor_eq h, prefetch_odd rfl ho]
  rfl

/-- What the reset sequence leaves, but for the run state, is the state `vectored`, with some long word held. -/
theorem resetProcessor_vectored (h : Quiet (Machine.resetState s)) :
    ∃ x, resetProcessor s = { vectored s with
      holding := x, run := if (load s 6#3 4#32 4).getLsbD 0 then RunState.halted else RunState.normal } := by
  cases hb : (load s 6#3 4#32 4).getLsbD 0
  · exact resetProcessor_even h hb
  · exact ⟨(vectored s).holding, resetProcessor_odd h hb⟩

/-- Settles O8: every field of `vectored`. -/
theorem resetSequence : Obligations.ResetSequence := by
  unfold Obligations.ResetSequence
  intro s h
  obtain ⟨x, hx⟩ := resetProcessor_vectored (s := s) ⟨⟨rfl, rfl, h.1.2.2.1, h.1.2.2.2⟩, h.2⟩
  rw [hx]
  exact ⟨rfl, rfl, rfl, rfl, clearCache_get_valid (flush s), rfl, rfl, rfl, rfl, rfl, rfl, rfl, rfl, rfl, rfl⟩

end Sys2Proof.Proofs
end

section
/-! PROOFS. Processors that execute nothing: halted, stopped, and waiting in a bus cycle (R90, R408, R604). -/

namespace Sys2Proof.Proofs

open Sys2Proof.Machine Sys2Proof.Laws

variable {s : State}

/-! ## Inputs at a boundary (log 5) -/

/-- Without a reset a batch of inputs arrives as a whole. -/
theorem takeBatch_rest {batch : List Input} (h : Input.reset ∉ batch) (s : State) : (takeBatch batch s).2 = [] := by
  induction batch generalizing s with
  | nil => rfl
  | cons i is ih =>
    obtain ⟨hi, his⟩ := not_or.1 (mt List.mem_cons.2 h)
    rw [takeBatch, if_neg (Ne.symm hi)]
    exact ih his _

/-- Inputs other than a reset change memory and platform, and the sample after them the request state. -/
theorem pollInputs_frame (h : ∀ b ∈ s.platform.inputs.head?, Input.reset ∉ b) :
    ∃ m p q, pollInputs s = { s with mem := m, platform := p, irq := q } := by
  unfold pollInputs
  split
  case h_1 => exact ⟨_, _, _, rfl⟩
  case h_2 batch rest heq =>
    have hb : Input.reset ∉ batch := h batch (by rw [heq]; rfl)
    have hrest := takeBatch_rest hb (s.setInputs rest)
    obtain ⟨m, p, hm⟩ := takeBatch_frame batch (s.setInputs rest)
    have ha : arrive (s.setInputs rest) batch = (takeBatch batch (s.setInputs rest)).1 := by
      unfold arrive
      split
      case h_1 t ht => rw [ht]
      case h_2 t i later ht => rw [ht] at hrest; exact absurd hrest (List.cons_ne_nil i later)
    rw [ha, hm]
    exact ⟨_, _, _, rfl⟩

/-- A processor that executes nothing only sees inputs. -/
theorem step_idle (h : s.run = .halted ∨ (s.run = .stopped ∧ s.irq.pending = false) ∨
    (s.run = .waiting ∧ s.platform.inputs ≠ [])) : step s = .next (pollInputs s) := by
  rcases h with h | ⟨h, hp⟩ | ⟨h, hi⟩
  · simp only [step, h]
  · simp only [step, h, hp, Bool.false_eq_true, if_false]
  · have he : s.platform.inputs.isEmpty = false := by simpa using hi
    simp only [step, h, he, Bool.false_eq_true, if_false]

/-! ## A bus cycle that waits (R90, log 5) -/

/-- Without inputs to come a cycle that waits does so for ever. -/
theorem runCycle_noInputs {β : Type} {cycle : State → Sys2Proof.Machine.Cycle β} (hi : s.platform.inputs = [])
    (hc : cycle s = .error (.wait s)) : runCycle cycle s = .error (.wait s) := by
  simp only [runCycle, awaitCycle, hc, awaitInputs, hi, Bool.false_eq_true, if_false]

/-- A reset ends the wait for the cycle, and is left for the boundary (R700). -/
theorem runCycle_reset {β : Type} {cycle : State → Sys2Proof.Machine.Cycle β} {rest : List (List Input)}
    (hi : s.platform.inputs = [.reset] :: rest) (hc : cycle s = .error (.wait s)) :
    runCycle cycle s = .error (.wait s) := by
  have ha : awaitInputs s = (false, s.setInputs ([.reset] :: rest)) := by
    cases hr : s.rmc <;> simp [awaitInputs, hi, hr, takeBatch, Input.isStore, State.setInputs]
  have hs : s.setInputs ([.reset] :: rest) = s := by rw [← hi]; rfl
  simp only [runCycle, awaitCycle, hc, ha, hs, Bool.false_eq_true, if_false]

/-- A change of the addresses that no device answers arrives, and the cycle is tried again. -/
theorem runCycle_silent {β : Type} {cycle : State → Sys2Proof.Machine.Cycle β} {rs : List FaultRegion}
    {rest : List (List Input)} (hi : s.platform.inputs = [.silent rs] :: rest) (hc : cycle s = .error (.wait s)) :
    runCycle cycle s = runCycle cycle { s with platform := { s.platform with silent := rs, inputs := rest } } := by
  have ha : awaitInputs s = (true, { s with platform := { s.platform with silent := rs, inputs := rest } }) := by
    cases hr : s.rmc <;>
      simp [awaitInputs, hi, hr, takeBatch, applyInput, Input.isStore, State.setInputs, beforeInputs]
  rw [runCycle, awaitCycle, hc]
  simp only [ha, hi, if_true, runCycle, List.length_cons]

/-- The first cycle of a read by an instruction, where nothing is taken over and no other master stores, waits for ever:
so does the processor. -/
theorem readFc_hang (hr : s.replay = []) (hl : s.landing = none) (hm : s.platform.masters = []) {fc : Fc} {a : Long}
    {n : Nat} (hn : n ≠ 0) (hc : ∀ k, runCycle (fun s => readCycle s fc a k) s = .error (.wait s)) :
    readFc s fc a n = .error (.next (hang s)) := by
  obtain ⟨n, rfl⟩ := Nat.exists_eq_succ_of_ne_zero hn
  simp only [readFc, hr, land_none hl, busRead, readCycles, Nat.succ_ne_zero, if_false, otherMasters_none hm, hc,
    stopRun]

/-- A read by an instruction depends on the state by its first cycle alone. -/
theorem readFc_congr {t : State} (hs : s.replay = [] ∧ s.landing = none ∧ s.platform.masters = [])
    (ht : t.replay = [] ∧ t.landing = none ∧ t.platform.masters = []) {fc : Fc} {a : Long} {n : Nat} (hn : n ≠ 0)
    (hb : cycleBytes s.platform fc a n = cycleBytes t.platform fc a n)
    (hc : ∀ k, runCycle (fun s => readCycle s fc a k) s = runCycle (fun s => readCycle s fc a k) t) :
    readFc s fc a n = readFc t fc a n := by
  obtain ⟨hsr, hsl, hsm⟩ := hs
  obtain ⟨htr, htl, htm⟩ := ht
  obtain ⟨n, rfl⟩ := Nat.exists_eq_succ_of_ne_zero hn
  simp only [readFc, hsr, htr, land_none hsl, land_none htl, busRead, readCycles, Nat.succ_ne_zero, if_false,
    otherMasters_none hsm, otherMasters_none htm, hb, hc]

theorem bytesOf_ne_zero (sz : Size) : bytesOf sz ≠ 0 := by cases sz <;> decide

/-- TST (An) reads its operand, then sets the flags. -/
theorem exec_tst_ind (s : State) (sz : Size) (n : Reg) :
    exec (.tst sz (.ind n)) s =
      match readFc s (dataFc s) (s.a n) (bytesOf sz) with
      | .ok (v, t) => .next (advance 1 (t.setCcr (logicFlags s.ccr sz v)))
      | .error r => r := rfl

/-- Settles O7: an idle step only polls inputs; a waiting operand cycle by what the next batch of inputs does to it. -/
theorem waitingStates : Obligations.WaitingStates := by
  unfold Obligations.WaitingStates
  refine ⟨fun s hin hrun => ?_, fun s hrun hin => ?_, fun s sz n rs rest hr hl hm he hw => ⟨?_, ?_, ?_⟩⟩
  · obtain ⟨m, p, q, hp⟩ := pollInputs_frame hin
    exact ⟨_, step_idle hrun, by rw [hp]; exact ⟨rfl, rfl, rfl, rfl, rfl⟩⟩
  · simp only [step, hrun, hin, List.isEmpty_nil, if_true]
  all_goals
    intro hin
    have hwait (k : Nat) : readCycle s (dataFc s) (s.a n) k = .error (.wait s) := by
      simp only [readCycle, he, hw, Bool.false_eq_true, if_false, if_true]
  · rw [exec_tst_ind, readFc_hang hr hl hm (bytesOf_ne_zero sz) fun k => runCycle_noInputs hin (hwait k)]
  · rw [exec_tst_ind, readFc_hang hr hl hm (bytesOf_ne_zero sz) fun k => runCycle_reset hin (hwait k)]
  · have hread := readFc_congr (t := { s with platform := { s.platform with silent := rs, inputs := rest } })
      ⟨hr, hl, hm⟩ ⟨hr, hl, hm⟩ (bytesOf_ne_zero sz) rfl fun k => runCycle_silent hin (hwait k)
    rw [exec_tst_ind, hread]
    rfl

end Sys2Proof.Proofs
end

section
/-! PROOFS. Operands in memory (R76, R80). -/

namespace Sys2Proof.Proofs

open Sys2Proof.Machine Sys2Proof.Laws

variable {s t : State}

/-! ## Bytes after a store -/

theorem setByteAt_wf (h : Memory.wf s.mem = true) (fc : Fc) (a : Long) (b : Byte) :
    Memory.wf (setByteAt s fc a b).mem = true := write_wf _ b h

/-- What a byte reads as after a byte has been stored. -/
theorem byteAt_setByteAt (h : Memory.wf s.mem = true) (fc fc' : Fc) (a a' : Long) (b : Byte) :
    byteAt (setByteAt s fc a b) fc' a' =
      if memKey s.platform fc' a' = memKey s.platform fc a then b else byteAt s fc' a' :=
  read_write _ _ b h

/-- An operand's byte `i + 1` is byte `i` of the operand one address up. -/
theorem add_ofNat_succ (a : Long) (i : Nat) : a + BitVec.ofNat 32 (i + 1) = a + 1#32 + BitVec.ofNat 32 i := by
  rw [BitVec.add_assoc, ← BitVec.ofNat_add, Nat.add_comm]

/-- A store changes no byte but its operand's. -/
theorem byteAt_store_of_ne {fc fc' : Fc} (n : Nat) {a a' : Long} (v : Long) (h : Memory.wf s.mem = true)
    (hne : ∀ i < n, memKey s.platform fc' a' ≠ memKey s.platform fc (a + BitVec.ofNat 32 i)) :
    byteAt (store s fc n a v) fc' a' = byteAt s fc' a' := by
  induction n generalizing s a with
  | zero => rfl
  | succ n ih =>
    have hfirst : memKey s.platform fc' a' ≠ memKey s.platform fc a := by simpa using hne 0 (Nat.succ_pos n)
    have hrest : ∀ i < n, memKey s.platform fc' a' ≠ memKey s.platform fc (a + 1#32 + BitVec.ofNat 32 i) := fun i hi =>
      add_ofNat_succ a i ▸ hne (i + 1) (Nat.succ_lt_succ hi)
    rw [store, ih (setByteAt_wf h fc a _) hrest, byteAt_setByteAt h, if_neg hfirst]

/-- The bus sees fewer than 2^24 successive addresses as different ones, on both parts (R72). -/
theorem memKey_ne_add (p : Platform) (fc : Fc) (a : Long) {i : Nat} (h0 : 0 < i) (hi : i < 2 ^ 24) :
    memKey p fc a ≠ memKey p fc (a + BitVec.ofNat 32 i) := by
  have hext : extAddr p.variant a ≠ extAddr p.variant (a + BitVec.ofNat 32 i) := by
    have := a.isLt
    cases p.variant <;>
      simp only [extAddr, BitVec.extractLsb'_toNat, BitVec.toNat_add, BitVec.toNat_ofNat, Nat.shiftRight_zero] <;> omega
  simp only [memKey]
  omega

/-- The bytes of an operand as a store leaves them, the most significant first. -/
theorem byteAt_store (fc : Fc) {n : Nat} (hn : n ≤ 2 ^ 24) (a v : Long) (h : Memory.wf s.mem = true) {i : Nat}
    (hi : i < n) : byteAt (store s fc n a v) fc (a + BitVec.ofNat 32 i) = byteOf v (n - 1 - i) := by
  induction n generalizing s a i with
  | zero => omega
  | succ n ih =>
    have hw := setByteAt_wf h fc a (byteOf v n)
    cases i with
    | zero =>
      have hne : ∀ i < n, memKey s.platform fc a ≠ memKey s.platform fc (a + 1#32 + BitVec.ofNat 32 i) := fun i hi =>
        add_ofNat_succ a i ▸ memKey_ne_add s.platform fc a (Nat.succ_pos i) (by omega)
      rw [BitVec.add_zero, store, byteAt_store_of_ne n v hw hne, byteAt_setByteAt h, if_pos rfl]
      rfl
    | succ i =>
      rw [store, add_ofNat_succ a i, ih (by omega) _ hw (Nat.lt_of_succ_lt_succ hi)]
      congr 1
      omega

/-! ## Operands read back -/

/-- One more byte above the low `n` bytes of a value. -/
theorem lowBits_succ_byte (v : Long) (n : Nat) :
    ((byteOf v n).setWidth 32 <<< (8 * n)) ||| lowBits (8 * n) v = lowBits (8 * (n + 1)) v := by
  refine BitVec.eq_of_getLsbD_eq fun j hj => ?_
  simp only [byteOf, lowBits, BitVec.getLsbD_or, BitVec.getLsbD_shiftLeft, BitVec.getLsbD_and, BitVec.getLsbD_ofNat,
    Nat.testBit_two_pow_sub_one, BitVec.getLsbD_setWidth, BitVec.getLsbD_ushiftRight]
  by_cases h8 : j < 8 * n
  · have hsucc : j < 8 * (n + 1) := by omega
    simp [hj, h8, hsucc]
  · have hadd : 8 * n + (j - 8 * n) = j := by omega
    have hbyte : j - 8 * n < 8 ↔ j < 8 * (n + 1) := by omega
    simp [hj, h8, hadd, hbyte, Bool.and_comm, show j - 8 * n < 32 by omega]

/-- An operand whose bytes are those of a value reads as the value. -/
theorem load_of_byteOf {fc : Fc} {n : Nat} {a v : Long}
    (h : ∀ i < n, byteAt s fc (a + BitVec.ofNat 32 i) = byteOf v (n - 1 - i)) : load s fc a n = lowBits (8 * n) v := by
  induction n generalizing a with
  | zero => simp [load, loadAcc, lowBits]
  | succ n ih =>
    have hfirst : byteAt s fc a = byteOf v n := by simpa using h 0 (Nat.succ_pos n)
    have hrest : load s fc (a + 1#32) n = lowBits (8 * n) v := ih fun i hi => by
      rw [← add_ofNat_succ, h (i + 1) (Nat.succ_lt_succ hi)]
      congr 1
      omega
    rw [load, loadAcc, loadAcc_eq, hrest, hfirst, ← lowBits_succ_byte]
    simp

/-- Settles O13: the bytes a store leaves, then the operand made of them, and the bytes it does not reach. -/
theorem memoryOperands : Obligations.MemoryOperands := by
  unfold Obligations.MemoryOperands
  refine ⟨fun s fc n a v hwf hn => ?_, fun s fc n a v hwf => ⟨?_, store_eq fc n a v s⟩⟩
  · have hbytes : ∀ i < n, byteAt (store s fc n a v) fc (a + BitVec.ofNat 32 i) = byteOf v (n - 1 - i) := fun i hi =>
      byteAt_store fc (by omega) a v hwf hi
    exact ⟨load_of_byteOf hbytes, hbytes⟩
  · exact fun fc' a' hne => byteAt_store_of_ne n v hwf hne

end Sys2Proof.Proofs
end

section
/-! PROOFS. Double bus faults (R604) and the reset vectors (R703). -/

namespace Sys2Proof.Proofs

open Sys2Proof.Machine Sys2Proof.Laws

variable {s t : State} {p : Platform}

/-! ## Bus operations outside CPU space, where every cycle ends -/

/-- The platform is `p`, but for what other masters will store. -/
def OnlyMasters (p : Platform) (s : State) : Prop := ∃ ms, s.platform = { p with masters := ms }

theorem OnlyMasters.sameBus (h : OnlyMasters p s) (hp : p.silent = []) : SameBus s.platform p := by
  obtain ⟨ms, h⟩ := h
  rw [h]
  exact ⟨rfl, rfl, rfl, hp⟩

theorem OnlyMasters.otherMasters (h : OnlyMasters p s) : OnlyMasters p (otherMasters s) := by
  obtain ⟨ms, h⟩ := h
  unfold Machine.otherMasters
  split
  · exact ⟨ms, h⟩
  · split
    · exact ⟨ms, h⟩
    · exact ⟨_, by rw [h]⟩

theorem OnlyMasters.store (h : OnlyMasters p s) (fc : Fc) (n : Nat) (a v : Long) :
    OnlyMasters p (store s fc n a v) := by
  obtain ⟨ms, h⟩ := h
  exact ⟨ms, (store_platform ..).trans h⟩

/-- A bus operation completes, with the platform `p` but for the other masters, or ends in bus error. -/
def Ends {β : Type} (p : Platform) (state : β → State) (r : BusRun β) : Prop :=
  (∃ v, r = .ok v ∧ OnlyMasters p (state v)) ∨ ∃ f got t, r = .error (.fault f got t)

/-- A read cycle ends. -/
theorem readCycle_ends (h : OnlyMasters p s) (hp : p.silent = []) {fc : Fc} (hf : fc ≠ 7#3) (a : Long) (k : Nat) :
    (∃ v, readCycle s fc a k = .ok (v, s)) ∨ readCycle s fc a k = .error (.err s) := by
  simp only [readCycle, cycleWaits_none (h.sameBus hp).2.2.2, hf, Bool.false_eq_true, if_false]
  split
  · exact .inr rfl
  · exact .inl ⟨_, rfl⟩

/-- A write cycle ends. -/
theorem writeCycle_ends (h : OnlyMasters p s) (hp : p.silent = []) {fc : Fc} (hf : fc ≠ 7#3) (a : Long) (k : Nat)
    (v : Long) :
    writeCycle s fc a k v = .ok (store s fc k a v) ∨ writeCycle s fc a k v = .error (.err s) := by
  simp only [writeCycle, cycleWaits_none (h.sameBus hp).2.2.2, hf, Bool.false_eq_true, if_false]
  split
  · exact .inr rfl
  · exact .inl rfl

theorem readCycles_ends (hp : p.silent = []) {fc : Fc} (hf : fc ≠ 7#3) (fuel : Nat) (h : OnlyMasters p s) (a : Long)
    (rem : Nat) (acc : Long) : Ends p Prod.snd (readCycles fc fuel s a rem acc) := by
  induction fuel generalizing s a rem acc with
  | zero => exact .inl ⟨_, rfl, h⟩
  | succ fuel ih =>
    unfold readCycles
    split
    · exact .inl ⟨_, rfl, h⟩
    · dsimp only
      generalize cycleBytes (otherMasters s).platform fc a rem = k
      rcases readCycle_ends h.otherMasters hp hf a k with ⟨v, hc⟩ | hc
      · rw [runCycle_ok (cycle := fun s => readCycle s fc a k) hc]
        exact ih h.otherMasters _ _ _
      · rw [runCycle_err (cycle := fun s => readCycle s fc a k) hc]
        exact .inr ⟨_, _, _, rfl⟩

theorem writeCycles_ends (hp : p.silent = []) {fc : Fc} (hf : fc ≠ 7#3) (fuel : Nat) (h : OnlyMasters p s) (a : Long)
    (rem : Nat) (v : Long) : Ends p id (writeCycles fc fuel s a rem v) := by
  induction fuel generalizing s a rem with
  | zero => exact .inl ⟨_, rfl, h⟩
  | succ fuel ih =>
    unfold writeCycles
    split
    · exact .inl ⟨_, rfl, h⟩
    · dsimp only
      generalize cycleBytes (otherMasters s).platform fc a rem = k
      generalize lowBits (8 * k) (v >>> (8 * (rem - k))) = x
      rcases writeCycle_ends h.otherMasters hp hf a k x with hc | hc
      · rw [runCycle_ok (cycle := fun s => writeCycle s fc a k x) hc]
        exact ih (h.otherMasters.store ..) _ _
      · rw [runCycle_err (cycle := fun s => writeCycle s fc a k x) hc]
        exact .inr ⟨_, _, _, rfl⟩

theorem busRead_ends (h : OnlyMasters p s) (hp : p.silent = []) {fc : Fc} (hf : fc ≠ 7#3) (a : Long) (n : Nat) :
    Ends p Prod.snd (busRead s fc a n) := readCycles_ends hp hf n h a n 0#32

theorem busWrite_ends (h : OnlyMasters p s) (hp : p.silent = []) {fc : Fc} (hf : fc ≠ 7#3) (a : Long) (n : Nat)
    (v : Long) :
    Ends p id (busWrite s fc a n v) := writeCycles_ends hp hf n h a n v

theorem writeFields_ends (h : OnlyMasters p s) (hp : p.silent = []) {fc : Fc} (hf : fc ≠ 7#3) (a : Long)
    (fs : List (Nat × Long)) : Ends p id (writeFields s fc a fs) := by
  induction fs generalizing s a with
  | nil => exact .inl ⟨_, rfl, h⟩
  | cons x fs ih =>
    obtain ⟨n, v⟩ := x
    rcases busWrite_ends h hp hf a n v with ⟨t, hw, ht⟩ | ⟨f, got, t, hw⟩
    · simp only [writeFields, hw, ok_bind]
      exact ih ht _
    · exact .inr ⟨f, got, t, by simp only [writeFields, hw]; rfl⟩

/-! ## Transfers some cycle of which ends in bus error -/

theorem busRead_fails (h : OnlyMasters p s) (hp : p.silent = []) {fc : Fc} (hf : fc ≠ 7#3) {a : Long} {n : Nat}
    (he : TransferErrs p fc true a n) : ∃ f got t, busRead s fc a n = .error (.fault f got t) :=
  readCycles_errs hf n (h.sameBus hp) a n 0#32 he

theorem busWrite_fails (h : OnlyMasters p s) (hp : p.silent = []) {fc : Fc} (hf : fc ≠ 7#3) {a : Long} {n : Nat}
    (v : Long) (he : TransferErrs p fc false a n) : ∃ f got t, busWrite s fc a n v = .error (.fault f got t) :=
  writeCycles_errs hf n (h.sameBus hp) a n v he

/-- Where one field cannot be written, the list of fields cannot: the fields before it are written, or fail
themselves. -/
theorem writeFields_fails (h : OnlyMasters p s) (hp : p.silent = []) {fc : Fc} (hf : fc ≠ 7#3) (a : Long)
    (pre post : List (Nat × Long)) {n : Nat} (v : Long)
    (he : TransferErrs p fc false (a + BitVec.ofNat 32 (fieldsSize pre)) n) :
    ∃ f got t, writeFields s fc a (pre ++ (n, v) :: post) = .error (.fault f got t) := by
  induction pre generalizing s a with
  | nil =>
    obtain ⟨f, got, t, hw⟩ := busWrite_fails h hp hf v (by simpa [fieldsSize] using he)
    exact ⟨f, got, t, by simp only [List.nil_append, writeFields, hw]; rfl⟩
  | cons x pre ih =>
    obtain ⟨m, w⟩ := x
    rcases busWrite_ends h hp hf a m w with ⟨t, hw, ht⟩ | ⟨f, got, t, hw⟩
    · simp only [List.cons_append, writeFields, hw, ok_bind]
      refine ih ht _ ?_
      simpa [fieldsSize, BitVec.ofNat_add, BitVec.add_assoc] using he
    · exact ⟨f, got, t, by simp only [List.cons_append, writeFields, hw]; rfl⟩

/-! ## The processing of a bus fault (R604, R618) -/

theorem supervisorData_ne : (5#3 : Fc) ≠ 7#3 := by decide

theorem supervisorProgram_ne : (6#3 : Fc) ≠ 7#3 := by decide

theorem suspend_entered (s : State) (f : FaultFrame) : Entered s (suspend s f) := ⟨rfl, rfl⟩

/-- The frame is written below the active stack pointer of the supervisor. -/
theorem pushFields_suspend (s : State) (f : FaultFrame) (fs : List (Nat × Long)) :
    pushFields (suspend s f) fs =
      writeFields ((suspend s f).setSp (activeSp s.regs { s.sr with s := true } - BitVec.ofNat 32 (fieldsSize fs))) 5#3
        (activeSp s.regs { s.sr with s := true } - BitVec.ofNat 32 (fieldsSize fs)) fs := by
  have hsp : (suspend s f).sp = activeSp s.regs { s.sr with s := true } := rfl
  simp only [pushFields, hsp, sp_setSp]

theorem pushFields_ends (s : State) (hp : s.platform.silent = []) (f : FaultFrame) (fs : List (Nat × Long)) :
    Ends s.platform id (pushFields (suspend s f) fs) := by
  rw [pushFields_suspend]
  exact writeFields_ends (s := (suspend s f).setSp _) ⟨_, rfl⟩ hp supervisorData_ne _ fs

/-- A frame that has been stacked: the platform is as before but for the other masters, and VBR, CACR and the supervisor
level are those of the suspension. -/
theorem pushFields_ok (hp : s.platform.silent = []) {f : FaultFrame} {fs : List (Nat × Long)}
    (h : pushFields (suspend s f) fs = .ok t) : OnlyMasters s.platform t ∧ Entered s t := by
  have he := pushFields_entered (suspend_entered s f) fs
  rw [h] at he
  refine ⟨?_, he⟩
  rcases pushFields_ends s hp f fs with ⟨v, hv, hm⟩ | ⟨_, _, _, hv⟩
  · cases h.symm.trans hv
    exact hm
  · cases h.symm.trans hv

theorem Entered.vectorAddr (h : Entered s t) (vector : Byte) : vectorAddr t vector = vectorAddr s vector := by
  have hvbr : t.vbr = s.vbr := congrArg Prod.fst h.1
  simp only [Machine.vectorAddr, hvbr]

/-- A frame that cannot be stacked halts the processor. -/
theorem takeFault_run_of_push {f : FaultFrame}
    (h : ∃ b got t, pushFields (suspend s f) (faultFields s f) = .error (.fault b got t)) :
    (takeFault s f).run = .halted := by
  obtain ⟨b, got, t, h⟩ := h
  simp only [takeFault, h]
  rfl

/-- With the frame stacked, the vector decides. -/
theorem takeFault_run_of_vector {f : FaultFrame} (ht : pushFields (suspend s f) (faultFields s f) = .ok t)
    (h : ∃ b got u, busRead t 5#3 (vectorAddr t f.vector) 4 = .error (.fault b got u)) :
    (takeFault s f).run = .halted := by
  obtain ⟨b, got, u, h⟩ := h
  simp only [takeFault, ht, h]
  rfl

/-- With the vector read, the handler's first word decides. -/
theorem takeFault_run_of_prefetch {u v : State} {f : FaultFrame} {target : Long}
    (ht : pushFields (suspend s f) (faultFields s f) = .ok t)
    (hu : busRead t 5#3 (vectorAddr t f.vector) 4 = .ok (target, u))
    (h : prefetch (startAt u target) target = .error (halt v)) : (takeFault s f).run = .halted := by
  simp only [takeFault, ht, hu, h]
  rfl

/-- With the cache off, a word of supervisor program space whose long word cannot be read cannot be fetched. -/
theorem prefetch_fails (h : OnlyMasters p s) (hp : p.silent = []) (hs : s.sr.s = true) (hc : cacheEnabled s = false)
    (hh : s.holding.valid = false) (hpi : s.pipe = .empty) {a : Long} (ha : a.getLsbD 0 = false)
    (he : TransferErrs p 6#3 true (longBase a) 4) : ∃ t, prefetch s a = .error (halt t) := by
  have hfc : progFc s = 6#3 := by simp only [progFc, hs, if_true]
  obtain ⟨b, got, t, hb⟩ := busRead_fails h hp supervisorProgram_ne he
  have hmiss : cacheHit s (6#3) a = none := by simp only [cacheHit, hc, Bool.false_and, Bool.false_eq_true, if_false]
  obtain ⟨u, hl⟩ : ∃ u, fetchLong s a = .error (.bus, u) := by
    simp only [fetchLong, hfc, hh, hmiss, hb, Bool.false_and, Bool.false_eq_true, if_false]
    exact ⟨_, rfl⟩
  exact ⟨{ u with pipe := s.pipe }, by simp only [prefetch, fetchWord_of_fetchLong_error hpi ha hl]⟩

/-- A failing bus cycle of a field of the frame. -/
theorem takeFault_frame_fails (hp : s.platform.silent = []) (f : FaultFrame) {pre post : List (Nat × Long)} {n : Nat}
    {v : Long} (hf : faultFields s f = pre ++ (n, v) :: post)
    (he : TransferErrs s.platform 5#3 false
      (activeSp s.regs { s.sr with s := true } - BitVec.ofNat 32 (fieldsSize (faultFields s f)) +
        BitVec.ofNat 32 (fieldsSize pre)) n) : (takeFault s f).run = .halted := by
  refine takeFault_run_of_push ?_
  rw [pushFields_suspend]
  rw [hf] at he ⊢
  exact writeFields_fails (s := (suspend s f).setSp _) ⟨_, rfl⟩ hp supervisorData_ne _ pre post v he

/-- A failing bus cycle of the vector. -/
theorem takeFault_vector_fails (hp : s.platform.silent = []) (f : FaultFrame)
    (he : TransferErrs s.platform 5#3 true (vectorAddr s f.vector) 4) : (takeFault s f).run = .halted := by
  rcases pushFields_ends s hp f (faultFields s f) with ⟨t, ht, hm⟩ | hfault
  · have hv := (pushFields_ok hp ht).2.vectorAddr f.vector
    exact takeFault_run_of_vector ht (hv ▸ busRead_fails hm hp supervisorData_ne he)
  · exact takeFault_run_of_push hfault

/-- A handler at an odd address, or one whose first word cannot be read. -/
theorem takeFault_handler_fails (hp : s.platform.silent = []) {f : FaultFrame} {t u : State} {target : Long}
    (ht : pushFields (suspend s f) (faultFields s f) = .ok t)
    (hu : busRead t 5#3 (vectorAddr s f.vector) 4 = .ok (target, u))
    (h : target.getLsbD 0 = true ∨ (cacheEnabled s = false ∧ TransferErrs s.platform 6#3 true (longBase target) 4)) :
    (takeFault s f).run = .halted := by
  obtain ⟨hm, he⟩ := pushFields_ok hp ht
  have hv := he.vectorAddr f.vector
  obtain ⟨v, hfetch⟩ : ∃ v, prefetch (startAt u target) target = .error (halt v) := by
    cases hodd : target.getLsbD 0
    case true => exact ⟨_, prefetch_odd rfl hodd⟩
    case false =>
      obtain ⟨hoff, herr⟩ := h.resolve_left (by rw [hodd]; exact Bool.false_ne_true)
      have hue := busRead_entered he 5#3 (vectorAddr s f.vector) 4
      rw [hu] at hue
      obtain ⟨hcontrols, hsuper⟩ : Entered s u := hue
      have hum : OnlyMasters s.platform u := by
        rcases busRead_ends hm hp supervisorData_ne (vectorAddr s f.vector) 4 with ⟨x, hx, hxm⟩ | ⟨_, _, _, hx⟩
        · cases hu.symm.trans hx
          exact hxm
        · cases hu.symm.trans hx
      have hcacr : u.cacrE = s.cacrE := congrArg (fun c => c.2.2.2.1) hcontrols
      obtain ⟨ms, hms⟩ := hum
      have hcdis : cacheEnabled (startAt u target) = false := by
        simp only [cacheEnabled, startAt_cacrE, startAt_platform, hcacr, hms]
        exact hoff
      exact prefetch_fails (s := startAt u target) ⟨ms, hms⟩ hp hsuper hcdis rfl rfl hodd herr
  exact takeFault_run_of_prefetch ht (hv ▸ hu) hfetch

/-! ## The reset vectors (R703) -/

/-- A reset vector that cannot be read. -/
theorem resetProcessor_vector_fails (s : State) (hp : s.platform.onReset.silent = [])
    (h : TransferErrs (resetPlatform s.platform) 6#3 true 0#32 4 ∨
      TransferErrs (resetPlatform s.platform) 6#3 true 4#32 4) :
    (resetProcessor s).run = .halted := by
  have hm : OnlyMasters (resetPlatform s.platform) (Machine.resetState s) := ⟨_, rfl⟩
  rcases busRead_ends hm hp supervisorProgram_ne 0#32 4 with ⟨⟨isp, t⟩, hisp, ht⟩ | ⟨_, _, _, hisp⟩
  · have he : TransferErrs (resetPlatform s.platform) 6#3 true 4#32 4 := by
      refine h.resolve_left fun h0 => ?_
      obtain ⟨_, _, _, hx⟩ := busRead_fails hm hp supervisorProgram_ne h0
      cases hisp.symm.trans hx
    obtain ⟨_, _, _, hpc⟩ :=
      busRead_fails (s := { t with regs := { t.regs with isp := isp } }) ht hp supervisorProgram_ne he
    simp only [resetProcessor, hisp, hpc]
    rfl
  · simp only [resetProcessor, hisp]
    rfl

/-- Settles O19: frame, vector, handler, reset vectors. -/
theorem doubleFaultHalts : Obligations.DoubleFaultHalts := by
  unfold Obligations.DoubleFaultHalts
  refine ⟨fun s f hp => ⟨?_, ?_, ?_⟩, resetProcessor_vector_fails⟩
  · exact fun pre post n v hf he => takeFault_frame_fails hp f hf he
  · exact takeFault_vector_fails hp f
  · exact fun t u target ht hu h => takeFault_handler_fails hp ht hu h

end Sys2Proof.Proofs
end

section
/-! PROOFS. The decoder reads back every word the encoder writes, and asks for more before the last one (R140, R141,
R171): one reader per part of an instruction. -/

namespace Sys2Proof.Proofs

open Sys2Proof Sys2Proof.Machine Sys2Proof.Laws

/-! ## Parsers that read exactly some words -/

/-- The parser reads the words `ws` as `v`: it leaves what stands after them, and asks for more where one is missing. -/
structure Reads {α : Type} (p : List Word → Parse (Got α)) (ws : List Word) (v : α) : Prop where
  whole : ∀ rest, p (ws ++ rest) = .ok (v, rest)
  part : ∀ k < ws.length, p (ws.take k) = .error .more

namespace Reads

variable {α β : Type} {p q : List Word → Parse (Got α)} {ws ws' : List Word} {v : α}

/-- What needs no word. -/
theorem done (v : α) : Reads (fun l => .ok (v, l)) [] v := ⟨fun _ => rfl, fun _ hk => absurd hk (Nat.not_lt_zero _)⟩

/-- The same parser, written otherwise. -/
theorem congr (h : Reads p ws v) (hq : ∀ l, q l = p l) : Reads q ws v :=
  ⟨fun rest => (hq _).trans (h.whole rest), fun k hk => (hq _).trans (h.part k hk)⟩

/-- One part of an instruction, then the next. -/
theorem bind {k : Got α → Parse (Got β)} {u : β} (h : Reads p ws v) (hk : Reads (fun l => k (v, l)) ws' u) :
    Reads (fun l => p l >>= k) (ws ++ ws') u where
  whole rest := by
    rw [List.append_assoc, h.whole]
    exact hk.whole rest
  part n hn := by
    rw [List.length_append] at hn
    rw [List.take_append]
    by_cases hlt : n < ws.length
    · rw [Nat.sub_eq_zero_of_le hlt.le, List.take_zero, List.append_nil, h.part n hlt]
      rfl
    · rw [List.take_of_length_le (Nat.le_of_not_lt hlt), h.whole]
      exact hk.part _ (by omega)

/-- A value made of the one read. -/
theorem map {f : Got α → Got β} {u : β} (h : Reads p ws v) (hf : ∀ l, f (v, l) = (u, l)) :
    Reads (fun l => p l >>= fun x => .ok (f x)) ws u := by
  have hdone : Reads (fun l => (.ok (f (v, l)) : Parse (Got β))) [] u :=
    (done u).congr fun l => congrArg Except.ok (hf l)
  simpa using h.bind (k := fun x => .ok (f x)) hdone

/-- A condition that holds. -/
theorem need {c : Bool} (hc : c = true) (h : Reads p ws v) :
    Reads (fun l => Sys2Proof.need c >>= fun _ => p l) ws v := by
  subst hc
  exact h

end Reads

/-! ## Words, immediates and displacements (R147, R157) -/

theorem getWord_reads (w : Word) : Reads getWord [w] w := by
  refine ⟨fun rest => rfl, fun k hk => ?_⟩
  obtain rfl : k = 0 := by simpa using hk
  rfl

/-- The two words of a long word make it up. -/
theorem longOfWords_words (v : Long) : longOfWords (hiWord v) (loWord v) = v := by
  simp only [longOfWords, hiWord, loWord]
  exact (BitVec.extractLsb'_append_extractLsb'_eq_extractLsb' rfl).trans BitVec.extractLsb'_eq_self

theorem getLong_reads (v : Long) : Reads getLong (longWords v) v :=
  (getWord_reads (hiWord v)).bind ((getWord_reads (loWord v)).map fun _ => by rw [longOfWords_words])

theorem getImm_reads {sz : Size} {v : Long} (h : sz.fits v = true) : Reads (getImm sz) (immWords sz v) v := by
  have hlt : v.toNat < 2 ^ sz.bits := by simpa [Size.fits] using h
  cases sz
  case b =>
    refine (getWord_reads (loWord v)).map fun l => congrArg (·, l) (BitVec.eq_of_toNat_eq ?_)
    simp only [Size.bits] at hlt
    simp [field, loWord]
    omega
  case w =>
    refine (getWord_reads (loWord v)).map fun l => congrArg (·, l) (BitVec.eq_of_toNat_eq ?_)
    simp only [Size.bits] at hlt
    simp [loWord]
    omega
  case l => exact getLong_reads v

theorem getDisp_reads (d : Disp) : Reads (getDisp d.code) d.words d := by
  cases d with
  | null => exact .done _
  | word d => exact (getWord_reads d).map fun _ => rfl
  | long d => exact (getLong_reads d).map fun _ => rfl

/-- The I/IS field of a memory indirection. -/
theorem indirect_code (post : BitVec 1) (od : Disp) : (post ++ od.code) ≠ 0#3 ∧
    (post ++ od.code).extractLsb' 2 1 = post ∧ (post ++ od.code).extractLsb' 0 2 = od.code := by
  have hcode : od.code ≠ 0#2 := by cases od <;> simp [Disp.code]
  generalize od.code = code at *
  revert post code
  decide

theorem getIndirect_reads {is : Bool} {ind : Indirect} (h : ∀ od, ind = .post od → is = false) :
    Reads (getIndirect is ind.code) ind.words ind := by
  cases ind with
  | none => exact .done _
  | pre od =>
    obtain ⟨hnone, hpre, hod⟩ := indirect_code 0#1 od
    refine ((getDisp_reads od).map (f := fun x => (.pre x.1, x.2)) fun _ => rfl).congr fun l => ?_
    simp only [getIndirect, Indirect.code, hnone, hpre, hod, if_false, if_true]
  | post od =>
    obtain ⟨hnone, hpost, hod⟩ := indirect_code 1#1 od
    refine ((getDisp_reads od).map (f := fun x => (.post x.1, x.2)) fun _ => rfl).congr fun l => ?_
    simp only [getIndirect, Indirect.code, hnone, hpost, hod, h od rfl, Bool.false_eq_true, if_false,
      (by decide : ¬ (1#1 = 0#1))]

/-! ## Effective addresses (R150, R156, R157) -/

/-- An extension word in brief format (R156). -/
def briefWord (x : XIndex) (d8 : Byte) : Word := x.rn ++ BitVec.ofBool x.long ++ x.scale ++ 0#1 ++ d8

/-- An extension word in full format (R157), from the codes of its displacements. -/
def fullWord (x : XIndex) (bs is : Bool) (bd : BitVec 2) (iis : BitVec 3) : Word :=
  x.rn ++ BitVec.ofBool x.long ++ x.scale ++ 1#1 ++ BitVec.ofBool bs ++ BitVec.ofBool is ++ bd ++ 0#1 ++ iis

theorem index_words_brief (x : XIndex) (d8 : Byte) : (Index.brief x d8).words = [briefWord x d8] := rfl

theorem index_words_full (x : XIndex) (bs is : Bool) (bd : Disp) (ind : Indirect) :
    (Index.full x bs is bd ind).words = fullWord x bs is bd.code ind.code :: (bd.words ++ ind.words) := rfl

theorem briefWord_index (x : XIndex) (d8 : Byte) : indexOperand (briefWord x d8) = x := by
  have hrn : field (briefWord x d8) 12 4 = x.rn := by
    simp only [field, briefWord]
    iterate 4 rw [BitVec.extractLsb'_append_eq_of_le (by decide)]
    exact BitVec.extractLsb'_eq_self
  have hscale : field (briefWord x d8) 9 2 = x.scale := by
    simp only [field, briefWord]
    iterate 2 rw [BitVec.extractLsb'_append_eq_of_le (by decide)]
    exact extractLsb'_append_low _ _
  have hlong : (briefWord x d8).getLsbD 11 = x.long := by
    simp only [briefWord, BitVec.getLsbD_append]
    simp
  rw [indexOperand, hrn, hscale, hlong]

theorem briefWord_format (x : XIndex) (d8 : Byte) : (briefWord x d8).getLsbD 8 = false := by
  simp only [briefWord, BitVec.getLsbD_append]
  simp

theorem briefWord_disp (x : XIndex) (d8 : Byte) : field (briefWord x d8) 0 8 = d8 := extractLsb'_append_low _ _

section

variable (x : XIndex) (bs is : Bool) (bd : BitVec 2) (iis : BitVec 3)

theorem fullWord_index : indexOperand (fullWord x bs is bd iis) = x := by
  have hrn : field (fullWord x bs is bd iis) 12 4 = x.rn := by
    simp only [field, fullWord]
    iterate 8 rw [BitVec.extractLsb'_append_eq_of_le (by decide)]
    exact BitVec.extractLsb'_eq_self
  have hscale : field (fullWord x bs is bd iis) 9 2 = x.scale := by
    simp only [field, fullWord]
    iterate 6 rw [BitVec.extractLsb'_append_eq_of_le (by decide)]
    exact extractLsb'_append_low _ _
  have hlong : (fullWord x bs is bd iis).getLsbD 11 = x.long := by
    simp only [fullWord, BitVec.getLsbD_append]
    simp
  rw [indexOperand, hrn, hscale, hlong]

theorem fullWord_flags : (fullWord x bs is bd iis).getLsbD 8 = true ∧ (fullWord x bs is bd iis).getLsbD 7 = bs ∧
    (fullWord x bs is bd iis).getLsbD 6 = is ∧ (fullWord x bs is bd iis).getLsbD 3 = false := by
  simp only [fullWord, BitVec.getLsbD_append]
  simp

theorem fullWord_base : field (fullWord x bs is bd iis) 4 2 = bd := by
  simp only [field, fullWord]
  iterate 2 rw [BitVec.extractLsb'_append_eq_of_le (by decide)]
  exact extractLsb'_append_low _ _

theorem fullWord_indirect : field (fullWord x bs is bd iis) 0 3 = iis := extractLsb'_append_low _ _

end

/-- A well-formed full format has no postindexing with the index suppressed (R157). -/
theorem index_wf_full {x : XIndex} {bs is : Bool} {bd od : Disp} (h : (Index.full x bs is bd (.post od)).wf = true) :
    is = false := by
  cases is
  · rfl
  · exact absurd h Bool.noConfusion

theorem getIndex_reads {x : Index} (h : x.wf = true) : Reads getIndex x.words x := by
  cases x with
  | brief x d8 =>
    rw [index_words_brief]
    refine (getWord_reads (briefWord x d8)).bind (ws' := []) ?_
    simp only [briefWord_format, if_true, briefWord_index, briefWord_disp]
    exact .done _
  | full x bs is bd ind =>
    obtain ⟨hformat, hbs, his, hreserved⟩ := fullWord_flags x bs is bd.code ind.code
    rw [index_words_full]
    refine (getWord_reads (fullWord x bs is bd.code ind.code)).bind ?_
    simp only [hformat, hbs, his, hreserved, fullWord_index, fullWord_base, fullWord_indirect, if_false,
      Bool.true_eq_false]
    have hind : Reads (getIndirect is ind.code) ind.words ind := getIndirect_reads fun od ho => index_wf_full (ho ▸ h)
    exact .need rfl ((getDisp_reads bd).bind (hind.map (f := fun y => (Index.full x bs is bd y.1, y.2)) fun _ => rfl))

/-- The two fields of an effective address name its mode. -/
theorem eaMode_bits (ea : Ea) : eaMode ea.modeBits ea.regBits = some ea.mode := by
  cases ea <;> rfl

theorem eaFieldOk_bits {c : EaClass} {sz : Size} {ea : Ea} (h : ea.wf c sz = true) :
    eaFieldOk c sz ea.modeBits ea.regBits = true := by
  simp only [Ea.wf, Bool.and_eq_true] at h
  simp [eaFieldOk, eaMode_bits, h]

/-- An effective address of a category, at the mode its fields name. -/
theorem getEa_reads {c : EaClass} {sz : Size} {ea : Ea} (h : ea.wf c sz = true) :
    Reads (getEa c sz ea.modeBits ea.regBits) (ea.words sz) ea := by
  simp only [Ea.wf, Bool.and_eq_true] at h
  obtain ⟨⟨hclass, hsize⟩, hfields⟩ := h
  unfold getEa
  simp only [eaMode_bits, hclass, hsize, Bool.and_self, if_true]
  cases ea with
  | dn | an | ind | postInc | preDec => exact .done _
  | disp _ d => exact (getWord_reads d).map fun _ => rfl
  | idx _ x => exact (getIndex_reads hfields).map fun _ => rfl
  | absW a => exact (getWord_reads a).map fun _ => rfl
  | absL a => exact (getLong_reads a).map fun _ => rfl
  | pcDisp d => exact (getWord_reads d).map fun _ => rfl
  | pcIdx x => exact (getIndex_reads hfields).map fun _ => rfl
  | imm v => exact (getImm_reads hfields).map fun _ => rfl

/-! ## Shapes of instructions -/

section

variable {c : EaClass} {sz : Size} {ea : Ea}

theorem withEa_reads (h : ea.wf c sz = true) (f : Ea → Instr) :
    Reads (fun l => withEa c sz ea.modeBits ea.regBits l f) (ea.words sz) (f ea) := (getEa_reads h).map fun _ => rfl

theorem opSize_sizeOp (hi : Bool) (sz : Size) : opSize (sizeOp hi sz) = .ok sz := by
  cases sz <;> cases hi <;> rfl

theorem withSizedEa_reads (h : ea.wf c sz = true) (hi : Bool) (f : Size → Ea → Instr) :
    Reads (fun l => withSizedEa c (sizeOp hi sz) ea.modeBits ea.regBits l f) (ea.words sz) (f sz ea) := by
  simp only [withSizedEa, opSize_sizeOp]
  exact withEa_reads h (f sz)

theorem withImmEa_reads {v : Long} (hv : sz.fits v = true) (h : ea.wf c sz = true) (hi : Bool)
    (f : Size → Long → Ea → Instr) :
    Reads (fun l => withImmEa c (sizeOp hi sz) ea.modeBits ea.regBits l f) (immWords sz v ++ ea.words sz)
      (f sz v ea) := by
  simp only [withImmEa, opSize_sizeOp]
  exact .need (eaFieldOk_bits h) ((getImm_reads hv).bind (withEa_reads h (f sz v)))

/-- An extension word and an effective address, of which `f` makes the instruction. -/
theorem extEa_reads {f : Got Word → Got Ea → Got Instr} {x : Word} {i : Instr} (h : ea.wf c sz = true)
    (hf : ∀ l l', f (x, l) (ea, l') = (i, l')) :
    Reads (fun l => need (eaFieldOk c sz ea.modeBits ea.regBits) >>= fun _ => getWord l >>= fun y =>
      getEa c sz ea.modeBits ea.regBits y.2 >>= fun z => .ok (f y z)) (x :: ea.words sz) i := by
  refine .need (eaFieldOk_bits h) ⟨fun rest => ?_, fun k hk => ?_⟩
  · change (getEa c sz ea.modeBits ea.regBits (ea.words sz ++ rest) >>= _) = _
    rw [(getEa_reads h).whole]
    exact congrArg Except.ok (hf _ _)
  · cases k with
    | zero => rfl
    | succ k =>
      change (getEa c sz ea.modeBits ea.regBits ((ea.words sz).take k) >>= _) = _
      rw [(getEa_reads h).part k (Nat.lt_of_succ_lt_succ hk)]
      rfl

theorem withWord_reads {f : Word → Instr} {x : Word} {i : Instr} (hf : f x = i) : Reads (fun l => withWord l f) [x] i :=
  hf ▸ (getWord_reads x).map fun _ => rfl

theorem withLong_reads (v : Long) (f : Long → Instr) : Reads (fun l => withLong l f) (longWords v) (f v) :=
  (getLong_reads v).map fun _ => rfl

/-- The size field and the direction above it are those of the operand and of the class its address is in. -/
theorem withDirEa_reads {src : EaClass} {toEa : Bool} (h : ea.wf (dirClass toEa src) sz = true)
    (f : Size → Bool → Ea → Instr) :
    Reads (fun l => withDirEa src (sizeOp toEa sz) ea.modeBits ea.regBits l f) (ea.words sz) (f sz toEa ea) := by
  have htop : top (sizeOp toEa sz) = toEa := by cases sz <;> cases toEa <;> rfl
  simp only [withDirEa, htop]
  exact withSizedEa_reads h toEa fun sz => f sz toEa

end

end Sys2Proof.Proofs
end

section
/-! PROOFS. Operation words and extension words taken apart again (R141, R143). -/

namespace Sys2Proof.Proofs

open Sys2Proof Sys2Proof.Machine Sys2Proof.Laws

/-! ## Operation words (R143) -/

/-- The words of the instruction decode to it, and a proper part of them asks for more. -/
def Decodes (i : Instr) : Prop := ∃ w ws, encode i = w :: ws ∧ Reads (decodeOp w) ws i

/-- The five fields of an operation word. -/
theorem decodeOp_mkOp (line : BitVec 4) (r9 op mode reg : BitVec 3) :
    decodeOp (mkOp line r9 op mode reg) = decodeFields line r9 op mode reg := by
  have hline : field (mkOp line r9 op mode reg) 12 4 = line := by
    simp only [field, mkOp]
    iterate 4 rw [BitVec.extractLsb'_append_eq_of_le (by decide)]
    exact BitVec.extractLsb'_eq_self
  have hr9 : field (mkOp line r9 op mode reg) 9 3 = r9 := by
    simp only [field, mkOp]
    iterate 3 rw [BitVec.extractLsb'_append_eq_of_le (by decide)]
    exact extractLsb'_append_low _ _
  have hop : field (mkOp line r9 op mode reg) 6 3 = op := by
    simp only [field, mkOp]
    iterate 2 rw [BitVec.extractLsb'_append_eq_of_le (by decide)]
    exact extractLsb'_append_low _ _
  have hmode : field (mkOp line r9 op mode reg) 3 3 = mode := by
    simp only [field, mkOp]
    rw [BitVec.extractLsb'_append_eq_of_le (by decide)]
    exact extractLsb'_append_low _ _
  have hreg : field (mkOp line r9 op mode reg) 0 3 = reg := extractLsb'_append_low _ _
  funext l
  rw [decodeOp, hline, hr9, hop, hmode, hreg]

/-- An instruction whose operation word is given by its fields. -/
theorem Decodes.of_fields {i : Instr} {line : BitVec 4} {r9 op mode reg : BitVec 3} {ws : List Word}
    (he : encode i = mkOp line r9 op mode reg :: ws) (h : Reads (decodeFields line r9 op mode reg) ws i) : Decodes i :=
  ⟨_, ws, he, (decodeOp_mkOp line r9 op mode reg).symm ▸ h⟩

/-! ## Operation words whose effective address field stands for other instructions too -/

section

variable {c : EaClass} {sz : Size} {mode reg : BitVec 3}

/-- A field of a category does not name a mode outside it. -/
theorem eaMode_ne {m : EaMode} (hc : c.has m = false) (h : eaFieldOk c sz mode reg = true) :
    eaMode mode reg ≠ some m := by
  intro he
  simp [eaFieldOk, he, hc] at h

theorem mode_ne_dn (hc : c.has .dn = false) (h : eaFieldOk c sz mode reg = true) : mode ≠ 0#3 := fun he =>
  eaMode_ne hc h (he ▸ rfl)

theorem mode_ne_an (hc : c.has .an = false) (h : eaFieldOk c sz mode reg = true) : mode ≠ 1#3 := fun he =>
  eaMode_ne hc h (he ▸ rfl)

theorem field_ne_pcDisp (hc : c.has .pcDisp = false) (h : eaFieldOk c sz mode reg = true) :
    ¬ (mode = 7#3 ∧ reg = 2#3) :=
  fun he => eaMode_ne hc h (he.1 ▸ he.2 ▸ rfl)

theorem field_ne_pcIdx (hc : c.has .pcIdx = false) (h : eaFieldOk c sz mode reg = true) :
    ¬ (mode = 7#3 ∧ reg = 3#3) :=
  fun he => eaMode_ne hc h (he.1 ▸ he.2 ▸ rfl)

theorem field_ne_imm (hc : c.has .imm = false) (h : eaFieldOk c sz mode reg = true) :
    ¬ (mode = 7#3 ∧ reg = 4#3) :=
  fun he => eaMode_ne hc h (he.1 ▸ he.2 ▸ rfl)

theorem isImmField_ne (hc : c.has .imm = false) (h : eaFieldOk c sz mode reg = true) : ¬ isImmField mode reg = true :=
  fun he => field_ne_imm hc h (by simpa [isImmField] using he)

/-- The pair forms of the two-way instructions stand where the destination would be a register. -/
theorem isPairMode_memAlt (h : eaFieldOk .memAlt sz mode reg = true) : isPairMode mode = false := by
  have hdn := mode_ne_dn rfl h
  have han := mode_ne_an rfl h
  clear h
  revert mode
  decide

end

/-! ## Extension words of an instruction's own -/

theorem byteWord_field (b : Byte) : field (byteWord b) 0 8 = b := field_low_byte 0#8 b

/-- A register number above other bits. -/
theorem rnWord_fields (rn : Rn) (b : Bool) : field (rnWord rn b) 12 4 = rn ∧ (rnWord rn b).getLsbD 11 = b := by
  constructor
  · simp only [field, rnWord]
    iterate 2 rw [BitVec.extractLsb'_append_eq_of_le (by decide)]
    exact BitVec.extractLsb'_eq_self
  · simp only [rnWord, BitVec.getLsbD_append]
    simp

theorem casWord_fields (rn : Rn) (du dc : Reg) :
    field (casWord rn du dc) 12 4 = rn ∧ field (casWord rn du dc) 6 3 = du ∧ field (casWord rn du dc) 0 3 = dc := by
  simp only [field, casWord]
  refine ⟨?_, ?_, extractLsb'_append_low _ _⟩
  · iterate 4 rw [BitVec.extractLsb'_append_eq_of_le (by decide)]
    exact BitVec.extractLsb'_eq_self
  · iterate 2 rw [BitVec.extractLsb'_append_eq_of_le (by decide)]
    exact extractLsb'_append_low _ _

theorem mulWord_fields (l : Reg) (signed quad : Bool) (h : Reg) :
    (mulWord l signed quad h).getLsbD 11 = signed ∧ (mulWord l signed quad h).getLsbD 10 = quad ∧
      field (mulWord l signed quad h) 12 3 = l ∧ field (mulWord l signed quad h) 0 3 = h := by
  refine ⟨?_, ?_, ?_, extractLsb'_append_low _ _⟩
  · simp only [mulWord, BitVec.getLsbD_append]
    simp
  · simp only [mulWord, BitVec.getLsbD_append]
    simp
  · simp only [field, mulWord]
    iterate 4 rw [BitVec.extractLsb'_append_eq_of_le (by decide)]
    exact extractLsb'_append_low _ _

theorem bfWord_fields (d : Reg) (f : BfSpec) : field (bfWord d f) 12 3 = d ∧ bfSpecOf (bfWord d f) = f := by
  have hflags : (bfWord d f).getLsbD 11 = f.offReg ∧ (bfWord d f).getLsbD 5 = f.widReg := by
    simp only [bfWord, BitVec.getLsbD_append]
    simp
  have hoff : field (bfWord d f) 6 5 = f.off := by
    simp only [field, bfWord]
    iterate 2 rw [BitVec.extractLsb'_append_eq_of_le (by decide)]
    exact extractLsb'_append_low _ _
  have hwid : field (bfWord d f) 0 5 = f.wid := extractLsb'_append_low _ _
  constructor
  · simp only [field, bfWord]
    iterate 4 rw [BitVec.extractLsb'_append_eq_of_le (by decide)]
    exact extractLsb'_append_low _ _
  · rw [bfSpecOf, hflags.1, hflags.2, hoff, hwid]

theorem movecWord_fields (rn : Rn) (code : BitVec 12) :
    field (rn ++ code) 12 4 = rn ∧ field (rn ++ code) 0 12 = code := by
  refine ⟨?_, extractLsb'_append_low _ _⟩
  rw [field, BitVec.extractLsb'_append_eq_of_le (by decide)]
  exact BitVec.extractLsb'_eq_self

/-! ## Fields of an operation word put together -/

/-- A field of a field. -/
theorem extractLsb'_field (w : Word) {lo n lo' n' : Nat} (h : lo' + n' ≤ n) :
    (field w lo n).extractLsb' lo' n' = field w (lo + lo') n' := by
  ext i hi
  simp [field, show lo' + i < n by omega, Nat.add_assoc]

/-- Two fields side by side. -/
theorem field_append_field (w : Word) {lo n m : Nat} : field w (lo + n) m ++ field w lo n = field w lo (m + n) :=
  BitVec.extractLsb'_append_extractLsb'_eq_extractLsb' rfl

theorem condOf_field (w : Word) : condOf (field w 9 3) (field w 6 3) = field w 8 4 := by
  rw [condOf, extractLsb'_field w (by decide)]
  exact field_append_field w

theorem lowByte_field (w : Word) : (field w 6 3).extractLsb' 0 2 ++ field w 3 3 ++ field w 0 3 = field w 0 8 := by
  rw [extractLsb'_field w (by decide)]
  exact (congrArg (· ++ field w 0 3) (field_append_field w)).trans (field_append_field w)

/-- A branch by its condition and displacement byte. -/
theorem decodeOp_branch (cc : Cond) (b : Byte) (l : List Word) :
    decodeOp (6#4 ++ cc ++ b) l = getBrDisp b l >>= fun x =>
      .ok (if cc = 0#4 then .bra x.1 else if cc = 1#4 then .bsr x.1 else .bcc cc x.1, x.2) := by
  generalize hw : (6#4 ++ cc ++ b : Word) = w
  have hline : field w 12 4 = 6#4 := by
    rw [field, ← hw]
    iterate 2 rw [BitVec.extractLsb'_append_eq_of_le (by decide)]
    exact BitVec.extractLsb'_eq_self
  have hcond : field w 8 4 = cc := by
    rw [field, ← hw, BitVec.extractLsb'_append_eq_of_le (by decide)]
    exact extractLsb'_append_low _ _
  have hbyte : field w 0 8 = b := hw ▸ extractLsb'_append_low _ _
  simp only [decodeOp, hline]
  change decodeLine6 _ _ _ _ _ = _
  rw [decodeLine6, condOf_field, lowByte_field, hcond, hbyte]
  congr 1
  funext x
  dsimp only
  split_ifs <;> rfl

theorem decodeOp_moveq (d : Reg) (imm : Byte) (l : List Word) :
    decodeOp (7#4 ++ d ++ 0#1 ++ imm) l = .ok (.moveq d imm, l) := by
  generalize hw : (7#4 ++ d ++ 0#1 ++ imm : Word) = w
  have hline : field w 12 4 = 7#4 := by
    rw [field, ← hw]
    iterate 3 rw [BitVec.extractLsb'_append_eq_of_le (by decide)]
    exact BitVec.extractLsb'_eq_self
  have hreg : field w 9 3 = d := by
    rw [field, ← hw]
    iterate 2 rw [BitVec.extractLsb'_append_eq_of_le (by decide)]
    exact extractLsb'_append_low _ _
  have htop : top (field w 6 3) = false := by
    rw [top, ← hw, field, BitVec.getLsbD_extractLsb']
    simp only [BitVec.getLsbD_append]
    simp
  have hbyte : field w 0 8 = imm := hw ▸ extractLsb'_append_low _ _
  simp only [decodeOp, hline]
  change decodeLine7 _ _ _ _ _ = _
  rw [decodeLine7, htop, lowByte_field, hreg, hbyte]
  rfl

theorem decodeOp_aline (x : BitVec 12) (l : List Word) : decodeOp (10#4 ++ x) l = .ok (.aline x, l) := by
  generalize hw : (10#4 ++ x : Word) = w
  have hline : field w 12 4 = 10#4 := by
    rw [field, ← hw, BitVec.extractLsb'_append_eq_of_le (by decide)]
    exact BitVec.extractLsb'_eq_self
  have hrest : field w 9 3 ++ field w 6 3 ++ field w 3 3 ++ field w 0 3 = x := by
    rw [show field w 9 3 ++ field w 6 3 = field w 6 6 from field_append_field w,
      show field w 6 6 ++ field w 3 3 = field w 3 9 from field_append_field w,
      show field w 3 9 ++ field w 0 3 = field w 0 12 from field_append_field w, ← hw]
    exact extractLsb'_append_low _ _
  simp only [decodeOp, hline]
  exact congrArg (fun y => Except.ok (Instr.aline y, l)) hrest

theorem decodeOp_flineCpid0 (x : BitVec 9) (l : List Word) :
    decodeOp (15#4 ++ 0#3 ++ x) l = .ok (.flineCpid0 x, l) := by
  generalize hw : (15#4 ++ 0#3 ++ x : Word) = w
  have hline : field w 12 4 = 15#4 := by
    rw [field, ← hw]
    iterate 2 rw [BitVec.extractLsb'_append_eq_of_le (by decide)]
    exact BitVec.extractLsb'_eq_self
  have hid : field w 9 3 = 0#3 := by
    rw [field, ← hw, BitVec.extractLsb'_append_eq_of_le (by decide)]
    exact extractLsb'_append_low _ _
  have hrest : field w 6 3 ++ field w 3 3 ++ field w 0 3 = x := by
    rw [show field w 6 3 ++ field w 3 3 = field w 3 6 from field_append_field w,
      show field w 3 6 ++ field w 0 3 = field w 0 9 from field_append_field w, ← hw]
    exact extractLsb'_append_low _ _
  simp only [decodeOp, hline, hid]
  exact congrArg (fun y => Except.ok (Instr.flineCpid0 y, l)) hrest

/-- A coprocessor branch by its type field, 2 or 3, and what stands below it. -/
theorem decodeOp_cpBcc {id : BitVec 3} (hid : id ≠ 0#3) (type : BitVec 3) (sel : BitVec 6) (l : List Word) :
    ∃ mode reg, mode ++ reg = sel ∧ decodeOp (15#4 ++ id ++ type ++ sel) l = decodeCp id type mode reg l := by
  generalize hw : (15#4 ++ id ++ type ++ sel : Word) = w
  have hline : field w 12 4 = 15#4 := by
    rw [field, ← hw]
    iterate 3 rw [BitVec.extractLsb'_append_eq_of_le (by decide)]
    exact BitVec.extractLsb'_eq_self
  have hr9 : field w 9 3 = id := by
    rw [field, ← hw]
    iterate 2 rw [BitVec.extractLsb'_append_eq_of_le (by decide)]
    exact extractLsb'_append_low _ _
  have htype : field w 6 3 = type := by
    rw [field, ← hw, BitVec.extractLsb'_append_eq_of_le (by decide)]
    exact extractLsb'_append_low _ _
  have hrest : field w 3 3 ++ field w 0 3 = sel := by
    rw [show field w 3 3 ++ field w 0 3 = field w 0 6 from field_append_field w, ← hw]
    exact extractLsb'_append_low _ _
  refine ⟨field w 3 3, field w 0 3, hrest, ?_⟩
  simp only [decodeOp, hline, hr9, htype]
  exact if_neg hid

theorem decodeOp_flineBadType {id : BitVec 3} (hid : id ≠ 0#3) (x : BitVec 7) (l : List Word) :
    decodeOp (15#4 ++ id ++ 3#2 ++ x) l = .ok (.flineBadType id x, l) := by
  generalize hw : (15#4 ++ id ++ 3#2 ++ x : Word) = w
  have hline : field w 12 4 = 15#4 := by
    rw [field, ← hw]
    iterate 3 rw [BitVec.extractLsb'_append_eq_of_le (by decide)]
    exact BitVec.extractLsb'_eq_self
  have hr9 : field w 9 3 = id := by
    rw [field, ← hw]
    iterate 2 rw [BitVec.extractLsb'_append_eq_of_le (by decide)]
    exact extractLsb'_append_low _ _
  have htype : (field w 6 3).extractLsb' 1 2 = 3#2 := by
    rw [extractLsb'_field w (by decide), field, ← hw, BitVec.extractLsb'_append_eq_of_le (by decide)]
    exact extractLsb'_append_low _ _
  have hrest : (field w 6 3).extractLsb' 0 1 ++ field w 3 3 ++ field w 0 3 = x := by
    rw [extractLsb'_field w (by decide), show field w (6 + 0) 1 ++ field w 3 3 = field w 3 4 from field_append_field w,
      show field w 3 4 ++ field w 0 3 = field w 0 7 from field_append_field w, ← hw]
    exact extractLsb'_append_low _ _
  simp only [decodeOp, hline, hr9]
  refine (if_neg hid).trans ?_
  generalize field w 6 3 = type at *
  obtain rfl | rfl : type = 6#3 ∨ type = 7#3 := by
    clear hrest
    revert type
    decide
  all_goals exact congrArg (fun y => Except.ok (Instr.flineBadType id y, l)) hrest

/-- Data or address register: the D/A bit as a mode. -/
theorem rn_modeBits (rn : Rn) :
    (Rn.modeBits rn = 0#3 ∧ 0#1 ++ Rn.num rn = rn) ∨ (Rn.modeBits rn = 1#3 ∧ 1#1 ++ Rn.num rn = rn) := by
  revert rn
  decide

theorem condOp_size (cc : Cond) : (condOp cc).extractLsb' 0 2 = 3#2 := by
  revert cc
  decide

theorem condOf_cond (cc : Cond) : condOf (condR9 cc) (condOp cc) = cc := by
  revert cc
  decide

/-! ## Lines of the opcode map that ask for more than the operation word's size field -/

section

variable {sz : Size} {toEa : Bool} {r9 mode reg : BitVec 3} (l : List Word)

theorem decodeLine8_twoWay (h : toEa = true → isPairMode mode = false) :
    decodeLine8 r9 (sizeOp toEa sz) mode reg l =
      withDirEa .data (sizeOp toEa sz) mode reg l fun sz toEa => .or sz toEa r9 := by
  cases toEa <;> cases sz <;> simp [decodeLine8, sizeOp, Size.code, h]

theorem decodeLine9_twoWay (h : toEa = true → isPairMode mode = false) :
    decodeLine9 r9 (sizeOp toEa sz) mode reg l =
      withDirEa .any (sizeOp toEa sz) mode reg l fun sz toEa => .sub sz toEa r9 := by
  cases toEa <;> cases sz <;> simp [decodeLine9, sizeOp, Size.code, top, h]

theorem decodeLineD_twoWay (h : toEa = true → isPairMode mode = false) :
    decodeLineD r9 (sizeOp toEa sz) mode reg l =
      withDirEa .any (sizeOp toEa sz) mode reg l fun sz toEa => .add sz toEa r9 := by
  cases toEa <;> cases sz <;> simp [decodeLineD, sizeOp, Size.code, top, h]

theorem decodeLineC_twoWay (h : toEa = true → isPairMode mode = false) :
    decodeLineC r9 (sizeOp toEa sz) mode reg l =
      withDirEa .data (sizeOp toEa sz) mode reg l fun sz toEa => .and sz toEa r9 := by
  have hdn : toEa = true → mode ≠ 0#3 := fun ht he => absurd (h ht) (by rw [he]; decide)
  have han : toEa = true → mode ≠ 1#3 := fun ht he => absurd (h ht) (by rw [he]; decide)
  cases toEa <;> cases sz <;> simp [decodeLineC, sizeOp, Size.code, h, hdn, han]

/-- Line 5 with the size field 11: the condition instructions. -/
theorem decodeLine5_cond (cc : Cond) :
    decodeLine5 (condR9 cc) (condOp cc) mode reg l =
      if mode = 1#3 then withWord l (.dbcc cc reg)
      else if mode = 7#3 ∧ reg = 2#3 then withWord l (.trapccW cc)
      else if mode = 7#3 ∧ reg = 3#3 then withLong l (.trapccL cc)
      else if mode = 7#3 ∧ reg = 4#3 then .ok (.trapcc cc, l)
      else withEa .dataAlt .b mode reg l (.scc cc) := by
  rw [decodeLine5, if_pos (condOp_size cc), condOf_cond]

end

/-- A two-way instruction whose operand is its destination leaves the pair forms alone. -/
theorem isPairMode_dirClass {src : EaClass} {sz : Size} {toEa : Bool} {ea : Ea}
    (h : ea.wf (dirClass toEa src) sz = true) (ht : toEa = true) : isPairMode ea.modeBits = false := by
  subst ht
  exact isPairMode_memAlt (eaFieldOk_bits h)

theorem decodeMove_reads {sz : Size} {src dst : Ea} (hs : src.wf .any sz = true) (hd : dst.wf .dataAlt sz = true)
    (f : Ea → Ea → Instr) :
    Reads (fun l => decodeMove sz dst.regBits dst.modeBits src.modeBits src.regBits l f) (src.words sz ++ dst.words sz)
      (f src dst) :=
  .need (eaFieldOk_bits hd) ((getEa_reads hs).bind ((getEa_reads hd).map (f := fun y => (f src y.1, y.2)) fun _ => rfl))

theorem decodeCas2_reads (rn1 : Rn) (du1 dc1 : Reg) (rn2 : Rn) (du2 dc2 : Reg)
    (f : Rn → Reg → Reg → Rn → Reg → Reg → Instr) :
    Reads (fun l => decodeCas2 l f) [casWord rn1 du1 dc1, casWord rn2 du2 dc2] (f rn1 du1 dc1 rn2 du2 dc2) := by
  refine (getWord_reads (casWord rn1 du1 dc1)).bind ((getWord_reads (casWord rn2 du2 dc2)).map fun l => ?_)
  obtain ⟨hrn1, hdu1, hdc1⟩ := casWord_fields rn1 du1 dc1
  obtain ⟨hrn2, hdu2, hdc2⟩ := casWord_fields rn2 du2 dc2
  simp only [hrn1, hdu1, hdc1, hrn2, hdu2, hdc2]

theorem getBrDisp_reads {d : BrDisp} (h : d.wf = true) : Reads (getBrDisp d.byteCode) d.words d := by
  cases d with
  | byte d =>
    obtain ⟨h0, hff⟩ : d ≠ 0#8 ∧ d ≠ 0xFF#8 := by simpa [BrDisp.wf] using h
    exact (Reads.done (BrDisp.byte d)).congr fun l => (if_neg h0).trans (if_neg hff)
  | word d => exact (getWord_reads d).map fun _ => rfl
  | long d => exact (getLong_reads d).map fun _ => rfl

theorem branch_decodes {i : Instr} {cc : Cond} {d : BrDisp} (he : encode i = encBranch cc d) (hd : d.wf = true)
    (hi : (if cc = 0#4 then .bra d else if cc = 1#4 then .bsr d else .bcc cc d) = i) : Decodes i :=
  ⟨_, d.words, he, ((getBrDisp_reads hd).map fun l => congrArg (·, l) hi).congr (decodeOp_branch cc d.byteCode)⟩

end Sys2Proof.Proofs
end

section
/-! PROOFS. Every well-formed instruction is read back from its words (R141, R171), one arm per shape of encoding. -/

namespace Sys2Proof.Proofs

open Sys2Proof Sys2Proof.Machine Sys2Proof.Laws


/-- Every well-formed instruction decodes from its words, and from no proper part of them. -/
theorem encode_decodes (i : Instr) (h : i.wf = true) : Decodes i := by
  cases i with
  -- no words of its own, no effective address
  | illegal | reset | nop | rte | rts | trapv | rtr | unlk | swap | bkpt | extW | extL | extbL | exgDD | exgAA
  | exgDA =>
    exact .of_fields rfl (.done _)
  | moveUsp fromUsp => cases fromUsp <;> exact .of_fields rfl (.done _)
  | sbcd mem | abcd mem => cases mem <;> exact .of_fields rfl (.done _)
  | subx sz mem | addx sz mem => cases sz <;> cases mem <;> exact .of_fields rfl (.done _)
  | cmpm sz => cases sz <;> exact .of_fields rfl (.done _)
  | asr sz byReg | asl sz byReg | lsr sz byReg | lsl sz byReg | roxr sz byReg | roxl sz byReg | ror sz byReg
  | rol sz byReg =>
    cases sz <;> cases byReg <;> exact .of_fields rfl (.done _)
  | moveq d imm => exact ⟨_, [], rfl, (Reads.done _).congr (decodeOp_moveq d imm)⟩
  | aline x => exact ⟨_, [], rfl, (Reads.done _).congr (decodeOp_aline x)⟩
  | unassigned => exact absurd h Bool.noConfusion
  -- one extension word or two
  | oriCcr imm | andiCcr imm | eoriCcr imm =>
    exact .of_fields rfl ((getWord_reads _).map fun _ => by simp only [byteWord_field])
  | oriSr | andiSr | eoriSr | stop | rtd | linkW => exact .of_fields rfl (withWord_reads rfl)
  | pack mem | unpk mem => cases mem <;> exact .of_fields rfl (withWord_reads rfl)
  | movep long toMem => cases long <;> cases toMem <;> exact .of_fields rfl (withWord_reads rfl)
  | movec toCtl rn code =>
    obtain ⟨hrn, hcode⟩ := movecWord_fields rn code
    cases toCtl <;>
      exact .of_fields rfl ((getWord_reads _).map fun _ => by simp only [hrn, hcode]; rfl)
  | linkL => exact .of_fields rfl (withLong_reads _ _)
  | cas2W | cas2L => exact .of_fields rfl (decodeCas2_reads _ _ _ _ _ _ _)
  -- a register number that names data and address registers
  | rtm rn =>
    obtain ⟨hmode, hrn⟩ | ⟨hmode, hrn⟩ := rn_modeBits rn <;>
      exact .of_fields (congrArg (fun m => [mkOp 0 3 3 m (Rn.num rn)]) hmode) (congrArg Instr.rtm hrn ▸ .done _)
  | trap v =>
    obtain ⟨hmode, hv⟩ | ⟨hmode, hv⟩ := rn_modeBits v <;>
      exact .of_fields (congrArg (fun m => [mkOp 4 7 1 m (Rn.num v)]) hmode) (congrArg Instr.trap hv ▸ .done _)
  -- an effective address
  | jsr | jmp | moveaW | moveaL | moveFromSr | moveFromCcr | moveToCcr | moveToSr | chkW | chkL | divuW | divsW | muluW
  | mulsW | asrEa | aslEa | lsrEa | lslEa | roxrEa | roxlEa | rorEa | rolEa => exact .of_fields rfl (withEa_reads h _)
  | suba long | cmpa long | adda long => cases long <;> exact .of_fields rfl (withEa_reads h _)
  | tst sz | negx sz | clr sz | neg sz | not sz | addq sz | cmp sz =>
    cases sz <;> exact .of_fields rfl (withSizedEa_reads h false _)
  | subq sz => cases sz <;> exact .of_fields rfl (withSizedEa_reads h true _)
  | or => exact .of_fields rfl ((withDirEa_reads h _).congr fun l => decodeLine8_twoWay l (isPairMode_dirClass h))
  | sub => exact .of_fields rfl ((withDirEa_reads h _).congr fun l => decodeLine9_twoWay l (isPairMode_dirClass h))
  | and => exact .of_fields rfl ((withDirEa_reads h _).congr fun l => decodeLineC_twoWay l (isPairMode_dirClass h))
  | add => exact .of_fields rfl ((withDirEa_reads h _).congr fun l => decodeLineD_twoWay l (isPairMode_dirClass h))
  -- an effective address whose place other instructions take in some modes
  | btstDn | bchgDn | bclrDn | bsetDn | nbcd =>
    exact .of_fields rfl ((withEa_reads h _).congr fun _ => if_neg (mode_ne_an rfl (eaFieldOk_bits h)))
  | pea =>
    exact .of_fields rfl ((withEa_reads h _).congr fun _ =>
      (if_neg (mode_ne_dn rfl (eaFieldOk_bits h))).trans (if_neg (mode_ne_an rfl (eaFieldOk_bits h))))
  | lea =>
    exact .of_fields rfl ((withEa_reads h _).congr fun _ => if_neg fun he => mode_ne_dn rfl (eaFieldOk_bits h) he.2)
  | tas => exact .of_fields rfl ((withEa_reads h _).congr fun _ => if_neg (isImmField_ne rfl (eaFieldOk_bits h)))
  | eor sz =>
    cases sz <;>
      exact .of_fields rfl ((withSizedEa_reads h true _).congr fun _ => if_neg (mode_ne_an rfl (eaFieldOk_bits h)))
  | scc =>
    have hf := eaFieldOk_bits h
    exact .of_fields rfl ((withEa_reads h _).congr fun l => (decodeLine5_cond l _).trans
      ((if_neg (mode_ne_an rfl hf)).trans ((if_neg (field_ne_pcDisp rfl hf)).trans
        ((if_neg (field_ne_pcIdx rfl hf)).trans (if_neg (field_ne_imm rfl hf))))))
  | dbcc cc | trapccW cc => exact .of_fields rfl ((withWord_reads rfl).congr fun l => decodeLine5_cond l cc)
  | trapccL cc => exact .of_fields rfl ((withLong_reads _ _).congr fun l => decodeLine5_cond l cc)
  | trapcc cc => exact .of_fields rfl ((Reads.done _).congr fun l => decodeLine5_cond l cc)
  -- immediate data, then an effective address
  | ori sz | andi sz | eori sz =>
    obtain ⟨hv, ha⟩ := Bool.and_eq_true_iff.1 h
    have himm := isImmField_ne rfl (eaFieldOk_bits ha)
    cases sz <;> exact .of_fields rfl ((withImmEa_reads hv ha false _).congr fun _ => if_neg himm)
  | subi sz | addi sz | cmpi sz =>
    obtain ⟨hv, ha⟩ := Bool.and_eq_true_iff.1 h
    cases sz <;> exact .of_fields rfl (withImmEa_reads hv ha false _)
  -- an extension word, then an effective address
  | btst | bchg | bclr | bset => exact .of_fields rfl (extEa_reads h fun _ _ => by simp only [byteWord_field])
  | callm =>
    have hf := eaFieldOk_bits h
    exact .of_fields rfl ((extEa_reads h fun _ _ => by simp only [byteWord_field]).congr fun _ =>
      (if_neg (mode_ne_dn rfl hf)).trans (if_neg (mode_ne_an rfl hf)))
  | cmp2 sz rn =>
    obtain ⟨hrn, hb⟩ := rnWord_fields rn false
    cases sz <;> exact .of_fields rfl (extEa_reads h fun _ _ => by simp only [hrn, hb]; rfl)
  | chk2 sz rn =>
    obtain ⟨hrn, hb⟩ := rnWord_fields rn true
    cases sz <;> exact .of_fields rfl (extEa_reads h fun _ _ => by simp only [hrn, hb]; rfl)
  | moves sz rn toMem =>
    obtain ⟨hrn, hb⟩ := rnWord_fields rn toMem
    cases sz <;> exact .of_fields rfl (extEa_reads h fun _ _ => by simp only [hrn, hb])
  | cas sz dc du =>
    have himm := isImmField_ne rfl (eaFieldOk_bits h)
    cases sz
    case b => exact .of_fields rfl (extEa_reads h fun _ _ => by simp only [casWord_fields])
    all_goals
      exact .of_fields rfl ((extEa_reads h fun _ _ => by simp only [casWord_fields]).congr fun _ => if_neg himm)
  | muluL | mulsL | divuL | divsL =>
    exact .of_fields rfl (extEa_reads h fun _ _ => by simp only [mulWord_fields]; rfl)
  | movemToMem long =>
    have hdn := mode_ne_dn rfl (eaFieldOk_bits h)
    cases long <;> exact .of_fields rfl ((extEa_reads h fun _ _ => rfl).congr fun _ => if_neg hdn)
  | movemToRegs long => cases long <;> exact .of_fields rfl (extEa_reads h fun _ _ => rfl)
  | bftst f ea | bfchg f ea | bfclr f ea | bfset f ea =>
    exact .of_fields rfl (extEa_reads h fun _ _ => by simp only [bfWord_fields])
  | bfextu d f | bfexts d f | bfffo d f | bfins d f =>
    exact .of_fields rfl (extEa_reads h fun _ _ => by simp only [bfWord_fields])
  -- two effective addresses
  | moveB =>
    obtain ⟨hs, hd⟩ := Bool.and_eq_true_iff.1 h
    exact .of_fields rfl (decodeMove_reads hs hd _)
  | moveW | moveL =>
    obtain ⟨hs, hd⟩ := Bool.and_eq_true_iff.1 h
    exact .of_fields rfl ((decodeMove_reads hs hd _).congr fun _ => if_neg (mode_ne_an rfl (eaFieldOk_bits hd)))
  -- branches
  | bra => exact branch_decodes rfl h rfl
  | bsr => exact branch_decodes rfl h rfl
  | bcc cc d =>
    obtain ⟨⟨hd, h0⟩, h1⟩ : (d.wf = true ∧ cc ≠ 0#4) ∧ cc ≠ 1#4 := by simpa [Instr.wf] using h
    exact branch_decodes rfl hd ((if_neg h0).trans (if_neg h1))
  -- coprocessor instructions
  | flineCpid0 x => exact ⟨_, [], rfl, (Reads.done _).congr (decodeOp_flineCpid0 x)⟩
  | flineBadType id x => exact ⟨_, [], rfl, (Reads.done _).congr (decodeOp_flineBadType (bne_iff_ne.1 h) x)⟩
  | cpBccW id sel | cpBccL id sel =>
    exact ⟨_, [], rfl, (Reads.done _).congr fun l => by
      obtain ⟨mode, reg, rfl, hl⟩ := decodeOp_cpBcc (bne_iff_ne.1 h) _ sel l
      exact hl⟩
  | cpGen | cpDbcc | cpTrapccW | cpTrapccL | cpTrapcc =>
    exact .of_fields rfl ((withWord_reads rfl).congr fun _ => if_neg (bne_iff_ne.1 h))
  | cpScc =>
    obtain ⟨hid, hf⟩ := Bool.and_eq_true_iff.1 h
    exact .of_fields rfl ((Reads.need hf (withWord_reads rfl)).congr fun _ => (if_neg (bne_iff_ne.1 hid)).trans
      ((if_neg (mode_ne_an rfl hf)).trans ((if_neg (field_ne_pcDisp rfl hf)).trans
        ((if_neg (field_ne_pcIdx rfl hf)).trans (if_neg (field_ne_imm rfl hf))))))
  | cpSave | cpRestore =>
    obtain ⟨hid, ha⟩ := Bool.and_eq_true_iff.1 h
    exact .of_fields rfl ((withEa_reads ha _).congr fun _ => if_neg (bne_iff_ne.1 hid))

/-- Decoding an encoded well-formed instruction gives it back and leaves the words after it (R141). -/
theorem decode_encode_append {i : Instr} (h : i.wf = true) (rest : List Word) :
    decode (encode i ++ rest) = .instr i rest := by
  obtain ⟨w, ws, he, hreads⟩ := encode_decodes i h
  rw [he, List.cons_append, decode, hreads.whole]

/-- A proper part of the words of a well-formed instruction asks for more (R171). -/
theorem decode_encode_part {i : Instr} (h : i.wf = true) {k : Nat} (hk : k < (encode i).length) :
    decode ((encode i).take k) = .more := by
  obtain ⟨w, ws, he, hreads⟩ := encode_decodes i h
  rw [he] at hk ⊢
  cases k with
  | zero => rfl
  | succ k => rw [List.take_succ_cons, decode, hreads.part k (Nat.lt_of_succ_lt_succ hk)]

/-- A well-formed instruction has at most eleven words (R140), shape by shape of its encoding. -/
theorem encode_length_le {i : Instr} (h : i.wf = true) : (encode i).length ≤ maxWords := by
  have hlen : EncodeLength.Statement i := by
    cases i with
    | moveB | moveW | moveL => exact fun _ => encMove_length _ _ _ _
    | bra | bsr | bcc => exact fun _ => encBranch_length _ _
    | ori | andi | subi | addi | eori | cmpi =>
      exact fun _ => encEa_length _ _ _ _ _ _ (le_trans (immWords_length _ _) (by decide))
    | callm | cmp2 | chk2 | btst | bchg | bclr | bset | cas | moves | movemToMem | movemToRegs | muluL | mulsL
    | divuL | divsL | bftst | bfextu | bfchg | bfexts | bfclr | bfffo | bfset | bfins | btstDn | bchgDn | bclrDn
    | bsetDn | moveaW | moveaL | jsr | jmp | pea | nbcd | tas | tst | moveFromSr | negx | moveFromCcr | clr
    | moveToCcr | neg | moveToSr | not | chkW | chkL | lea | scc | addq | subq | divuW | divsW | or | suba | sub
    | cmpa | eor | cmp | muluW | mulsW | and | adda | add | asrEa | aslEa | lsrEa | lslEa | roxrEa | roxlEa | rorEa
    | rolEa | cpSave | cpRestore =>
      exact fun _ => encEa_length _ _ _ _ _ _ (by simp)
    | _ => exact fun _ => of_ble rfl rfl
  exact (hlen h).2

end Sys2Proof.Proofs
end

section
/-! PROOFS. Fetching an instruction with the cache off (R71, R112, R140). -/

namespace Sys2Proof.Proofs

open Sys2Proof Sys2Proof.Machine Sys2Proof.Laws

variable {s t : State}

/-! ## Words in memory (R76) -/

/-- The word at an address. -/
def memWord (s : State) (fc : Fc) (a : Long) : Word := byteAt s fc a ++ byteAt s fc (a + 1#32)

/-- Two bit strings put together, in a wider one. -/
theorem setWidth_append {n m : Nat} (w : Nat) (x : BitVec n) (y : BitVec m) :
    (x.setWidth w <<< m) ||| y.setWidth w = (x ++ y).setWidth w := by
  refine BitVec.eq_of_getLsbD_eq fun i hi => ?_
  simp only [BitVec.getLsbD_or, BitVec.getLsbD_shiftLeft, BitVec.getLsbD_setWidth, BitVec.getLsbD_append]
  by_cases h : i < m
  · simp [h, hi]
  · simp [h, hi, show i - m < w by omega, BitVec.getLsbD_of_ge y i (Nat.le_of_not_lt h)]

theorem load_word (s : State) (fc : Fc) (a : Long) : load s fc a 2 = (memWord s fc a).setWidth 32 := by
  have hbytes : load s fc a 2 = ((byteAt s fc a).setWidth 32 <<< 8) ||| (byteAt s fc (a + 1#32)).setWidth 32 := by
    simp [load, loadAcc]
  rw [hbytes]
  exact setWidth_append 32 _ _

theorem load_long (s : State) (fc : Fc) (a : Long) : load s fc a 4 = memWord s fc a ++ memWord s fc (a + 2#32) := by
  have hsplit : load s fc a 4 = (load s fc a 2 <<< 16) ||| load s fc (a + 2#32) 2 :=
    (loadAcc_add s fc 2 2 a 0#32).trans (loadAcc_eq s fc 2 _ _)
  have hhi := load_word s fc a
  have hlo := load_word s fc (a + 2#32)
  generalize memWord s fc a = hi at *
  generalize memWord s fc (a + 2#32) = lo at *
  rw [hsplit, hhi, hlo]
  exact (setWidth_append 32 hi lo).trans (BitVec.setWidth_eq _)

/-- A word is the low half of the long word it is extended to. -/
theorem setWidth_long_injective {v w : Word} (h : v.setWidth 32 = w.setWidth 32) : v = w := by
  have hlow := congrArg (BitVec.setWidth 16) h
  simpa using hlow

/-- The long word of an address keeps all its bits but the lowest two. -/
theorem getLsbD_longBase (a : Long) {i : Nat} (hi : i < 32) :
    (longBase a).getLsbD i = (decide (2 ≤ i) && a.getLsbD i) := by
  simp only [longBase, BitVec.getLsbD_and]
  interval_cases i <;> simp

theorem longBase_low {a : Long} (h0 : a.getLsbD 0 = false) (h1 : a.getLsbD 1 = false) : longBase a = a := by
  refine BitVec.eq_of_getLsbD_eq fun i hi => ?_
  rw [getLsbD_longBase a hi]
  by_cases h2 : 2 ≤ i
  · simp [h2]
  · interval_cases i <;> simp_all

theorem longBase_high {a : Long} (h0 : a.getLsbD 0 = false) (h1 : a.getLsbD 1 = true) : longBase a + 2#32 = a := by
  have hdisj : longBase a &&& 2#32 = 0#32 := by
    rw [longBase, BitVec.and_assoc]
    exact BitVec.and_zero
  rw [BitVec.add_eq_or_of_and_eq_zero _ _ hdisj]
  refine BitVec.eq_of_getLsbD_eq fun i hi => ?_
  rw [BitVec.getLsbD_or, getLsbD_longBase a hi]
  by_cases h2 : 2 ≤ i
  · have hbit : (2#32).getLsbD i = false := by
      interval_cases i <;> rfl
    rw [hbit, decide_eq_true h2, Bool.true_and, Bool.or_false]
  · interval_cases i <;> simp_all

/-- The word of an even address in its long word is the one at the address. -/
theorem wordIn_load (s : State) (fc : Fc) {a : Long} (h : a.getLsbD 0 = false) :
    wordIn a (load s fc (longBase a) 4) = memWord s fc a := by
  rw [load_long, wordIn]
  cases h1 : a.getLsbD 1
  · rw [longBase_low h h1, if_neg Bool.false_ne_true, BitVec.extractLsb'_append_eq_of_le (Nat.le_refl 16)]
    exact BitVec.extractLsb'_eq_self
  · rw [longBase_high h h1, if_pos rfl]
    exact extractLsb'_append_low _ _

/-! ## What has been fetched is what memory holds -/

/-- A pipe stage holds the word at its address, if it holds one. -/
def StageTrue (s : State) (x : PipeStage) : Prop := x.valid = true → x.word = memWord s (progFc s) x.addr

/-- The state `s` with words in pipe and holding register that stand in program space. -/
structure FetchedFrom (s t : State) : Prop where
  frame : t = { s with holding := t.holding, pipe := t.pipe }
  stageB : StageTrue s t.pipe.b
  stageC : StageTrue s t.pipe.c
  stageD : StageTrue s t.pipe.d
  held : t.holding.valid = true → t.holding.data = load s (progFc s) t.holding.addr 4

theorem fetchedFrom_start (hp : s.pipe = .empty) (hh : s.holding.valid = false) : FetchedFrom s s := by
  have hempty : StageTrue s .empty := fun h => absurd h Bool.noConfusion
  exact ⟨rfl, hp ▸ hempty, hp ▸ hempty, hp ▸ hempty, fun h => absurd (h.symm.trans hh) Bool.noConfusion⟩

theorem wordAt_eq {x : PipeStage} {a : Long} {w : Word} (hx : StageTrue s x) (h : x.wordAt a = some w) :
    w = memWord s (progFc s) a := by
  unfold PipeStage.wordAt at h
  split at h
  case isTrue hc =>
    simp only [Bool.and_eq_true, beq_iff_eq] at hc
    obtain ⟨⟨hvalid, -⟩, haddr⟩ := hc
    rw [← Option.some.inj h, ← haddr]
    exact hx hvalid
  case isFalse => cases h

theorem pipeWord_eq (h : FetchedFrom s t) {a : Long} {w : Word} (hw : pipeWord t.pipe a = some w) :
    w = memWord s (progFc s) a := by
  unfold pipeWord at hw
  split at hw
  case h_1 hd => exact wordAt_eq h.stageD (hd.trans hw)
  case h_2 =>
    split at hw
    case h_1 hc => exact wordAt_eq h.stageC (hc.trans hw)
    case h_2 => exact wordAt_eq h.stageB hw

theorem load_fetched (h : FetchedFrom s t) (fc : Fc) (a : Long) (n : Nat) : load t fc a n = load s fc a n := by
  rw [h.frame]
  exact load_of_bytes (s := s) (t := { s with holding := t.holding, pipe := t.pipe }) (fun _ => rfl) a n

theorem FetchedFrom.refetch (h : FetchedFrom s t) (x : Holding) (p : Pipe) :
    { t with holding := x, pipe := p } = { s with holding := x, pipe := p } :=
  congrArg (fun u : State => { u with holding := x, pipe := p }) h.frame

/-- With the cache off, a long word comes from the holding register or from memory. -/
theorem fetchLong_fetched (hq : Quiet s) (hoff : cacheEnabled s = false) (h : FetchedFrom s t) (a : Long) :
    ∃ x, fetchLong t a = .ok (load s (progFc s) (longBase a) 4, { t with holding := x }) ∧
      (x.valid = true → x.data = load s (progFc s) x.addr 4) := by
  have hfc : progFc t = progFc s := by rw [h.frame]; rfl
  by_cases hheld : (t.holding.valid && t.holding.addr == longBase a && t.holding.fc2 == (progFc t).getLsbD 2) = true
  · have hl : fetchLong t a = .ok (t.holding.data, t) := by simp only [fetchLong, hheld, if_true]
    simp only [Bool.and_eq_true, beq_iff_eq] at hheld
    obtain ⟨⟨hvalid, haddr⟩, -⟩ := hheld
    exact ⟨t.holding, by rw [hl, h.held hvalid, haddr], h.held⟩
  · have hen : cacheEnabled t = false := by rw [h.frame]; exact hoff
    have hqt : Quiet t := by
      rw [h.frame]
      exact quiet_congr hq rfl rfl rfl
    have hb : busRead t (progFc t) (longBase a) 4 = .ok (load s (progFc s) (longBase a) 4, t) := by
      rw [busRead_quiet hqt (progFc_ne t), hfc, load_fetched h]
    refine ⟨heldLong t a (load s (progFc s) (longBase a) 4), ?_, fun _ => rfl⟩
    simp only [fetchLong, hheld, if_false, cacheHit, hen, hb, Bool.false_and, Bool.false_eq_true]
    rfl

/-- With the cache off, the word fetched at an even address is the one that stands there in program space. -/
theorem fetchWord_fetched (hq : Quiet s) (hoff : cacheEnabled s = false) (h : FetchedFrom s t) {a : Long}
    (ha : a.getLsbD 0 = false) : ∃ u, fetchWord t a = .ok (memWord s (progFc s) a, u) ∧ FetchedFrom s u := by
  cases hw : pipeWord t.pipe a with
  | some w => exact ⟨t, by simp only [fetchWord, hw, pipeWord_eq h hw], h⟩
  | none =>
    obtain ⟨x, hl, hx⟩ := fetchLong_fetched hq hoff h a
    have hword := wordIn_load s (progFc s) ha
    refine ⟨{ t with holding := x, pipe := t.pipe.push (freshStage a (load s (progFc s) (longBase a) 4)) }, ?_, ?_⟩
    · rw [← hword]
      simp only [fetchWord, hw, ha, hl, Bool.false_eq_true, if_false]
      rfl
    · exact ⟨h.refetch _ _, fun _ => hword, h.stageB, h.stageC, hx⟩

/-! ## The words of an instruction -/

/-- The words from word `k` on are fetched until they decode. -/
theorem fetchInstr_fetched (hq : Quiet s) (hoff : cacheEnabled s = false) (hpc : s.pc.getLsbD 0 = false) {i : Instr}
    (hi : i.wf = true)
    (hmem : ∀ (k : Nat) (w : Word), (encode i)[k]? = some w → memWord s (progFc s) (s.pc + BitVec.ofNat 32 (2 * k)) = w)
    (n : Nat) {k : Nat} (hk : k < (encode i).length) (hn : (encode i).length ≤ n + k) (h : FetchedFrom s t) :
    ∃ u, fetchInstr n t ((encode i).take k) = .ok (i, u) ∧ FetchedFrom s u := by
  induction n generalizing k t with
  | zero => omega
  | succ n ih =>
    have heven : (s.pc + BitVec.ofNat 32 (2 * k)).getLsbD 0 = false := even_add hpc (by rw [BitVec.getLsbD_ofNat]; simp)
    have hw := hmem k _ (List.getElem?_eq_getElem hk)
    have htpc : t.pc = s.pc := by rw [h.frame]
    obtain ⟨u, hu, hfu⟩ := fetchWord_fetched hq hoff h heven
    have hnext : (encode i).take k ++ [(encode i)[k]] = (encode i).take (k + 1) := List.take_append_getElem hk
    have hlen : ((encode i).take k).length = k := List.length_take_of_le hk.le
    rw [fetchInstr, htpc, hlen, hu, hw]
    dsimp only
    rw [hnext]
    by_cases hlast : k + 1 < (encode i).length
    · rw [decode_encode_part hi hlast]
      exact ih hlast (by omega) hfu
    · have hall : (encode i).take (k + 1) = encode i ++ [] := by
        rw [List.take_of_length_le (by omega), List.append_nil]
      rw [hall, decode_encode_append hi]
      exact ⟨u, rfl, hfu⟩

/-- Settles O5: word by word, each as it stands in program space. -/
theorem fetchReadsProgram : Obligations.FetchReadsProgram := by
  unfold Obligations.FetchReadsProgram
  intro s i hq hi hpc hoff hpipe hhold hmem
  have hword : ∀ (k : Nat) (w : Word), (encode i)[k]? = some w →
      memWord s (progFc s) (s.pc + BitVec.ofNat 32 (2 * k)) = w := fun k w hw =>
    setWidth_long_injective ((load_word s (progFc s) _).symm.trans (hmem k w hw))
  have hpos : 0 < (encode i).length := by
    obtain ⟨w, ws, he, -⟩ := encode_decodes i hi
    simp [he]
  obtain ⟨t, ht, hf⟩ := fetchInstr_fetched hq hoff hpc hi hword maxWords hpos (encode_length_le hi)
    (fetchedFrom_start hpipe hhold)
  exact ⟨t.holding, t.pipe, ht.trans (congrArg (fun u => Except.ok (i, u)) hf.frame)⟩

end Sys2Proof.Proofs
end

section
/-! PROOFS. Encoding and decoding are inverse (R141, R171): what is encoded decodes to itself, and what decodes but for
unassigned patterns is well-formed, one lemma per line of the opcode map. -/

namespace Sys2Proof.Proofs

open Sys2Proof Sys2Proof.Machine Sys2Proof.Laws

/-- Settles O1: `encode_decodes`, shape by shape of the encoding. -/
theorem decodeEncode : Obligations.DecodeEncode := by
  unfold Obligations.DecodeEncode
  exact fun i rest h => decode_encode_append h rest

/-! ## What a parser delivers -/

/-- Whatever the parser reads satisfies `P`. -/
def Delivers {α : Type} (P : α → Prop) (p : Parse (Got α)) : Prop := ∀ v rest, p = .ok (v, rest) → P v

/-- The parser reads well-formed instructions only. -/
abbrev DeliversWf (p : Parse (Got Instr)) : Prop := Delivers (fun i => i.wf = true) p

namespace Delivers

variable {α β : Type} {P : α → Prop} {Q : β → Prop} {p q : Parse (Got α)}

theorem ok {v : α} {l : List Word} (h : P v) : Delivers P (.ok (v, l)) := by
  rintro _ _ ⟨⟩
  exact h

theorem error {e : ParseStop} : Delivers P (.error e) := nofun

theorem trivially : Delivers (fun _ => True) p := fun _ _ _ => trivial

/-- One part of an instruction, then the next. -/
theorem bind {k : Got α → Parse (Got β)} (h : Delivers P p) (hk : ∀ v l, P v → Delivers Q (k (v, l))) :
    Delivers Q (p >>= k) := by
  rcases p with _ | ⟨v, l⟩
  · exact error
  · exact hk v l (h v l rfl)

/-- A part of an instruction that any value satisfies. -/
theorem andThen {k : Got α → Parse (Got β)} (hk : ∀ v l, Delivers Q (k (v, l))) : Delivers Q (p >>= k) :=
  trivially.bind fun v l _ => hk v l

/-- A field of the operation word that may name nothing. -/
theorem field {e : Parse β} {k : β → Parse (Got α)} (hk : ∀ v, Delivers P (k v)) : Delivers P (e >>= k) := by
  cases e
  · exact error
  · exact hk _

/-- A condition on the operation word. -/
theorem need {c : Bool} {k : Unit → Parse (Got α)} (hk : c = true → Delivers P (k ())) :
    Delivers P (Sys2Proof.need c >>= k) := by
  cases c
  · exact error
  · exact hk rfl

/-- A choice, each side of which may use how it was made. -/
theorem dite {c : Prop} [Decidable c] (hp : c → Delivers P p) (hq : ¬c → Delivers P q) :
    Delivers P (if c then p else q) := by
  split
  · exact hp ‹_›
  · exact hq ‹_›

theorem ite {c : Prop} [Decidable c] (hp : Delivers P p) (hq : Delivers P q) : Delivers P (if c then p else q) :=
  dite (fun _ => hp) fun _ => hq

end Delivers

/-! ## Immediates and effective addresses (R147, R150, R156, R157) -/

theorem fits_setWidth {sz : Size} {n : Nat} (v : BitVec n) (h : n ≤ sz.bits) : sz.fits (v.setWidth 32) = true := by
  have hlt : v.toNat < 2 ^ sz.bits := v.isLt.trans_le (Nat.pow_le_pow_right Nat.two_pos h)
  exact decide_eq_true ((BitVec.toNat_setWidth 32 v ▸ Nat.mod_le _ _).trans_lt hlt)

theorem getImm_fits (sz : Size) (l : List Word) : Delivers (fun v => sz.fits v = true) (getImm sz l) := by
  cases sz with
  | b => exact .andThen fun w _ => .ok (fits_setWidth (sz := .b) (field w 0 8) le_rfl)
  | w => exact .andThen fun w _ => .ok (fits_setWidth (sz := .w) w le_rfl)
  | l => exact fun v _ _ => decide_eq_true v.isLt

/-- Postindexing is read only with the index in use (R157). -/
theorem getIndirect_wf (x : XIndex) (bs is : Bool) (bd : Disp) (iis : BitVec 3) (l : List Word) :
    Delivers (fun ind => (Index.full x bs is bd ind).wf = true) (getIndirect is iis l) := by
  have hpre : ∀ od, (Index.full x bs is bd (.pre od)).wf = true := fun od => by cases is <;> rfl
  have hnone : (Index.full x bs is bd .none).wf = true := by cases is <;> rfl
  have hpost : ¬ is = true → ∀ od, (Index.full x bs is bd (.post od)).wf = true := fun his od => by
    cases is
    · rfl
    · exact absurd rfl his
  exact .ite (.ok hnone) (.ite (.andThen fun od _ => .ok (hpre od))
    (.dite (fun _ => .error) fun his => .andThen fun od _ => .ok (hpost his od)))

theorem getIndex_wf (l : List Word) : Delivers (fun x => x.wf = true) (getIndex l) :=
  .andThen fun _ _ => .ite (.ok rfl) (.need fun _ => .andThen fun _ _ =>
    (getIndirect_wf _ _ _ _ _ _).bind fun _ _ h => .ok h)

/-- An effective address of the mode that its field names. -/
theorem ea_wf_of_mode {c : EaClass} {sz : Size} {m : EaMode} {ea : Ea} (hm : (c.has m && m.sizeOk sz) = true)
    (he : ea.mode = m) (hf : ea.fieldsOk sz = true) : ea.wf c sz = true := by
  rw [Ea.wf, he, hm, hf]
  rfl

theorem getEa_wf (c : EaClass) (sz : Size) (mode reg : BitVec 3) (l : List Word) :
    Delivers (fun ea => ea.wf c sz = true) (getEa c sz mode reg l) := by
  unfold getEa
  cases eaMode mode reg with
  | none => exact .error
  | some m =>
    refine .dite (fun hm => ?_) fun _ => .error
    cases m with
    | dn | an | ind | postInc | preDec => exact .ok (ea_wf_of_mode hm rfl rfl)
    | disp | absW | absL | pcDisp => exact .andThen fun _ _ => .ok (ea_wf_of_mode hm rfl rfl)
    | idx | pcIdx => exact (getIndex_wf l).bind fun _ _ hx => .ok (ea_wf_of_mode hm rfl hx)
    | imm => exact (getImm_fits sz l).bind fun _ _ hv => .ok (ea_wf_of_mode hm rfl hv)

/-! ## Shapes of instructions -/

section

variable {c : EaClass} {sz : Size} {op mode reg : BitVec 3} {l : List Word}

theorem withEa_wf {f : Ea → Instr} (h : ∀ ea, ea.wf c sz = true → (f ea).wf = true) :
    DeliversWf (withEa c sz mode reg l f) :=
  (getEa_wf _ _ _ _ _).bind fun ea _ hea => .ok (h ea hea)

theorem withSizedEa_wf {f : Size → Ea → Instr} (h : ∀ sz ea, ea.wf c sz = true → (f sz ea).wf = true) :
    DeliversWf (withSizedEa c op mode reg l f) :=
  .field fun sz => withEa_wf (h sz)

theorem withImmEa_wf {f : Size → Long → Ea → Instr}
    (h : ∀ sz v ea, (sz.fits v && ea.wf c sz) = true → (f sz v ea).wf = true) :
    DeliversWf (withImmEa c op mode reg l f) :=
  .field fun sz => .need fun _ => (getImm_fits sz l).bind fun v _ hv =>
    withEa_wf fun ea hea => h sz v ea (Bool.and_eq_true_iff.2 ⟨hv, hea⟩)

theorem withExtEa_wf {f : Word → Ea → Instr} (h : ∀ x ea, ea.wf c sz = true → (f x ea).wf = true) :
    DeliversWf (withExtEa c sz mode reg l f) :=
  .need fun _ => .andThen fun x _ => withEa_wf (h x)

theorem withDirEa_wf {src : EaClass} {f : Size → Bool → Ea → Instr}
    (h : ∀ sz toEa ea, ea.wf (dirClass toEa src) sz = true → (f sz toEa ea).wf = true) :
    DeliversWf (withDirEa src op mode reg l f) :=
  withSizedEa_wf fun sz ea => h sz (top op) ea

theorem withWord_wf {f : Word → Instr} (h : ∀ x, (f x).wf = true) : DeliversWf (withWord l f) :=
  .andThen fun x _ => .ok (h x)

theorem withLong_wf {f : Long → Instr} (h : ∀ x, (f x).wf = true) : DeliversWf (withLong l f) :=
  .andThen fun x _ => .ok (h x)

end

/-! ## The lines of the opcode map (R143) -/

section

variable (r9 op mode reg : BitVec 3) (l : List Word)

theorem decodeBounds_wf (sz : Size) : DeliversWf (decodeBounds sz mode reg l) :=
  withExtEa_wf fun x ea h => by
    split <;> exact h

theorem decodeBitDyn_wf : DeliversWf (decodeBitDyn r9 op mode reg l) := by
  unfold decodeBitDyn
  refine .ite (withWord_wf fun _ => rfl) ?_
  split <;> exact withEa_wf fun _ => id

theorem decodeBitStatic_wf : DeliversWf (decodeBitStatic op mode reg l) := by
  unfold decodeBitStatic
  split <;> exact withExtEa_wf fun _ _ => id

theorem decodeImmSr_wf {ccr : Byte → Instr} {sr : Word → Instr} (hccr : ∀ x, (ccr x).wf = true)
    (hsr : ∀ x, (sr x).wf = true) : DeliversWf (decodeImmSr op l ccr sr) := by
  unfold decodeImmSr
  split
  · exact withWord_wf fun x => hccr (field x 0 8)
  · exact withWord_wf hsr
  · exact .error

theorem decodeCas_wf (sz : Size) : DeliversWf (decodeCas sz mode reg l) := withExtEa_wf fun _ _ => id

theorem decodeCas2_wf {f : Rn → Reg → Reg → Rn → Reg → Reg → Instr} (h : ∀ a b c d e g, (f a b c d e g).wf = true) :
    DeliversWf (decodeCas2 l f) :=
  .andThen fun _ _ => .andThen fun _ _ => .ok (h _ _ _ _ _ _)

theorem decodeLine0_wf : DeliversWf (decodeLine0 r9 op mode reg l) := by
  unfold decodeLine0
  refine .ite (decodeBitDyn_wf r9 op mode reg l) ?_
  split
  · exact .ite (decodeBounds_wf mode reg l .b) <|
      .ite (decodeImmSr_wf op l (fun _ => rfl) fun _ => rfl) (withImmEa_wf fun _ _ _ => id)
  · exact .ite (decodeBounds_wf mode reg l .w) <|
      .ite (decodeImmSr_wf op l (fun _ => rfl) fun _ => rfl) (withImmEa_wf fun _ _ _ => id)
  · exact .ite (decodeBounds_wf mode reg l .l) (withImmEa_wf fun _ _ _ => id)
  · exact .ite (.ite (.ok rfl) <| .ite (.ok rfl) <| withExtEa_wf fun _ _ => id) (withImmEa_wf fun _ _ _ => id)
  · exact decodeBitStatic_wf op mode reg l
  · exact .ite (decodeCas_wf mode reg l .b) <|
      .ite (decodeImmSr_wf op l (fun _ => rfl) fun _ => rfl) (withImmEa_wf fun _ _ _ => id)
  · exact .ite (.ite (decodeCas2_wf l fun _ _ _ _ _ _ => rfl) (decodeCas_wf mode reg l .w))
      (withImmEa_wf fun _ _ _ => id)
  · exact .ite (.ite (decodeCas2_wf l fun _ _ _ _ _ _ => rfl) (decodeCas_wf mode reg l .l))
      (.field fun _ => withExtEa_wf fun _ _ => id)

theorem decodeMove_wf {sz : Size} {f : Ea → Ea → Instr}
    (h : ∀ src dst, (src.wf .any sz && dst.wf .dataAlt sz) = true → (f src dst).wf = true) :
    DeliversWf (decodeMove sz r9 op mode reg l f) :=
  .need fun _ => (getEa_wf _ _ _ _ _).bind fun src _ hs => (getEa_wf _ _ _ _ _).bind fun dst _ hd =>
    .ok (h src dst (Bool.and_eq_true_iff.2 ⟨hs, hd⟩))

theorem decodeSystem_wf : DeliversWf (decodeSystem reg l) := by
  unfold decodeSystem
  split
  case h_3 | h_5 => exact withWord_wf fun _ => rfl
  all_goals exact .ok rfl

theorem decodeTrapBlock_wf : DeliversWf (decodeTrapBlock mode reg l) := by
  unfold decodeTrapBlock
  split
  case h_3 => exact withWord_wf fun _ => rfl
  case h_7 => exact decodeSystem_wf reg l
  case h_8 => exact .ite (withWord_wf fun _ => rfl) .error
  all_goals exact .ok rfl

theorem decodeMulDiv_wf {u s : Bool → Reg → Reg → Ea → Instr}
    (hu : ∀ b x y ea, ea.wf .data .l = true → (u b x y ea).wf = true)
    (hs : ∀ b x y ea, ea.wf .data .l = true → (s b x y ea).wf = true) : DeliversWf (decodeMulDiv mode reg l u s) :=
  withExtEa_wf fun x ea h => by
    split
    · exact hs _ _ _ _ h
    · exact hu _ _ _ _ h

theorem decodeLine4r4_wf : DeliversWf (decodeLine4r4 op mode reg l) := by
  unfold decodeLine4r4
  split
  · exact .ite (withLong_wf fun _ => rfl) (withEa_wf fun _ => id)
  · exact .ite (.ok rfl) (.ite (.ok rfl) (withEa_wf fun _ => id))
  · exact .ite (.ok rfl) (withExtEa_wf fun _ _ => id)
  · exact .ite (.ok rfl) (withExtEa_wf fun _ _ => id)

theorem decodeLine4_wf : DeliversWf (decodeLine4 r9 op mode reg l) := by
  unfold decodeLine4
  split
  · exact withEa_wf fun _ => id
  · exact .error
  · exact withEa_wf fun _ => id
  · exact .ite (.ok rfl) (withEa_wf fun _ => id)
  · split
    · exact .ite (withEa_wf fun _ => id) (withSizedEa_wf fun _ _ => id)
    · exact .ite (withEa_wf fun _ => id) (withSizedEa_wf fun _ _ => id)
    · exact .ite (withEa_wf fun _ => id) (withSizedEa_wf fun _ _ => id)
    · exact .ite (withEa_wf fun _ => id) (withSizedEa_wf fun _ _ => id)
    · exact decodeLine4r4_wf op mode reg l
    · exact .ite (.ite (.ok rfl) (withEa_wf fun _ => id)) (withSizedEa_wf fun _ _ => id)
    · split
      · exact decodeMulDiv_wf mode reg l (fun _ _ _ _ => id) fun _ _ _ _ => id
      · exact decodeMulDiv_wf mode reg l (fun _ _ _ _ => id) fun _ _ _ _ => id
      · exact withExtEa_wf fun _ _ => id
      · exact withExtEa_wf fun _ _ => id
    · split
      · exact decodeTrapBlock_wf mode reg l
      · exact withEa_wf fun _ => id
      · exact withEa_wf fun _ => id
      · exact .error

theorem decodeLine5_wf : DeliversWf (decodeLine5 r9 op mode reg l) :=
  .ite (.ite (withWord_wf fun _ => rfl) <| .ite (withWord_wf fun _ => rfl) <| .ite (withLong_wf fun _ => rfl) <|
      .ite (.ok rfl) (withEa_wf fun _ => id))
    (.ite (withSizedEa_wf fun _ _ => id) (withSizedEa_wf fun _ _ => id))

/-- A displacement byte that announces a longer displacement is not one itself (R350). -/
theorem getBrDisp_wf (b : Byte) : Delivers (fun d => d.wf = true) (getBrDisp b l) :=
  .dite (fun _ => .andThen fun _ _ => .ok rfl) fun h0 =>
    .dite (fun _ => .andThen fun _ _ => .ok rfl) fun hff => .ok (by simp [BrDisp.wf, h0, hff])

theorem decodeLine6_wf : DeliversWf (decodeLine6 r9 op mode reg l) :=
  (getBrDisp_wf l _).bind fun _ _ hd =>
    .dite (fun _ => .ok hd) fun h0 => .dite (fun _ => .ok hd) fun h1 => .ok (by simp [Instr.wf, hd, h0, h1])

theorem decodeLine7_wf : DeliversWf (decodeLine7 r9 op mode reg l) := .ite .error (.ok rfl)

theorem decodeLine8_wf : DeliversWf (decodeLine8 r9 op mode reg l) :=
  .ite (withEa_wf fun _ => id) <| .ite (withEa_wf fun _ => id) <| .ite (.ok rfl) <|
    .ite (withWord_wf fun _ => rfl) <| .ite (withWord_wf fun _ => rfl) (withDirEa_wf fun _ _ _ => id)

theorem decodeLine9_wf : DeliversWf (decodeLine9 r9 op mode reg l) :=
  .ite (withEa_wf fun _ => id) <| .ite (withEa_wf fun _ => id) <|
    .ite (.field fun _ => .ok rfl) (withDirEa_wf fun _ _ _ => id)

theorem decodeLineB_wf : DeliversWf (decodeLineB r9 op mode reg l) :=
  .ite (withEa_wf fun _ => id) <| .ite (withEa_wf fun _ => id) <|
    .ite (.ite (.field fun _ => .ok rfl) (withSizedEa_wf fun _ _ => id)) (withSizedEa_wf fun _ _ => id)

theorem decodeLineC_wf : DeliversWf (decodeLineC r9 op mode reg l) :=
  .ite (withEa_wf fun _ => id) <| .ite (withEa_wf fun _ => id) <| .ite (.ok rfl) <| .ite (.ok rfl) <|
    .ite (.ok rfl) <| .ite (.ok rfl) (withDirEa_wf fun _ _ _ => id)

theorem decodeLineD_wf : DeliversWf (decodeLineD r9 op mode reg l) :=
  .ite (withEa_wf fun _ => id) <| .ite (withEa_wf fun _ => id) <|
    .ite (.field fun _ => .ok rfl) (withDirEa_wf fun _ _ _ => id)

/-- The memory shifts are the first eight rows, the bit field instructions the others. -/
theorem decodeLineEea_wf : DeliversWf (decodeLineEea r9 op mode reg l) := by
  unfold decodeLineEea
  split
  case h_1 | h_2 | h_3 | h_4 | h_5 | h_6 | h_7 | h_8 => exact withEa_wf fun _ => id
  all_goals exact withExtEa_wf fun _ _ => id

theorem decodeShiftReg_wf (sz : Size) : (decodeShiftReg sz r9 op mode reg).wf = true := by
  unfold decodeShiftReg
  split <;> rfl

theorem decodeLineE_wf : DeliversWf (decodeLineE r9 op mode reg l) :=
  .ite (decodeLineEea_wf r9 op mode reg l) (.field fun sz => .ok (decodeShiftReg_wf r9 op mode reg sz))

theorem decodeCpCond_wf {id : BitVec 3} (hid : (id != 0#3) = true) : DeliversWf (decodeCpCond id mode reg l) :=
  .ite (withWord_wf fun _ => hid) <| .ite (withWord_wf fun _ => hid) <| .ite (withWord_wf fun _ => hid) <|
    .ite (withWord_wf fun _ => hid) <| .need fun hf => withWord_wf fun _ => Bool.and_eq_true_iff.2 ⟨hid, hf⟩

theorem decodeCp_wf {id : BitVec 3} (hid : (id != 0#3) = true) (type : BitVec 3) :
    DeliversWf (decodeCp id type mode reg l) := by
  unfold decodeCp
  split
  · exact withWord_wf fun _ => hid
  · exact decodeCpCond_wf mode reg l hid
  · exact .ok hid
  · exact .ok hid
  · exact withEa_wf fun _ h => Bool.and_eq_true_iff.2 ⟨hid, h⟩
  · exact withEa_wf fun _ h => Bool.and_eq_true_iff.2 ⟨hid, h⟩
  · exact .ok hid

theorem decodeLineF_wf : DeliversWf (decodeLineF r9 op mode reg l) :=
  .dite (fun _ => .ok rfl) fun hid => decodeCp_wf mode reg l (bne_iff_ne.2 hid) op

theorem decodeFields_wf (line : BitVec 4) : DeliversWf (decodeFields line r9 op mode reg l) := by
  unfold decodeFields
  split
  · exact decodeLine0_wf r9 op mode reg l
  · exact decodeMove_wf r9 op mode reg l fun _ _ => id
  · exact .ite (withEa_wf fun _ => id) (decodeMove_wf r9 op mode reg l fun _ _ => id)
  · exact .ite (withEa_wf fun _ => id) (decodeMove_wf r9 op mode reg l fun _ _ => id)
  · exact decodeLine4_wf r9 op mode reg l
  · exact decodeLine5_wf r9 op mode reg l
  · exact decodeLine6_wf r9 op mode reg l
  · exact decodeLine7_wf r9 op mode reg l
  · exact decodeLine8_wf r9 op mode reg l
  · exact decodeLine9_wf r9 op mode reg l
  · exact .ok rfl
  · exact decodeLineB_wf r9 op mode reg l
  · exact decodeLineC_wf r9 op mode reg l
  · exact decodeLineD_wf r9 op mode reg l
  · exact decodeLineE_wf r9 op mode reg l
  · exact decodeLineF_wf r9 op mode reg l

end

/-- Settles O2: a row of the opcode table delivers a well-formed instruction, and where no row does, the answer is the
unassigned pattern. -/
theorem decodedWellFormed : Obligations.DecodedWellFormed := by
  unfold Obligations.DecodedWellFormed
  intro ws i rest h
  cases ws with
  | nil => nomatch h
  | cons w ws =>
    have hrow : DeliversWf (decodeOp w ws) := decodeFields_wf _ _ _ _ ws _
    rw [decode] at h
    cases hop : decodeOp w ws with
    | ok got =>
      obtain ⟨i', rest'⟩ := got
      rw [hop] at h
      cases h
      exact .inl (hrow _ _ hop)
    | error stop =>
      rw [hop] at h
      cases stop with
      | more => nomatch h
      | bad =>
        cases h
        exact .inr ⟨w, rfl⟩

end Sys2Proof.Proofs
end

section
/-! PROOFS. The addressing modes (R152-R161), as TST and LEA make them. -/

namespace Sys2Proof.Proofs

open Sys2Proof Sys2Proof.Machine Sys2Proof.Laws

variable {s : State}

/-! ## TST and LEA in a quiet state -/

/-- TST of an operand in data space: what the register update leaves, with the flags of the operand. -/
theorem tst_quiet (h : Quiet s) (sz : Size) {ea : Ea} {a : Long} (hloc : eaLoc s sz 0 ea = .mem false a) :
    CompletesAs (exec (.tst sz ea) s)
      (finish (eaStep s sz ea) (1 + eaLen sz ea) (logicFlags s.ccr sz (load s (dataFc s) a (bytesOf sz)))) := by
  have hval : eaVal s sz 0 ea = load s (dataFc s) a (bytesOf sz) := by
    rw [eaVal, hloc, valueAt, load_congr (eaStep_mem s sz ea) (eaStep_platform s sz ea), spaceFc, dataFc, dataFc,
      eaStep_sr]
    rfl
  have htest := testEa_quiet h sz 0 ea fun v => logicFlags s.ccr sz v
  rw [tested, hval] at htest
  exact htest

/-- LEA gives the address that the effective address names. -/
theorem lea_quiet (h : Quiet s) (a : Reg) (ea : Ea) :
    CompletesAs (exec (.lea a ea) s)
      (advance (1 + eaLen .l ea) ((eaStep s .l ea).setA a (eaLoc s .l 0 ea).addr)) := by
  obtain ⟨dn, haddr⟩ := eaAddr_quiet h 0 ea
  exact ⟨dn, by simp only [exec_lea, execLea, haddr, ok_bind, setA_withDone, advance_withDone, toRes]⟩

/-! ## Index and displacements (R156, R157) -/

/-- Shifting left multiplies by a power of two, whatever integer the bits stand for. -/
theorem ofInt_shiftLeft (w : Nat) (i : Int) (k : Nat) : BitVec.ofInt w i <<< k = BitVec.ofInt w (i * 2 ^ k) := by
  have hpow : BitVec.twoPow w k = BitVec.ofInt w (2 ^ k) := by
    rw [← Nat.cast_two, ← Nat.cast_pow, BitVec.ofInt_natCast]
    exact BitVec.eq_of_toNat_eq ((BitVec.toNat_twoPow w k).trans (BitVec.toNat_ofNat _ _).symm)
  rw [BitVec.shiftLeft_eq_mul_twoPow, hpow, BitVec.ofInt_mul]

/-- The index operand as an integer: the register or its low word, times the scale. -/
theorem indexValue_eq_ofInt (s : State) (x : XIndex) :
    indexValue s x = BitVec.ofInt 32
      ((if x.long then (s.rn x.rn).toInt else ((s.rn x.rn).setWidth 16).toInt) * 2 ^ x.scale.toNat) := by
  have hindex : (if x.long then s.rn x.rn else sextWord ((s.rn x.rn).setWidth 16)) =
      BitVec.ofInt 32 (if x.long then (s.rn x.rn).toInt else ((s.rn x.rn).setWidth 16).toInt) := by
    cases x.long
    · rfl
    · exact BitVec.ofInt_toInt.symm
  rw [indexValue, hindex, ofInt_shiftLeft]

/-- Settles O26: the location that each mode names, with the index as an integer. -/
theorem addressingModes : Obligations.AddressingModes := by
  unfold Obligations.AddressingModes
  intro s sz n a d8 d16 d32 x bs is bd ind h step tests leads r index disp full pcx
  have hstep : incOf sz n = step := by cases sz <;> rfl
  have hindex : indexValue s x = index := indexValue_eq_ofInt s x
  have hdisp : dispValue = disp := by
    funext d
    cases d <;> rfl
  have hfull : ∀ prog base, indexAt s prog base (.full x bs is bd ind) = full (spaceFc s prog) base := by
    intro prog base
    simp only [indexAt, hindex, hdisp]
    rfl
  have hleads : ∀ ea at_, eaStep s .l ea = s → (eaLoc s .l 0 ea).addr = at_ → leads ea at_ := by
    rintro ea _ hs rfl
    simpa only [hs] using lea_quiet h a ea
  have hpost : tests (.postInc n) (s.a n) (s.setA n (s.a n + step)) :=
    hstep ▸ tst_quiet h sz (ea := .postInc n) rfl
  have hpre : tests (.preDec n) (s.a n - step) (s.setA n (s.a n - step)) :=
    hstep ▸ tst_quiet h sz (ea := .preDec n) rfl
  exact ⟨tst_quiet h sz (ea := .ind n) rfl, hpost, hpre, hleads _ _ rfl rfl, hleads _ _ rfl rfl,
    hleads _ _ rfl (congrArg (s.a n + sextByte d8 + ·) hindex), hleads _ _ rfl (hfull false (s.a n)),
    hleads _ _ rfl rfl, hleads _ _ rfl rfl, hleads _ _ rfl rfl,
    hleads _ _ rfl (congrArg (pcx + sextByte d8 + ·) hindex), hleads _ _ rfl (hfull true pcx)⟩

end Sys2Proof.Proofs
end

section
/-! PROOFS. Program control (R350-R360): where control goes, and what is pushed and popped. -/

namespace Sys2Proof.Proofs

open Sys2Proof Sys2Proof.Machine Sys2Proof.Laws

variable {s : State}

/-! ## Changes of flow (R350, R622) -/

/-- A jump is a change of flow to its target, whatever the log of the state that jumps. -/
theorem goesTo_jumpTo_withDone (u : State) (dn : List BusRec) (target : Long) :
    GoesTo (.next (jumpTo (u.withDone dn) target)) u target :=
  ⟨fun heven => ⟨dn, congrArg Host.Outcome.next (if_neg (heven ▸ Bool.false_ne_true))⟩,
   fun hodd => ⟨dn, congrArg Host.Outcome.next (if_pos hodd)⟩⟩

theorem goesTo_jumpTo (u : State) (target : Long) : GoesTo (.next (jumpTo u target)) u target :=
  goesTo_jumpTo_withDone u u.done target

/-! ## Branches (R351-R354) -/

/-- The low word of a data register, as DBcc counts in it. -/
theorem loWord_eq_setWidth (v : Long) : loWord v = v.setWidth 16 :=
  BitVec.eq_of_toNat_eq (by simp [loWord])

variable {cc : Cond} {d : Reg} {d16 : Word}

theorem bcc_taken (h : cond cc s.ccr = true) (b : BrDisp) :
    GoesTo (exec (.bcc cc b) s) s (branchTarget s (BrDisp.value b)) := by
  rw [exec_bcc, execBcc, if_pos h]
  exact goesTo_jumpTo s _

theorem bcc_notTaken (h : cond cc s.ccr = false) (b : BrDisp) :
    exec (.bcc cc b) s = .next (advance (BrDisp.len b) s) := by
  rw [exec_bcc, execBcc, h]
  rfl

theorem bsr_quiet (h : Quiet s) (b : BrDisp) :
    GoesTo (exec (.bsr b) s) (pushed s (pcAfter s (BrDisp.len b))) (branchTarget s (BrDisp.value b)) := by
  obtain ⟨dn, hpush⟩ := pushLong_quiet h (pcAfter s (BrDisp.len b))
  rw [exec_bsr, execBsr, hpush]
  exact goesTo_jumpTo_withDone _ dn _

/-- DBcc with its condition true does not count. -/
theorem dbcc_true (h : cond cc s.ccr = true) : exec (.dbcc cc d d16) s = .next (advance 2 s) := by
  rw [exec_dbcc, execDbcc, if_pos h]

/-- DBcc with its condition false counts, and branches unless the count has run out. -/
theorem dbcc_false (h : cond cc s.ccr = false) {count : Word} (hcount : (s.d d).setWidth 16 - 1#16 = count) :
    exec (.dbcc cc d d16) s =
      if count = 0xFFFF#16 then .next (advance 2 (s.setDSized .w d (count.setWidth 32)))
      else .next (jumpTo (s.setDSized .w d (count.setWidth 32)) (branchTarget s (sextWord d16))) := by
  rw [exec_dbcc, execDbcc, h, loWord_eq_setWidth, hcount]
  rfl

/-! ## Jumps and calls (R356, R357) -/

theorem jmp_quiet (h : Quiet s) (ea : Ea) : GoesTo (exec (.jmp ea) s) (eaStep s .l ea) (eaLoc s .l 0 ea).addr := by
  obtain ⟨dn, haddr⟩ := eaAddr_quiet h 0 ea
  rw [exec_jmp, execJmp, haddr]
  exact goesTo_jumpTo_withDone _ dn _

/-- Pushing finds the state as it is but for the log. -/
theorem pushed_withDone (s : State) (dn : List BusRec) (v : Long) :
    pushed (s.withDone dn) v = (pushed s v).withDone dn :=
  store_withDone _ _ _ _ (s.setSp (s.sp - 4#32)) dn

theorem jsr_quiet (h : Quiet s) (ea : Ea) :
    GoesTo (exec (.jsr ea) s) (pushed (eaStep s .l ea) (pcAfter s (1 + eaLen .l ea))) (eaLoc s .l 0 ea).addr := by
  obtain ⟨d1, haddr⟩ := eaAddr_quiet h 0 ea
  obtain ⟨d2, hpush⟩ := pushLong_quiet (quiet_withDone (quiet_eaStep h .l ea) d1) (pcAfter s (1 + eaLen .l ea))
  rw [pushed_withDone, withDone_withDone] at hpush
  simp only [exec_jsr, execJsr, haddr, hpush, ok_bind, toRes]
  exact goesTo_jumpTo_withDone _ d2 _

/-! ## Returns (R358-R360) -/

theorem rts_quiet (h : Quiet s) : GoesTo (exec .rts s) (s.setSp (s.sp + 4#32)) (load s (dataFc s) s.sp 4) := by
  obtain ⟨dn, hpop⟩ := pop_quiet h 4
  rw [exec_rts, execRts, hpop]
  exact goesTo_jumpTo_withDone _ dn _

/-- The last of two writes to the stack pointer stands. -/
theorem setSp_setSp (s : State) (v w : Long) : (s.setSp v).setSp w = s.setSp w := by
  simp only [State.setSp, setActiveSp]
  split
  · split <;> rfl
  · rfl

theorem rtd_quiet (h : Quiet s) (d16 : Word) :
    GoesTo (exec (.rtd d16) s) (s.setSp (s.sp + 4#32 + d16.signExtend 32)) (load s (dataFc s) s.sp 4) := by
  obtain ⟨dn, hpop⟩ := pop_quiet h 4
  have hsp : ((s.setSp (s.sp + 4#32)).withDone dn).sp = s.sp + 4#32 := sp_setSp s _
  simp only [exec_rtd, execRtd, hpop, ok_bind, toRes, hsp]
  rw [setSp_withDone, setSp_setSp]
  exact goesTo_jumpTo_withDone _ dn _

/-- RTR's second pop, of the target, after the first one and the write of the flags. -/
theorem pop_afterCcr (h : Quiet s) (f : Ccr) (dn : List BusRec) :
    ∃ dn', pop (((s.setSp (s.sp + 2#32)).withDone dn).setCcr f) 4 =
      .ok (load s (dataFc s) (s.sp + 2#32) 4, ((s.setCcr f).setSp (s.sp + 6#32)).withDone dn') := by
  obtain ⟨dn', hpop⟩ := pop_quiet (s := ((s.setSp (s.sp + 2#32)).withDone dn).setCcr f) (quiet_congr h rfl rfl rfl) 4
  have hsp : (((s.setSp (s.sp + 2#32)).withDone dn).setCcr f).sp = s.sp + 2#32 := sp_setSp s _
  have hload := load_congr (s := s) (t := ((s.setSp (s.sp + 2#32)).withDone dn).setCcr f) rfl rfl
  have hend := setSp_setSp (s.setCcr f) (s.sp + 2#32) (s.sp + 2#32 + 4#32)
  rw [hsp, hload] at hpop
  rw [BitVec.add_assoc] at hend hpop
  exact ⟨dn', hpop.trans (congrArg (fun u => Except.ok (_, State.withDone u dn')) hend :)⟩

/-- The flags come from the first word popped, the target from the long word above it. -/
theorem rtr_quiet (h : Quiet s) :
    GoesTo (exec .rtr s) ((s.setCcr (.ofByte ((load s (dataFc s) s.sp 2).setWidth 8))).setSp (s.sp + 6#32))
      (load s (dataFc s) (s.sp + 2#32) 4) := by
  obtain ⟨d1, hword⟩ := pop_quiet h 2
  obtain ⟨d2, htarget⟩ := pop_afterCcr h (.ofByte ((load s (dataFc s) s.sp 2).setWidth 8)) d1
  simp only [exec_rtr, execRtr, hword, htarget, ok_bind, toRes]
  exact goesTo_jumpTo_withDone _ d2 _

/-! ## Condition tests (R170) -/

theorem cond_list (f : Ccr) : (List.range 16).map (fun k => cond (BitVec.ofNat 4 k) f) =
    [true, false, !f.c && !f.z, f.c || f.z, !f.c, f.c, !f.z, f.z, !f.v, f.v, !f.n, f.n, f.n == f.v, f.n != f.v,
      !f.z && f.n == f.v, f.z || f.n != f.v] := rfl

/-- Settles O43: branches, then jumps, calls and returns, then the condition tests. -/
theorem controlFlow : Obligations.ControlFlow := by
  unfold Obligations.ControlFlow
  refine ⟨fun s cc b d d16 h => ?_, fun s ea d16 h => ⟨jmp_quiet h ea, jsr_quiet h ea, rts_quiet h, rtd_quiet h d16,
    rtr_quiet h⟩, cond_list⟩
  intro disp len target loop count counted
  have hdisp : BrDisp.value b = disp := by cases b <;> rfl
  have hlen : BrDisp.len b = len := by cases b <;> rfl
  have htarget : branchTarget s (BrDisp.value b) = target := congrArg (s.pc + 2#32 + ·) hdisp
  refine ⟨fun hc => hlen ▸ bcc_notTaken hc b, fun hc => htarget ▸ bcc_taken hc b, htarget ▸ goesTo_jumpTo s _,
    htarget ▸ hlen ▸ bsr_quiet h b, dbcc_true, fun hc hcount => (dbcc_false hc rfl).trans (if_pos hcount),
    fun hc hcount => ?_, exec_nop s⟩
  rw [dbcc_false hc rfl, if_neg hcount]
  exact goesTo_jumpTo counted loop

end Sys2Proof.Proofs
end

section
/-! PROOFS. Moves between registers and operands (R200-R203, R207-R211), the register operations (R209, R250, R297), and
their words. -/

namespace Sys2Proof.Proofs

open Sys2Proof Sys2Proof.Machine Sys2Proof.Laws

variable {s : State}

/-! ## Words (R141, R143) -/

/-- The words of a well-formed instruction decode to it and leave none. -/
theorem decode_of_encode {i : Instr} {ws : List Word} (h : i.wf = true) (he : encode i = ws) :
    decode ws = .instr i [] := by
  subst he
  simpa using decode_encode_append h []

/-- Settles O3: each list of words is the encoding of its instruction. -/
theorem decodeWords : Obligations.DecodeWords := by
  unfold Obligations.DecodeWords
  exact ⟨decode_of_encode rfl rfl, decode_of_encode rfl rfl, decode_of_encode rfl rfl, decode_of_encode rfl rfl,
    decode_of_encode rfl rfl, decode_of_encode rfl rfl, decode_of_encode rfl rfl⟩

/-- The register field is the low end of an operation word. -/
theorem mkOp_eq_or (line : BitVec 4) (r9 op mode reg : BitVec 3) :
    mkOp line r9 op mode reg = mkOp line r9 op mode 0#3 ||| reg.setWidth 16 := by
  refine BitVec.eq_of_getLsbD_eq fun i hi => ?_
  simp only [mkOp, BitVec.getLsbD_or, BitVec.getLsbD_append, BitVec.getLsbD_setWidth]
  by_cases h : i < 3
  · simp [h, hi]
  · simp [h, BitVec.getLsbD_of_ge reg i (Nat.le_of_not_lt h)]

/-- An instruction whose only field is the register at the low end of its word. -/
theorem decode_lowReg {i : Instr} {r9 op : BitVec 3} {reg : Reg} {w : Word} (h : i.wf = true)
    (he : encode i = [mkOp 4#4 r9 op 0#3 reg]) (hw : mkOp 4#4 r9 op 0#3 0#3 = w) :
    decode [w ||| reg.setWidth 16] = .instr i [] := by
  subst hw
  exact decode_of_encode h (he.trans (congrArg (fun w => [w]) (mkOp_eq_or _ _ _ _ _)))

/-- The opmode and mode fields of an operation word as one field of six bits. -/
theorem mkOp_eq_append (line : BitVec 4) (r9 op mode reg : BitVec 3) :
    mkOp line r9 op mode reg = line ++ r9 ++ (op ++ mode : BitVec 6) ++ reg := by
  rw [mkOp, BitVec.append_assoc (x₁ := line ++ r9)]
  rfl

/-- EXG in words (R209). -/
theorem decode_exg {i : Instr} {op mode : BitVec 3} {form : BitVec 6} {x y : Reg} (h : i.wf = true)
    (he : encode i = [mkOp 12#4 x op mode y]) (hform : op ++ mode = form) :
    decode [12#4 ++ x ++ form ++ y] = .instr i [] := by
  subst hform
  exact decode_of_encode h (he.trans (congrArg (fun w => [w]) (mkOp_eq_append _ _ _ _ _)))

/-! ## Register operations (R209, R250, R297) -/

/-- SWAP puts the low half above the high half. -/
theorem exec_swap_eq (s : State) (x : Reg) {r : Long} (hr : r = (s.d x).extractLsb' 0 16 ++ (s.d x).extractLsb' 16 16) :
    exec (.swap x) s = .next (finish (s.setD x r) 1 (logicFlags s.ccr .l r)) := by
  subst hr
  rfl

/-- The sign bit of a word is N at word size. -/
theorem msb_word (r : Word) : msb .w (r.setWidth 32) = r.msb := by
  simp [msb, BitVec.msb_eq_getLsbD_last]

/-- A word is zero if its extension is. -/
theorem isZero_word (r : Word) : isZero (r.setWidth 32) = decide (r = 0#16) := by
  rw [isZero, beq_eq_decide]
  exact decide_eq_decide.2 ⟨fun h => setWidth_long_injective h, fun h => h ▸ rfl⟩

theorem extractLsb'_zero_eq_setWidth {n : Nat} (k : Nat) (v : BitVec n) : v.extractLsb' 0 k = v.setWidth k :=
  BitVec.eq_of_toNat_eq (by simp)

/-- A byte sign-extended to a long word has its sign extension to a word as its low half. -/
theorem setWidth_signExtend_byte (b : Byte) : (b.signExtend 32).setWidth 16 = b.signExtend 16 := by
  refine BitVec.eq_of_getLsbD_eq fun i hi => ?_
  have hwide : i < 32 := by omega
  simp only [BitVec.getLsbD_setWidth, BitVec.getLsbD_signExtend, hi, hwide, decide_true, Bool.true_and]

/-- EXT.W keeps the upper half of the register. -/
theorem exec_extW_eq (s : State) (x : Reg) {r : Word} (hr : r = ((s.d x).extractLsb' 0 8).signExtend 16) :
    exec (.extW x) s = .next (finish (s.setD x ((s.d x).extractLsb' 16 16 ++ r)) 1
      { x := s.ccr.x, n := r.msb, z := decide (r = 0#16), v := false, c := false }) := by
  have hres : trunc .w (sext .b (s.d x)) = r.setWidth 32 := by
    rw [hr, extractLsb'_zero_eq_setWidth, ← setWidth_signExtend_byte]
    rfl
  have hlow : (r.setWidth 32).setWidth 16 = r :=
    (BitVec.setWidth_setWidth_of_le r (by decide)).trans (BitVec.setWidth_eq r)
  rw [exec_extW, execExtW, hres]
  simp only [logicFlags, msb_word, isZero_word, State.setDSized, insertLow, hlow]
  rfl

theorem exec_extL_eq (s : State) (x : Reg) {r : Long} (hr : r = ((s.d x).extractLsb' 0 16).signExtend 32) :
    exec (.extL x) s = .next (finish (s.setD x r) 1 (logicFlags s.ccr .l r)) := by
  have hres : sext .w (s.d x) = r := by rw [hr, extractLsb'_zero_eq_setWidth]; rfl
  rw [exec_extL, execExtL, hres]
  rfl

theorem exec_extbL_eq (s : State) (x : Reg) {r : Long} (hr : r = ((s.d x).extractLsb' 0 8).signExtend 32) :
    exec (.extbL x) s = .next (finish (s.setD x r) 1 (logicFlags s.ccr .l r)) := by
  have hres : sext .b (s.d x) = r := by rw [hr, extractLsb'_zero_eq_setWidth]; rfl
  rw [exec_extbL, execExtbL, hres]
  rfl

/-- Settles O36: the words by `decode_exg` and `decode_lowReg`, EXG by definition, then SWAP and the extensions. -/
theorem registerOperations : Obligations.RegisterOperations := by
  unfold Obligations.RegisterOperations
  intro s x y
  exact ⟨⟨decode_exg rfl rfl rfl, decode_exg rfl rfl rfl, decode_exg rfl rfl rfl, decode_lowReg rfl rfl rfl,
    decode_lowReg rfl rfl rfl, decode_lowReg rfl rfl rfl, decode_lowReg rfl rfl rfl⟩,
    exec_exgDD s x y, exec_exgAA s x y, exec_exgDA s x y,
    ⟨_, rfl, exec_swap_eq s x rfl⟩, ⟨_, rfl, exec_extW_eq s x rfl⟩, ⟨_, rfl, exec_extL_eq s x rfl⟩,
    ⟨_, rfl, exec_extbL_eq s x rfl⟩⟩

/-! ## Address registers as destinations (R202, R207, R232, R237) -/

/-- Settles O31: the four that combine an operand into An by `eaToAn_quiet`, LEA by `lea_quiet`. -/
theorem toAddressRegister : Obligations.ToAddressRegister := by
  unfold Obligations.ToAddressRegister
  intro s a long ea h
  exact ⟨eaToAn_quiet h (longSize long) a ea fun x v => x + v, eaToAn_quiet h (longSize long) a ea fun x v => x - v,
    eaToAn_quiet h .w a ea fun _ v => v, eaToAn_quiet h .l a ea fun _ v => v, lea_quiet h a ea⟩

/-! ## MOVE and MOVEQ (R200, R201, R203) -/

/-- The state after MOVE: the source is read and its register stepped, then the destination is located and written. -/
def moved (s : State) (sz : Size) (src dst : Ea) : State :=
  finish (putAt (eaStep (eaStep s sz src) sz dst) sz (eaVal s sz 0 src) (eaLoc (eaStep s sz src) sz (eaLen sz src) dst))
    (1 + eaLen sz src + eaLen sz dst) (logicFlags s.ccr sz (eaVal s sz 0 src))

theorem eaStep_withDone (s : State) (dn : List BusRec) (sz : Size) (ea : Ea) :
    eaStep (s.withDone dn) sz ea = (eaStep s sz ea).withDone dn := by
  cases ea with
  | postInc n | preDec n => exact setA_withDone s dn n _
  | _ => rfl

theorem indexAt_withDone (s : State) (dn : List BusRec) (prog : Bool) (base : Long) (x : Index) :
    indexAt (s.withDone dn) prog base x = indexAt s prog base x := by
  cases x with
  | brief x d8 => rfl
  | full x bs is bd ind =>
    cases ind with
    | none => rfl
    | pre od | post od => simp only [indexAt, load_withDone]; rfl

/-- What an effective address names does not depend on the log. -/
theorem locAt_withDone (s : State) (dn : List BusRec) (sz : Size) (pcx : Long) (ea : Ea) :
    locAt (s.withDone dn) sz pcx ea = locAt s sz pcx ea := by
  cases ea with
  | idx n x => exact congrArg (Loc.mem false) (indexAt_withDone s dn false (s.a n) x)
  | pcIdx x => exact congrArg (Loc.mem true) (indexAt_withDone s dn true pcx x)
  | _ => rfl

/-- MOVE at any size (R201, R200 f). -/
theorem moveSized_quiet (h : Quiet s) (sz : Size) (src dst : Ea) :
    CompletesAs (moveSized sz src dst s) (moved s sz src dst) := by
  obtain ⟨d1, hread⟩ := readEa_quiet h sz 0 src
  have q1 := quiet_withDone (quiet_eaStep h sz src) d1
  obtain ⟨d2, heval⟩ := evalEa_quiet q1 sz (extAt s (eaLen sz src)) dst
  obtain ⟨d3, hwrite⟩ := writeLoc_quiet (quiet_withDone (quiet_eaStep q1 sz dst) d2) sz (eaVal s sz 0 src)
    (locAt (eaStep s sz src) sz (extAt s (eaLen sz src)) dst)
  have hext : extAt (eaStep s sz src) (eaLen sz src) = extAt s (eaLen sz src) := by rw [extAt, eaStep_pc]; rfl
  simp only [eaStep_withDone, locAt_withDone, withDone_withDone, putAt_withDone] at heval hwrite
  refine ⟨d3, ?_⟩
  simp only [moveSized, hread, heval, hwrite, ok_bind, setCcr_withDone, advance_withDone, toRes, moved, finish, eaLoc,
    hext]

/-- N and Z of a byte's sign extension are those of the byte. -/
theorem logicFlags_sextByte (f : Ccr) (b : Byte) : logicFlags f .l (sextByte b) =
    { x := f.x, n := b.getLsbD 7, z := decide (b = 0#8), v := false, c := false } := by
  have hn : msb .l (sextByte b) = b.getLsbD 7 := by
    rw [msb, sextByte, BitVec.getLsbD_signExtend]
    exact BitVec.msb_eq_getLsbD_last b
  have hz : isZero (sextByte b) = decide (b = 0#8) := by
    rw [isZero, beq_eq_decide]
    refine decide_eq_decide.2 ⟨fun h => BitVec.eq_of_toInt_eq ?_, fun h => h ▸ rfl⟩
    rw [← BitVec.toInt_signExtend_of_le (v := 32) (by decide)]
    exact congrArg BitVec.toInt h
  rw [logicFlags, hn, hz]

/-- Settles O32: MOVE by `moveSized_quiet`, MOVEQ by its encoding and by definition. -/
theorem moves : Obligations.Moves := by
  unfold Obligations.Moves
  intro s src dst d imm h r
  have hmoved : ∀ sz, moved s sz src dst = r sz := fun sz => by
    simp only [moved, logicFlags, isZero, beq_eq_decide]
    rfl
  refine ⟨hmoved .b ▸ moveSized_quiet h .b src dst, hmoved .w ▸ moveSized_quiet h .w src dst,
    hmoved .l ▸ moveSized_quiet h .l src dst, decode_of_encode rfl rfl, ?_⟩
  rw [exec_moveq, execMoveq, logicFlags_sextByte]
  rfl

/-! ## PEA, LINK and UNLK (R208, R210, R211) -/

theorem pea_quiet (h : Quiet s) (ea : Ea) :
    CompletesAs (exec (.pea ea) s) (advance (1 + eaLen .l ea) (pushed (eaStep s .l ea) (eaLoc s .l 0 ea).addr)) := by
  obtain ⟨d1, haddr⟩ := eaAddr_quiet h 0 ea
  obtain ⟨d2, hpush⟩ := pushLong_quiet (quiet_withDone (quiet_eaStep h .l ea) d1) (eaLoc s .l 0 ea).addr
  rw [pushed_withDone, withDone_withDone] at hpush
  exact ⟨d2, by simp only [exec_pea, execPea, haddr, hpush, ok_bind, advance_withDone, toRes]⟩

/-- A7 is the active stack pointer (R23). -/
theorem setA_seven (s : State) (v : Long) : s.setA 7#3 v = s.setSp v := rfl

theorem a_seven (s : State) : s.a 7#3 = s.sp := rfl

theorem toNat_lt_of_ne_seven {n : Reg} (h : n ≠ 7#3) : n.toNat < 7 := by
  revert h
  revert n
  decide

theorem sp_withDone (s : State) (dn : List BusRec) : (s.withDone dn).sp = s.sp := rfl

theorem sp_setA {n : Reg} (h : n ≠ 7#3) (v : Long) : (s.setA n v).sp = s.sp := by
  rw [← a_seven, a_setA, if_neg (Ne.symm h)]
  rfl

/-- A write of A7 is lost under a later one, with another register written between them or not. -/
theorem setSp_setA_setSp (s : State) (n : Reg) (p v w : Long) :
    ((s.setSp p).setA n v).setSp w = (s.setA n v).setSp w := by
  by_cases h : n = 7#3
  · subst h
    simp only [setA_seven, setSp_setSp]
  · simp only [State.setA, toNat_lt_of_ne_seven h, dif_pos, State.setSp, setActiveSp]
    split
    · split <;> rfl
    · rfl

/-- Copying A7 to an address register leaves it. -/
theorem sp_setA_sp (s : State) (n : Reg) : (s.setA n s.sp).sp = s.sp := by
  by_cases h : n = 7#3
  · subst h
    exact sp_setSp s s.sp
  · exact sp_setA h s.sp

/-- Storing neither reads nor moves the stack pointer. -/
theorem store_setSp (fc : Fc) (n : Nat) (a v p : Long) (s : State) :
    store (s.setSp p) fc n a v = (store s fc n a v).setSp p := by
  induction n generalizing s a with
  | zero => rfl
  | succ n ih =>
    simp only [store]
    exact ih _ (setByteAt s fc a (byteOf v n))

/-- LINK with either displacement (R210), A7 included (log 17). -/
theorem link_quiet (h : Quiet s) (a : Reg) (disp : Long) (n : Nat) :
    CompletesAs (link a disp n s) (advance n (linked s a disp)) := by
  generalize hp : s.sp - 4#32 = p
  have hpushed : (s.setSp p).a a = if a = 7#3 then p else s.a a := a_setA s 7#3 a p
  have hwrite := memWrite_quiet (s := s.setSp p) (quiet_congr h rfl rfl rfl) p 4 ((s.setSp p).a a)
  rw [hpushed, store_setSp] at hwrite
  generalize hu : store s (dataFc (s.setSp p)) 4 p (if a = 7#3 then p else s.a a) = u at hwrite
  refine ⟨(s.setSp p).done ++ [.write], ?_⟩
  have hlinked : linked s a disp = (u.setA a p).setSp (p + disp) := by
    rw [← hu, linked, hp]
    rfl
  have hcopied : ((u.setSp p).setA a p).sp = p := by
    have hcopy := sp_setA_sp (u.setSp p) a
    rwa [sp_setSp] at hcopy
  simp only [link, hp, sp_setSp, hpushed, hwrite, ok_bind, setA_withDone, sp_withDone, hcopied, setSp_withDone,
    advance_withDone, setSp_setA_setSp, toRes, hlinked]

theorem unlk_quiet (h : Quiet s) (a : Reg) : CompletesAs (exec (.unlk a) s) (advance 1 (unlinked s a)) := by
  generalize hp : s.a a = p
  have hread := memRead_quiet (s := s.setSp p) (quiet_congr h rfl rfl rfl) p 4
  have hload : load (s.setSp p) (dataFc (s.setSp p)) p 4 = load s (dataFc s) p 4 := load_congr (s := s) rfl rfl _ p 4
  rw [hload] at hread
  generalize hv : load s (dataFc s) p 4 = v at hread
  generalize (s.setSp p).done ++ [BusRec.read v] = dn at hread
  refine ⟨dn, ?_⟩
  have hend : (((s.setSp p).setA a v).setSp (((s.setSp p).setA a v).sp + 4#32)) = unlinked s a := by
    rw [setSp_setA_setSp]
    by_cases ha : a = 7#3
    · subst ha
      rw [a_seven] at hp
      rw [unlinked, if_pos rfl, hp, hv, setA_seven, setA_seven, sp_setSp, setSp_setSp]
    · rw [unlinked, if_neg ha, hp, hv, sp_setA ha, sp_setSp]
  simp only [exec_unlk, execUnlk, hp, sp_setSp, hread, ok_bind, setA_withDone, sp_withDone, setSp_withDone, hend,
    advance_withDone, toRes]

/-- Settles O35: PEA, then LINK at both sizes, then UNLK. -/
theorem stackFrames : Obligations.StackFrames := by
  unfold Obligations.StackFrames
  exact fun s a d16 d32 ea h => ⟨pea_quiet h ea, link_quiet h a (d16.signExtend 32) 2, link_quiet h a d32 3,
    unlk_quiet h a⟩

end Sys2Proof.Proofs
end

section
/-! PROOFS. MOVEP (R206): bytes at every other address. -/

namespace Sys2Proof.Proofs

open Sys2Proof Sys2Proof.Machine Sys2Proof.Laws

variable {s t u : State}

/-! ## Addresses counted from a base (R72) -/

/-- The bus sees addresses less than 2^24 above a base as different ones, on both parts. -/
theorem memKey_offset_ne (p : Platform) (fc : Fc) (a : Long) {i j : Nat} (hne : i ≠ j) (hi : i < 2 ^ 24)
    (hj : j < 2 ^ 24) : memKey p fc (a + BitVec.ofNat 32 i) ≠ memKey p fc (a + BitVec.ofNat 32 j) := by
  wlog hlt : i < j generalizing i j
  · exact (this hne.symm hj hi (by omega)).symm
  · obtain ⟨k, rfl⟩ := Nat.exists_eq_add_of_lt hlt
    rw [Nat.add_assoc, BitVec.ofNat_add, ← BitVec.add_assoc]
    exact memKey_ne_add p fc _ (Nat.succ_pos k) (by omega)

/-- A place counted from one operand of `n` bytes on. -/
theorem add_ofNat_add (a : Long) (n i : Nat) :
    a + BitVec.ofNat 32 (n + i) = a + BitVec.ofNat 32 n + BitVec.ofNat 32 i := by
  rw [BitVec.ofNat_add, BitVec.add_assoc]

/-- Of every other address, the one after the next is the next one from two addresses up. -/
theorem add_ofNat_alternate (a : Long) (k : Nat) :
    a + BitVec.ofNat 32 (2 * (k + 1)) = a + 2#32 + BitVec.ofNat 32 (2 * k) := by
  rw [Nat.mul_add, Nat.add_comm]
  exact add_ofNat_add a 2 (2 * k)

/-! ## Registers to memory -/

/-- From `s` to `t` the low `n` bytes of a value have gone to every other address, the most significant first, and
nothing else has changed but the log. -/
structure Alternated (s t : State) (fc : Fc) (n : Nat) (a v : Long) : Prop where
  bytes : ∀ k < n, byteAt t fc (a + BitVec.ofNat 32 (2 * k)) = byteOf v (n - 1 - k)
  others : ∀ (fc' : Fc) (b : Long),
    (∀ k < n, memKey s.platform fc' b ≠ memKey s.platform fc (a + BitVec.ofNat 32 (2 * k))) →
      byteAt t fc' b = byteAt s fc' b
  frame : t = { s with mem := t.mem, done := t.done }

theorem store_byte (s : State) (fc : Fc) (a : Long) (b : Byte) :
    store s fc 1 a (b.setWidth 32) = setByteAt s fc a b := by
  have hbyte : byteOf (b.setWidth 32) 0 = b := by simp [byteOf]
  rw [store, hbyte]
  rfl

/-- The first byte, then the others two addresses up. -/
theorem Alternated.cons {fc : Fc} {n : Nat} {a v : Long} (dn : List BusRec) (hn : n < 4) (hwf : Memory.wf s.mem = true)
    (h : Alternated ((setByteAt s fc a (byteOf v n)).withDone dn) t fc n (a + 2#32) v) :
    Alternated s t fc (n + 1) a v := by
  have hfirst : ∀ k < n, memKey s.platform fc a ≠ memKey s.platform fc (a + 2#32 + BitVec.ofNat 32 (2 * k)) := by
    intro k hk
    rw [← add_ofNat_alternate]
    exact memKey_ne_add s.platform fc a (by omega) (by omega)
  have hstored : ∀ fc' b, byteAt ((setByteAt s fc a (byteOf v n)).withDone dn) fc' b =
      if memKey s.platform fc' b = memKey s.platform fc a then byteOf v n else byteAt s fc' b :=
    fun fc' b => byteAt_setByteAt hwf fc fc' a b (byteOf v n)
  refine ⟨fun k hk => ?_, fun fc' b hne => ?_, ?_⟩
  · cases k with
    | zero =>
      have hkept := h.others fc a hfirst
      rw [hstored, if_pos rfl] at hkept
      simpa using hkept
    | succ k =>
      rw [add_ofNat_alternate, h.bytes k (by omega)]
      congr 1
      omega
  · have hhead : memKey s.platform fc' b ≠ memKey s.platform fc a := by simpa using hne 0 (Nat.succ_pos n)
    have hrest := h.others fc' b fun k hk => add_ofNat_alternate a k ▸ hne (k + 1) (Nat.succ_lt_succ hk)
    rw [hrest, hstored, if_neg hhead]
  · rw [h.frame]
    rfl

theorem storeAlternate_quiet (n : Nat) (h : Quiet s) (hn : n ≤ 4) (hwf : Memory.wf s.mem = true) (a v : Long) :
    ∃ t, storeAlternate n s a v = .ok t ∧ Alternated s t (dataFc s) n a v := by
  induction n generalizing s a with
  | zero => exact ⟨s, rfl, fun _ hk => absurd hk (Nat.not_lt_zero _), fun _ _ _ => rfl, rfl⟩
  | succ n ih =>
    have hwrite := memWrite_quiet h a 1 ((byteOf v n).setWidth 32)
    rw [store_byte] at hwrite
    obtain ⟨t, hrest, ht⟩ := ih (s := (setByteAt s (dataFc s) a (byteOf v n)).withDone (s.done ++ [.write]))
      (quiet_congr h rfl rfl rfl) (by omega) (setByteAt_wf hwf _ _ _) (a + 2#32)
    exact ⟨t, by rw [storeAlternate, hwrite, ok_bind, hrest], ht.cons _ hn hwf⟩

/-! ## Memory to registers -/

theorem load_byte (s : State) (fc : Fc) (a : Long) : load s fc a 1 = (byteAt s fc a).setWidth 32 := by
  simp [load, loadAcc]

/-- The bytes of a value with a byte put in below them. -/
theorem byteOf_shift_or (acc : Long) (b : Byte) :
    byteOf ((acc <<< 8) ||| b.setWidth 32) 0 = b ∧
      ∀ i < 3, byteOf ((acc <<< 8) ||| b.setWidth 32) (i + 1) = byteOf acc i := by
  refine ⟨?_, fun i hi => ?_⟩
  · ext j hj
    simp [byteOf]
  · ext j hj
    have hlow : b.getLsbD (8 * (i + 1) + j) = false := BitVec.getLsbD_of_ge b _ (by omega)
    have hshift : 8 * (i + 1) + j - 8 = 8 * i + j := by omega
    have hin : 8 * (i + 1) + j < 32 := by omega
    have hout : ¬ 8 * (i + 1) + j < 8 := by omega
    have hacc : 8 * i + j < 32 := by omega
    simp [byteOf, hlow, hshift, hin, hout, BitVec.getLsbD_eq_getElem hacc]

/-- The value that `n` bytes and the bytes of `acc` above them make. -/
theorem loadAlternate_quiet (n : Nat) (h : Quiet s) (hn : n ≤ 4) (a acc : Long) :
    ∃ v dn, loadAlternate n s a acc = .ok (v, s.withDone dn) ∧
      (∀ k < n, byteOf v (n - 1 - k) = byteAt s (dataFc s) (a + BitVec.ofNat 32 (2 * k))) ∧
      ∀ i, n + i < 4 → byteOf v (n + i) = byteOf acc i := by
  induction n generalizing s a acc with
  | zero => exact ⟨acc, s.done, rfl, fun _ hk => absurd hk (Nat.not_lt_zero _), fun i _ => by rw [Nat.zero_add]⟩
  | succ n ih =>
    have hread := memRead_quiet h a 1
    rw [load_byte] at hread
    generalize hb : byteAt s (dataFc s) a = b at hread
    obtain ⟨hlow, hhigh⟩ := byteOf_shift_or acc b
    obtain ⟨v, dn, hrest, hbytes, habove⟩ := ih (quiet_withDone h (s.done ++ [.read (b.setWidth 32)])) (by omega)
      (a + 2#32) ((acc <<< 8) ||| b.setWidth 32)
    refine ⟨v, dn, ?_, fun k hk => ?_, fun i hi => ?_⟩
    · simp only [loadAlternate, hread, ok_bind, hrest, withDone_withDone]
    · cases k with
      | zero =>
        have hv := habove 0 (by omega)
        rw [hlow] at hv
        simpa [hb] using hv
      | succ k =>
        rw [add_ofNat_alternate, show n + 1 - 1 - (k + 1) = n - 1 - k by omega]
        exact hbytes k (by omega)
    · rw [Nat.add_assoc, Nat.add_comm 1 i, habove (i + 1) (by omega), hhigh i (by omega)]

theorem bytesOf_le (sz : Size) : bytesOf sz ≤ 4 := by cases sz <;> decide

theorem movep_toMem (h : Quiet s) (hwf : Memory.wf s.mem = true) (long : Bool) (d a : Reg) (d16 : Word) :
    ∃ t, exec (.movep long true d a d16) s = .next (advance 2 t) ∧
      Alternated s t (dataFc s) (bytesOf (longSize long)) (s.a a + sextWord d16) (s.d d) := by
  obtain ⟨t, hstore, ht⟩ := storeAlternate_quiet _ h (bytesOf_le (longSize long)) hwf (s.a a + sextWord d16) (s.d d)
  exact ⟨t, by simp only [exec_movep, execMovep, if_true, hstore, ok_bind, toRes], ht⟩

theorem movep_toReg (h : Quiet s) (long : Bool) (d a : Reg) (d16 : Word) :
    ∃ v, CompletesAs (exec (.movep long false d a d16) s) (advance 2 (s.setDSized (longSize long) d v)) ∧
      ∀ k < bytesOf (longSize long), byteOf v (bytesOf (longSize long) - 1 - k) =
        byteAt s (dataFc s) (s.a a + sextWord d16 + BitVec.ofNat 32 (2 * k)) := by
  obtain ⟨v, dn, hload, hbytes, -⟩ :=
    loadAlternate_quiet _ h (bytesOf_le (longSize long)) (s.a a + sextWord d16) 0#32
  refine ⟨v, ⟨dn, ?_⟩, hbytes⟩
  simp only [exec_movep, execMovep, Bool.false_eq_true, if_false, hload, ok_bind, toRes, setDSized_withDone,
    advance_withDone]

/-- Settles O34: each direction by the induction over its bytes. -/
theorem movepBytes : Obligations.MovepBytes := by
  unfold Obligations.MovepBytes
  intro s long d a d16 h hwf n place
  obtain ⟨t, hexec, ht⟩ := movep_toMem h hwf long d a d16
  have hframe : advance 2 t = { s with pc := pcAfter s 2, mem := t.mem, done := t.done } := by
    rw [ht.frame]
    rfl
  exact ⟨⟨advance 2 t, hexec, ht.bytes, ht.others, hframe⟩, movep_toReg h long d a d16⟩

end Sys2Proof.Proofs
end

section
/-! PROOFS. The registers of a MOVEM mask (R204, R205): which they are, in which order, and what they hold after one has
been written. -/

namespace Sys2Proof.Proofs

open Sys2Proof Sys2Proof.Machine Sys2Proof.Laws

variable {s t u : State}

/-! ## Numbers below a bound that a mask selects -/

/-- The numbers below `m` that satisfy `p`, in rising order. -/
def chosen (p : Nat → Bool) (m : Nat) : List Nat := (List.range m).filter p

theorem mem_chosen {p : Nat → Bool} {m k : Nat} : k ∈ chosen p m ↔ k < m ∧ p k = true := by
  rw [chosen, List.mem_filter, List.mem_range]

/-- A chosen number has as many before it as are chosen below it. -/
theorem chosen_getElem? {p : Nat → Bool} {m k : Nat} (hk : k < m) (hp : p k = true) :
    (chosen p m)[(chosen p k).length]? = some k := by
  induction m with
  | zero => exact absurd hk (Nat.not_lt_zero k)
  | succ m ih =>
    have hsucc : chosen p (m + 1) = chosen p m ++ [m].filter p := by
      rw [chosen, List.range_succ, List.filter_append]
      rfl
    rw [hsucc]
    rcases Nat.lt_succ_iff_lt_or_eq.1 hk with hlt | rfl
    · obtain ⟨hin, -⟩ := List.getElem?_eq_some_iff.1 (ih hlt)
      rw [List.getElem?_append_left hin, ih hlt]
    · simp [hp]

/-- The mask read from its other end names the same numbers in falling order. -/
theorem map_chosen_reversed (p : Nat → Bool) :
    (chosen p 16).map (fun k => 15 - k) = (chosen (fun k => p (15 - k)) 16).reverse := by
  have hrange : (List.range 16).reverse = (List.range 16).map fun k => 15 - k := rfl
  have hp : ∀ k ∈ List.range 16, ((fun k => p (15 - k)) ∘ fun k => 15 - k) k = p k := fun k hk => by
    have hlt := List.mem_range.1 hk
    have hsame : 15 - (15 - k) = k := by omega
    exact congrArg p hsame
  rw [chosen, chosen, ← List.filter_reverse, hrange, List.filter_map, List.filter_congr hp]

/-! ## The list of a mask (R204) -/

theorem maskRegs_eq (mask : Word) :
    maskRegs mask false = (chosen (fun k => mask.getLsbD k) 16).map (BitVec.ofNat 4) := rfl

/-- For -(An) the mask lists the registers downward. -/
theorem maskRegs_reversed (mask : Word) :
    maskRegs mask true = ((chosen (fun k => mask.getLsbD (15 - k)) 16).map (BitVec.ofNat 4)).reverse := by
  rw [← List.map_reverse, ← map_chosen_reversed, List.map_map]
  rfl

/-- Numbers below 16 are told apart by four bits. -/
theorem ofNat_four_inj {j k : Nat} (hj : j < 16) (hk : k < 16) (h : BitVec.ofNat 4 j = BitVec.ofNat 4 k) : j = k := by
  have hnat := congrArg BitVec.toNat h
  simp only [BitVec.toNat_ofNat] at hnat
  omega

theorem maskRegs_nodup (mask : Word) : (maskRegs mask false).Nodup := by
  rw [maskRegs_eq]
  refine List.Nodup.map_on (fun j hj k hk h => ?_) (List.nodup_range.filter _)
  exact ofNat_four_inj (mem_chosen.1 hj).1 (mem_chosen.1 hk).1 h

theorem notMem_maskRegs {mask : Word} {k : Nat} (hk : k < 16) (h : mask.getLsbD k = false) :
    BitVec.ofNat 4 k ∉ maskRegs mask false := by
  rw [maskRegs_eq]
  intro hmem
  obtain ⟨j, hj, he⟩ := List.mem_map.1 hmem
  obtain ⟨hlt, hbit⟩ := mem_chosen.1 hj
  obtain rfl := ofNat_four_inj hlt hk he
  exact Bool.false_ne_true (h.symm.trans hbit)

/-! ## Registers by number (R145) -/

/-- The number of an address register is 8 more than its place among them. -/
theorem ofNat_eq_anNum {k : Nat} (hk : k < 16) (n : Reg) : BitVec.ofNat 4 k = anNum n ↔ k = 8 + n.toNat := by
  have hnum : (anNum n).toNat = 8 + n.toNat := by
    have hlt := n.isLt
    rw [anNum, BitVec.toNat_append, ← Nat.shiftLeft_add_eq_or_of_lt hlt]
    rfl
  rw [← BitVec.toNat_inj, hnum, BitVec.toNat_ofNat, Nat.mod_eq_of_lt hk]

/-- A number is its D/A bit and its three low bits. -/
theorem rn_eq_iff (m n : Rn) :
    m = n ↔ m.getLsbD 3 = n.getLsbD 3 ∧ m.extractLsb' 0 3 = n.extractLsb' 0 3 := by
  revert m n
  decide

theorem anNum_fields (n : Reg) : (anNum n).getLsbD 3 = true ∧ (anNum n).extractLsb' 0 3 = n := by
  revert n
  decide

theorem setRn_anNum (s : State) (n : Reg) (v : Long) : s.setRn (anNum n) v = s.setA n v := by
  obtain ⟨hbit, hlow⟩ := anNum_fields n
  rw [State.setRn, if_pos hbit, hlow]

/-- Registers after a write of one. -/
theorem rn_setRn (s : State) (m n : Rn) (v : Long) : (s.setRn n v).rn m = if m = n then v else s.rn m := by
  simp only [rn_eq_iff m n, State.rn, State.setRn]
  cases n.getLsbD 3 <;> cases m.getLsbD 3 <;> simp [a_setA, d_setD]

/-- Writing a register changes `regs` only. -/
theorem setRn_eq (s : State) (n : Rn) (v : Long) : s.setRn n v = { s with regs := (s.setRn n v).regs } := by
  unfold State.setRn
  split
  · exact setA_eq s _ v
  · rfl

/-- Writing a register leaves the stack pointers alone that A7 does not name (R23). -/
theorem otherSps_setRn (s : State) (n : Rn) (v : Long) : (s.setRn n v).otherSps = s.otherSps := by
  have hsp : ∀ w, (s.setSp w).otherSps = s.otherSps := fun w => by
    simp only [State.otherSps, State.setSp, setActiveSp]
    split
    · split <;> rfl
    · rfl
  unfold State.setRn State.setA
  split
  · split
    · rfl
    · exact hsp v
  · rfl

/-- Writing An leaves the registers of other numbers. -/
theorem rn_setA_ne (s : State) {k : Nat} (hk : k < 16) {r : Reg} (hne : k ≠ 8 + r.toNat) (v : Long) :
    (s.setA r v).rn (BitVec.ofNat 4 k) = s.rn (BitVec.ofNat 4 k) := by
  rw [← setRn_anNum, rn_setRn, if_neg fun h => hne ((ofNat_eq_anNum hk r).1 h)]

theorem otherSps_setA (s : State) (r : Reg) (v : Long) : (s.setA r v).otherSps = s.otherSps := by
  rw [← setRn_anNum, otherSps_setRn]

end Sys2Proof.Proofs
end

section
/-! PROOFS. MOVEM (R204, R205): operands at ascending addresses, whichever way they are stored. -/

namespace Sys2Proof.Proofs

open Sys2Proof Sys2Proof.Machine Sys2Proof.Laws

variable {s t u : State}

/-! ## Operands in a row -/

/-- The values lie at ascending addresses from `a` on, `n` bytes each, the most significant byte first. -/
def Holds (t : State) (fc : Fc) (n : Nat) (a : Long) (vs : List Long) : Prop :=
  ∀ i v, vs[i]? = some v → ∀ j < n, byteAt t fc (a + BitVec.ofNat 32 (n * i + j)) = byteOf v (n - 1 - j)

/-- From `s` to `t` the values have been stored in a row, and nothing else has changed but the log. -/
structure Stored (s t : State) (fc : Fc) (n : Nat) (a : Long) (vs : List Long) : Prop where
  holds : Holds t fc n a vs
  others : SameMemBut s t fc a (n * vs.length)
  frame : t = { s with mem := t.mem, done := t.done }

/-- Each operand of a row reads as its value. -/
theorem Holds.load {fc : Fc} {n : Nat} {a : Long} {vs : List Long} (h : Holds t fc n a vs) {i : Nat} {v : Long}
    (hv : vs[i]? = some v) : load t fc (a + BitVec.ofNat 32 (n * i)) n = lowBits (8 * n) v :=
  load_of_byteOf fun j hj => (add_ofNat_add a (n * i) j) ▸ h i v hv j hj

/-- A second row right above a first one. -/
theorem Holds.append {fc : Fc} {n : Nat} {a : Long} {us vs : List Long} (hu : Holds t fc n a us)
    (hv : Holds t fc n (a + BitVec.ofNat 32 (n * us.length)) vs) : Holds t fc n a (us ++ vs) := by
  intro i v hi j hj
  rcases Nat.lt_or_ge i us.length with hlt | hge
  · rw [List.getElem?_append_left hlt] at hi
    exact hu i v hi j hj
  · rw [List.getElem?_append_right hge] at hi
    have hplace : n * us.length + (n * (i - us.length) + j) = n * i + j := by
      rw [← Nat.add_assoc, ← Nat.mul_add, Nat.add_sub_cancel' hge]
    rw [← hplace, add_ofNat_add]
    exact hv _ v hi j hj

/-- A byte of an operand is within its row. -/
theorem row_bound {n i j l : Nat} (hi : i < l) (hj : j < n) : n * i + j < n * l := by
  have hle : n * (i + 1) ≤ n * l := Nat.mul_le_mul_left n hi
  rw [Nat.mul_succ] at hle
  omega

/-- A byte outside a part of memory stays when all but that part does. -/
theorem byteAt_of_outside {fc : Fc} {a : Long} {b c m : Nat} (h : SameMemBut u t fc (a + BitVec.ofNat 32 b) m)
    (hb : b + m ≤ 2 ^ 24) (hc : c < 2 ^ 24) (hout : c < b ∨ b + m ≤ c) :
    byteAt t fc (a + BitVec.ofNat 32 c) = byteAt u fc (a + BitVec.ofNat 32 c) := by
  refine h fc _ fun i hi => ?_
  rw [← add_ofNat_add]
  exact memKey_offset_ne u.platform fc a (by omega) hc (by omega)

/-- A row keeps its values when all but a part above it stays. -/
theorem Holds.keep_below {fc : Fc} {n m : Nat} {a : Long} {us : List Long} (hu : Holds u fc n a us)
    (h : SameMemBut u t fc (a + BitVec.ofNat 32 (n * us.length)) m) (hm : n * us.length + m ≤ 2 ^ 24) :
    Holds t fc n a us := by
  intro i v hi j hj
  obtain ⟨hlt, -⟩ := List.getElem?_eq_some_iff.1 hi
  have hin := row_bound hlt hj
  rw [byteAt_of_outside h hm (by omega) (.inl hin)]
  exact hu i v hi j hj

/-- A row keeps its values when all but a part below it stays. -/
theorem Holds.keep_above {fc : Fc} {n m : Nat} {a : Long} {vs : List Long}
    (hv : Holds u fc n (a + BitVec.ofNat 32 m) vs) (h : SameMemBut u t fc a m) (hm : m + n * vs.length ≤ 2 ^ 24) :
    Holds t fc n (a + BitVec.ofNat 32 m) vs := by
  intro i v hi j hj
  obtain ⟨hlt, -⟩ := List.getElem?_eq_some_iff.1 hi
  have hin := row_bound hlt hj
  have hbyte := hv i v hi j hj
  rw [← add_ofNat_add] at hbyte ⊢
  rw [← BitVec.add_zero a] at h
  rw [byteAt_of_outside (b := 0) h (by omega) (by omega) (.inr (by omega))]
  exact hbyte

/-- What stays but for two parts of a row stays but for the row. -/
theorem sameMemBut_trans {fc : Fc} {a : Long} {b c k m l : Nat} (hp : u.platform = s.platform)
    (hsu : SameMemBut s u fc (a + BitVec.ofNat 32 b) k) (hut : SameMemBut u t fc (a + BitVec.ofNat 32 c) m)
    (hk : b + k ≤ l) (hm : c + m ≤ l) : SameMemBut s t fc a l := by
  intro fc' a' hne
  have hfirst := hsu fc' a' fun i hi => add_ofNat_add a b i ▸ hne (b + i) (by omega)
  have hsecond := hut fc' a' fun i hi => hp ▸ add_ofNat_add a c i ▸ hne (c + i) (by omega)
  exact hsecond.trans hfirst

theorem Stored.platform {fc : Fc} {n : Nat} {a : Long} {vs : List Long} (h : Stored s t fc n a vs) :
    t.platform = s.platform := by
  rw [h.frame]

theorem memFrame_trans (hsu : u = { s with mem := u.mem, done := u.done })
    (hut : t = { u with mem := t.mem, done := t.done }) : t = { s with mem := t.mem, done := t.done } := by
  rw [hut, hsu]

/-- A row stored right above one stored before. -/
theorem Stored.above {fc : Fc} {n : Nat} {a : Long} {us vs : List Long} (hu : Stored s u fc n a us)
    (hv : Stored u t fc n (a + BitVec.ofNat 32 (n * us.length)) vs) (hlen : n * (us ++ vs).length ≤ 2 ^ 24) :
    Stored s t fc n a (us ++ vs) := by
  have hothers := hu.others
  rw [← BitVec.add_zero a] at hothers
  rw [List.length_append, Nat.mul_add] at hlen
  refine ⟨(hu.holds.keep_below hv.others hlen).append hv.holds, ?_, memFrame_trans hu.frame hv.frame⟩
  rw [List.length_append, Nat.mul_add]
  exact sameMemBut_trans (b := 0) hu.platform hothers hv.others (by omega) (by omega)

/-- A row stored right below one stored before. -/
theorem Stored.below {fc : Fc} {n : Nat} {a : Long} {us vs : List Long}
    (hv : Stored s u fc n (a + BitVec.ofNat 32 (n * us.length)) vs) (hu : Stored u t fc n a us)
    (hlen : n * (us ++ vs).length ≤ 2 ^ 24) : Stored s t fc n a (us ++ vs) := by
  have hothers := hu.others
  rw [← BitVec.add_zero a] at hothers
  rw [List.length_append, Nat.mul_add] at hlen
  refine ⟨hu.holds.append (hv.holds.keep_above hu.others hlen), ?_, memFrame_trans hv.frame hu.frame⟩
  rw [List.length_append, Nat.mul_add]
  exact sameMemBut_trans (c := 0) hv.platform hv.others hothers (by omega) (by omega)

theorem Stored.nil {fc : Fc} {n : Nat} {a : Long} : Stored s s fc n a [] :=
  ⟨fun _ _ h => (nomatch h), fun _ _ _ => rfl, rfl⟩

/-- A row of one operand. -/
theorem Stored.single {n : Nat} (hn : n ≤ 4) (hwf : Memory.wf s.mem = true) (fc : Fc) (a v : Long)
    (dn : List BusRec) : Stored s ((store s fc n a v).withDone dn) fc n a [v] := by
  refine ⟨fun i w hw j hj => ?_, fun fc' b hne => ?_, ?_⟩
  · cases i with
    | zero =>
      obtain rfl : v = w := Option.some.inj hw
      rw [Nat.mul_zero, Nat.zero_add]
      exact byteAt_store fc (by omega) a v hwf hj
    | succ i => exact nomatch hw
  · exact byteAt_store_of_ne n v hwf fun i hi => hne i (by simpa using hi)
  · rw [store_eq]
    rfl

/-- The log of the state before does not matter. -/
theorem Stored.of_withDone {fc : Fc} {n : Nat} {a : Long} {vs : List Long} {dn : List BusRec}
    (h : Stored (s.withDone dn) t fc n a vs) : Stored s t fc n a vs := ⟨h.holds, h.others, h.frame⟩

/-! ## Registers to memory (R204) -/

/-- The first operand of a transfer, with what it leaves for the others. -/
theorem memWrite_stored (h : Quiet s) (hwf : Memory.wf s.mem = true) (sz : Size) (a v : Long) :
    ∃ u, memWrite s a (bytesOf sz) v = .ok u ∧ Stored s u (dataFc s) (bytesOf sz) a [v] ∧ Quiet u ∧
      Memory.wf u.mem = true :=
  ⟨_, memWrite_quiet h a (bytesOf sz) v, .single (bytesOf_le sz) hwf _ _ _ _,
    quiet_withDone (quiet_store h _ _ _ _) _, store_wf _ _ _ _ s hwf⟩

/-- Storing leaves every register, and the space of operands. -/
theorem Stored.regs {fc : Fc} {n : Nat} {a : Long} {vs : List Long} (h : Stored s t fc n a vs) :
    t.rn = s.rn ∧ dataFc t = dataFc s := by
  rw [h.frame]
  exact ⟨rfl, rfl⟩

/-- A mask's operands fit into what the bus tells apart. -/
theorem row_small (sz : Size) {l : Nat} (h : l ≤ 16) : bytesOf sz * l ≤ 2 ^ 24 :=
  le_trans (Nat.mul_le_mul (bytesOf_le sz) h) (by decide)

theorem storeRegs_quiet (sz : Size) (rs : List Rn) (hlen : rs.length ≤ 16) (h : Quiet s)
    (hwf : Memory.wf s.mem = true) (a : Long) :
    ∃ t, storeRegs sz s a rs = .ok t ∧ Stored s t (dataFc s) (bytesOf sz) a (rs.map s.rn) := by
  induction rs generalizing s a with
  | nil => exact ⟨s, rfl, .nil⟩
  | cons r rs ih =>
    obtain ⟨u, hwrite, hu, hq, hw⟩ := memWrite_stored h hwf sz a (s.rn r)
    obtain ⟨t, hrest, ht⟩ := ih (Nat.le_of_succ_le hlen) hq hw (a + BitVec.ofNat 32 (bytesOf sz))
    obtain ⟨hrn, hfc⟩ := hu.regs
    rw [hrn, hfc, ← Nat.mul_one (bytesOf sz)] at ht
    refine ⟨t, by rw [storeRegs, hwrite, ok_bind, hrest], ?_⟩
    exact hu.above (by simpa using ht) (by simpa using row_small sz hlen)

/-- Stored downward, the registers lie upward in the opposite order. -/
theorem storeRegsDown_quiet (sz : Size) (an : Rn) (own : Long) (rs : List Rn) (hlen : rs.length ≤ 16) (h : Quiet s)
    (hwf : Memory.wf s.mem = true) (a : Long) :
    ∃ t, storeRegsDown sz an own s a rs = .ok (a - BitVec.ofNat 32 (bytesOf sz * rs.length), t) ∧
      Stored s t (dataFc s) (bytesOf sz) (a - BitVec.ofNat 32 (bytesOf sz * rs.length))
        (rs.map fun r => if r = an then own else s.rn r).reverse := by
  induction rs generalizing s a with
  | nil => exact ⟨s, by simp [storeRegsDown], by simpa using Stored.nil⟩
  | cons r rs ih =>
    have hbase : a - BitVec.ofNat 32 (bytesOf sz) - BitVec.ofNat 32 (bytesOf sz * rs.length) =
        a - BitVec.ofNat 32 (bytesOf sz * (r :: rs).length) := by
      rw [List.length_cons, Nat.mul_succ, BitVec.ofNat_add, sub_sub, BitVec.add_comm]
    obtain ⟨u, hwrite, hu, hq, hw⟩ :=
      memWrite_stored h hwf sz (a - BitVec.ofNat 32 (bytesOf sz)) (if r = an then own else s.rn r)
    obtain ⟨t, hrest, ht⟩ := ih (Nat.le_of_succ_le hlen) hq hw (a - BitVec.ofNat 32 (bytesOf sz))
    obtain ⟨hrn, hfc⟩ := hu.regs
    have htop : a - BitVec.ofNat 32 (bytesOf sz) = a - BitVec.ofNat 32 (bytesOf sz * (r :: rs).length) +
        BitVec.ofNat 32 (bytesOf sz * rs.length) := by
      rw [← hbase, BitVec.sub_add_cancel]
    rw [hrn, hfc, hbase] at ht
    rw [htop] at hu
    refine ⟨t, by simp only [storeRegsDown, hwrite, ok_bind, hrest, hbase], ?_⟩
    rw [List.map_cons, List.reverse_cons]
    exact Stored.below (by simpa using hu) ht (by simpa using row_small sz hlen)

/-! ## Memory to registers (R205) -/

/-- From `s` to `t` the registers of a list have been loaded from ascending addresses from `a` on, and nothing else has
changed but the log. -/
structure Loaded (s t : State) (sz : Size) (fc : Fc) (a : Long) (rs : List Rn) : Prop where
  values : ∀ i r, rs[i]? = some r →
    t.rn r = sext sz (load s fc (a + BitVec.ofNat 32 (bytesOf sz * i)) (bytesOf sz))
  others : ∀ r, r ∉ rs → t.rn r = s.rn r
  sps : t.otherSps = s.otherSps
  frame : t = { s with regs := t.regs, done := t.done }

/-- The first register, then the others from the address after it. -/
theorem Loaded.cons {sz : Size} {fc : Fc} {a : Long} {r : Rn} {rs : List Rn} (dn : List BusRec) (hr : r ∉ rs)
    (h : Loaded ((s.withDone dn).setRn r (sext sz (Machine.load s fc a (bytesOf sz)))) t sz fc
      (a + BitVec.ofNat 32 (bytesOf sz)) rs) : Loaded s t sz fc a (r :: rs) := by
  generalize hu : (s.withDone dn).setRn r (sext sz (Machine.load s fc a (bytesOf sz))) = u at h
  have hrn : ∀ m, u.rn m = if m = r then sext sz (Machine.load s fc a (bytesOf sz)) else s.rn m := fun m => by
    rw [← hu, rn_setRn]
    rfl
  have hframe : u = { s with regs := u.regs, done := u.done } := by
    rw [← hu, setRn_eq]
    rfl
  refine ⟨fun i m hm => ?_, fun m hm => ?_, ?_, ?_⟩
  · cases i with
    | zero =>
      obtain rfl : r = m := Option.some.inj hm
      rw [h.others r hr, hrn, if_pos rfl, Nat.mul_zero, BitVec.add_zero]
    | succ i =>
      have hmem : u.mem = s.mem := by rw [hframe]
      have hplatform : u.platform = s.platform := by rw [hframe]
      rw [h.values i m hm, load_congr hmem hplatform, Nat.mul_succ, Nat.add_comm, add_ofNat_add]
  · obtain ⟨hne, hout⟩ := not_or.1 (List.mem_cons.not.1 hm)
    rw [h.others m hout, hrn, if_neg hne]
  · rw [h.sps, ← hu, otherSps_setRn]
    rfl
  · rw [h.frame, hframe]

/-- The log of the state before does not matter. -/
theorem Loaded.of_withDone {sz : Size} {fc : Fc} {a : Long} {rs : List Rn} {dn : List BusRec}
    (h : Loaded (s.withDone dn) t sz fc a rs) : Loaded s t sz fc a rs :=
  ⟨fun i r hr => (h.values i r hr).trans (congrArg (sext sz) (load_withDone s dn fc _ _)), h.others, h.sps, h.frame⟩

theorem loadRegs_quiet (sz : Size) (prog : Bool) (rs : List Rn) (hrs : rs.Nodup) (h : Quiet s) (a : Long) :
    ∃ t, loadRegs sz prog s a rs = .ok (a + BitVec.ofNat 32 (bytesOf sz * rs.length), t) ∧
      Loaded s t sz (spaceFc s prog) a rs := by
  induction rs generalizing s a with
  | nil => exact ⟨s, by simp [loadRegs], ⟨fun _ _ hr => (nomatch hr), fun _ _ => rfl, rfl, rfl⟩⟩
  | cons r rs ih =>
    obtain ⟨hr, hnodup⟩ := List.nodup_cons.1 hrs
    have hread := readFc_quiet h (spaceFc_ne s prog) a (bytesOf sz)
    generalize hdn : s.done ++ [BusRec.read (load s (spaceFc s prog) a (bytesOf sz))] = dn at hread
    have hsr := setRn_eq (s.withDone dn) r (sext sz (load s (spaceFc s prog) a (bytesOf sz)))
    obtain ⟨t, hrest, ht⟩ := ih hnodup
      (s := (s.withDone dn).setRn r (sext sz (load s (spaceFc s prog) a (bytesOf sz))))
      (by rw [hsr]; exact quiet_congr h rfl rfl rfl) (a + BitVec.ofNat 32 (bytesOf sz))
    have hfc : spaceFc ((s.withDone dn).setRn r (sext sz (load s (spaceFc s prog) a (bytesOf sz)))) prog =
        spaceFc s prog := by
      rw [hsr]
      rfl
    rw [hfc] at ht
    refine ⟨t, ?_, ht.cons dn hr⟩
    simp only [loadRegs, hread, ok_bind, hrest, List.length_cons, Nat.mul_succ]
    rw [Nat.add_comm, add_ofNat_add]

/-! ## The instructions -/

/-- The low bytes of a size are the value truncated to it. -/
theorem lowBits_bytesOf (sz : Size) (v : Long) : lowBits (8 * bytesOf sz) v = trunc sz v := by
  refine BitVec.eq_of_getLsbD_eq fun i hi => ?_
  rw [lowBits, BitVec.getLsbD_and, BitVec.getLsbD_ofNat, Nat.testBit_two_pow_sub_one]
  cases sz with
  | b | w =>
    simp only [trunc, bytesOf, BitVec.getLsbD_setWidth, hi, decide_true, Bool.true_and]
    exact Bool.and_comm _ _
  | l =>
    simp only [trunc, bytesOf, hi, decide_true, Bool.true_and]
    exact Bool.and_true _

/-- Where the register of each mask bit lies and what it is stored as, in a state with the memory that storing left. -/
theorem Stored.row {fc : Fc} {sz : Size} {a : Long} {p : Nat → Bool} {f : Nat → Long}
    (h : Stored s t fc (bytesOf sz) a ((chosen p 16).map f)) (hmem : u.mem = t.mem)
    (hplatform : u.platform = t.platform) :
    (∀ k < 16, p k = true →
      Machine.load u fc (a + BitVec.ofNat 32 (bytesOf sz * (chosen p k).length)) (bytesOf sz) = trunc sz (f k)) ∧
    SameMemBut s u fc a (bytesOf sz * (chosen p 16).length) := by
  refine ⟨fun k hk hp => ?_, fun fc' b hne => ?_⟩
  · rw [load_congr hmem hplatform, ← lowBits_bytesOf]
    exact h.holds.load (by rw [List.getElem?_map, chosen_getElem? hk hp, Option.map_some])
  · rw [byteAt_congr hmem hplatform]
    exact h.others fc' b ((List.length_map (as := chosen p 16) f).symm ▸ hne)

/-- What each register of a mask holds after loading. -/
theorem Loaded.mask {sz : Size} {fc : Fc} {a : Long} {mask : Word} (h : Loaded s t sz fc a (maskRegs mask false)) :
    (∀ k < 16, mask.getLsbD k = true → t.rn (BitVec.ofNat 4 k) = sext sz (Machine.load s fc
      (a + BitVec.ofNat 32 (bytesOf sz * (chosen (fun j => mask.getLsbD j) k).length)) (bytesOf sz))) ∧
    ∀ k < 16, mask.getLsbD k = false → t.rn (BitVec.ofNat 4 k) = s.rn (BitVec.ofNat 4 k) := by
  refine ⟨fun k hk hbit => h.values _ _ ?_, fun k hk hbit => h.others _ (notMem_maskRegs hk hbit)⟩
  have hplace := chosen_getElem? (p := fun j => mask.getLsbD j) hk hbit
  rw [maskRegs_eq, List.getElem?_map, hplace, Option.map_some]

theorem chosen_length_le (p : Nat → Bool) : (chosen p 16).length ≤ 16 :=
  le_trans (List.length_filter_le _ _) (by simp)

/-- MOVEM to -(An): the registers lie below An in rising order. -/
theorem movemToMem_preDec (h : Quiet s) (hwf : Memory.wf s.mem = true) (long : Bool) (mask : Word) (r : Reg)
    {p : Nat → Bool} (hp : p = fun k => mask.getLsbD (15 - k)) {n : Nat} (hn : n = bytesOf (longSize long)) {a : Long}
    (ha : a = s.a r - BitVec.ofNat 32 (n * (chosen p 16).length)) :
    ∃ t, exec (.movemToMem long mask (.preDec r)) s = .next (advance 2 (t.setA r a)) ∧
      Stored s t (dataFc s) n a ((chosen p 16).map fun k =>
        if k = 8 + r.toNat then s.a r - BitVec.ofNat 32 n else s.rn (BitVec.ofNat 4 k)) := by
  subst hp hn
  have hlen : (maskRegs mask true).length = (chosen (fun k => mask.getLsbD (15 - k)) 16).length := by
    rw [maskRegs_reversed, List.length_reverse, List.length_map]
  obtain ⟨t, hstore, ht⟩ := storeRegsDown_quiet (longSize long) (anNum r)
    (s.a r - BitVec.ofNat 32 (bytesOf (longSize long))) (maskRegs mask true) (hlen ▸ chosen_length_le _) h hwf (s.a r)
  rw [hlen, ← ha] at hstore ht
  refine ⟨t, by simp only [exec_movemToMem, execMovemToMem, hstore, ok_bind, toRes], ?_⟩
  rw [maskRegs_reversed, List.map_reverse, List.reverse_reverse, List.map_map] at ht
  have hvalues : (chosen (fun k => mask.getLsbD (15 - k)) 16).map ((fun rn => if rn = anNum r then
        s.a r - BitVec.ofNat 32 (bytesOf (longSize long)) else s.rn rn) ∘ BitVec.ofNat 4) =
      (chosen (fun k => mask.getLsbD (15 - k)) 16).map fun k => if k = 8 + r.toNat then
        s.a r - BitVec.ofNat 32 (bytesOf (longSize long)) else s.rn (BitVec.ofNat 4 k) :=
    List.map_congr_left fun k hk => if_congr (ofNat_eq_anNum (mem_chosen.1 hk).1 r) rfl rfl
  exact hvalues ▸ ht

/-- MOVEM to any other address: the registers lie upward from it in rising order. -/
theorem movemToMem_upward (h : Quiet s) (hwf : Memory.wf s.mem = true) (long : Bool) (mask : Word) {ea : Ea}
    (hea : ∀ r, ea ≠ .preDec r) :
    ∃ t, exec (.movemToMem long mask ea) s = .next (advance (2 + eaLen .l ea) t) ∧
      Stored (eaStep s .l ea) t (dataFc s) (bytesOf (longSize long)) (eaLoc s .l 1 ea).addr
        ((chosen (fun k => mask.getLsbD k) 16).map fun k => (eaStep s .l ea).rn (BitVec.ofNat 4 k)) := by
  obtain ⟨dn, haddr⟩ := eaAddr_quiet h 1 ea
  have hlen : (maskRegs mask false).length ≤ 16 := by
    rw [maskRegs_eq, List.length_map]
    exact chosen_length_le _
  obtain ⟨t, hstore, ht⟩ := storeRegs_quiet (longSize long) (maskRegs mask false) hlen
    (quiet_withDone (quiet_eaStep h .l ea) dn) (by simpa [State.withDone] using hwf) (eaLoc s .l 1 ea).addr
  have hfc : dataFc ((eaStep s .l ea).withDone dn) = dataFc s := congrArg (fun sr : Sr => if sr.s then 5#3 else 1#3)
    (eaStep_sr s .l ea)
  rw [hfc, maskRegs_eq, List.map_map] at ht
  refine ⟨t, ?_, ht.of_withDone⟩
  have hexec : exec (.movemToMem long mask ea) s = toRes (do
      let (a, s1) ← eaAddr s 1 ea
      let s2 ← storeRegs (longSize long) s1 a (maskRegs mask false)
      .ok (advance (2 + eaLen .l ea) s2)) := by
    cases ea with
    | preDec r => exact absurd rfl (hea r)
    | _ => rfl
  simp only [hexec, haddr, hstore, ok_bind, toRes]

/-- MOVEM from (An)+: An ends as the address after the last operand. -/
theorem movemToRegs_postInc (h : Quiet s) (long : Bool) (mask : Word) (r : Reg) :
    ∃ t, exec (.movemToRegs long mask (.postInc r)) s = .next (advance 2 (t.setA r (s.a r +
        BitVec.ofNat 32 (bytesOf (longSize long) * (chosen (fun k => mask.getLsbD k) 16).length)))) ∧
      Loaded s t (longSize long) (dataFc s) (s.a r) (maskRegs mask false) := by
  obtain ⟨t, hload, ht⟩ :=
    loadRegs_quiet (longSize long) false (maskRegs mask false) (maskRegs_nodup mask) h (s.a r)
  refine ⟨t, ?_, ht⟩
  rw [maskRegs_eq, List.length_map, ← maskRegs_eq] at hload
  simp only [exec_movemToRegs, execMovemToRegs, hload, ok_bind, toRes]

/-- MOVEM from any other address of its class, none of which steps a register. -/
theorem movemToRegs_control (h : Quiet s) (long : Bool) (mask : Word) {ea : Ea} (hwf : ea.wf .controlOrPost .l = true)
    (hea : ∀ r, ea ≠ .postInc r) :
    ∃ t, exec (.movemToRegs long mask ea) s = .next (advance (2 + eaLen .l ea) t) ∧
      Loaded s t (longSize long) (spaceFc s (eaLoc s .l 1 ea).prog) (eaLoc s .l 1 ea).addr (maskRegs mask false) := by
  obtain ⟨dn, heval⟩ := evalEa_quiet h .l (extAt s 1) ea
  have hstep : eaStep s .l ea = s := by
    cases ea with
    | postInc r => exact absurd rfl (hea r)
    | preDec r => exact absurd hwf Bool.false_ne_true
    | _ => rfl
  rw [hstep] at heval
  obtain ⟨t, hload, ht⟩ := loadRegs_quiet (longSize long) (eaLoc s .l 1 ea).prog (maskRegs mask false)
    (maskRegs_nodup mask) (quiet_withDone h dn) (eaLoc s .l 1 ea).addr
  refine ⟨t, ?_, ht.of_withDone⟩
  have hexec : exec (.movemToRegs long mask ea) s = toRes (do
      let (loc, s1) ← evalEa s .l (extAt s 1) ea
      let (_, s2) ← loadRegs (longSize long) loc.prog s1 loc.addr (maskRegs mask false)
      .ok (advance (2 + eaLen .l ea) s2)) := by
    cases ea with
    | postInc r => exact absurd rfl (hea r)
    | _ => rfl
  rw [eaLoc] at hload
  simp only [hexec, heval, hload, ok_bind, toRes]

/-- What stays from a state with the same memory. -/
theorem sameMemBut_of_eq {fc : Fc} {a : Long} {n : Nat} (hmem : u.mem = s.mem) (hplatform : u.platform = s.platform)
    (h : SameMemBut u t fc a n) : SameMemBut s t fc a n := fun fc' b hne =>
  (h fc' b (hplatform ▸ hne)).trans (byteAt_congr hmem hplatform fc' b)

/-- What MOVEM to -(An) leaves differs in An, the PC, memory and the log. -/
theorem movemToMem_preDec_frame (h : t = { s with mem := t.mem, done := t.done }) (r : Reg) (a : Long) (n : Nat) :
    advance n (t.setA r a) = { s.setA r a with
      pc := pcAfter s n, mem := (advance n (t.setA r a)).mem, done := (advance n (t.setA r a)).done } := by
  rw [h]
  unfold State.setA
  split <;> rfl

/-- What MOVEM to another mode leaves differs in the stepped register, the PC, memory and the log. -/
theorem movemToMem_upward_frame (sz : Size) (ea : Ea) (n : Nat)
    (h : t = { eaStep s sz ea with mem := t.mem, done := t.done }) :
    advance n t = { eaStep s sz ea with pc := pcAfter s n, mem := t.mem, done := t.done } := by
  rw [h, advance, pcAfter, pcAfter, eaStep_pc]

/-- What MOVEM from memory leaves differs in registers, the PC and the log. -/
theorem movemToRegs_frame (h : t = { s with regs := t.regs, done := t.done }) (n : Nat) :
    advance n t = { s with regs := t.regs, pc := pcAfter s n, done := t.done } := by
  rw [h]
  rfl

/-- A write of An after loading. -/
theorem regsFrame_setA (h : t = { s with regs := t.regs, done := t.done }) (r : Reg) (v : Long) :
    t.setA r v = { s with regs := (t.setA r v).regs, done := (t.setA r v).done } := by
  rw [setA_eq, h]

/-- Settles O33: to -(An), to the other modes, and from memory, with (An)+ apart. -/
theorem moveMultiple : Obligations.MoveMultiple := by
  unfold Obligations.MoveMultiple
  refine ⟨fun s long mask ea h hwf => ⟨?_, fun hea => ?_⟩, fun s long mask ea h hwf => ?_⟩
  · rintro r rfl has size a
    obtain ⟨t, hexec, ht⟩ := movemToMem_preDec h hwf long mask r (p := has) rfl rfl (a := a) rfl
    obtain ⟨hloads, hothers⟩ := ht.row (u := advance 2 (t.setA r a)) (by simp) (by simp)
    exact ⟨_, hexec, hloads, hothers, movemToMem_preDec_frame ht.frame r a 2⟩
  · obtain ⟨t, hexec, ht⟩ := movemToMem_upward h hwf long mask hea
    obtain ⟨hloads, hothers⟩ := ht.row (u := advance (2 + eaLen .l ea) t) rfl rfl
    exact ⟨_, hexec, hloads, sameMemBut_of_eq (eaStep_mem s .l ea) (eaStep_platform s .l ea) hothers,
      movemToMem_upward_frame .l ea _ ht.frame⟩
  · intro sz n below loc stepped
    by_cases hpost : ∃ r, ea = .postInc r
    · obtain ⟨r, rfl⟩ := hpost
      obtain ⟨t, hexec, ht⟩ := movemToRegs_postInc h long mask r
      obtain ⟨hloaded, hkept⟩ := ht.mask
      generalize he : s.a r + BitVec.ofNat 32 (bytesOf (longSize long) * (chosen _ 16).length) = e at hexec
      have hother : ∀ k < 16, ¬ stepped k → (t.setA r e).rn (BitVec.ofNat 4 k) = t.rn (BitVec.ofNat 4 k) :=
        fun k hk hs => rn_setA_ne t hk (fun hr => hs ⟨r, rfl, hr⟩) e
      refine ⟨_, hexec, fun k hk hs hbit => (hother k hk hs).trans (hloaded k hk hbit),
        fun k hk hs hbit => (hother k hk hs).trans (hkept k hk hbit), ?_, (otherSps_setA t r e).trans ht.sps,
        movemToRegs_frame (regsFrame_setA ht.frame r e) 2⟩
      rintro r' hr
      obtain rfl := Ea.postInc.inj hr
      exact (a_setA t r r e).trans ((if_pos rfl).trans he.symm)
    · have hea : ∀ r, ea ≠ .postInc r := fun r hr => hpost ⟨r, hr⟩
      obtain ⟨t, hexec, ht⟩ := movemToRegs_control h long mask hwf hea
      obtain ⟨hloaded, hkept⟩ := ht.mask
      exact ⟨_, hexec, fun k hk _ => hloaded k hk, fun k hk _ => hkept k hk, fun r hr => absurd hr (hea r), ht.sps,
        movemToRegs_frame ht.frame _⟩

end Sys2Proof.Proofs
end

section
/-! PROOFS. Results and flags of addition, subtraction, comparison and logic as facts about integers (R230, R280). -/

namespace Sys2Proof.Proofs

open Sys2Proof Sys2Proof.Machine Sys2Proof.Laws

variable {sz : Size} {d s v : Long}

/-! ## Values of an operation's size (R10) -/

theorem fits_iff : sz.fits v = true ↔ v.toNat < 2 ^ sz.bits := decide_eq_true_iff

/-- The weight of the sign bit, twice, is the number of values of a size. -/
theorem two_pow_bits (sz : Size) : 2 ^ sz.bits = 2 * 2 ^ (sz.bits - 1) := by cases sz <;> rfl

theorem toNat_trunc (sz : Size) (v : Long) : (trunc sz v).toNat = v.toNat % 2 ^ sz.bits := by
  cases sz with
  | b | w => simp only [trunc, Size.bits, BitVec.toNat_setWidth]; omega
  | l => exact (Nat.mod_eq_of_lt v.isLt).symm

theorem trunc_of_fits (h : sz.fits v = true) : trunc sz v = v :=
  BitVec.eq_of_toNat_eq ((toNat_trunc sz v).trans (Nat.mod_eq_of_lt (fits_iff.1 h)))

theorem fits_trunc (sz : Size) (v : Long) : sz.fits (trunc sz v) = true :=
  fits_iff.2 ((toNat_trunc sz v).symm ▸ Nat.mod_lt _ (Nat.two_pow_pos _))

theorem getLsbD_eq_msb (sz : Size) (v : Long) : v.getLsbD (sz.bits - 1) = msb sz v := by cases sz <;> rfl

theorem isZero_eq_decide (v : Long) : isZero v = decide (v = 0#32) := beq_eq_decide v 0#32

/-- The most significant bit of a value of the size is set in the upper half of the range. -/
theorem msb_of_fits (h : sz.fits v = true) : msb sz v = decide (2 ^ (sz.bits - 1) ≤ v.toNat) := by
  have hv := fits_iff.1 h
  rw [two_pow_bits] at hv
  rw [← getLsbD_eq_msb, BitVec.getLsbD, Nat.testBit_eq_decide_div_mod_eq, decide_eq_decide]
  generalize 2 ^ (sz.bits - 1) = half at hv ⊢
  have hdiv : v.toNat / half < 2 := Nat.div_lt_of_lt_mul (Nat.mul_comm _ _ ▸ hv)
  have hpos : 0 < half := by omega
  rw [Nat.mod_eq_of_lt hdiv, ← Nat.one_le_div_iff hpos]
  omega

/-- Sign extension takes values in the upper half of the range below zero. -/
theorem toInt_sext_cases (h : sz.fits v = true) :
    v.toNat < 2 ^ (sz.bits - 1) ∧ (sext sz v).toInt = v.toNat ∨
      2 ^ (sz.bits - 1) ≤ v.toNat ∧ (sext sz v).toInt + (2 ^ sz.bits : Nat) = v.toNat := by
  have hv := fits_iff.1 h
  cases sz with
  | b | w =>
    rw [sext, BitVec.toInt_signExtend_of_le (by decide), BitVec.toInt_eq_toNat_cond, BitVec.toNat_setWidth]
    simp only [Size.bits] at hv ⊢
    split <;> omega
  | l =>
    rw [sext, BitVec.toInt_eq_toNat_cond]
    simp only [Size.bits] at hv ⊢
    split <;> omega

/-! ## Carry, borrow and overflow (R230) -/

theorem toNat_bitLong (x : Bool) : (bitLong x).toNat = x.toNat := by cases x <;> rfl

theorem two_pow_bits_dvd (sz : Size) : 2 ^ sz.bits ∣ 2 ^ 32 := pow_dvd_pow 2 (by cases sz <;> decide)

theorem toNat_addRes (sz : Size) (d s : Long) (x : Bool) :
    (addRes sz d s x).toNat = (d.toNat + s.toNat + x.toNat) % 2 ^ sz.bits := by
  have hdvd := two_pow_bits_dvd sz
  rw [addRes, toNat_trunc, BitVec.toNat_add, BitVec.toNat_add, toNat_bitLong, Nat.mod_mod_of_dvd _ hdvd, Nat.add_mod,
    Nat.mod_mod_of_dvd _ hdvd, ← Nat.add_mod]

theorem toNat_subRes (hs : sz.fits s = true) (d : Long) (x : Bool) :
    (subRes sz d s x).toNat = (d.toNat + 2 ^ (sz.bits + 1) - s.toNat - x.toNat) % 2 ^ sz.bits := by
  have hs := fits_iff.1 hs
  have hx := x.toNat_le
  rw [subRes, toNat_trunc, BitVec.toNat_sub, BitVec.toNat_sub, toNat_bitLong]
  have hd := d.isLt
  cases sz <;> simp only [Size.bits] at hs ⊢ <;> omega

/-- A sum of two values of a size and a carry is its residue, or its residue and one turn more. -/
theorem mod_add_cases {m t : Nat} (h : t < 2 * m) : t < m ∧ t % m = t ∨ m ≤ t ∧ t % m + m = t := by
  rcases Nat.lt_or_ge t m with hlt | hge
  · exact .inl ⟨hlt, Nat.mod_eq_of_lt hlt⟩
  · refine .inr ⟨hge, ?_⟩
    rw [Nat.mod_eq_sub_mod hge, Nat.mod_eq_of_lt (by omega)]
    omega

section

variable (hd : sz.fits d = true) (hs : sz.fits s = true) (x : Bool)

include hd hs

/-- The sum of the unsigned values, in terms of the result. -/
theorem addRes_cases : d.toNat + s.toNat + x.toNat < 2 ^ sz.bits ∧
      (addRes sz d s x).toNat = d.toNat + s.toNat + x.toNat ∨
    2 ^ sz.bits ≤ d.toNat + s.toNat + x.toNat ∧
      (addRes sz d s x).toNat + 2 ^ sz.bits = d.toNat + s.toNat + x.toNat := by
  have hd := fits_iff.1 hd
  have hs := fits_iff.1 hs
  have hx := x.toNat_le
  rw [toNat_addRes]
  exact mod_add_cases (by omega)

/-- The difference of the unsigned values, in terms of the result. -/
theorem subRes_cases : s.toNat + x.toNat ≤ d.toNat ∧
      (subRes sz d s x).toNat + s.toNat + x.toNat = d.toNat ∨
    d.toNat < s.toNat + x.toNat ∧
      (subRes sz d s x).toNat + s.toNat + x.toNat = d.toNat + 2 ^ sz.bits := by
  have hd := fits_iff.1 hd
  have hs' := fits_iff.1 hs
  have hx := x.toNat_le
  rw [toNat_subRes hs, pow_succ]
  generalize 2 ^ sz.bits = m at hd hs' ⊢
  have hturn : (d.toNat + m * 2 - s.toNat - x.toNat) % m = (d.toNat + m - s.toNat - x.toNat) % m := by
    rw [← Nat.add_mod_right (d.toNat + m - s.toNat - x.toNat) m]
    congr 1
    omega
  rw [hturn]
  rcases mod_add_cases (m := m) (t := d.toNat + m - s.toNat - x.toNat) (by omega) with ⟨h, he⟩ | ⟨h, he⟩ <;> omega

/-- The carry leaves the unsigned range, the overflow the signed range. -/
theorem add_carry_overflow :
    addCarry sz d s (addRes sz d s x) = decide (2 ^ sz.bits ≤ d.toNat + s.toNat + x.toNat) ∧
    addOverflow sz d s (addRes sz d s x) =
      !decide (-(2 ^ (sz.bits - 1) : Nat) ≤ (sext sz d).toInt + (sext sz s).toInt + x.toNat ∧
        (sext sz d).toInt + (sext sz s).toInt + x.toNat < (2 ^ (sz.bits - 1) : Nat)) := by
  have hcases := addRes_cases hd hs x
  have hr : sz.fits (addRes sz d s x) = true := fits_trunc sz _
  have hdi := toInt_sext_cases hd
  have hsi := toInt_sext_cases hs
  rw [addCarry, addOverflow, msb_of_fits hd, msb_of_fits hs, msb_of_fits hr]
  have hd := fits_iff.1 hd
  have hs := fits_iff.1 hs
  have hr := fits_iff.1 hr
  have hx := x.toNat_le
  rw [two_pow_bits] at hcases hdi hsi hd hs hr ⊢
  constructor
  all_goals
    rw [Bool.eq_iff_iff]
    simp only [Bool.or_eq_true, Bool.and_eq_true, Bool.not_eq_true', decide_eq_true_eq, decide_eq_false_iff_not]
    omega

/-- The borrow leaves the unsigned range, the overflow the signed range. -/
theorem sub_borrow_overflow :
    subCarry sz d s (subRes sz d s x) = decide (d.toNat < s.toNat + x.toNat) ∧
    subOverflow sz d s (subRes sz d s x) =
      !decide (-(2 ^ (sz.bits - 1) : Nat) ≤ (sext sz d).toInt - (sext sz s).toInt - x.toNat ∧
        (sext sz d).toInt - (sext sz s).toInt - x.toNat < (2 ^ (sz.bits - 1) : Nat)) := by
  have hcases := subRes_cases hd hs x
  have hr : sz.fits (subRes sz d s x) = true := fits_trunc sz _
  have hdi := toInt_sext_cases hd
  have hsi := toInt_sext_cases hs
  rw [subCarry, subOverflow, msb_of_fits hd, msb_of_fits hs, msb_of_fits hr]
  have hd := fits_iff.1 hd
  have hs := fits_iff.1 hs
  have hr := fits_iff.1 hr
  have hx := x.toNat_le
  rw [two_pow_bits] at hcases hdi hsi hd hs hr
  constructor
  all_goals
    rw [Bool.eq_iff_iff]
    simp only [Bool.or_eq_true, Bool.and_eq_true, Bool.not_eq_true', decide_eq_true_eq, decide_eq_false_iff_not]
    omega

end

/-! ## Flags -/

theorem logicFlags_eq (f : Ccr) (sz : Size) (v : Long) :
    logicFlags f sz v = { x := f.x, n := v.getLsbD (sz.bits - 1), z := decide (v = 0#32), v := false, c := false } := by
  rw [logicFlags, isZero_eq_decide, getLsbD_eq_msb]

/-- Settles O22: each flag by the lemma on its formula; the X-type and CMP-type flags by definition. -/
theorem addSubFlags : Obligations.AddSubFlags := by
  unfold Obligations.AddSubFlags
  intro sz d s x hd hs n fitsSigned a b
  obtain ⟨hcarry, hadd⟩ := add_carry_overflow hd hs x
  obtain ⟨hborrow, hsub⟩ := sub_borrow_overflow hd hs x
  rw [Nat.cast_pow, Nat.cast_ofNat] at hadd hsub
  refine ⟨toNat_addRes sz d s x, ?_, toNat_subRes hs d x, ?_, ?_, fun f => ⟨?_, ?_, logicFlags_eq f sz d⟩⟩
  · rw [addFlags, hcarry, hadd, isZero_eq_decide, ← getLsbD_eq_msb]
  · rw [subFlags, hborrow, hsub, isZero_eq_decide, ← getLsbD_eq_msb]
  · rintro rfl
    exact ⟨rfl, rfl⟩
  · rintro rfl
    rfl
  · rintro rfl
    rw [aluAddx, aluSubx, keepZ, keepZ, ← isZero_eq_decide, ← isZero_eq_decide]
    exact ⟨rfl, rfl⟩

end Sys2Proof.Proofs
end

section
/-! PROOFS. Arithmetic and logic on operands: ADD to EORI, ADDQ, SUBQ, the one-operand instructions and the comparisons
(R231-R249, R280-R287, R333, R355, R394, R395). -/

namespace Sys2Proof.Proofs

open Sys2Proof Sys2Proof.Machine Sys2Proof.Laws

variable {s t : State}

/-! ## ADD, SUB, AND, OR, EOR (R231, R236, R281, R283, R285) -/

theorem twoWay_intoDn (h : Quiet s) (sz : Size) (d : Reg) (ea : Ea) (f : Long → Long → Long × Ccr) :
    CompletesAs (twoWay s sz false d ea f) (intoDn s sz d ea f) := by
  rw [twoWay, if_neg Bool.false_ne_true]
  exact eaToDn_quiet h sz d ea f

theorem twoWay_modified (h : Quiet s) (sz : Size) (d : Reg) (ea : Ea) (f : Long → Long → Long × Ccr) :
    CompletesAs (twoWay s sz true d ea f) (modified s sz 0 ea fun v => f v (trunc sz (s.d d))) := by
  rw [twoWay, if_pos rfl]
  exact modifyEa_quiet h sz 0 ea _

/-- Settles O27: both directions by the law of their shape. -/
theorem aluForms : Obligations.AluForms := by
  unfold Obligations.AluForms
  simp only [exec_add, exec_sub, exec_and, exec_or, exec_eor, execAdd, execSub, execAnd, execOr, execEor, logicOut]
  exact ⟨fun s sz d ea h => ⟨twoWay_intoDn h sz d ea _, twoWay_intoDn h sz d ea _, twoWay_intoDn h sz d ea _,
      twoWay_intoDn h sz d ea _⟩,
    fun s sz d ea h => ⟨twoWay_modified h sz d ea _, twoWay_modified h sz d ea _, twoWay_modified h sz d ea _,
      twoWay_modified h sz d ea _, modifyEa_quiet h sz 0 ea _⟩⟩

/-! ## Immediate and quick operands (R147, R233, R234) -/

/-- The words an immediate operand takes. -/
theorem length_immWords (sz : Size) (imm : Long) : (immWords sz imm).length = if sz = .l then 2 else 1 := by
  cases sz <;> rfl

theorem quick_eq_ofNat (q : BitVec 3) : quick q = BitVec.ofNat 32 (if q = 0#3 then 8 else q.toNat) := by
  rw [quick]
  split
  · rfl
  · exact BitVec.eq_of_toNat_eq (by simp)

/-- An immediate operand combined with an operand, after the instruction's own immediate words. -/
theorem modifyEa_imm (h : Quiet s) (sz : Size) (imm : Long) (ea : Ea) (f : Long → Long × Ccr) :
    CompletesAs (modifyEa s sz (immWords sz imm).length ea f) (modified s sz (if sz = .l then 2 else 1) ea f) :=
  length_immWords sz imm ▸ modifyEa_quiet h sz _ ea f

/-- ADDQ to an operand other than An is an addition. -/
theorem execAddq_operand {ea : Ea} (h : ∀ a, ea ≠ .an a) (sz : Size) (q : BitVec 3) (s : State) :
    execAddq sz q ea s = modifyEa s sz 0 ea fun v => aluAdd sz v (quick q) := by
  cases ea with
  | an a => exact absurd rfl (h a)
  | _ => rfl

/-- SUBQ from an operand other than An is a subtraction. -/
theorem execSubq_operand {ea : Ea} (h : ∀ a, ea ≠ .an a) (sz : Size) (q : BitVec 3) (s : State) :
    execSubq sz q ea s = modifyEa s sz 0 ea fun v => aluSub sz v (quick q) := by
  cases ea with
  | an a => exact absurd rfl (h a)
  | _ => rfl

/-- Settles O28: the immediate forms replace their operand; ADDQ and SUBQ do so but for An. -/
theorem immediateToEa : Obligations.ImmediateToEa := by
  unfold Obligations.ImmediateToEa
  intro s sz imm q ea h own n
  have hn : quick q = n := quick_eq_ofNat q
  simp only [exec_addi, exec_subi, exec_andi, exec_ori, exec_eori, execAddi, execSubi, execAndi, execOri, execEori,
    logicOut]
  refine ⟨modifyEa_imm h sz imm ea _, modifyEa_imm h sz imm ea _, modifyEa_imm h sz imm ea _,
    modifyEa_imm h sz imm ea _, modifyEa_imm h sz imm ea _, fun hea => ?_, ?_⟩
  · rw [exec_addq, exec_subq, execAddq_operand hea, execSubq_operand hea, hn]
    exact ⟨modifyEa_quiet h sz 0 ea _, modifyEa_quiet h sz 0 ea _⟩
  · rintro a rfl
    rw [← hn]
    exact ⟨rfl, rfl⟩

/-! ## One operand (R241-R243, R287, R333, R355, R394) -/

@[simp] theorem putAt_sr (s : State) (sz : Size) (v : Long) (loc : Loc) : (putAt s sz v loc).sr = s.sr := by
  cases loc with
  | mem prog a => cases prog <;> simp [putAt]
  | areg n => simp [putAt]
  | _ => rfl

/-- Setting the flags to what they are changes nothing. -/
theorem finish_ccr (h : t.sr = s.sr) (n : Nat) : finish t n s.ccr = advance n t := by
  rw [finish, State.setCcr, State.ccr, ← h]

/-- An instruction that writes its operand and keeps the flags. -/
theorem setEa_keeps_flags (h : Quiet s) (sz : Size) (ea : Ea) (v : Long) :
    CompletesAs (setEa s sz ea v s.ccr)
      (advance (1 + eaLen sz ea) (putAt (eaStep s sz ea) sz v (eaLoc s sz 0 ea))) :=
  have hsr : (putAt (eaStep s sz ea) sz v (eaLoc s sz 0 ea)).sr = s.sr := by rw [putAt_sr, eaStep_sr]
  finish_ccr hsr (1 + eaLen sz ea) ▸ setEa_quiet h sz ea v s.ccr

theorem logicFlags_zero (f : Ccr) (sz : Size) :
    logicFlags f sz 0#32 = { x := f.x, n := false, z := true, v := false, c := false } := by
  cases sz <;> rfl

theorem quiet_tickBy (h : Quiet s) (k : Nat) : Quiet (s.tickBy k) := quiet_congr h rfl rfl rfl

/-- Settles O29: replaced operands by `modifyEa_quiet`, written ones by `setEa_quiet`. -/
theorem unaryOnEa : Obligations.UnaryOnEa := by
  unfold Obligations.UnaryOnEa
  intro s sz cc ea h
  simp only [exec_neg, exec_negx, exec_not, exec_nbcd, exec_clr, exec_scc, exec_moveFromCcr, execNeg, execNegx, execNot,
    execNbcd, execClr, execScc, execMoveFromCcr, logicOut]
  exact ⟨modifyEa_quiet h sz 0 ea _, modifyEa_quiet h sz 0 ea _, modifyEa_quiet h sz 0 ea _,
    modifyEa_quiet (quiet_tickBy h 5) .b 0 ea _, logicFlags_zero s.ccr sz ▸ setEa_quiet h sz ea 0#32 _,
    setEa_keeps_flags h .b ea _, setEa_keeps_flags h .w ea _⟩

/-! ## Comparisons (R244-R247, R249, R395) -/

theorem dataFc_congr (h : t.sr = s.sr) : dataFc t = dataFc s := by rw [dataFc, dataFc, h]

theorem dataFc_withDone (s : State) (dn : List BusRec) : dataFc (s.withDone dn) = dataFc s := rfl

/-- Operands read as before when an address register has changed. -/
theorem load_setA (s : State) (n : Reg) (v : Long) (fc : Fc) (a : Long) (k : Nat) :
    load (s.setA n v) fc a k = load s fc a k :=
  load_congr (setA_mem s n v) (setA_platform s n v) fc a k

/-- The operand at (An)+. -/
theorem readPost_quiet (h : Quiet s) (sz : Size) (n : Reg) :
    ∃ dn, readPost s sz n =
      .ok (load s (dataFc s) (s.a n) (bytesOf sz), (s.setA n (s.a n + incOf sz n)).withDone dn) :=
  ⟨_, by simp only [readPost, memRead_quiet h, ok_bind, a_withDone, setA_withDone]; rfl⟩

theorem cmpm_quiet (h : Quiet s) (sz : Size) (x y : Reg) {u : State} (hu : u = s.setA x (s.a x + incOf sz x)) :
    CompletesAs (exec (.cmpm sz x y) s) (finish (u.setA y (u.a y + incOf sz y)) 1
      (cmpFlags s.ccr sz (load s (dataFc s) (u.a y) (bytesOf sz)) (load s (dataFc s) (s.a x) (bytesOf sz)))) := by
  obtain ⟨d1, hsrc⟩ := readPost_quiet h sz x
  rw [← hu] at hsrc
  have hq : Quiet u := hu ▸ quiet_setA h x _
  obtain ⟨d2, hdst⟩ := readPost_quiet (quiet_withDone hq d1) sz y
  have hload : load u (dataFc u) (u.a y) (bytesOf sz) = load s (dataFc s) (u.a y) (bytesOf sz) := by
    rw [hu, load_setA, dataFc_congr (setA_sr s x _)]
  refine ⟨d2, ?_⟩
  simp only [a_withDone, load_withDone, dataFc_withDone, hload, setA_withDone, withDone_withDone] at hdst
  simp only [exec_cmpm, execCmpm, hsrc, hdst, ok_bind, setCcr_withDone, advance_withDone, toRes, finish]

theorem cmpa_quiet (h : Quiet s) (long : Bool) (d : Reg) (ea : Ea) {az : Size} (haz : az = longSize long) :
    CompletesAs (exec (.cmpa long d ea) s) (finish (eaStep s az ea) (1 + eaLen az ea)
      (cmpFlags s.ccr .l ((eaStep s az ea).a d) (sext az (eaVal s az 0 ea)))) := by
  subst haz
  obtain ⟨dn, hread⟩ := readEa_quiet h (longSize long) 0 ea
  exact ⟨dn, by simp only [exec_cmpa, execCmpa, withOperand, hread, a_withDone, setCcr_withDone, advance_withDone,
    finish]⟩

/-- Settles O30: CMPA and CMPM by the laws above, the others test one operand. -/
theorem compares : Obligations.Compares := by
  unfold Obligations.Compares
  intro s sz d x y long imm ea h az u
  simp only [exec_cmp, exec_cmpi, exec_tst, exec_moveToCcr, execCmp, execCmpi, execTst, execMoveToCcr, length_immWords]
  exact ⟨testEa_quiet h sz 0 ea _, testEa_quiet h sz _ ea _, cmpa_quiet h long d ea rfl, cmpm_quiet h sz x y rfl,
    testEa_quiet h sz 0 ea _, testEa_quiet h .w 0 ea _⟩

end Sys2Proof.Proofs
end

section
/-! PROOFS. Instructions on two registers or two predecremented operands: ADDX, SUBX, ABCD, SBCD, PACK, UNPK (R235,
R240, R330-R335). -/

namespace Sys2Proof.Proofs

open Sys2Proof Sys2Proof.Machine Sys2Proof.Laws

variable {s : State}

/-! ## ADDX, SUBX, ABCD, SBCD -/

/-- Operands read as before when an effective address has been evaluated. -/
theorem load_eaStep (s : State) (sz : Size) (ea : Ea) (fc : Fc) (a : Long) (n : Nat) :
    load (eaStep s sz ea) fc a n = load s fc a n :=
  load_congr (eaStep_mem s sz ea) (eaStep_platform s sz ea) fc a n

theorem dataFc_eaStep (s : State) (sz : Size) (ea : Ea) : dataFc (eaStep s sz ea) = dataFc s :=
  dataFc_congr (eaStep_sr s sz ea)

/-- The operand at -(An). -/
theorem readPre_quiet (h : Quiet s) (sz : Size) (n : Reg) :
    ∃ dn, readPre s sz n = .ok (load s (dataFc s) ((eaStep s sz (.preDec n)).a n) (bytesOf sz),
      (eaStep s sz (.preDec n)).withDone dn) := by
  have hread := memRead_quiet (quiet_eaStep h sz (.preDec n)) ((eaStep s sz (.preDec n)).a n) (bytesOf sz)
  rw [load_eaStep, dataFc_eaStep] at hread
  exact ⟨_, hread⟩

theorem pairOp_reg (s : State) (sz : Size) (x y : Reg) (f : Long → Long → Long × Ccr) :
    pairOp s sz false x y f = .next (pairRegDone s sz x y f) := rfl

theorem pairOp_mem (h : Quiet s) (sz : Size) (x y : Reg) (f : Long → Long → Long × Ccr) :
    CompletesAs (pairOp s sz true x y f) (pairDone s sz x y f) := by
  have hu := quiet_eaStep h sz (.preDec x)
  have ht : Quiet (pairStep s sz x y) := quiet_eaStep hu sz (.preDec y)
  have hfc : dataFc (pairStep s sz x y) = dataFc s := (dataFc_eaStep _ sz _).trans (dataFc_eaStep s sz _)
  obtain ⟨d1, hsrc⟩ := readPre_quiet h sz x
  obtain ⟨d2, hdst⟩ := readPre_quiet (quiet_withDone hu d1) sz y
  simp only [eaStep_withDone, a_withDone, load_withDone, load_eaStep, dataFc_withDone, dataFc_eaStep,
    withDone_withDone] at hdst
  rw [← pairStep] at hdst
  have hwrite := memWrite_quiet (quiet_withDone ht d2) ((pairStep s sz x y).a y) (bytesOf sz)
    (f (load s (dataFc s) ((pairStep s sz x y).a y) (bytesOf sz))
      (load s (dataFc s) ((eaStep s sz (.preDec x)).a x) (bytesOf sz))).1
  simp only [dataFc_withDone, hfc, store_withDone, withDone_withDone] at hwrite
  refine ⟨((pairStep s sz x y).withDone d2).done ++ [.write], ?_⟩
  rw [pairOp, if_pos rfl]
  simp only [hsrc, hdst, hwrite, ok_bind, a_withDone, setCcr_withDone, advance_withDone, toRes, pairDone, finish]

/-! ## PACK and UNPK (R334, R335) -/

section

variable (n : Reg)

theorem packStepped_platform : (packStepped s n).platform = s.platform := setA_platform s n _

theorem packStepped_mem : (packStepped s n).mem = s.mem := setA_mem s n _

theorem dataFc_packStepped : dataFc (packStepped s n) = dataFc s := dataFc_congr (setA_sr s n _)

theorem byteAt_packStepped (fc : Fc) (a : Long) : byteAt (packStepped s n) fc a = byteAt s fc a :=
  byteAt_congr (packStepped_mem n) (packStepped_platform n) fc a

theorem packStepped_withDone (dn : List BusRec) : packStepped (s.withDone dn) n = (packStepped s n).withDone dn :=
  setA_withDone s dn n _

theorem byteAt_withDone (dn : List BusRec) (fc : Fc) (a : Long) : byteAt (s.withDone dn) fc a = byteAt s fc a := rfl

theorem dataFc_store (fc : Fc) (k : Nat) (a v : Long) : dataFc (store s fc k a v) = dataFc s :=
  dataFc_congr (store_sr fc k a v s)

theorem quiet_packStepped (h : Quiet s) : Quiet (packStepped s n) := quiet_setA h n _

theorem packRead_quiet (h : Quiet s) :
    ∃ dn, packRead s n = .ok ((byteAt s (dataFc s) ((packStepped s n).a n)).setWidth 32,
      (packStepped s n).withDone dn) := by
  have hread := memRead_quiet (quiet_packStepped n h) ((packStepped s n).a n) 1
  rw [load_byte, byteAt_packStepped, dataFc_packStepped] at hread
  exact ⟨_, hread⟩

theorem packWrite_quiet (h : Quiet s) (v : Long) :
    ∃ dn, packWrite s n v =
      .ok ((store (packStepped s n) (dataFc s) 1 ((packStepped s n).a n) v).withDone dn) := by
  have hwrite := memWrite_quiet (quiet_packStepped n h) ((packStepped s n).a n) 1 v
  rw [dataFc_packStepped] at hwrite
  exact ⟨_, hwrite⟩

end

theorem setWidth_byte (b : Byte) : ((b.setWidth 32 : Long).setWidth 8 : Byte) = b :=
  BitVec.eq_of_toNat_eq (by simp)

theorem pack_mem (h : Quiet s) (x y : Reg) (adj : Word) {s1 s2 s3 : State} (h1 : s1 = packStepped s x)
    (h2 : s2 = packStepped s1 x) (h3 : s3 = packStepped s2 y) :
    CompletesAs (exec (.pack true x y adj) s) (advance 2 (store s3 (dataFc s) 1 (s3.a y)
      ((packByte (byteAt s (dataFc s) (s2.a x) ++ byteAt s (dataFc s) (s1.a x)) adj).setWidth 32))) := by
  subst h1 h2 h3
  have q1 := quiet_packStepped x h
  have q2 := quiet_packStepped x q1
  obtain ⟨d1, hlo⟩ := packRead_quiet x h
  obtain ⟨d2, hhi⟩ := packRead_quiet x (quiet_withDone q1 d1)
  obtain ⟨d3, hwrite⟩ := packWrite_quiet y (quiet_withDone q2 d2)
    ((packByte (byteAt s (dataFc s) ((packStepped (packStepped s x) x).a x) ++
      byteAt s (dataFc s) ((packStepped s x).a x)) adj).setWidth 32)
  simp only [packStepped_withDone, byteAt_withDone, byteAt_packStepped, dataFc_withDone, dataFc_packStepped, a_withDone,
    withDone_withDone, store_withDone] at hhi hwrite
  refine ⟨d3, ?_⟩
  rw [exec_pack, execPack, if_pos rfl]
  simp only [hlo, hhi, setWidth_byte, hwrite, ok_bind, advance_withDone, toRes]

theorem unpk_mem (h : Quiet s) (x y : Reg) (adj : Word) {s1 s3 s4 : State} {t : Word} (h1 : s1 = packStepped s x)
    (ht : t = unpackWord (byteAt s (dataFc s) (s1.a x)) adj) (h3 : s3 = packStepped s1 y)
    (h4 : s4 = packStepped (store s3 (dataFc s) 1 (s3.a y) ((t.extractLsb' 0 8).setWidth 32)) y) :
    CompletesAs (exec (.unpk true x y adj) s)
      (advance 2 (store s4 (dataFc s) 1 (s4.a y) ((t.extractLsb' 8 8).setWidth 32))) := by
  subst h1 h3 h4
  have q1 := quiet_packStepped x h
  obtain ⟨d1, hread⟩ := packRead_quiet x h
  obtain ⟨d2, hlo⟩ := packWrite_quiet y (quiet_withDone q1 d1) ((t.extractLsb' 0 8).setWidth 32)
  simp only [packStepped_withDone, dataFc_withDone, dataFc_packStepped, a_withDone, withDone_withDone,
    store_withDone] at hlo
  obtain ⟨d3, hhi⟩ := packWrite_quiet y (quiet_withDone (quiet_store (quiet_packStepped y q1) (dataFc s) 1
    ((packStepped (packStepped s x) y).a y) ((t.extractLsb' 0 8).setWidth 32)) d2) ((t.extractLsb' 8 8).setWidth 32)
  simp only [packStepped_withDone, dataFc_withDone, dataFc_packStepped, dataFc_store, a_withDone, withDone_withDone,
    store_withDone] at hhi
  refine ⟨d3, ?_⟩
  rw [exec_unpk, execUnpk, if_pos rfl]
  simp only [hread, setWidth_byte, ← ht, hlo, hhi, ok_bind, advance_withDone, toRes]

/-- Settles O42: `pairOp` in its two forms, then PACK and UNPK. -/
theorem pairInstructions : Obligations.PairInstructions := by
  unfold Obligations.PairInstructions
  constructor
  · intro s sz x y h dec
    have h5 := quiet_tickBy h 5
    simp only [exec_addx, exec_subx, exec_abcd, exec_sbcd, execAddx, execSubx, execAbcd, execSbcd]
    exact ⟨pairOp_reg s sz x y _, pairOp_reg s sz x y _, pairOp_reg _ .b x y _, pairOp_reg _ .b x y _,
      pairOp_mem h sz x y _, pairOp_mem h sz x y _, pairOp_mem h5 .b x y _, pairOp_mem h5 .b x y _⟩
  · intro s x y adj h fc s1 s2 pk un
    exact ⟨by rw [exec_pack, execPack]; rfl, by rw [exec_unpk, execUnpk]; rfl, pack_mem h x y adj rfl rfl rfl,
      unpk_mem h x y adj rfl rfl rfl rfl⟩

end Sys2Proof.Proofs
end

section
/-! PROOFS. Multiplication (R251-R254). -/

namespace Sys2Proof.Proofs

open Sys2Proof Sys2Proof.Machine Sys2Proof.Laws

variable {s : State}

/-! ## Words (R251, R252) -/

theorem mulWord16_quiet (h : Quiet s) (d : Reg) (ea : Ea) (ext : Long → Long) {p : Long}
    (hp : p = ext (s.d d) * ext (eaVal s .w 0 ea)) :
    CompletesAs (mulWord16 s d ea ext)
      (finish ((eaStep s .w ea).setD d p) (1 + eaLen .w ea) (logicFlags s.ccr .l p)) := by
  subst hp
  obtain ⟨dn, hread⟩ := readEa_quiet h .w 0 ea
  exact ⟨dn, by simp only [mulWord16, withOperand, hread, d_withDone, eaStep_d, setD_withDone, setCcr_withDone,
    advance_withDone, finish]⟩

/-- A word zero-extended is the residue of the long word. -/
theorem trunc_word_eq_ofNat (v : Long) : trunc .w v = BitVec.ofNat 32 (v.toNat % 2 ^ 16) := by
  refine BitVec.eq_of_toNat_eq ?_
  rw [toNat_trunc, BitVec.toNat_ofNat, Nat.mod_eq_of_lt (b := 2 ^ 32) (by omega)]
  rfl

theorem sext_word_eq_ofInt (v : Long) : sext .w v = BitVec.ofInt 32 (v.setWidth 16).toInt := rfl

/-! ## The 64-bit product (R253, R254) -/

/-- A product of long words is the product of the integers they stand for. -/
theorem mulLong_eq_ofInt (signed : Bool) (a b : Long) :
    mulLong signed a b = BitVec.ofInt 64 (asInt signed a * asInt signed b) := by
  have hwide : ∀ v : Long, v.setWidth 64 = BitVec.ofInt 64 v.toNat := fun v =>
    (BitVec.ofInt_natCast 64 v.toNat).symm ▸ BitVec.eq_of_toNat_eq (by simp)
  cases signed with
  | false => exact (congrArg₂ (· * ·) (hwide a) (hwide b)).trans (BitVec.ofInt_mul _ _).symm
  | true => exact (BitVec.ofInt_mul _ _).symm

theorem loLong_ofInt (p : Int) : loLong (BitVec.ofInt 64 p) = BitVec.ofInt 32 p := by
  refine BitVec.eq_of_toNat_eq ?_
  simp only [loLong, BitVec.extractLsb'_toNat, BitVec.toNat_ofInt, Nat.shiftRight_zero]
  omega

theorem hiLong_ofInt (p : Int) : hiLong (BitVec.ofInt 64 p) = BitVec.ofInt 32 (p / 2 ^ 32) := by
  refine BitVec.eq_of_toNat_eq ?_
  simp only [hiLong, BitVec.extractLsb'_toNat, BitVec.toNat_ofInt, Nat.shiftRight_eq_div_pow]
  omega

/-- Bit 31 of a product is the sign bit of its low half. -/
theorem getLsbD_ofInt_low (p : Int) : (BitVec.ofInt 64 p).getLsbD 31 = (BitVec.ofInt 32 p).msb := by
  rw [← loLong_ofInt, BitVec.msb_eq_getLsbD_last, loLong, BitVec.getLsbD_extractLsb']
  rfl

/-- An integer of less than `w` bits is zero if its low `w` bits are. -/
theorem ofInt_eq_zero_iff {w : Nat} {i : Int} (hlo : -2 ^ w < i) (hhi : i < 2 ^ w) :
    BitVec.ofInt w i = 0#w ↔ i = 0 := by
  constructor
  · intro hzero
    have hmod : i % 2 ^ w = 0 := by
      have hnat := congrArg BitVec.toNat hzero
      rw [BitVec.toNat_ofInt, BitVec.toNat_ofNat, Nat.zero_mod, Nat.cast_pow, Nat.cast_ofNat] at hnat
      exact le_antisymm (Int.toNat_eq_zero.1 hnat) (Int.emod_nonneg _ (by positivity))
    exact Int.eq_zero_of_abs_lt_dvd (Int.dvd_of_emod_eq_zero hmod) (abs_lt.2 ⟨hlo, hhi⟩)
  · rintro rfl
    rfl

/-- Whether the high half of a product is more than the extension of the low one (R253, R254). -/
def highUsed (signed : Bool) (p : Int) : Bool :=
  if signed then BitVec.ofInt 32 (p / 2 ^ 32) != (BitVec.ofInt 32 p).sshiftRight 31
  else BitVec.ofInt 32 (p / 2 ^ 32) != 0#32

theorem mulFlags_ofInt (f : Ccr) (signed quad : Bool) {p : Int} (hlo : -2 ^ 64 < p) (hhi : p < 2 ^ 64) :
    mulFlags f signed quad (BitVec.ofInt 64 p) =
      { x := f.x, n := if quad then (BitVec.ofInt 64 p).msb else (BitVec.ofInt 32 p).msb,
        z := if quad then decide (p = 0) else decide (BitVec.ofInt 32 p = 0#32), v := !quad && highUsed signed p,
        c := false } := by
  cases quad with
  | true =>
    have hz : (BitVec.ofInt 64 p == 0#64) = decide (p = 0) :=
      (beq_eq_decide _ _).trans (decide_eq_decide.2 (ofInt_eq_zero_iff hlo hhi))
    rw [mulFlags, if_pos rfl, hz, BitVec.msb_eq_getLsbD_last]
    rfl
  | false =>
    rw [mulFlags, if_neg Bool.false_ne_true, loLong_ofInt, hiLong_ofInt, getLsbD_ofInt_low, beq_eq_decide]
    rfl

theorem msb_ofInt_unsigned {p : Int} (h0 : 0 ≤ p) (hp : p < 2 ^ 64) :
    (BitVec.ofInt 64 p).msb = decide (2 ^ 63 ≤ p) := by
  rw [BitVec.msb_eq_decide, BitVec.toNat_ofInt, decide_eq_decide]
  omega

theorem msb_ofInt_signed {p : Int} (hlo : -2 ^ 63 ≤ p) (hhi : p < 2 ^ 63) :
    (BitVec.ofInt 64 p).msb = decide (p < 0) := by
  rw [BitVec.msb_eq_toInt, BitVec.toInt_ofInt_eq_self (by decide) hlo hhi]

/-- An unsigned product uses its high half if it does not fit the low one. -/
theorem highUsed_unsigned {p : Int} (h0 : 0 ≤ p) (hp : p < 2 ^ 64) : highUsed false p = decide (2 ^ 32 ≤ p) := by
  have hzero := ofInt_eq_zero_iff (w := 32) (i := p / 2 ^ 32) (by omega) (by omega)
  rw [highUsed, if_neg Bool.false_ne_true, bne, beq_eq_decide, ← decide_not, decide_eq_decide, hzero]
  omega

/-- A signed product uses its high half if it does not fit the low one. -/
theorem highUsed_signed {p : Int} (hlo : -2 ^ 63 ≤ p) (hhi : p < 2 ^ 63) :
    highUsed true p = !decide (-2 ^ 31 ≤ p ∧ p < 2 ^ 31) := by
  have hhigh : (BitVec.ofInt 32 (p / 2 ^ 32)).toInt = p / 2 ^ 32 :=
    BitVec.toInt_ofInt_eq_self (by decide) (by omega) (by omega)
  have hsign : ((BitVec.ofInt 32 p).sshiftRight 31).toInt = p.bmod (2 ^ 32) / 2 ^ 31 := by
    rw [BitVec.toInt_sshiftRight, BitVec.toInt_ofInt, Int.shiftRight_eq_div_pow]
    rfl
  rw [highUsed, if_pos rfl, bne, beq_eq_decide, Bool.not_inj_iff, decide_eq_decide, ← BitVec.toInt_inj, hhigh, hsign,
    Int.bmod_def]
  split <;> omega

theorem toNat_mul_lt (a b : Long) : (a.toNat * b.toNat : Int) < 2 ^ 64 := by
  have hmul := Nat.mul_lt_mul'' a.isLt b.isLt
  omega

theorem toInt_mul_bounds (a b : Long) : -2 ^ 63 ≤ a.toInt * b.toInt ∧ a.toInt * b.toInt < 2 ^ 63 := by
  have habs : ∀ v : Long, |v.toInt| ≤ 2 ^ 31 := fun v => abs_le.2 ⟨v.le_toInt, v.toInt_lt.le⟩
  have hmul := mul_le_mul (habs a) (habs b) (abs_nonneg _) (by positivity)
  rw [← abs_mul, abs_le] at hmul
  omega

/-- MULU.L and MULS.L, with the product as an integer. -/
theorem mulL_quiet (h : Quiet s) (signed quad : Bool) (d r : Reg) (ea : Ea) {p : Int}
    (hp : p = asInt signed (s.d d) * asInt signed (eaVal s .l 1 ea)) :
    CompletesAs (mulL signed quad d r ea s)
      (finish
        (if quad = false then (eaStep s .l ea).setD d (BitVec.ofInt 32 p)
          else if r = d then ((eaStep s .l ea).setD d (Config.freeLong s.freeIdx)).tick
          else ((eaStep s .l ea).setD r (BitVec.ofInt 32 (p / 2 ^ 32))).setD d (BitVec.ofInt 32 p))
        (2 + eaLen .l ea) (mulFlags s.ccr signed quad (BitVec.ofInt 64 p))) := by
  obtain ⟨dn, hread⟩ := readEa_quiet h .l 1 ea
  refine ⟨dn, ?_⟩
  have hfree : (eaStep s .l ea).freeLong = Config.freeLong s.freeIdx := by rw [State.freeLong, eaStep_freeIdx]
  rw [mulL, withOperand, hread]
  simp only [d_withDone, eaStep_d, mulLong_eq_ofInt, ← hp, hiLong_ofInt, loLong_ofInt]
  cases quad with
  | false => rfl
  | true =>
    by_cases hr : r = d
    · simp only [hr, if_true, ← hfree]
      rfl
    · simp only [hr, if_true, if_false]
      rfl

/-- Settles O37: the products as integers, within the range of 64 bits. -/
theorem multiply : Obligations.Multiply := by
  unfold Obligations.Multiply
  intro s quad d r ea h w l long pu ps
  refine ⟨⟨_, rfl, ?_⟩, ⟨_, rfl, ?_⟩, ?_, ?_⟩
  · rw [exec_muluW, execMuluW]
    refine mulWord16_quiet h d ea _ ?_
    rw [trunc_word_eq_ofNat, trunc_word_eq_ofNat, BitVec.ofNat_mul]
  · rw [exec_mulsW, execMulsW]
    refine mulWord16_quiet h d ea _ ?_
    rw [sext_word_eq_ofInt, sext_word_eq_ofInt, BitVec.ofInt_mul]
  · have h0 : 0 ≤ pu := by positivity
    have hlt : pu < 2 ^ 64 := toNat_mul_lt (s.d d) l
    have hmul := mulL_quiet h false quad d r ea (p := pu) rfl
    rw [mulFlags_ofInt _ _ _ (by omega) hlt, msb_ofInt_unsigned h0 hlt, highUsed_unsigned h0 hlt] at hmul
    exact hmul
  · obtain ⟨hlo, hhi⟩ : -2 ^ 63 ≤ ps ∧ ps < 2 ^ 63 := toInt_mul_bounds (s.d d) l
    have hmul := mulL_quiet h true quad d r ea (p := ps) rfl
    rw [mulFlags_ofInt _ _ _ (by omega) (by omega), msb_ofInt_signed hlo hhi, highUsed_signed hlo hhi] at hmul
    exact hmul

end Sys2Proof.Proofs
end

section
/-! PROOFS. Division (R255-R259). -/

namespace Sys2Proof.Proofs

open Sys2Proof Sys2Proof.Machine Sys2Proof.Laws

variable {s u : State}

/-! ## Overflow and zero divisor -/

/-- The flags of a division that overflows: N and Z are free values. -/
def overflowFlags (s : State) : Ccr :=
  { x := s.ccr.x, n := Config.freeBit s.freeIdx, z := Config.freeBit (s.freeIdx + 1), v := true, c := false }

/-- The flags of a division by zero: N, Z and V are free values. -/
def zeroFlags (s : State) : Ccr :=
  { x := s.ccr.x, n := Config.freeBit s.freeIdx, z := Config.freeBit (s.freeIdx + 1),
    v := Config.freeBit (s.freeIdx + 2), c := false }

section

variable (hsr : u.sr = s.sr) (hfree : u.freeIdx = s.freeIdx) (n : Nat)

include hsr hfree

/-- An overflow in a state whose flags and free values are those at the start. -/
theorem advance_divOverflow : advance n (divOverflow u) = (finish u n (overflowFlags s)).tickBy 2 := by
  rw [overflowFlags, State.ccr, ← hsr, ← hfree]
  rfl

/-- A zero divisor traps from a state whose flags and free values are those at the start. -/
theorem zeroDivide_eq : zeroDivide u n = .next (trapSixState ((u.setCcr (zeroFlags s)).tickBy 3) 5#8 n) := by
  rw [zeroFlags, State.ccr, ← hsr, ← hfree]
  rfl

end

/-! ## Quotients -/

theorem divide_natCast (a b : Nat) : divide a b = (((a / b : Nat) : Int), ((a % b : Nat) : Int)) := by
  rw [divide, Int.ofNat_tdiv, Int.ofNat_tmod]

theorem quotientFits_natCast (bits q : Nat) : quotientFits false bits q = decide (q < 2 ^ bits) := by
  rw [quotientFits, if_neg Bool.false_ne_true, decide_eq_decide]
  exact ⟨fun h => by exact_mod_cast h.2, fun h => ⟨Int.natCast_nonneg q, by exact_mod_cast h⟩⟩

theorem quotientFits_signed (bits : Nat) (q : Int) :
    quotientFits true bits q = decide (-2 ^ (bits - 1) ≤ q ∧ q < 2 ^ (bits - 1)) := rfl

/-- A quotient that fits is less than a turn away from zero. -/
theorem quotientFits_bounds {signed : Bool} {bits : Nat} {q : Int} (hbits : 0 < bits)
    (h : quotientFits signed bits q = true) :
    -2 ^ bits < q ∧ q < 2 ^ bits := by
  have hhalf : (2 : Int) ^ (bits - 1) < 2 ^ bits := pow_lt_pow_right₀ one_lt_two (Nat.sub_one_lt_of_lt hbits)
  have hpos : (0 : Int) < 2 ^ (bits - 1) := by positivity
  cases signed with
  | false =>
    obtain ⟨hlo, hhi⟩ := of_decide_eq_true h
    omega
  | true =>
    obtain ⟨hlo, hhi⟩ := of_decide_eq_true h
    omega

/-- The flags of a quotient that fits. -/
def quotientFlags {w : Nat} (f : Ccr) (bits : BitVec w) (q : Int) : Ccr :=
  { x := f.x, n := bits.msb, z := decide (q = 0), v := false, c := false }

/-- N and Z of a quotient that fits a word. -/
theorem logicFlags_quotient_word (f : Ccr) {signed : Bool} {q : Int} (h : quotientFits signed 16 q = true) :
    logicFlags f .w ((BitVec.ofInt 16 q).setWidth 32) = quotientFlags f (BitVec.ofInt 16 q) q := by
  obtain ⟨hlo, hhi⟩ := quotientFits_bounds (by decide) h
  rw [quotientFlags, logicFlags, msb_word, isZero_word, decide_eq_decide.2 (ofInt_eq_zero_iff hlo hhi)]

/-- N and Z of a quotient that fits a long word. -/
theorem logicFlags_quotient_long (f : Ccr) {signed : Bool} {q : Int} (h : quotientFits signed 32 q = true) :
    logicFlags f .l (BitVec.ofInt 32 q) = quotientFlags f (BitVec.ofInt 32 q) q := by
  obtain ⟨hlo, hhi⟩ := quotientFits_bounds (by decide) h
  rw [quotientFlags, logicFlags, isZero_eq_decide, decide_eq_decide.2 (ofInt_eq_zero_iff hlo hhi),
    BitVec.msb_eq_getLsbD_last]
  rfl

/-! ## Long divided by word (R255, R256) -/

/-- DIVU.W and DIVS.W with a divisor other than zero. -/
theorem divW_quiet (h : Quiet s) (signed : Bool) (d : Reg) (ea : Ea) {v : Long} (hv : eaVal s .w 0 ea = v)
    (h0 : v ≠ 0#32) {q r : Int}
    (hdiv : divide (asInt signed (s.d d)) (asInt signed (if signed then sext .w v else v)) = (q, r)) :
    CompletesAs (divW signed d ea s)
      (if quotientFits signed 16 q then
        finish ((eaStep s .w ea).setD d (BitVec.ofInt 16 r ++ BitVec.ofInt 16 q)) (1 + eaLen .w ea)
          (quotientFlags s.ccr (BitVec.ofInt 16 q) q)
      else (finish (eaStep s .w ea) (1 + eaLen .w ea) (overflowFlags s)).tickBy 2) := by
  obtain ⟨dn, hread⟩ := readEa_quiet h .w 0 ea
  refine ⟨dn, ?_⟩
  have hz : isZero v = false := beq_eq_false_iff_ne.2 h0
  simp only [divW, withOperand, hread, hv, hz, d_withDone, eaStep_d, hdiv, Bool.false_eq_true, if_false]
  split
  · rename_i hfits
    rw [logicFlags_quotient_word _ hfits]
    rfl
  · rw [← advance_divOverflow (eaStep_sr s .w ea) (eaStep_freeIdx s .w ea)]
    rfl

theorem divW_zero (h : Quiet s) (d : Reg) (ea : Ea) (hv : eaVal s .w 0 ea = 0#32) :
    ∃ dn, ∀ signed, divW signed d ea s = zeroDivide ((eaStep s .w ea).withDone dn) (1 + eaLen .w ea) := by
  obtain ⟨dn, hread⟩ := readEa_quiet h .w 0 ea
  exact ⟨dn, fun signed => by simp only [divW, withOperand, hread, hv]; rfl⟩

/-! ## Divisions by a long word (R257, R258) -/

theorem longDividend_unsigned (quad : Bool) (hi lo : Long) :
    longDividend false quad hi lo = ((if quad then hi.toNat * 2 ^ 32 + lo.toNat else lo.toNat : Nat) : Int) := by
  cases quad with
  | false => rfl
  | true =>
    rw [longDividend, if_pos rfl, if_neg Bool.false_ne_true, if_pos rfl, BitVec.toNat_append,
      ← Nat.shiftLeft_add_eq_or_of_lt lo.isLt, Nat.shiftLeft_eq]

theorem longDividend_signed (quad : Bool) (hi lo : Long) :
    longDividend true quad hi lo = if quad then hi.toInt * 2 ^ 32 + lo.toNat else lo.toInt := by
  cases quad with
  | false => rfl
  | true =>
    have hlo := lo.isLt
    have hhi := hi.isLt
    rw [longDividend, if_pos rfl, if_pos rfl, if_pos rfl, BitVec.toInt_eq_toNat_cond, BitVec.toInt_eq_toNat_cond,
      BitVec.toNat_append, ← Nat.shiftLeft_add_eq_or_of_lt lo.isLt, Nat.shiftLeft_eq]
    split <;> split <;> omega

theorem putQuotient_eq (hfree : u.freeIdx = s.freeIdx) (quad : Bool) (q r : Reg) (a b : Long) :
    putQuotient quad q r a b u = if quad = true ∧ r = q then (u.setD q (Config.freeLong s.freeIdx)).tick
      else if r = q then u.setD q a else (u.setD r b).setD q a := by
  rw [putQuotient, State.freeLong, hfree]
  simp only [Bool.and_eq_true, beq_iff_eq]

theorem putQuotient_withDone (quad : Bool) (q r : Reg) (a b : Long) (dn : List BusRec) :
    putQuotient quad q r a b (u.withDone dn) = (putQuotient quad q r a b u).withDone dn := by
  rw [putQuotient, putQuotient]
  split
  · rfl
  · split <;> rfl

/-- DIVU.L, DIVUL.L, DIVS.L and DIVSL.L with a divisor other than zero. -/
theorem divL_quiet (h : Quiet s) (signed quad : Bool) (q r : Reg) (ea : Ea) {v : Long} (hv : eaVal s .l 1 ea = v)
    (h0 : v ≠ 0#32) {a b : Int}
    (hdiv : divide (longDividend signed quad (s.d r) (s.d q)) (asInt signed v) = (a, b)) :
    CompletesAs (divL signed quad q r ea s)
      (if quotientFits signed 32 a then
        finish
          (if quad = true ∧ r = q then ((eaStep s .l ea).setD q (Config.freeLong s.freeIdx)).tick
            else if r = q then (eaStep s .l ea).setD q (BitVec.ofInt 32 a)
            else ((eaStep s .l ea).setD r (BitVec.ofInt 32 b)).setD q (BitVec.ofInt 32 a))
          (2 + eaLen .l ea)
          (quotientFlags s.ccr (BitVec.ofInt 32 a) a)
      else (finish (eaStep s .l ea) (2 + eaLen .l ea) (overflowFlags s)).tickBy 2) := by
  obtain ⟨dn, hread⟩ := readEa_quiet h .l 1 ea
  refine ⟨dn, ?_⟩
  have hz : isZero v = false := beq_eq_false_iff_ne.2 h0
  have hput := putQuotient_eq (eaStep_freeIdx s .l ea) quad q r (BitVec.ofInt 32 a) (BitVec.ofInt 32 b)
  simp only [divL, withOperand, hread, hv, hz, d_withDone, eaStep_d, hdiv, Bool.false_eq_true, if_false]
  split
  · rename_i hfits
    rw [logicFlags_quotient_long _ hfits, putQuotient_withDone, hput]
    rfl
  · rw [← advance_divOverflow (eaStep_sr s .l ea) (eaStep_freeIdx s .l ea)]
    rfl

theorem divL_zero (h : Quiet s) (q r : Reg) (ea : Ea) (hv : eaVal s .l 1 ea = 0#32) :
    ∃ dn, ∀ signed quad, divL signed quad q r ea s = zeroDivide ((eaStep s .l ea).withDone dn) (2 + eaLen .l ea) := by
  obtain ⟨dn, hread⟩ := readEa_quiet h .l 1 ea
  exact ⟨dn, fun signed quad => by simp only [divL, withOperand, hread, hv]; rfl⟩

/-- Settles O38: word and long divisions with the quotient as an integer, then the zero divisor. -/
theorem divide : Obligations.Divide := by
  unfold Obligations.Divide
  refine ⟨?_, ?_, ?_⟩
  · intro s d ea h hwf h0 v u done ovf qu a b
    constructor
    · have hdiv := divW_quiet h false d ea rfl h0 (divide_natCast _ _)
      simp only [quotientFits_natCast, decide_eq_true_eq] at hdiv
      exact hdiv
    · have hdiv := divW_quiet h true d ea rfl h0
        (congrArg (Machine.divide (s.d d).toInt) (BitVec.toInt_signExtend_of_le (by decide)))
      simp only [quotientFits_signed, decide_eq_true_eq] at hdiv
      exact hdiv
  · intro s quad q r ea h h0 v u done ovf nu ns
    constructor
    · have hdiv := divL_quiet h false quad q r ea rfl h0
        ((congrArg (Machine.divide · _) (longDividend_unsigned quad _ _)).trans (divide_natCast _ _))
      simp only [quotientFits_natCast, decide_eq_true_eq] at hdiv
      exact hdiv
    · have hdiv := divL_quiet h true quad q r ea rfl h0
        (congrArg (Machine.divide · _) (longDividend_signed quad _ _))
      simp only [quotientFits_signed, decide_eq_true_eq] at hdiv
      exact hdiv
  · intro s quad d r ea h trap
    constructor
    · intro hv
      obtain ⟨dn, hdiv⟩ := divW_zero h d ea hv
      have htrap := zeroDivide_eq (s := s) (u := (eaStep s .w ea).withDone dn) (eaStep_sr s .w ea)
        (eaStep_freeIdx s .w ea) (1 + eaLen .w ea)
      exact ⟨dn, (hdiv false).trans htrap, (hdiv true).trans htrap⟩
    · intro hv
      obtain ⟨dn, hdiv⟩ := divL_zero h d r ea hv
      have htrap := zeroDivide_eq (s := s) (u := (eaStep s .l ea).withDone dn) (eaStep_sr s .l ea)
        (eaStep_freeIdx s .l ea) (2 + eaLen .l ea)
      exact ⟨dn, (hdiv false quad).trans htrap, (hdiv true quad).trans htrap⟩

end Sys2Proof.Proofs
end

section
/-! PROOFS. Register checks: CHK, CMP2, CHK2 (R248, R422, R423). -/

namespace Sys2Proof.Proofs

open Sys2Proof Sys2Proof.Machine Sys2Proof.Laws

variable {s : State} {sz : Size}

/-! ## The bounds test (R248) -/

/-- The test compares the distances from the lower bound, each a subtraction at the size. -/
theorem outOfBounds_eq (sz : Size) (v lo hi : Long) :
    Machine.outOfBounds sz v lo hi = decide ((subRes sz hi lo false).toNat < (subRes sz v lo false).toNat) := by
  have hsub : ∀ a b : Long, a - b - bitLong false = a - b := fun a b => BitVec.sub_zero (a - b)
  rw [Machine.outOfBounds, subRes, subRes, hsub, hsub]

section

variable {v lo hi : Long} (hv : sz.fits v = true) (hlo : sz.fits lo = true) (hhi : sz.fits hi = true)

include hv hlo hhi

theorem outOfBounds_unsigned (hle : lo.toNat ≤ hi.toNat) :
    Machine.outOfBounds sz v lo hi = true ↔ v.toNat < lo.toNat ∨ hi.toNat < v.toNat := by
  have hwidth := subRes_cases hhi hlo false
  have hdistance := subRes_cases hv hlo false
  have hhi := fits_iff.1 hhi
  rw [outOfBounds_eq, decide_eq_true_iff]
  rw [Bool.toNat_false] at hwidth hdistance
  omega

theorem outOfBounds_signed (hle : (sext sz lo).toInt ≤ (sext sz hi).toInt) :
    Machine.outOfBounds sz v lo hi = true ↔
      (sext sz v).toInt < (sext sz lo).toInt ∨ (sext sz hi).toInt < (sext sz v).toInt := by
  have hwidth := subRes_cases hhi hlo false
  have hdistance := subRes_cases hv hlo false
  have hvi := toInt_sext_cases hv
  have hloi := toInt_sext_cases hlo
  have hhii := toInt_sext_cases hhi
  have hv := fits_iff.1 hv
  have hlo := fits_iff.1 hlo
  have hhi := fits_iff.1 hhi
  rw [outOfBounds_eq, decide_eq_true_iff]
  rw [Bool.toNat_false] at hwidth hdistance
  rw [two_pow_bits] at hwidth hdistance hvi hloi hhii hv hlo hhi
  omega

end

/-! ## CHK (R422) -/

/-- The flags of CHK: Z, V and C are free values. -/
def chkFlags (s : State) (n : Bool) : Ccr :=
  { x := s.ccr.x, n := n, z := Config.freeBit (s.freeIdx + 1), v := Config.freeBit (s.freeIdx + 2),
    c := Config.freeBit (s.freeIdx + 3) }

/-- CHK in terms of its operand: a trap, or the next instruction. -/
theorem chk_quiet (h : Quiet s) (sz : Size) (d : Reg) (ea : Ea) {v b : Int} (hv : (sext sz (s.d d)).toInt = v)
    (hb : (sext sz (eaVal s sz 0 ea)).toInt = b) :
    ∃ dn, chk sz d ea s =
      if v < 0 ∨ b < v then .next (trapSixState
        ((((eaStep s sz ea).withDone dn).setCcr (chkFlags s (decide (v < 0)))).tickBy 4) 6#8 (1 + eaLen sz ea))
      else .next (((finish (eaStep s sz ea) (1 + eaLen sz ea)
        (chkFlags s (Config.freeBit s.freeIdx))).tickBy 4).withDone dn) := by
  obtain ⟨dn, hread⟩ := readEa_quiet h sz 0 ea
  refine ⟨dn, ?_⟩
  have hfree : ((eaStep s sz ea).withDone dn).freeIdx = s.freeIdx := eaStep_freeIdx s sz ea
  simp only [chk, withOperand, hread, d_withDone, eaStep_d, hv, hb, hfree, Bool.or_eq_true, decide_eq_true_eq]
  split
  · rfl
  · rfl

/-! ## CMP2 and CHK2 (R248, R423) -/

/-- What memory holds at an operand of a size fits the size. -/
theorem fits_load (s : State) (fc : Fc) (a : Long) (sz : Size) : sz.fits (load s fc a (bytesOf sz)) = true := by
  cases sz with
  | b => exact load_byte s fc a ▸ fits_setWidth _ (le_refl 8)
  | w => exact load_word s fc a ▸ fits_setWidth _ (le_refl 16)
  | l => exact fits_iff.2 (BitVec.isLt _)

/-- A control mode steps no register. -/
theorem eaStep_control {ea : Ea} (h : ea.wf .control sz = true) : eaStep s sz ea = s := by
  cases ea with
  | postInc n | preDec n => exact absurd h Bool.false_ne_true
  | _ => rfl

theorem readBounds_quiet (h : Quiet s) {ea : Ea} (hea : ea.wf .control sz = true) {loc : Loc}
    (hloc : loc = eaLoc s sz 1 ea) :
    ∃ dn, readBounds s sz ea = .ok ((load s (spaceFc s loc.prog) loc.addr (bytesOf sz),
      load s (spaceFc s loc.prog) (loc.addr + BitVec.ofNat 32 (bytesOf sz)) (bytesOf sz)), s.withDone dn) := by
  obtain ⟨d1, heval⟩ := evalEa_quiet h sz (extAt s 1) ea
  rw [eaStep_control hea, ← eaLoc, ← hloc] at heval
  obtain ⟨d2, hlo⟩ := readLoc_quiet (quiet_withDone h d1) sz (.mem loc.prog loc.addr)
  obtain ⟨d3, hhi⟩ := readLoc_quiet (quiet_withDone h d2) sz (.mem loc.prog (loc.addr + BitVec.ofNat 32 (bytesOf sz)))
  rw [valueAt_withDone, withDone_withDone] at hlo hhi
  exact ⟨d3, by simp only [readBounds, heval, hlo, hhi, ok_bind]; rfl⟩

/-- Bounds read from memory need no truncation at the comparison's size. -/
theorem trunc_boundValue (rn : Rn) {b : Long} (hb : sz.fits b = true) :
    trunc (boundsSize sz rn) (boundValue sz rn b) = boundValue sz rn b := by
  rw [boundsSize, boundValue]
  split
  · rfl
  · exact trunc_of_fits hb

/-- CMP2 in terms of the bounds it reads. -/
theorem cmp2_of_bounds {rn : Rn} {ea : Ea} {lo hi : Long} {dn : List BusRec} {f : Ccr}
    (hread : readBounds s sz ea = .ok ((lo, hi), s.withDone dn)) (hf : boundsFlags (s.withDone dn) sz rn lo hi = f) :
    exec (.cmp2 sz rn ea) s = .next (((finish s (2 + eaLen sz ea) f).tickBy 2).withDone dn) := by
  simp only [exec_cmp2, execCmp2, hread, ok_bind, hf]
  rfl

/-- CHK2 in terms of the bounds it reads: a trap with C set, else as CMP2. -/
theorem chk2_of_bounds {rn : Rn} {ea : Ea} {lo hi : Long} {dn : List BusRec} {f : Ccr}
    (hread : readBounds s sz ea = .ok ((lo, hi), s.withDone dn)) (hf : boundsFlags (s.withDone dn) sz rn lo hi = f) :
    exec (.chk2 sz rn ea) s =
      if f.c then .next (trapSixState (((s.withDone dn).setCcr f).tickBy 2) 6#8 (2 + eaLen sz ea))
      else .next (((finish s (2 + eaLen sz ea) f).tickBy 2).withDone dn) := by
  simp only [exec_chk2, execChk2, hread, hf]
  rfl

/-- Settles O50: the bounds test for either order, CHK by its two outcomes, CMP2 and CHK2 by the bounds they read. -/
theorem registerChecks : Obligations.RegisterChecks := by
  unfold Obligations.RegisterChecks
  refine ⟨fun sz v lo hi hv hlo hhi => ⟨outOfBounds_unsigned hv hlo hhi, outOfBounds_signed hv hlo hhi⟩, ?_, ?_⟩
  · intro s sz d ea h hsz i v b i0 flags
    have hi : exec i s = chk sz d ea s := by
      rcases hsz with rfl | rfl
      · exact exec_chkW s d ea
      · exact exec_chkL s d ea
    obtain ⟨dn, hchk⟩ := chk_quiet h sz d ea (v := v) (b := b) rfl rfl
    rw [hi, hchk]
    constructor
    · intro hin
      exact ⟨dn, if_neg (by omega)⟩
    · intro hout
      exact ⟨dn, if_pos (by omega)⟩
  · intro s sz rn ea h hea loc lo hi an wide v lo' hi' c f done
    obtain ⟨dn, hread⟩ := readBounds_quiet h hea (loc := loc) rfl
    have hflags : boundsFlags (s.withDone dn) sz rn lo hi = f := by
      rw [boundsFlags, trunc_boundValue rn (fits_load s _ _ sz), trunc_boundValue rn (fits_load s _ _ sz),
        beq_eq_decide, beq_eq_decide, ← Bool.decide_or]
      rfl
    have hchk2 := chk2_of_bounds hread hflags
    exact ⟨⟨dn, cmp2_of_bounds hread hflags⟩, fun hc => ⟨dn, hchk2.trans (if_neg (Bool.eq_false_iff.1 hc))⟩,
      fun hc => ⟨dn, hchk2.trans (if_pos hc)⟩⟩

end Sys2Proof.Proofs
end

section
/-! PROOFS. What instructions with operands leave unchanged (R231-R252, R281-R287, R395). -/

namespace Sys2Proof.Proofs

open Sys2Proof Sys2Proof.Machine Sys2Proof.Laws

variable {s t u v : State} {sz : Size} {ea : Ea}

/-! ## Everything beside data registers, memory, flags and PC -/

/-- `t` has the address registers, the processor state and the platform of `u`. -/
structure SameBeside (u t : State) : Prop where
  a : ∀ r, t.a r = u.a r
  system : t.system = u.system
  otherSps : t.otherSps = u.otherSps
  platform : t.platform = u.platform

namespace SameBeside

theorem refl (u : State) : SameBeside u u := ⟨fun _ => rfl, rfl, rfl, rfl⟩

theorem setD (h : SameBeside u v) (n : Reg) (x : Long) : SameBeside u (v.setD n x) :=
  ⟨h.a, h.system, h.otherSps, h.platform⟩

theorem store (h : SameBeside u v) (fc : Fc) (n : Nat) (a x : Long) : SameBeside u (store v fc n a x) := by
  rw [store_eq]
  exact ⟨h.a, h.system, h.otherSps, h.platform⟩

theorem finish (h : SameBeside u v) (n : Nat) (f : Ccr) : SameBeside u (finish v n f) :=
  ⟨h.a, h.system, h.otherSps, h.platform⟩

theorem withDone (h : SameBeside u v) (dn : List BusRec) : SameBeside u (v.withDone dn) :=
  ⟨h.a, h.system, h.otherSps, h.platform⟩

end SameBeside

/-! ## The register update of an effective address -/

theorem system_setA (s : State) (n : Reg) (x : Long) : (s.setA n x).system = s.system := by
  rw [setA_eq]
  rfl

theorem system_eaStep (s : State) (sz : Size) (ea : Ea) : (eaStep s sz ea).system = s.system := by
  cases ea with
  | postInc n | preDec n => exact system_setA s n _
  | _ => rfl

theorem otherSps_eaStep (s : State) (sz : Size) (ea : Ea) : (eaStep s sz ea).otherSps = s.otherSps := by
  cases ea with
  | postInc n | preDec n => exact otherSps_setA s n _
  | _ => rfl

/-- An effective address changes no address register but the one it steps. -/
theorem a_eaStep {r : Reg} (h : steppedReg ea ≠ some r) (s : State) (sz : Size) : (eaStep s sz ea).a r = s.a r := by
  cases ea with
  | postInc n | preDec n => exact (a_setA s n r _).trans (if_neg fun hr => h (congrArg some hr.symm))
  | _ => rfl

/-! ## Data registers as destinations -/

/-- What is unchanged at the end of an instruction that has stepped the register of `ea` and may have written `d`. -/
def RegisterFrame (s : State) (sz : Size) (d : Reg) (ea : Ea) (t : State) : Prop :=
  SameMem s t ∧ (∀ r, r ≠ d → t.d r = s.d r) ∧ (∀ r, steppedReg ea ≠ some r → t.a r = s.a r) ∧
    (∀ r, steppedReg ea = some r → t.a r = (eaStep s sz ea).a r) ∧
    t.system = s.system ∧ t.otherSps = s.otherSps ∧ t.platform = s.platform

theorem registerFrame_of {d : Reg} (hmem : t.mem = s.mem) (hd : ∀ r, r ≠ d → t.d r = s.d r)
    (h : SameBeside (eaStep s sz ea) t) : RegisterFrame s sz d ea t :=
  have hplatform := h.platform.trans (eaStep_platform s sz ea)
  ⟨byteAt_congr hmem hplatform, hd, fun r hr => (h.a r).trans (a_eaStep hr s sz), fun r _ => h.a r,
    h.system.trans (system_eaStep s sz ea), h.otherSps.trans (otherSps_eaStep s sz ea), hplatform⟩

section

variable {i : Instr} {d : Reg} {n : Nat} {f : Ccr}

/-- An instruction that completes with the register update and flags. -/
theorem registerFrame_step (h : CompletesAs (exec i s) (finish (eaStep s sz ea) n f)) (ht : exec i s = .next t) :
    RegisterFrame s sz d ea t := by
  obtain ⟨dn, hdone⟩ := h
  obtain rfl := Host.Outcome.next.inj (ht.symm.trans hdone)
  exact registerFrame_of (eaStep_mem s sz ea) (fun r _ => eaStep_d s sz ea r)
    (((SameBeside.refl _).finish n f).withDone dn)

/-- An instruction that also writes a data register. -/
theorem registerFrame_setD {x : Long} (h : CompletesAs (exec i s) (finish ((eaStep s sz ea).setD d x) n f))
    (ht : exec i s = .next t) : RegisterFrame s sz d ea t := by
  obtain ⟨dn, hdone⟩ := h
  obtain rfl := Host.Outcome.next.inj (ht.symm.trans hdone)
  refine registerFrame_of (eaStep_mem s sz ea) (fun r hr => ?_)
    ((((SameBeside.refl _).setD d x).finish n f).withDone dn)
  exact (d_setD _ d r x).trans ((if_neg hr).trans (eaStep_d s sz ea r))

theorem registerFrame_intoDn {g : Long → Long → Long × Ccr} (h : CompletesAs (exec i s) (intoDn s sz d ea g))
    (ht : exec i s = .next t) : RegisterFrame s sz d ea t := by
  rw [intoDn, State.setDSized] at h
  exact registerFrame_setD h ht

theorem registerFrame_tested {own : Nat} {g : Long → Ccr} (h : CompletesAs (exec i s) (tested s sz own ea g))
    (ht : exec i s = .next t) : RegisterFrame s sz d ea t := by
  rw [tested] at h
  exact registerFrame_step h ht

end

/-- Settles O59: each instruction ends as O27, O30 and O37 say. -/
theorem frameRegisterForms : Obligations.FrameRegisterForms := by
  unfold Obligations.FrameRegisterForms
  intro s t sz d ea h
  obtain ⟨hadd, hsub, hand, hor⟩ := aluForms.1 s sz d ea h
  obtain ⟨⟨_, _, hmulu⟩, ⟨_, _, hmuls⟩, _⟩ := multiply s false d d ea h
  obtain ⟨hcmp, _, _, _, htst, hccr⟩ := compares s sz d d d false 0#32 ea h
  simp only [List.forall_mem_cons]
  exact ⟨registerFrame_intoDn hadd, registerFrame_intoDn hsub, registerFrame_intoDn hand, registerFrame_intoDn hor,
    registerFrame_setD hmulu, registerFrame_setD hmuls, registerFrame_tested hcmp, registerFrame_tested htst,
    registerFrame_tested hccr, fun _ hp => absurd hp List.not_mem_nil⟩

/-! ## Operands as destinations -/

/-- What is unchanged at the end of an instruction that has stepped the register of `ea` and written its operand. -/
def OperandFrame (s : State) (sz : Size) (own : Nat) (ea : Ea) (t : State) : Prop :=
  (∀ a, eaLoc s sz own ea = .mem false a → SameMemBut s t (dataFc s) a (bytesOf sz)) ∧
    (∀ n, ea = .dn n → SameMem s t) ∧ (∀ r, ea ≠ .dn r → t.d r = s.d r) ∧
    (∀ r, steppedReg ea ≠ some r → t.a r = s.a r) ∧ t.system = s.system ∧ t.otherSps = s.otherSps ∧
    t.platform = s.platform

theorem operandFrame_of {own : Nat}
    (hmem : ∀ a, eaLoc s sz own ea = .mem false a → SameMemBut s t (dataFc s) a (bytesOf sz))
    (hreg : ∀ n, ea = .dn n → t.mem = s.mem) (hd : ∀ r, ea ≠ .dn r → t.d r = s.d r)
    (h : SameBeside (eaStep s sz ea) t) : OperandFrame s sz own ea t :=
  have hplatform := h.platform.trans (eaStep_platform s sz ea)
  ⟨hmem, fun n hn => byteAt_congr (hreg n hn) hplatform, hd, fun r hr => (h.a r).trans (a_eaStep hr s sz),
    h.system.trans (system_eaStep s sz ea), h.otherSps.trans (otherSps_eaStep s sz ea), hplatform⟩

theorem d_store (u : State) (fc : Fc) (n : Nat) (a x : Long) (r : Reg) : (store u fc n a x).d r = u.d r := by
  rw [State.d, store_regs, State.d]

/-- A data alterable operand is a data register or memory in data space. -/
theorem dataAlt_cases (h : ea.wf .dataAlt sz = true) (s : State) (own : Nat) :
    (∃ n, ea = .dn n) ∨ (∀ n, ea ≠ .dn n) ∧ ∃ a, eaLoc s sz own ea = .mem false a := by
  cases ea with
  | dn n => exact .inl ⟨n, rfl⟩
  | an n | pcDisp x | pcIdx x | imm x => exact absurd h Bool.false_ne_true
  | _ => exact .inr ⟨nofun, _, rfl⟩

theorem ne_an_of_dataAlt (h : ea.wf .dataAlt sz = true) (n : Reg) : ea ≠ .an n := by
  rintro rfl
  exact absurd h Bool.false_ne_true

/-- A store changes no byte outside its operand, whatever register was stepped before it. -/
theorem sameMemBut_store_eaStep (hwf : Memory.wf s.mem = true) (fc : Fc) (n : Nat) (a x : Long) :
    SameMemBut s (store (eaStep s sz ea) fc n a x) fc a n :=
  have hstored := (memoryOperands.2 (eaStep s sz ea) fc n a x (eaStep_mem s sz ea ▸ hwf)).1
  sameMemBut_of_eq (eaStep_mem s sz ea) (eaStep_platform s sz ea) hstored

section

variable (hwf : Memory.wf s.mem = true) (hea : ea.wf .dataAlt sz = true) {i : Instr} {own : Nat}

include hwf hea

/-- Writing a data alterable operand after the register update. -/
theorem operandFrame_putAt {n : Nat} {x : Long} {f : Ccr}
    (h : CompletesAs (exec i s) (finish (putAt (eaStep s sz ea) sz x (eaLoc s sz own ea)) n f))
    (ht : exec i s = .next t) : OperandFrame s sz own ea t := by
  obtain ⟨dn, hdone⟩ := h
  obtain rfl := Host.Outcome.next.inj (ht.symm.trans hdone)
  rcases dataAlt_cases hea s own with ⟨r, rfl⟩ | ⟨hdn, a, ha⟩
  · refine operandFrame_of nofun (fun _ _ => rfl) (fun m hm => ?_)
      ((((SameBeside.refl s).setD r (insertLow sz (s.d r) x)).finish n f).withDone dn)
    exact (d_setD s r m _).trans (if_neg fun hmr => hm (congrArg Ea.dn hmr.symm))
  · rw [ha, putAt, dataFc_eaStep]
    refine operandFrame_of (fun b hb => ?_) (fun m hm => absurd hm (hdn m)) (fun m _ => ?_)
      ((((SameBeside.refl _).store (dataFc s) (bytesOf sz) a x).finish n f).withDone dn)
    · obtain rfl : a = b := (Loc.mem.inj (ha.symm.trans hb)).2
      exact sameMemBut_store_eaStep hwf (dataFc s) (bytesOf sz) a x
    · exact (d_store _ (dataFc s) (bytesOf sz) a x m).trans (eaStep_d s sz ea m)

theorem operandFrame_modified {g : Long → Long × Ccr} (h : CompletesAs (exec i s) (modified s sz own ea g))
    (ht : exec i s = .next t) : OperandFrame s sz own ea t := by
  rw [modified] at h
  exact operandFrame_putAt hwf hea h ht

end

/-- Settles O60: each instruction ends as O27, O28 and O29 say. -/
theorem frameOperandForms : Obligations.FrameOperandForms := by
  unfold Obligations.FrameOperandForms
  intro s t sz imm d q ea h hwf hea own
  obtain ⟨haddi, hsubi, handi, hori, heori, hquick, _⟩ := immediateToEa s sz imm q ea h
  obtain ⟨haddq, hsubq⟩ := hquick (ne_an_of_dataAlt hea)
  obtain ⟨hneg, hnegx, hnot, _, hclr, _⟩ := unaryOnEa s sz 0#4 ea h
  obtain ⟨hadd, hsub, hand, hor, heor⟩ := aluForms.2 s sz d ea h
  have hframe {k : Nat} {i : Instr} {g : Long → Long × Ccr} (hi : CompletesAs (exec i s) (modified s sz k ea g)) :=
    operandFrame_modified (t := t) hwf hea hi
  simp only [List.forall_mem_cons]
  exact ⟨hframe haddi, hframe hsubi, hframe handi, hframe hori, hframe heori, hframe haddq, hframe hsubq, hframe hneg,
    hframe hnegx, hframe hnot, operandFrame_putAt hwf hea hclr, hframe heor, hframe hadd, hframe hsub, hframe hand,
    hframe hor, fun _ hp => absurd hp List.not_mem_nil⟩

end Sys2Proof.Proofs
end

section
/-! PROOFS. The shifts and rotates in closed form, and their register and memory forms (R288-R298). -/

namespace Sys2Proof.Proofs

open Sys2Proof Sys2Proof.Machine Sys2Proof.Laws

variable {s : State} {sz : Size} {k : ShiftKind} {v : Long}

/-! ## One place to the left or right, bit by bit -/

theorem bits_pos (sz : Size) : 0 < sz.bits := by cases sz <;> decide

theorem getLsbD_trunc (sz : Size) (v : Long) (i : Nat) :
    (trunc sz v).getLsbD i = (decide (i < sz.bits) && v.getLsbD i) := by
  rw [BitVec.getLsbD, toNat_trunc, Nat.testBit_mod_two_pow, BitVec.getLsbD]

theorem getLsbD_bitLong (b : Bool) (i : Nat) : (bitLong b).getLsbD i = (decide (i = 0) && b) := by
  rw [BitVec.getLsbD, toNat_bitLong, Nat.testBit_bool_toNat]

/-- A value of a size has no bits above it. -/
theorem fits_iff_getLsbD : sz.fits v = true ↔ ∀ i, sz.bits ≤ i → v.getLsbD i = false := by
  rw [fits_iff]
  refine ⟨fun h i hi => ?_, fun h => Nat.lt_pow_two_of_testBit v.toNat h⟩
  exact Nat.testBit_lt_two_pow (h.trans_le (Nat.pow_le_pow_right two_pos hi))

theorem getLsbD_leftOne (sz : Size) (v : Long) (low : Bool) (i : Nat) :
    (leftOne sz v low).getLsbD i = (decide (i < sz.bits) && if i = 0 then low else v.getLsbD (i - 1)) := by
  have hbits : sz.bits ≤ 32 := by cases sz <;> decide
  have hpos := bits_pos sz
  rw [leftOne, BitVec.getLsbD_or, getLsbD_trunc, getLsbD_bitLong, BitVec.getLsbD_shiftLeft]
  cases i with
  | zero => simp [hpos]
  | succ j =>
    by_cases hj : j + 1 < sz.bits
    · have h32 : j + 1 < 32 := by omega
      simp [hj, h32]
    · simp [hj]

theorem getLsbD_rightOne (hv : sz.fits v = true) (high : Bool) (i : Nat) :
    (rightOne sz v high).getLsbD i = (decide (i < sz.bits) && if i + 1 = sz.bits then high else v.getLsbD (i + 1)) := by
  have hbits : sz.bits ≤ 32 := by cases sz <;> decide
  have hpos := bits_pos sz
  have habove := fits_iff_getLsbD.1 hv (i + 1)
  rw [rightOne, BitVec.getLsbD_or, BitVec.getLsbD_shiftLeft, BitVec.getLsbD_ushiftRight, getLsbD_bitLong,
    Nat.add_comm 1 i]
  rcases lt_trichotomy (i + 1) sz.bits with hi | hi | hi
  · have hlow : i < sz.bits - 1 := by omega
    have hne : i + 1 ≠ sz.bits := by omega
    have hin : i < sz.bits := by omega
    simp [hlow, hne, hin]
  · have htop : i = sz.bits - 1 := by omega
    have hlt : i < 32 := by omega
    have hin : i < sz.bits := by omega
    rw [habove hi.ge]
    simp [← htop, hi, hlt, hin]
  · have hout : ¬ i < sz.bits := by omega
    have hne : i - (sz.bits - 1) ≠ 0 := by omega
    simp [habove hi.le, hout, hne]

theorem fits_leftOne (sz : Size) (v : Long) (low : Bool) : sz.fits (leftOne sz v low) = true :=
  fits_iff_getLsbD.2 fun i hi => by rw [getLsbD_leftOne, decide_eq_false hi.not_gt, Bool.false_and]

theorem fits_rightOne (hv : sz.fits v = true) (high : Bool) : sz.fits (rightOne sz v high) = true :=
  fits_iff_getLsbD.2 fun i hi => by rw [getLsbD_rightOne hv, decide_eq_false hi.not_gt, Bool.false_and]

theorem getLsbD_zero_leftOne (sz : Size) (v : Long) (low : Bool) : (leftOne sz v low).getLsbD 0 = low := by
  rw [getLsbD_leftOne, decide_eq_true (bits_pos sz), Bool.true_and, if_pos rfl]

theorem getLsbD_top_rightOne (hv : sz.fits v = true) (high : Bool) :
    (rightOne sz v high).getLsbD (sz.bits - 1) = high := by
  have hpos := bits_pos sz
  have htop : sz.bits - 1 + 1 = sz.bits := by omega
  have hin : sz.bits - 1 < sz.bits := by omega
  rw [getLsbD_rightOne hv, decide_eq_true hin, Bool.true_and, if_pos htop]

/-! ## Many steps -/

theorem shiftSteps_succ (k : ShiftKind) (sz : Size) (cnt : Nat) (t : ShiftState) :
    shiftSteps k sz (cnt + 1) t = shiftStep k sz (shiftSteps k sz cnt t) := by
  induction cnt generalizing t with
  | zero => rfl
  | succ cnt ih => exact ih (shiftStep k sz t)

theorem fits_shiftStep (k : ShiftKind) {t : ShiftState} (h : sz.fits t.val = true) :
    sz.fits (shiftStep k sz t).val = true := by
  cases k with
  | asl | lsl | rol | roxl => exact fits_leftOne sz t.val _
  | asr | lsr | ror | roxr => exact fits_rightOne h _

theorem fits_shiftSteps (k : ShiftKind) (cnt : Nat) {t : ShiftState} (h : sz.fits t.val = true) :
    sz.fits (shiftSteps k sz cnt t).val = true := by
  induction cnt with
  | zero => exact h
  | succ cnt ih => exact shiftSteps_succ k sz cnt t ▸ fits_shiftStep k ih

/-- Only ASL looks for a change of sign. -/
theorem shiftSteps_ov (hk : k ≠ .asl) (sz : Size) (cnt : Nat) (f : Ccr) (v : Long) :
    (shiftSteps k sz cnt (shiftStart k f v)).ov = false := by
  cases cnt with
  | zero => rfl
  | succ cnt =>
    rw [shiftSteps_succ]
    cases k with
    | asl => exact absurd rfl hk
    | _ => rfl

/-- An operation that copies the bit it moves out to X and C leaves X alone only when the count is 0. -/
theorem shiftSteps_x (hk : ∀ t, (shiftStep k sz t).x = (shiftStep k sz t).c) (cnt : Nat) (f : Ccr) (v : Long) :
    (shiftSteps k sz cnt (shiftStart k f v)).x =
      if cnt = 0 then f.x else (shiftSteps k sz cnt (shiftStart k f v)).c := by
  cases cnt with
  | zero => rfl
  | succ cnt =>
    rw [shiftSteps_succ]
    exact hk _

theorem shiftBy_fst (k : ShiftKind) (sz : Size) (cnt : Nat) (v : Long) (f : Ccr) :
    (shiftBy k sz cnt v f).1 = (shiftSteps k sz cnt (shiftStart k f v)).val := rfl

theorem fits_shiftBy (k : ShiftKind) (hv : sz.fits v = true) (cnt : Nat) (f : Ccr) :
    sz.fits (shiftBy k sz cnt v f).1 = true :=
  fits_shiftSteps k cnt (t := shiftStart k f v) hv

theorem shiftBy_snd (k : ShiftKind) (sz : Size) (cnt : Nat) (v : Long) (f : Ccr) :
    (shiftBy k sz cnt v f).2 =
      { x := (shiftSteps k sz cnt (shiftStart k f v)).x, n := (shiftBy k sz cnt v f).1.getLsbD (sz.bits - 1),
        z := decide ((shiftBy k sz cnt v f).1 = 0#32), v := (shiftSteps k sz cnt (shiftStart k f v)).ov,
        c := (shiftSteps k sz cnt (shiftStart k f v)).c } := by
  rw [getLsbD_eq_msb, ← isZero_eq_decide]
  rfl

/-- The flags of an operation that copies the bit it moves out to X and C and never sets V. -/
theorem shiftBy_flags (hk : ∀ t, (shiftStep k sz t).x = (shiftStep k sz t).c) (hasl : k ≠ .asl) {cnt : Nat} {f : Ccr}
    {out : Bool} (hc : (shiftSteps k sz cnt (shiftStart k f v)).c = out) :
    (shiftBy k sz cnt v f).2 =
      { x := if cnt = 0 then f.x else out, n := (shiftBy k sz cnt v f).1.getLsbD (sz.bits - 1),
        z := decide ((shiftBy k sz cnt v f).1 = 0#32), v := false, c := out } := by
  rw [shiftBy_snd, shiftSteps_x hk, shiftSteps_ov hasl, hc]

/-! ## Left shifts (R289, R291) -/

theorem getLsbD_lsl (hv : sz.fits v = true) (cnt : Nat) (f : Ccr) (i : Nat) :
    (shiftBy .lsl sz cnt v f).1.getLsbD i = (decide (i < sz.bits) && (decide (cnt ≤ i) && v.getLsbD (i - cnt))) := by
  rw [shiftBy_fst]
  induction cnt generalizing i with
  | zero =>
    have habove := fits_iff_getLsbD.1 hv i
    by_cases hi : i < sz.bits
    · simp [shiftSteps, shiftStart, hi]
    · simp [shiftSteps, shiftStart, hi, habove (not_lt.1 hi)]
  | succ cnt ih =>
    rw [shiftSteps_succ]
    refine (getLsbD_leftOne sz _ false i).trans ?_
    cases i with
    | zero => simp
    | succ j =>
      rw [if_neg j.succ_ne_zero, Nat.add_sub_cancel, ih, Nat.add_sub_add_right]
      by_cases hj : j + 1 < sz.bits
      · have hj' : j < sz.bits := by omega
        simp [hj, hj']
      · simp [hj]

theorem toNat_lsl (hv : sz.fits v = true) (cnt : Nat) (f : Ccr) :
    (shiftBy .lsl sz cnt v f).1.toNat = v.toNat * 2 ^ cnt % 2 ^ sz.bits := by
  refine Nat.eq_of_testBit_eq fun i => ?_
  rw [Nat.testBit_mod_two_pow, Nat.testBit_mul_two_pow]
  exact getLsbD_lsl hv cnt f i

/-- C is the last bit moved out at the top, 0 once the count passes the size. -/
theorem lsl_carry (hv : sz.fits v = true) (cnt : Nat) (f : Ccr) :
    (shiftSteps .lsl sz cnt (shiftStart .lsl f v)).c =
      (decide (0 < cnt ∧ cnt ≤ sz.bits) && v.getLsbD (sz.bits - cnt)) := by
  cases cnt with
  | zero => rfl
  | succ cnt =>
    have hpos := bits_pos sz
    have hin : sz.bits - 1 < sz.bits := by omega
    have hlast : cnt ≤ sz.bits - 1 ↔ 0 < cnt + 1 ∧ cnt + 1 ≤ sz.bits := by omega
    have hbit : sz.bits - 1 - cnt = sz.bits - (cnt + 1) := by omega
    rw [shiftSteps_succ]
    refine (getLsbD_eq_msb sz _).symm.trans ((getLsbD_lsl hv cnt f _).trans ?_)
    rw [decide_eq_true hin, Bool.true_and, decide_eq_decide.2 hlast, hbit]

/-- ASL is LSL but for V. -/
theorem shiftSteps_asl (sz : Size) (cnt : Nat) (f : Ccr) (v : Long) :
    shiftSteps .asl sz cnt (shiftStart .asl f v) =
      { shiftSteps .lsl sz cnt (shiftStart .lsl f v) with
        ov := (shiftSteps .asl sz cnt (shiftStart .asl f v)).ov } := by
  induction cnt with
  | zero => rfl
  | succ cnt ih =>
    rw [shiftSteps_succ, shiftSteps_succ, ih]
    rfl

theorem shiftBy_asl (sz : Size) (cnt : Nat) (v : Long) (f : Ccr) :
    shiftBy .asl sz cnt v f =
      ((shiftBy .lsl sz cnt v f).1, { (shiftBy .lsl sz cnt v f).2 with v := (shiftBy .asl sz cnt v f).2.v }) := by
  simp only [shiftBy]
  rw [shiftSteps_asl]

theorem toNat_leftOne_false (sz : Size) (v : Long) : (leftOne sz v false).toNat = 2 * v.toNat % 2 ^ sz.bits := by
  refine Nat.eq_of_testBit_eq fun i => (getLsbD_leftOne sz v false i).trans ?_
  rw [Nat.testBit_mod_two_pow]
  cases i with
  | zero => simp
  | succ j => simp [Nat.testBit_succ, BitVec.getLsbD]

/-- One place to the left doubles the signed value, unless the sign changes: then the double does not fit. -/
theorem leftOne_signed (hv : sz.fits v = true) :
    msb sz v = msb sz (leftOne sz v false) ∧ (sext sz (leftOne sz v false)).toInt = 2 * (sext sz v).toInt ∨
    msb sz v ≠ msb sz (leftOne sz v false) ∧
      ¬ (-(2 ^ (sz.bits - 1) : Nat) ≤ 2 * (sext sz v).toInt ∧ 2 * (sext sz v).toInt < (2 ^ (sz.bits - 1) : Nat)) := by
  have hw := fits_leftOne sz v false
  have hvi := toInt_sext_cases hv
  have hwi := toInt_sext_cases hw
  have hdouble := mod_add_cases (m := 2 ^ sz.bits) (t := 2 * v.toNat) (by have := fits_iff.1 hv; omega)
  rw [← toNat_leftOne_false] at hdouble
  have hrange := fits_iff.1 hw
  rw [msb_of_fits hv, msb_of_fits hw, ne_eq, decide_eq_decide]
  rw [two_pow_bits] at hvi hwi hdouble hrange
  omega

/-- The signed value of a size lies in its signed range. -/
theorem toInt_sext_range (hv : sz.fits v = true) :
    -(2 ^ (sz.bits - 1) : Nat) ≤ (sext sz v).toInt ∧ (sext sz v).toInt < (2 ^ (sz.bits - 1) : Nat) := by
  have hvi := toInt_sext_cases hv
  have hrange := fits_iff.1 hv
  rw [two_pow_bits] at hvi hrange
  omega

/-- V of ASL: as long as the sign has not changed the value is the exact product, and from then on the product does
not fit. -/
theorem asl_overflow_cases (hv : sz.fits v = true) (cnt : Nat) (f : Ccr) :
    let t := shiftSteps .asl sz cnt (shiftStart .asl f v)
    let p := (sext sz v).toInt * 2 ^ cnt
    t.ov = false ∧ (sext sz t.val).toInt = p ∨
    t.ov = true ∧ ¬ (-(2 ^ (sz.bits - 1) : Nat) ≤ p ∧ p < (2 ^ (sz.bits - 1) : Nat)) := by
  induction cnt with
  | zero => exact .inl ⟨rfl, (mul_one _).symm⟩
  | succ cnt ih =>
    have hfits := fits_shiftSteps (sz := sz) .asl cnt (t := shiftStart .asl f v) hv
    have hone := leftOne_signed hfits
    simp only [shiftSteps_succ, pow_succ, ← mul_assoc]
    generalize shiftSteps .asl sz cnt (shiftStart .asl f v) = t at ih hone
    have hov : (shiftStep .asl sz t).ov = (t.ov || (msb sz t.val != msb sz (leftOne sz t.val false))) := rfl
    have hval : (shiftStep .asl sz t).val = leftOne sz t.val false := rfl
    rw [hov, hval]
    rcases ih with ⟨hno, hexact⟩ | ⟨hyes, hout⟩
    · rw [hno, Bool.false_or, bne_iff_ne, bne_eq_false_iff_eq, ← hexact, mul_comm]
      exact hone
    · rw [hyes, Bool.true_or]
      exact .inr ⟨rfl, by omega⟩

theorem asl_overflow_iff (hv : sz.fits v = true) (cnt : Nat) (f : Ccr) :
    (shiftSteps .asl sz cnt (shiftStart .asl f v)).ov = true ↔
      ¬ (-(2 ^ (sz.bits - 1) : Int) ≤ (sext sz v).toInt * 2 ^ cnt ∧
        (sext sz v).toInt * 2 ^ cnt < 2 ^ (sz.bits - 1)) := by
  have hrange := toInt_sext_range (fits_shiftSteps (sz := sz) .asl cnt (t := shiftStart .asl f v) hv)
  have hcases := asl_overflow_cases hv cnt f
  rw [Nat.cast_pow, Nat.cast_ofNat] at hrange hcases
  rcases hcases with ⟨hov, hexact⟩ | ⟨hov, hout⟩
  · rw [hexact] at hrange
    exact iff_of_false (hov ▸ Bool.false_ne_true) (not_not_intro hrange)
  · exact iff_of_true hov hout

/-! ## Right shifts (R290, R292) -/

theorem getLsbD_lsr (hv : sz.fits v = true) (cnt : Nat) (f : Ccr) (i : Nat) :
    (shiftBy .lsr sz cnt v f).1.getLsbD i = v.getLsbD (i + cnt) := by
  rw [shiftBy_fst]
  induction cnt generalizing i with
  | zero => rfl
  | succ cnt ih =>
    rw [shiftSteps_succ]
    refine (getLsbD_rightOne (fits_shiftSteps .lsr cnt (t := shiftStart .lsr f v) hv) false i).trans ?_
    have habove := fits_iff_getLsbD.1 hv (i + (cnt + 1))
    rw [ih, Nat.add_right_comm, Nat.add_assoc]
    by_cases hi : i + 1 < sz.bits
    · have hin : i < sz.bits := by omega
      rw [decide_eq_true hin, Bool.true_and, if_neg hi.ne]
    · rw [habove (by omega), ite_self, Bool.and_false]

theorem toNat_lsr (hv : sz.fits v = true) (cnt : Nat) (f : Ccr) :
    (shiftBy .lsr sz cnt v f).1.toNat = v.toNat / 2 ^ cnt := by
  refine Nat.eq_of_testBit_eq fun i => ?_
  rw [Nat.testBit_div_two_pow]
  exact getLsbD_lsr hv cnt f i

/-- C is the last bit moved out at the bottom, 0 once the count passes the size. -/
theorem lsr_carry (hv : sz.fits v = true) (cnt : Nat) (f : Ccr) :
    (shiftSteps .lsr sz cnt (shiftStart .lsr f v)).c =
      (decide (0 < cnt ∧ cnt ≤ sz.bits) && v.getLsbD (cnt - 1)) := by
  cases cnt with
  | zero => rfl
  | succ cnt =>
    have habove := fits_iff_getLsbD.1 hv cnt
    rw [shiftSteps_succ]
    refine (getLsbD_lsr hv cnt f 0).trans ?_
    rw [Nat.zero_add, Nat.add_sub_cancel]
    by_cases hcnt : cnt < sz.bits
    · have hlast : 0 < cnt + 1 ∧ cnt + 1 ≤ sz.bits := by omega
      rw [decide_eq_true hlast, Bool.true_and]
    · rw [habove (not_lt.1 hcnt), Bool.and_false]

/-- ASR fills with the sign bit. -/
theorem getLsbD_asr (hv : sz.fits v = true) (cnt : Nat) (f : Ccr) {i : Nat} (hi : i < sz.bits) :
    (shiftBy .asr sz cnt v f).1.getLsbD i = v.getLsbD (min (i + cnt) (sz.bits - 1)) := by
  rw [shiftBy_fst]
  induction cnt generalizing i with
  | zero => exact congrArg v.getLsbD (by omega)
  | succ cnt ih =>
    rw [shiftSteps_succ]
    refine (getLsbD_rightOne (fits_shiftSteps .asr cnt (t := shiftStart .asr f v) hv) _ i).trans ?_
    rw [decide_eq_true hi, Bool.true_and]
    split
    · rw [← getLsbD_eq_msb, ih (by omega)]
      congr 1
      omega
    · rw [ih (by omega)]
      congr 1
      omega

/-- C is the last bit moved out at the bottom, the sign bit once the count reaches the size. -/
theorem asr_carry (hv : sz.fits v = true) (cnt : Nat) (f : Ccr) :
    (shiftSteps .asr sz cnt (shiftStart .asr f v)).c = (decide (0 < cnt) && v.getLsbD (min cnt sz.bits - 1)) := by
  cases cnt with
  | zero => rfl
  | succ cnt =>
    have hbit : min (0 + cnt) (sz.bits - 1) = min (cnt + 1) sz.bits - 1 := by omega
    rw [shiftSteps_succ]
    refine (getLsbD_asr hv cnt f (bits_pos sz)).trans ?_
    rw [decide_eq_true cnt.succ_pos, Bool.true_and, hbit]

theorem toNat_rightOne (hv : sz.fits v = true) (high : Bool) :
    (rightOne sz v high).toNat = v.toNat / 2 + high.toNat * 2 ^ (sz.bits - 1) := by
  have hrange := fits_iff.1 hv
  rw [two_pow_bits] at hrange
  have hlow : v.toNat / 2 < 2 ^ (sz.bits - 1) := by omega
  have hbits : high.toNat * 2 ^ (sz.bits - 1) < 2 ^ 32 := by
    cases high <;> cases sz <;> decide
  rw [rightOne, BitVec.toNat_or, BitVec.toNat_shiftLeft, BitVec.toNat_ushiftRight, toNat_bitLong, Nat.shiftLeft_eq,
    Nat.mod_eq_of_lt hbits, Nat.shiftRight_one, Nat.or_comm, Nat.mul_comm, ← Nat.two_pow_add_eq_or_of_lt hlow,
    Nat.add_comm]

/-- One place to the right, with the sign bit entering, halves the signed value and rounds down. -/
theorem rightOne_signed (hv : sz.fits v = true) :
    (sext sz (rightOne sz v (msb sz v))).toInt = (sext sz v).toInt / 2 := by
  have hvi := toInt_sext_cases hv
  have hwi := toInt_sext_cases (fits_rightOne hv (msb sz v))
  have hrange := fits_iff.1 hv
  rw [toNat_rightOne hv, msb_of_fits hv] at hwi
  rw [msb_of_fits hv]
  rw [two_pow_bits] at hvi hwi hrange
  by_cases hneg : 2 ^ (sz.bits - 1) ≤ v.toNat
  · rw [decide_eq_true hneg, Bool.toNat_true] at *
    omega
  · rw [decide_eq_false hneg, Bool.toNat_false] at *
    omega

theorem toInt_asr (hv : sz.fits v = true) (cnt : Nat) (f : Ccr) :
    (sext sz (shiftBy .asr sz cnt v f).1).toInt = (sext sz v).toInt / 2 ^ cnt := by
  rw [shiftBy_fst]
  induction cnt with
  | zero => exact (Int.ediv_one _).symm
  | succ cnt ih =>
    rw [shiftSteps_succ, pow_succ, ← Int.ediv_ediv_of_nonneg (by positivity), ← ih]
    exact rightOne_signed (fits_shiftSteps .asr cnt (t := shiftStart .asr f v) hv)

/-! ## Rotates (R293-R296) -/

/-- The ring `q` of `m` bits is the ring `p` turned by `cnt` places upward. -/
def Turned (m cnt : Nat) (p q : Nat → Bool) : Prop := ∀ i < m, q ((i + cnt) % m) = p i

theorem Turned.zero (m : Nat) (p : Nat → Bool) : Turned m 0 p p := fun i hi => by
  rw [Nat.add_zero, Nat.mod_eq_of_lt hi]

theorem Turned.trans {m a b : Nat} {p q r : Nat → Bool} (hpq : Turned m a p q) (hqr : Turned m b q r) :
    Turned m (a + b) p r := fun i hi => by
  rw [← hpq i hi, ← hqr _ (Nat.mod_lt _ (Nat.zero_lt_of_lt hi)), Nat.mod_add_mod, Nat.add_assoc]

/-- The bits of operand and X in one ring. -/
def extended (sz : Size) (w : Long) (x : Bool) (i : Nat) : Bool := if i = sz.bits then x else w.getLsbD i

theorem leftOne_turned (sz : Size) (v : Long) :
    Turned sz.bits 1 v.getLsbD (leftOne sz v (msb sz v)).getLsbD := fun i hi => by
  rcases Nat.lt_or_ge (i + 1) sz.bits with hlt | hge
  · rw [Nat.mod_eq_of_lt hlt, getLsbD_leftOne, decide_eq_true hlt, Bool.true_and, if_neg i.succ_ne_zero,
      Nat.add_sub_cancel]
  · obtain rfl : i = sz.bits - 1 := by omega
    rw [Nat.sub_add_cancel (bits_pos sz), Nat.mod_self, getLsbD_zero_leftOne, getLsbD_eq_msb]

theorem rightOne_turned (hv : sz.fits v = true) :
    Turned sz.bits 1 (rightOne sz v (v.getLsbD 0)).getLsbD v.getLsbD := fun i hi => by
  rw [getLsbD_rightOne hv, decide_eq_true hi, Bool.true_and]
  split
  case isTrue htop => rw [htop, Nat.mod_self]
  case isFalse hne => rw [Nat.mod_eq_of_lt (by omega)]

theorem leftOne_turned_extended (sz : Size) (v : Long) (x : Bool) :
    Turned (sz.bits + 1) 1 (extended sz v x) (extended sz (leftOne sz v x) (msb sz v)) := fun i hi => by
  have hpos := bits_pos sz
  rcases lt_trichotomy (i + 1) sz.bits with hlt | heq | hgt
  · have hne : i ≠ sz.bits := by omega
    rw [Nat.mod_eq_of_lt (by omega), extended, extended, if_neg hlt.ne, if_neg hne, getLsbD_leftOne,
      decide_eq_true hlt, Bool.true_and, if_neg i.succ_ne_zero, Nat.add_sub_cancel]
  · have hne : i ≠ sz.bits := by omega
    obtain rfl : i = sz.bits - 1 := by omega
    rw [Nat.mod_eq_of_lt (by omega), extended, extended, if_pos heq, if_neg hne, getLsbD_eq_msb]
  · obtain rfl : i = sz.bits := by omega
    rw [Nat.mod_self, extended, extended, if_neg hpos.ne, if_pos rfl, getLsbD_zero_leftOne]

theorem rightOne_turned_extended (hv : sz.fits v = true) (x : Bool) :
    Turned (sz.bits + 1) 1 (extended sz (rightOne sz v x) (v.getLsbD 0)) (extended sz v x) := fun i hi => by
  have hpos := bits_pos sz
  rcases Nat.lt_or_ge i sz.bits with hlt | hge
  · rw [Nat.mod_eq_of_lt (by omega), extended, extended, if_neg hlt.ne, getLsbD_rightOne hv, decide_eq_true hlt,
      Bool.true_and]
  · obtain rfl : i = sz.bits := by omega
    rw [Nat.mod_self, extended, extended, if_neg hpos.ne, if_pos rfl]

section

variable {m : Nat} {ring : ShiftState → Nat → Bool}

/-- What each step turns up by one place, `cnt` steps turn up by `cnt`. -/
theorem shiftSteps_turned_left (hstep : ∀ t, Turned m 1 (ring t) (ring (shiftStep k sz t))) (cnt : Nat)
    (t : ShiftState) : Turned m cnt (ring t) (ring (shiftSteps k sz cnt t)) := by
  induction cnt with
  | zero => exact Turned.zero m (ring t)
  | succ cnt ih => exact shiftSteps_succ k sz cnt t ▸ ih.trans (hstep _)

/-- What each step turns down by one place, `cnt` steps turn down by `cnt`. -/
theorem shiftSteps_turned_right
    (hstep : ∀ t, sz.fits t.val = true → Turned m 1 (ring (shiftStep k sz t)) (ring t)) (cnt : Nat) {t : ShiftState}
    (ht : sz.fits t.val = true) : Turned m cnt (ring (shiftSteps k sz cnt t)) (ring t) := by
  induction cnt with
  | zero => exact Turned.zero m (ring t)
  | succ cnt ih =>
    rw [shiftSteps_succ, Nat.add_comm cnt 1]
    exact (hstep _ (fits_shiftSteps k cnt ht)).trans ih

end

/-- A rotate without X leaves X. -/
theorem shiftSteps_keeps_x (hk : ∀ t, (shiftStep k sz t).x = t.x) (cnt : Nat) (t : ShiftState) :
    (shiftSteps k sz cnt t).x = t.x := by
  induction cnt with
  | zero => rfl
  | succ cnt ih => rw [shiftSteps_succ, hk, ih]

/-- The flags of a rotate without X, whose C is the bit that `last` names of the result. -/
theorem rotate_flags (hk : ∀ t, (shiftStep k sz t).x = t.x) (hasl : k ≠ .asl) {f : Ccr} {last : Nat}
    (hstart : (shiftStart k f v).c = false)
    (hlast : ∀ t, sz.fits t.val = true → (shiftStep k sz t).c = (shiftStep k sz t).val.getLsbD last)
    (hv : sz.fits v = true) (cnt : Nat) :
    (shiftBy k sz cnt v f).2 =
      { x := f.x, n := (shiftBy k sz cnt v f).1.getLsbD (sz.bits - 1),
        z := decide ((shiftBy k sz cnt v f).1 = 0#32), v := false,
        c := decide (0 < cnt) && (shiftBy k sz cnt v f).1.getLsbD last } := by
  have hc : (shiftSteps k sz cnt (shiftStart k f v)).c =
      (decide (0 < cnt) && (shiftBy k sz cnt v f).1.getLsbD last) := by
    cases cnt with
    | zero => exact hstart
    | succ cnt =>
      rw [decide_eq_true cnt.succ_pos, Bool.true_and, shiftBy_fst, shiftSteps_succ]
      exact hlast _ (fits_shiftSteps k cnt (t := shiftStart k f v) hv)
  rw [shiftBy_snd, shiftSteps_keeps_x hk, shiftSteps_ov hasl, hc]
  rfl

/-- The flags of a rotate through X: C is X, also when the count is 0. -/
theorem rotateExtend_flags (hk : ∀ t, (shiftStep k sz t).x = (shiftStep k sz t).c) (hasl : k ≠ .asl) {f : Ccr}
    (hstart : (shiftStart k f v).c = f.x) (cnt : Nat) :
    (shiftBy k sz cnt v f).2 =
      { x := (shiftBy k sz cnt v f).2.x, n := (shiftBy k sz cnt v f).1.getLsbD (sz.bits - 1),
        z := decide ((shiftBy k sz cnt v f).1 = 0#32), v := false, c := (shiftBy k sz cnt v f).2.x } := by
  have hc : (shiftSteps k sz cnt (shiftStart k f v)).c = (shiftBy k sz cnt v f).2.x := by
    cases cnt with
    | zero => exact hstart
    | succ cnt => exact ((shiftSteps_x hk (cnt + 1) f v).trans (if_neg cnt.succ_ne_zero)).symm
  conv_lhs => rw [shiftBy_snd, shiftSteps_ov hasl, hc]
  rfl

/-- Settles O23: left shifts, right shifts, rotates, rotates through X, each by the closed forms above. -/
theorem shiftsAndRotates : Obligations.ShiftsAndRotates := by
  unfold Obligations.ShiftsAndRotates
  refine ⟨fun sz cnt v f hv => ?_, fun sz cnt v f hv => ?_, fun sz cnt v f hv => ?_, fun sz cnt v f hv => ?_⟩
  · have hlsl := shiftBy_flags (k := .lsl) (fun _ => rfl) nofun (lsl_carry hv cnt f)
    obtain ⟨hval, hflags⟩ := Prod.ext_iff.1 (shiftBy_asl sz cnt v f)
    exact ⟨toNat_lsl hv cnt f, hval, hlsl, asl_overflow_iff hv cnt f, hflags⟩
  · have hlsr := shiftBy_flags (k := .lsr) (fun _ => rfl) nofun (lsr_carry hv cnt f)
    have hasr := shiftBy_flags (k := .asr) (fun _ => rfl) nofun (asr_carry hv cnt f)
    exact ⟨toNat_lsr hv cnt f, hlsr, toInt_asr hv cnt f, fits_shiftBy .asr hv cnt f, hasr⟩
  · have hleft := shiftSteps_turned_left (k := .rol) (sz := sz) (fun t => leftOne_turned sz t.val) cnt
      (shiftStart .rol f v)
    have hright := shiftSteps_turned_right (k := .ror) (fun _ ht => rightOne_turned ht) cnt
      (t := shiftStart .ror f v) hv
    have hrol := rotate_flags (k := .rol) (f := f) (fun _ => rfl) nofun rfl
      (fun t _ => (getLsbD_zero_leftOne sz t.val _).symm) hv cnt
    have hror := rotate_flags (k := .ror) (f := f) (fun _ => rfl) nofun rfl
      (fun _ ht => (getLsbD_top_rightOne ht _).symm) hv cnt
    exact ⟨hleft, fits_shiftBy .rol hv cnt f, hrol, fun i hi => (hright i hi).symm, fits_shiftBy .ror hv cnt f, hror⟩
  · have hleft := shiftSteps_turned_left (k := .roxl) (sz := sz)
      (fun t => leftOne_turned_extended sz t.val t.x) cnt (shiftStart .roxl f v)
    have hright := shiftSteps_turned_right (k := .roxr) (fun t ht => rightOne_turned_extended ht t.x) cnt
      (t := shiftStart .roxr f v) hv
    have hroxl := rotateExtend_flags (k := .roxl) (sz := sz) (v := v) (f := f) (fun _ => rfl) nofun rfl cnt
    have hroxr := rotateExtend_flags (k := .roxr) (sz := sz) (v := v) (f := f) (fun _ => rfl) nofun rfl cnt
    exact ⟨fun i hi => hleft i (Nat.lt_succ_of_le hi), fits_shiftBy .roxl hv cnt f, hroxl,
      fun i hi => (hright i (Nat.lt_succ_of_le hi)).symm, fits_shiftBy .roxr hv cnt f, hroxr⟩

/-! ## Register and memory forms (R288, R298) -/

theorem shiftReg_eq (k : ShiftKind) (sz : Size) (byReg : Bool) (c d : Reg) (s : State) :
    shiftReg k sz byReg c d s =
      .next (finish (s.setDSized sz d (shiftBy k sz (shiftCount s byReg c) (trunc sz (s.d d)) s.ccr).1) 1
        (shiftBy k sz (shiftCount s byReg c) (trunc sz (s.d d)) s.ccr).2) := rfl

theorem shiftEa_quiet (h : Quiet s) (k : ShiftKind) (ea : Ea) :
    CompletesAs (shiftEa k ea s) (modified s .w 0 ea fun v => shiftBy k .w 1 v s.ccr) :=
  modifyEa_quiet h .w 0 ea _

/-- Settles O39: the register forms by `shiftReg_eq`, the memory forms by `shiftEa_quiet`. -/
theorem shiftForms : Obligations.ShiftForms := by
  unfold Obligations.ShiftForms
  intro s sz byReg c d ea h cnt reg mem
  have hreg (k : ShiftKind) : shiftReg k sz byReg c d s = .next (reg k) := shiftReg_eq k sz byReg c d s
  have hmem (k : ShiftKind) : CompletesAs (shiftEa k ea s) (mem k) := shiftEa_quiet h k ea
  exact ⟨hreg .asl, hreg .asr, hreg .lsl, hreg .lsr, hreg .rol, hreg .ror, hreg .roxl, hreg .roxr, hmem .asl, hmem .asr,
    hmem .lsl, hmem .lsr, hmem .rol, hmem .ror, hmem .roxl, hmem .roxr⟩

end Sys2Proof.Proofs
end

section
/-! PROOFS. Bit manipulation (R310-R314). -/

namespace Sys2Proof.Proofs

open Sys2Proof Sys2Proof.Machine Sys2Proof.Laws

variable {s : State} {ea : Ea}

/-- The flags of R310: Z is the inverse of bit `n`. -/
theorem bitFlags_bitMask (f : Ccr) (v : Long) {n : Nat} (hn : n < 32) :
    bitFlags f v (bitMask n) = { f with z := !v.getLsbD n } := by
  have hmask : bitMask n = BitVec.twoPow 32 n := (BitVec.twoPow_eq 32 n).symm
  have hne : BitVec.twoPow 32 n ≠ 0#32 :=
    BitVec.toNat_ne.2 ((BitVec.toNat_twoPow_of_lt hn).trans_ne (Nat.two_pow_pos n).ne')
  rw [bitFlags, isZero_eq_decide, hmask, BitVec.and_twoPow]
  cases v.getLsbD n with
  | false => rfl
  | true => rw [if_pos rfl, decide_eq_false hne, Bool.not_true]

section

variable (own : Nat) {num : Long} {k : Nat} (hk : num.toNat = k)

include hk

/-- BTST of a data register, and of any other operand. -/
theorem bitTest_quiet (h : Quiet s) :
    (∀ d, ea = .dn d →
      bitTest num own ea s = .next (finish s (1 + own) { s.ccr with z := !(s.d d).getLsbD (k % 32) })) ∧
    ((∀ d, ea ≠ .dn d) →
      CompletesAs (bitTest num own ea s) (tested s .b own ea fun v => { s.ccr with z := !v.getLsbD (k % 8) })) := by
  subst hk
  refine ⟨?_, fun hea => ?_⟩
  · rintro d rfl
    rw [← bitFlags_bitMask _ _ (Nat.mod_lt _ (by decide))]
    rfl
  · have hbit : num.toNat % 8 < 32 := by omega
    have hmem : bitTest num own ea s = testEa s .b own ea fun v => bitFlags s.ccr v (bitMask (num.toNat % 8)) := by
      cases ea with
      | dn d => exact absurd rfl (hea d)
      | _ => rfl
    rw [hmem]
    simp only [bitFlags_bitMask _ _ hbit]
    exact testEa_quiet h .b own ea _

/-- BCHG, BCLR, BSET of a data register, and of any other operand. -/
theorem bitModify_quiet (h : Quiet s) (f : Long → Long → Long) :
    (∀ d, ea = .dn d →
      bitModify f num own ea s = .next (finish (s.setD d (f (s.d d) (bitMask (k % 32)))) (1 + own)
        { s.ccr with z := !(s.d d).getLsbD (k % 32) })) ∧
    ((∀ d, ea ≠ .dn d) → CompletesAs (bitModify f num own ea s)
      (modified s .b own ea fun v => (f v (bitMask (k % 8)), { s.ccr with z := !v.getLsbD (k % 8) }))) := by
  subst hk
  refine ⟨?_, fun hea => ?_⟩
  · rintro d rfl
    rw [← bitFlags_bitMask _ _ (Nat.mod_lt _ (by decide))]
    rfl
  · have hbit : num.toNat % 8 < 32 := by omega
    have hmem : bitModify f num own ea s = modifyEa s .b own ea fun v =>
        (f v (bitMask (num.toNat % 8)), bitFlags s.ccr v (bitMask (num.toNat % 8))) := by
      cases ea with
      | dn d => exact absurd rfl (hea d)
      | _ => rfl
    rw [hmem]
    simp only [bitFlags_bitMask _ _ hbit]
    exact modifyEa_quiet h .b own ea _

end

/-- Settles O40: BTST by `bitTest_quiet`, the others by `bitModify_quiet` with the change they make. -/
theorem bitInstructions : Obligations.BitInstructions := by
  unfold Obligations.BitInstructions
  intro s k n ea h spec change clear set
  have hn : (n.setWidth 32 : Long).toNat = n.toNat := BitVec.toNat_setWidth_of_le (by decide)
  exact ⟨bitTest_quiet 1 hn h, bitTest_quiet 0 rfl h, bitModify_quiet 1 hn h bitChange,
    bitModify_quiet 0 rfl h bitChange, bitModify_quiet 1 hn h bitClear, bitModify_quiet 0 rfl h bitClear,
    bitModify_quiet 1 hn h bitSet, bitModify_quiet 0 rfl h bitSet⟩

end Sys2Proof.Proofs
end

section
/-! PROOFS. Decimal addition and subtraction (R330). -/

namespace Sys2Proof.Proofs

open Sys2Proof Sys2Proof.Machine Sys2Proof.Laws

variable {d s v : Long}

/-! ## Two digits -/

/-- Both digits of a byte are decimal. -/
def TwoDigits (v : Long) : Prop := v.toNat / 16 < 10 ∧ v.toNat % 16 < 10

/-- The number that the two digits of a byte stand for. -/
def digitsValue (v : Long) : Nat := v.toNat / 16 * 10 + v.toNat % 16

theorem bcdValid_iff (hv : v.toNat < 256) : bcdValid v = true ↔ TwoDigits v := by
  have hhigh : v.toNat / 16 % 16 = v.toNat / 16 := Nat.mod_eq_of_lt (by omega)
  rw [bcdValid, decide_eq_true_iff, hhigh, TwoDigits]

theorem bcdDec_eq (hv : v.toNat < 256) : bcdDec v = digitsValue v := by
  have hhigh : v.toNat / 16 % 16 = v.toNat / 16 := Nat.mod_eq_of_lt (by omega)
  rw [bcdDec, hhigh, digitsValue]

theorem digitsValue_lt (h : TwoDigits v) : digitsValue v < 100 := by
  obtain ⟨hhigh, hlow⟩ := h
  rw [digitsValue]
  omega

theorem toNat_bcdEnc {n : Nat} (hn : n < 100) : (bcdEnc n).toNat = n / 10 * 16 + n % 10 := by
  rw [bcdEnc, BitVec.toNat_ofNat]
  omega

/-- The digits of a number below 100 stand for it. -/
theorem bcdEnc_digits {n : Nat} (hn : n < 100) :
    TwoDigits (bcdEnc n) ∧ (bcdEnc n).toNat < 256 ∧ digitsValue (bcdEnc n) = n := by
  rw [TwoDigits, digitsValue, toNat_bcdEnc hn]
  omega

theorem bcdEnc_eq_zero_iff {n : Nat} (hn : n < 100) : bcdEnc n = 0#32 ↔ n = 0 := by
  rw [← BitVec.toNat_inj, toNat_bcdEnc hn, BitVec.toNat_ofNat]
  omega

/-! ## Results (R330) -/

/-- With two valid digits, the result `r` stands for `value`, X and C are the carry or borrow. -/
def GivesDigits (f : Ccr) (i : Nat) (r : Long × Ccr) (value : Nat) (carry : Bool) : Prop :=
  TwoDigits r.1 ∧ r.1.toNat < 256 ∧ digitsValue r.1 = value ∧
    r.2 = { x := carry, n := Config.freeBit i, z := f.z && decide (value = 0), v := Config.freeBit (i + 1), c := carry }

theorem bcdOut_valid (f : Ccr) (i : Nat) {n : Nat} (hn : n < 100) (carry : Bool) :
    GivesDigits f i (bcdOut f i true (bcdEnc n, carry)) n carry := by
  obtain ⟨hdigits, hbyte, hvalue⟩ := bcdEnc_digits hn
  refine ⟨hdigits, hbyte, hvalue, ?_⟩
  rw [bcdOut, if_pos rfl, isZero_eq_decide]
  simp only [bcdEnc_eq_zero_iff hn]

theorem bcdOut_invalid (f : Ccr) (i : Nat) (rc : Long × Bool) :
    bcdOut f i false rc = (Config.freeLong i &&& 0xFF#32,
      { x := Config.freeBit (i + 2), n := Config.freeBit i, z := Config.freeBit (i + 3), v := Config.freeBit (i + 1),
        c := Config.freeBit (i + 4) }) := by
  have hbyte : trunc .b (Config.freeLong i) = Config.freeLong i &&& 0xFF#32 := (lowBits_bytesOf .b _).symm
  rw [bcdOut, if_neg Bool.false_ne_true, hbyte]

section

variable (hd : d.toNat < 256) (hs : s.toNat < 256)

include hd hs

theorem bcdAdd_eq (x : Bool) :
    bcdAdd d s x = (bcdEnc ((digitsValue d + (digitsValue s + x.toNat)) % 100),
      decide (100 ≤ digitsValue d + (digitsValue s + x.toNat))) := by
  rw [bcdAdd, bcdDec_eq hd, bcdDec_eq hs, Nat.add_assoc]
  rfl

/-- The difference, one hundred more where it would be below zero. -/
theorem bcdSub_eq (hdd : TwoDigits d) (hds : TwoDigits s) (x : Bool) :
    bcdSub d s x =
      (bcdEnc (if digitsValue d < digitsValue s + x.toNat then digitsValue d + 100 - (digitsValue s + x.toNat)
          else digitsValue d - (digitsValue s + x.toNat)), decide (digitsValue d < digitsValue s + x.toNat)) := by
  have hd100 := digitsValue_lt hdd
  have hs100 := digitsValue_lt hds
  have hx := x.toNat_le
  rw [bcdSub, bcdDec_eq hd, bcdDec_eq hs]
  congr 2
  split <;> omega

end

/-- Settles O24: `bcdOut_valid` with the sum or the difference, `bcdOut_invalid` otherwise. -/
theorem decimalArithmetic : Obligations.DecimalArithmetic := by
  unfold Obligations.DecimalArithmetic
  intro d s f i hd hs digits num a b gives taken open_
  have hvalid : (bcdValid d && bcdValid s) = true ↔ TwoDigits d ∧ TwoDigits s := by
    rw [Bool.and_eq_true, bcdValid_iff hd, bcdValid_iff hs]
  refine ⟨fun hdigits => ?_, fun hdigits => ?_⟩
  · obtain ⟨hdd, hds⟩ := hdigits
    have hd100 := digitsValue_lt hdd
    have hs100 := digitsValue_lt hds
    have hx := f.x.toNat_le
    simp only [a, b, hvalid.2 ⟨hdd, hds⟩, bcdAdd_eq hd hs, bcdSub_eq hd hs hdd hds]
    exact ⟨bcdOut_valid f i (Nat.mod_lt _ (by decide)) _, bcdOut_valid f i (by split <;> omega) _⟩
  · have hinvalid : (bcdValid d && bcdValid s) = false := Bool.eq_false_iff.2 fun h => hdigits (hvalid.1 h)
    simp only [a, b, hinvalid]
    exact ⟨bcdOut_invalid f i _, bcdOut_invalid f i _⟩

end Sys2Proof.Proofs
end

section
/-! PROOFS. Bit fields as bits of a register or of memory (R320, R323, R327). -/

namespace Sys2Proof.Proofs

open Sys2Proof Sys2Proof.Machine Sys2Proof.Laws

variable {s : State}

/-! ## The field among the bits that hold it -/

theorem getLsbD_lowBits (w : Nat) (v : Long) (j : Nat) : (lowBits w v).getLsbD j = (decide (j < w) && v.getLsbD j) := by
  rw [lowBits, BitVec.getLsbD_and, BitVec.getLsbD_ofNat, Nat.testBit_two_pow_sub_one]
  by_cases hj : j < 32
  · simp only [hj, decide_true, Bool.true_and, Bool.and_comm]
  · rw [BitVec.getLsbD_of_ge v j (not_lt.1 hj), Bool.false_and, Bool.and_false]

section

variable {p : BfPlace} {w b len q i : Nat} {v : Long}

theorem getLsbD_value (p : BfPlace) (hw : w ≤ 32) (j : Nat) :
    (p.value w).getLsbD j = (decide (j < w) && p.raw.getLsbD (p.shift + j)) := by
  rw [BfPlace.value, getLsbD_lowBits, BitVec.getLsbD_setWidth, BitVec.getLsbD_ushiftRight]
  by_cases hj : j < w
  · have h32 : j < 32 := by omega
    simp only [hj, h32, decide_true, Bool.true_and]
  · simp only [hj, decide_false, Bool.false_and]

theorem value_lt (p : BfPlace) (hw : w ≤ 32) : (p.value w).toNat < 2 ^ w := by
  refine Nat.lt_pow_two_of_testBit _ fun j hj => ?_
  have hbit := getLsbD_value p hw j
  rwa [decide_eq_false hj.not_gt, Bool.false_and] at hbit

theorem getLsbD_replace (p : BfPlace) (hw : w ≤ 32) (v : Long) {j : Nat} (hj : j < 40) :
    (p.replace w v).getLsbD j =
      if p.shift ≤ j ∧ j < p.shift + w then v.getLsbD (j - p.shift) else p.raw.getLsbD j := by
  simp only [BfPlace.replace, BitVec.getLsbD_or, BitVec.getLsbD_and, BitVec.getLsbD_not, BitVec.getLsbD_shiftLeft,
    BitVec.getLsbD_setWidth, getLsbD_lowBits, BitVec.getLsbD_allOnes, hj, decide_true, Bool.true_and]
  split
  case isTrue hin =>
    have hshift : ¬ j < p.shift := by omega
    have hfield : j - p.shift < w := by omega
    have h32 : j - p.shift < 32 := by omega
    have h40 : j - p.shift < 40 := by omega
    simp [hshift, hfield, h32, h40]
  case isFalse hout =>
    by_cases hshift : j < p.shift
    · simp [hshift]
    · have hfield : ¬ j - p.shift < w := by omega
      simp [hfield]

/-! A field of `w` bits that begins `b` bits after the first of `len` bits. -/

theorem value_bit (hw : w ≤ 32) (hlen : p.shift + b + w = len) (hi : i < w) :
    (p.value w).getLsbD (w - 1 - i) = p.raw.getLsbD (len - 1 - (b + i)) := by
  have hin : w - 1 - i < w := by omega
  have hplace : p.shift + (w - 1 - i) = len - 1 - (b + i) := by omega
  rw [getLsbD_value p hw, decide_eq_true hin, Bool.true_and, hplace]

theorem replace_bit_field (hw : w ≤ 32) (hlen : p.shift + b + w = len) (h40 : len ≤ 40) (hi : i < w) :
    (p.replace w v).getLsbD (len - 1 - (b + i)) = v.getLsbD (w - 1 - i) := by
  have hplace : len - 1 - (b + i) - p.shift = w - 1 - i := by omega
  rw [getLsbD_replace p hw v (by omega), if_pos (by omega), hplace]

theorem replace_bit_other (hw : w ≤ 32) (hlen : p.shift + b + w = len) (h40 : len ≤ 40) (hq : q < len)
    (hout : ∀ i < w, q ≠ b + i) : (p.replace w v).getLsbD (len - 1 - q) = p.raw.getLsbD (len - 1 - q) := by
  have hside : q < b ∨ b + w ≤ q := by
    by_contra hin
    exact hout (q - b) (by omega) (by omega)
  rw [getLsbD_replace p hw v (by omega), if_neg (by omega)]

end

/-! ## Fields of a data register -/

/-- Bits counted from the first one of a register that has been turned left. -/
theorem getLsbD_rotateLeft_first (x : Long) (r : Nat) {i : Nat} (hi : i < 32) :
    (x.rotateLeft (r % 32)).getLsbD (31 - i) = x.getLsbD (31 - (r + i) % 32) := by
  have hmsb := BitVec.getMsbD_rotateLeft (x := x) (r := r % 32) (n := i)
  have hturn : (r % 32 + i) % 32 = (r + i) % 32 := by omega
  have hlt : (r + i) % 32 < 32 := Nat.mod_lt _ (by decide)
  simpa only [BitVec.getMsbD_eq_getLsbD, hi, hturn, hlt, decide_true, Bool.true_and] using hmsb

/-- Turning right again puts them back. -/
theorem getLsbD_rotateRight_first (x : Long) (r : Nat) {i : Nat} (hi : i < 32) :
    (x.rotateRight (r % 32)).getLsbD (31 - (r + i) % 32) = x.getLsbD (31 - i) := by
  have hmsb := BitVec.getMsbD_rotateRight (x := x) (m := r % 32) (n := (r + i) % 32)
  have hlt : (r + i) % 32 < 32 := Nat.mod_lt _ (by decide)
  simp only [BitVec.getMsbD_eq_getLsbD, hlt, decide_true, Bool.true_and, Nat.mod_mod] at hmsb
  rw [hmsb]
  split
  case isTrue hwrapped =>
    have hback : (32 + (r + i) % 32 - r % 32) % 32 = i := by omega
    rw [hback, decide_eq_true hi, Bool.true_and]
  case isFalse hstraight =>
    have hback : (r + i) % 32 - r % 32 = i := by omega
    rw [hback, decide_eq_true hi, Bool.true_and]

/-- Every bit of a register is one counted from the first bit of a field. -/
theorem exists_bit_after (r : Nat) {j : Nat} (hj : j < 32) : ∃ q < 32, j = 31 - (r + q) % 32 :=
  ⟨(31 - j + 32 - r % 32) % 32, Nat.mod_lt _ (by decide), by omega⟩

section

variable (off : Long) {w : Nat} (n : Reg)

/-- The bits of the register after the field has been replaced, counted from the field's first one. -/
theorem d_fieldPut_reg (v : Long) {q : Nat} (hq : q < 32) :
    ((fieldPut s (fieldAt s off w (.dn n)) w v).d n).getLsbD (31 - (off.toNat + q) % 32) =
      ((fieldAt s off w (.dn n)).replace w v).getLsbD (31 - q) := by
  have h32 : 31 - q < 32 := by omega
  rw [fieldPut]
  simp only [fieldAt, d_setD_same, getLsbD_rotateRight_first _ _ hq, BitVec.getLsbD_setWidth, h32, decide_true,
    Bool.true_and]

variable (hw : w ≤ 32)

include hw

theorem fieldAt_reg_bit {i : Nat} (hi : i < w) :
    ((fieldAt s off w (.dn n)).value w).getLsbD (w - 1 - i) = fieldBit s off (.dn n) i := by
  have hlen : (fieldAt s off w (.dn n)).shift + 0 + w = 32 := by simp only [fieldAt]; omega
  have h40 : 31 - i < 40 := by omega
  rw [value_bit hw hlen hi, Nat.zero_add, fieldBit, ← getLsbD_rotateLeft_first _ _ (by omega)]
  simp only [fieldAt, BitVec.getLsbD_setWidth, h40, decide_true, Bool.true_and]

theorem fieldPut_reg (v : Long) :
    (∀ i < w, ((fieldPut s (fieldAt s off w (.dn n)) w v).d n).getLsbD (31 - (off.toNat + i) % 32) =
      v.getLsbD (w - 1 - i)) ∧
    (∀ j < 32, (∀ i < w, j ≠ 31 - (off.toNat + i) % 32) →
      ((fieldPut s (fieldAt s off w (.dn n)) w v).d n).getLsbD j = (s.d n).getLsbD j) ∧
    ∃ x, fieldPut s (fieldAt s off w (.dn n)) w v = s.setD n x := by
  have hlen : (fieldAt s off w (.dn n)).shift + 0 + w = 32 := by simp only [fieldAt]; omega
  refine ⟨fun i hi => ?_, fun j hj hout => ?_, _, rfl⟩
  · have hbit := replace_bit_field (v := v) hw hlen (by decide) hi
    rw [Nat.zero_add] at hbit
    rw [d_fieldPut_reg off n v (by omega), hbit]
  · obtain ⟨q, hq, rfl⟩ := exists_bit_after off.toNat hj
    have hoff : ∀ i < w, q ≠ 0 + i := fun i hi hqi => hout i hi (by rw [hqi, Nat.zero_add])
    have h40 : 31 - q < 40 := by omega
    rw [d_fieldPut_reg off n v hq, replace_bit_other hw hlen (by decide) hq hoff,
      ← getLsbD_rotateLeft_first _ _ hq]
    simp only [fieldAt, BitVec.getLsbD_setWidth, h40, decide_true, Bool.true_and]

end

/-! ## Bytes of memory as a row of bits -/

/-- The bits already read come first. -/
theorem getLsbD_bitsAt_above (s : State) (fc : Fc) (n : Nat) (a : Long) (acc : BitVec 40) {j : Nat}
    (hj : 8 * n + j < 40) : (bitsAt s fc n a acc).getLsbD (8 * n + j) = acc.getLsbD j := by
  induction n generalizing a acc j with
  | zero => rw [bitsAt, Nat.mul_zero, Nat.zero_add]
  | succ n ih =>
    have hin : 8 + j < 40 := by omega
    rw [bitsAt, Nat.mul_succ, Nat.add_assoc, ih _ _ (by omega)]
    simp [hin, BitVec.getLsbD_eq_getElem (show j < 40 by omega)]

/-- Bit `q` of the bytes from an address upward, the first one most significant. -/
theorem getLsbD_bitsAt (s : State) (fc : Fc) {n : Nat} (hn : 8 * n ≤ 40) (a : Long) (acc : BitVec 40) {q : Nat}
    (hq : q < 8 * n) :
    (bitsAt s fc n a acc).getLsbD (8 * n - 1 - q) =
      (byteAt s fc (a + BitVec.ofNat 32 (q / 8))).getLsbD (7 - q % 8) := by
  induction n generalizing a acc q with
  | zero => omega
  | succ n ih =>
    rcases Nat.lt_or_ge q 8 with hfirst | hlater
    · have hbit : 8 * (n + 1) - 1 - q = 8 * n + (7 - q) := by omega
      have hin : 7 - q < 8 := by omega
      have h40 : 7 - q < 40 := by omega
      rw [bitsAt, hbit, getLsbD_bitsAt_above _ _ _ _ _ (by omega), Nat.div_eq_of_lt hfirst, Nat.mod_eq_of_lt hfirst]
      simp [hin, h40]
    · obtain ⟨r, rfl⟩ := Nat.exists_eq_add_of_le' hlater
      have hbit : 8 * (n + 1) - 1 - (r + 8) = 8 * n - 1 - r := by omega
      rw [bitsAt, hbit, ih (by omega) _ _ (by omega), Nat.add_div_right r (by decide), Nat.add_mod_right,
        add_ofNat_succ a (r / 8)]

/-- Writing a row of bits changes memory only. -/
theorem bitsPut_eq (fc : Fc) (n : Nat) (a : Long) (v : BitVec 40) (s : State) :
    bitsPut s fc n a v = { s with mem := (bitsPut s fc n a v).mem } := by
  induction n generalizing s a with
  | zero => rfl
  | succ n ih =>
    rw [bitsPut, ih]
    rfl

theorem byteAt_bitsPut_of_ne {fc fc' : Fc} (n : Nat) {a a' : Long} (v : BitVec 40) (h : Memory.wf s.mem = true)
    (hne : ∀ k < n, memKey s.platform fc' a' ≠ memKey s.platform fc (a + BitVec.ofNat 32 k)) :
    byteAt (bitsPut s fc n a v) fc' a' = byteAt s fc' a' := by
  induction n generalizing s a with
  | zero => rfl
  | succ n ih =>
    have hfirst : memKey s.platform fc' a' ≠ memKey s.platform fc a := by simpa using hne 0 (Nat.succ_pos n)
    have hrest : ∀ k < n, memKey s.platform fc' a' ≠ memKey s.platform fc (a + 1#32 + BitVec.ofNat 32 k) := fun k hk =>
      add_ofNat_succ a k ▸ hne (k + 1) (Nat.succ_lt_succ hk)
    rw [bitsPut, ih (setByteAt_wf h fc a _) hrest, byteAt_setByteAt h, if_neg hfirst]

/-- Bit `q` of a row of bits, as it stands in memory afterwards. -/
theorem getLsbD_byteAt_bitsPut (fc : Fc) {n : Nat} (hn : n ≤ 2 ^ 24) (a : Long) (v : BitVec 40)
    (h : Memory.wf s.mem = true) {q : Nat} (hq : q < 8 * n) :
    (byteAt (bitsPut s fc n a v) fc (a + BitVec.ofNat 32 (q / 8))).getLsbD (7 - q % 8) =
      v.getLsbD (8 * n - 1 - q) := by
  induction n generalizing s a q with
  | zero => omega
  | succ n ih =>
    have hwf := setByteAt_wf h fc a ((v >>> (8 * n)).setWidth 8)
    rcases Nat.lt_or_ge q 8 with hfirst | hlater
    · have hne : ∀ k < n, memKey s.platform fc a ≠ memKey s.platform fc (a + 1#32 + BitVec.ofNat 32 k) := fun k hk =>
        add_ofNat_succ a k ▸ memKey_ne_add s.platform fc a (Nat.succ_pos k) (by omega)
      have hin : 7 - q < 8 := by omega
      have hbit : 8 * n + (7 - q) = 8 * (n + 1) - 1 - q := by omega
      rw [Nat.div_eq_of_lt hfirst, Nat.mod_eq_of_lt hfirst, BitVec.add_zero, bitsPut,
        byteAt_bitsPut_of_ne n v hwf hne, byteAt_setByteAt h, if_pos rfl, BitVec.getLsbD_setWidth,
        BitVec.getLsbD_ushiftRight, decide_eq_true hin, Bool.true_and, hbit]
    · obtain ⟨r, rfl⟩ := Nat.exists_eq_add_of_le' hlater
      have hbit : 8 * n - 1 - r = 8 * (n + 1) - 1 - (r + 8) := by omega
      rw [bitsPut, Nat.add_div_right r (by decide), Nat.add_mod_right, add_ofNat_succ a (r / 8),
        ih (by omega) _ hwf (by omega), hbit]

/-! ## Fields in memory -/

/-- The field of offset `off` and width `w` in the bits from the base address `base` on (R320). -/
def memoryField (s : State) (prog : Bool) (base off : Long) (w : Nat) : BfPlace :=
  { reg := none, rot := 0, prog := prog, addr := base + off.sshiftRight 3, bytes := (off.toNat % 8 + w + 7) / 8,
    raw := bitsAt s (spaceFc s prog) ((off.toNat % 8 + w + 7) / 8) (base + off.sshiftRight 3) 0#40,
    shift := 8 * ((off.toNat % 8 + w + 7) / 8) - off.toNat % 8 - w }

theorem fieldAt_memory {ea : Ea} (hea : ∀ n, ea ≠ .dn n) (s : State) (off : Long) (w : Nat) :
    fieldAt s off w ea = memoryField s (eaLoc s .l 1 ea).prog (eaLoc s .l 1 ea).addr off w := by
  cases ea with
  | dn n => exact absurd rfl (hea n)
  | _ => rfl

/-- Bit `i` of memory, counted from the most significant bit of the byte at the base (R320). -/
def memoryBit (s : State) (fc : Fc) (base : Long) (i : Int) : Bool :=
  (byteAt s fc (base + BitVec.ofInt 32 (i / 8))).getLsbD (7 - (i % 8).toNat)

theorem fieldBit_memory {ea : Ea} (hea : ∀ n, ea ≠ .dn n) (s : State) (off : Long) (i : Nat) :
    fieldBit s off ea i =
      memoryBit s (spaceFc s (eaLoc s .l 1 ea).prog) (eaLoc s .l 1 ea).addr (off.toInt + i) := by
  cases ea with
  | dn n => exact absurd rfl (hea n)
  | _ => rfl

/-- An offset is eight times its quotient rounded down, and its low three bits. -/
theorem toInt_eq_eight_mul (off : Long) : off.toInt = 8 * (off.toInt / 8) + (off.toNat % 8 : Nat) := by
  rw [BitVec.toInt_eq_toNat_cond]
  split <;> omega

/-- The byte that holds bit `i` of a field. -/
theorem fieldByte_addr (base off : Long) (i : Nat) :
    base + off.sshiftRight 3 + BitVec.ofNat 32 ((off.toNat % 8 + i) / 8) =
      base + BitVec.ofInt 32 ((off.toInt + i) / 8) := by
  have hoff := toInt_eq_eight_mul off
  have hquot : (off.toInt + i) / 8 = off.toInt / 8 + ((off.toNat % 8 + i) / 8 : Nat) := by omega
  have hshift : off.sshiftRight 3 = BitVec.ofInt 32 (off.toInt / 8) := by
    rw [← BitVec.ofInt_toInt (x := off.sshiftRight 3), BitVec.toInt_sshiftRight, Int.shiftRight_eq_div_pow]
    rfl
  rw [hquot, BitVec.ofInt_add, BitVec.ofInt_natCast, hshift, BitVec.add_assoc]

/-- The place of bit `i` of a field in its byte. -/
theorem fieldByte_bit (off : Long) (i : Nat) : ((off.toInt + i) % 8).toNat = (off.toNat % 8 + i) % 8 := by
  have hoff := toInt_eq_eight_mul off
  omega

section

variable (prog : Bool) (base off : Long) {w : Nat} (hw : w ≤ 32)

include hw

theorem memoryField_length :
    (memoryField s prog base off w).shift + off.toNat % 8 + w = 8 * (memoryField s prog base off w).bytes ∧
      8 * (memoryField s prog base off w).bytes ≤ 40 := by
  simp only [memoryField]
  omega

theorem memoryField_bit {i : Nat} (hi : i < w) :
    ((memoryField s prog base off w).value w).getLsbD (w - 1 - i) =
      memoryBit s (spaceFc s prog) base (off.toInt + i) := by
  obtain ⟨hlen, h40⟩ := memoryField_length (s := s) prog base off hw
  rw [value_bit hw hlen hi, memoryBit, ← fieldByte_addr, fieldByte_bit]
  exact getLsbD_bitsAt s _ h40 _ _ (by omega)

end

/-- What a byte reads as depends on its key alone. -/
theorem byteAt_of_memKey {fc fc' : Fc} {a a' : Long} (h : memKey s.platform fc a = memKey s.platform fc' a') :
    byteAt s fc a = byteAt s fc' a' := by
  rw [byteAt, byteAt, h]

section

variable (base off : Long) {w : Nat} (hw : w ≤ 32) (hwf : Memory.wf s.mem = true) (v : Long)

include hw hwf

/-- Bit `q` of the bytes that hold a field, after the field has been replaced. -/
theorem fieldPut_memory_bit {q : Nat} (hq : q < 8 * (memoryField s false base off w).bytes) :
    (byteAt (fieldPut s (memoryField s false base off w) w v) (dataFc s)
      (base + off.sshiftRight 3 + BitVec.ofNat 32 (q / 8))).getLsbD (7 - q % 8) =
      ((memoryField s false base off w).replace w v).getLsbD (8 * (memoryField s false base off w).bytes - 1 - q) := by
  obtain ⟨-, h40⟩ := memoryField_length (s := s) false base off hw
  exact getLsbD_byteAt_bitsPut (dataFc s) (by omega) _ _ hwf hq

theorem fieldPut_memory_field {i : Nat} (hi : i < w) :
    memoryBit (fieldPut s (memoryField s false base off w) w v) (dataFc s) base (off.toInt + i) =
      v.getLsbD (w - 1 - i) := by
  obtain ⟨hlen, h40⟩ := memoryField_length (s := s) false base off hw
  rw [memoryBit, ← fieldByte_addr, fieldByte_bit, fieldPut_memory_bit base off hw hwf v (by omega),
    replace_bit_field hw hlen h40 hi]

theorem fieldPut_memory_other (fc : Fc) (b : Long) {j : Nat} (hj : j < 8)
    (hout : ∀ i < w, ¬ (memKey s.platform fc b =
        memKey s.platform (dataFc s) (base + BitVec.ofInt 32 ((off.toInt + i) / 8)) ∧
      j = 7 - ((off.toInt + i) % 8).toNat)) :
    (byteAt (fieldPut s (memoryField s false base off w) w v) fc b).getLsbD j = (byteAt s fc b).getLsbD j := by
  obtain ⟨hlen, h40⟩ := memoryField_length (s := s) false base off hw
  by_cases hkey : ∃ k < (memoryField s false base off w).bytes,
      memKey s.platform fc b = memKey s.platform (dataFc s) (base + off.sshiftRight 3 + BitVec.ofNat 32 k)
  · obtain ⟨k, hk, hkey⟩ := hkey
    obtain ⟨q, rfl, rfl⟩ : ∃ q, k = q / 8 ∧ j = 7 - q % 8 := ⟨8 * k + (7 - j), by omega, by omega⟩
    have hq : q < 8 * (memoryField s false base off w).bytes := by omega
    have hoff : ∀ i < w, q ≠ off.toNat % 8 + i := by
      rintro i hi rfl
      exact hout i hi ⟨by rw [hkey, fieldByte_addr], by rw [fieldByte_bit]⟩
    have hplatform : (fieldPut s (memoryField s false base off w) w v).platform = s.platform := by
      rw [fieldPut, memoryField, bitsPut_eq]
    rw [byteAt_of_memKey (hplatform ▸ hkey), fieldPut_memory_bit base off hw hwf v hq,
      replace_bit_other hw hlen h40 hq hoff, byteAt_of_memKey hkey]
    exact getLsbD_bitsAt s _ h40 _ _ hq
  · push Not at hkey
    exact congrArg (·.getLsbD j) (byteAt_bitsPut_of_ne _ _ hwf hkey)

end

/-! ## Signed values and the first one (R323, R327) -/

theorem bfSigned_eq_signExtend (v : Long) {w : Nat} (h1 : 1 ≤ w) (hw : w ≤ 32) :
    bfSigned w v = (v.setWidth w).signExtend 32 := by
  have htop : 32 - 1 - (32 - w) = w - 1 := by omega
  have hpos : 32 - w < 32 := by omega
  refine BitVec.eq_of_getLsbD_eq fun j hj => ?_
  rw [bfSigned, BitVec.getLsbD_sshiftRight, BitVec.getLsbD_signExtend, BitVec.msb_shiftLeft, BitVec.getMsbD_eq_getLsbD,
    BitVec.msb_setWidth, htop, decide_eq_true hpos, decide_eq_true hj, decide_eq_false hj.not_ge,
    decide_eq_true (Nat.lt_of_lt_of_le Nat.zero_lt_one h1)]
  by_cases hin : j < w
  · have h32 : 32 - w + j < 32 := by omega
    have hback : 32 - w + j - (32 - w) = j := by omega
    simp [hin, h32, hback, BitVec.getLsbD_eq_getElem hj]
  · have h32 : ¬ 32 - w + j < 32 := by omega
    simp [hin, h32]

theorem toInt_bfSigned {v : Long} {w : Nat} (h1 : 1 ≤ w) (hw : w ≤ 32) (hv : v.toNat < 2 ^ w) :
    (bfSigned w v).toInt = if v.getLsbD (w - 1) then (v.toNat : Int) - 2 ^ w else v.toNat := by
  rw [bfSigned_eq_signExtend v h1 hw, BitVec.toInt_signExtend_of_le hw, BitVec.toInt_eq_msb_cond, BitVec.toNat_setWidth,
    Nat.mod_eq_of_lt hv, BitVec.msb_setWidth, decide_eq_true (Nat.lt_of_lt_of_le Nat.zero_lt_one h1), Bool.true_and,
    Nat.cast_pow, Nat.cast_ofNat]

/-- The bits before the first one are zeros. -/
theorem firstOne_spec (v : Long) (w : Nat) :
    firstOne v w ≤ w ∧ (∀ i < firstOne v w, v.getLsbD (w - 1 - i) = false) ∧
      (firstOne v w < w → v.getLsbD (w - 1 - firstOne v w) = true) := by
  induction w with
  | zero => exact ⟨Nat.le_refl 0, fun i hi => absurd hi (Nat.not_lt_zero i), fun h => absurd h (Nat.not_lt_zero 0)⟩
  | succ w ih =>
    obtain ⟨hle, hzeros, hone⟩ := ih
    have hnext (i : Nat) : w + 1 - 1 - (1 + i) = w - 1 - i := by omega
    rw [firstOne]
    split
    case isTrue hbit => exact ⟨Nat.zero_le _, fun i hi => absurd hi (Nat.not_lt_zero i), fun _ => hbit⟩
    case isFalse hbit =>
      refine ⟨by omega, fun i hi => ?_, fun h => ?_⟩
      · cases i with
        | zero => exact Bool.eq_false_iff.2 hbit
        | succ i =>
          rw [Nat.add_comm i 1, hnext]
          exact hzeros i (by omega)
      · rw [hnext]
        exact hone (by omega)

/-- Settles O25: the bits of a field in a register and in memory, then its value. -/
theorem bitFieldContents : Obligations.BitFieldContents := by
  unfold Obligations.BitFieldContents
  constructor
  · intro s off v w ea hwf h1 hw p t
    refine ⟨fun i hi => ?_, value_lt p hw, ?_, fun a hea ha => ?_⟩
    · by_cases hea : ∃ n, ea = .dn n
      · obtain ⟨n, rfl⟩ := hea
        exact fieldAt_reg_bit off n hw hi
      · push Not at hea
        rw [fieldBit_memory hea, ← memoryField_bit _ _ _ hw hi, ← fieldAt_memory hea]
    · rintro n rfl
      exact fieldPut_reg off n hw v
    · have ht : t = fieldPut s (memoryField s false a off w) w v := by
        simp only [t, p, fieldAt_memory hea, ha, Loc.prog, Loc.addr]
      rw [ht]
      exact ⟨fun i hi => fieldPut_memory_field a off hw hwf v hi,
        fun fc b j hj hout => fieldPut_memory_other a off hw hwf v fc b hj hout, bitsPut_eq _ _ _ _ s⟩
  · exact fun w v h1 hw hv => ⟨toInt_bfSigned h1 hw hv, firstOne_spec v w⟩

end Sys2Proof.Proofs
end

section
/-! PROOFS. The bit field instructions (R320-R328). -/

namespace Sys2Proof.Proofs

open Sys2Proof Sys2Proof.Machine Sys2Proof.Laws

variable {s t : State}

/-! ## Bytes read and written one after another (log 25) -/

theorem bitsAt_congr (hm : t.mem = s.mem) (hp : t.platform = s.platform) (fc : Fc) (n : Nat) (a : Long)
    (acc : BitVec 40) : bitsAt t fc n a acc = bitsAt s fc n a acc := by
  induction n generalizing a acc with
  | zero => rfl
  | succ n ih => rw [bitsAt, bitsAt, ih, byteAt_congr hm hp]

theorem bitsAt_withDone (s : State) (dn : List BusRec) (fc : Fc) (n : Nat) (a : Long) (acc : BitVec 40) :
    bitsAt (s.withDone dn) fc n a acc = bitsAt s fc n a acc :=
  bitsAt_congr (s := s) (t := s.withDone dn) rfl rfl fc n a acc

theorem bitsAt_eaStep (s : State) (sz : Size) (ea : Ea) (fc : Fc) (n : Nat) (a : Long) (acc : BitVec 40) :
    bitsAt (eaStep s sz ea) fc n a acc = bitsAt s fc n a acc :=
  bitsAt_congr (eaStep_mem s sz ea) (eaStep_platform s sz ea) fc n a acc

theorem bitsPut_withDone (fc : Fc) (n : Nat) (a : Long) (v : BitVec 40) (s : State) (dn : List BusRec) :
    bitsPut (s.withDone dn) fc n a v = (bitsPut s fc n a v).withDone dn := by
  induction n generalizing s a with
  | zero => rfl
  | succ n ih => exact ih _ (setByteAt s fc a ((v >>> (8 * n)).setWidth 8))

theorem spaceFc_withDone (s : State) (dn : List BusRec) (prog : Bool) :
    spaceFc (s.withDone dn) prog = spaceFc s prog := rfl

theorem spaceFc_eaStep (s : State) (sz : Size) (ea : Ea) (prog : Bool) :
    spaceFc (eaStep s sz ea) prog = spaceFc s prog := by
  simp only [spaceFc, progFc, dataFc, eaStep_sr]

theorem quiet_setByteAt (h : Quiet s) (fc : Fc) (a : Long) (b : Byte) : Quiet (setByteAt s fc a b) :=
  quiet_congr h rfl rfl rfl

theorem readBytes_quiet (h : Quiet s) (prog : Bool) (n : Nat) (a : Long) (acc : BitVec 40) :
    ∃ dn, readBytes prog n s a acc = .ok (bitsAt s (spaceFc s prog) n a acc, s.withDone dn) := by
  induction n generalizing s a acc with
  | zero => exact ⟨s.done, rfl⟩
  | succ n ih =>
    have hread := readFc_quiet h (spaceFc_ne s prog) a 1
    rw [load_byte] at hread
    have hbyte : ((byteAt s (spaceFc s prog) a).setWidth 32).setWidth 40 =
        (byteAt s (spaceFc s prog) a).setWidth 40 := BitVec.setWidth_setWidth (by decide)
    obtain ⟨dn, hrest⟩ := ih (quiet_withDone h (s.done ++ [.read ((byteAt s (spaceFc s prog) a).setWidth 32)]))
      (a + 1#32) ((acc <<< 8) ||| (byteAt s (spaceFc s prog) a).setWidth 40)
    rw [spaceFc_withDone, bitsAt_withDone, withDone_withDone] at hrest
    exact ⟨dn, by simp only [readBytes, hread, ok_bind, hbyte, hrest, bitsAt]⟩

theorem writeBytes_quiet (h : Quiet s) (n : Nat) (a : Long) (v : BitVec 40) :
    ∃ dn, writeBytes n s a v = .ok ((bitsPut s (dataFc s) n a v).withDone dn) := by
  induction n generalizing s a with
  | zero => exact ⟨s.done, rfl⟩
  | succ n ih =>
    have hwrite := memWrite_quiet h a 1 (((v >>> (8 * n)).setWidth 8).setWidth 32)
    rw [store_byte] at hwrite
    obtain ⟨dn, hrest⟩ := ih (quiet_withDone (quiet_setByteAt h (dataFc s) a ((v >>> (8 * n)).setWidth 8))
      (s.done ++ [.write])) (a + 1#32)
    rw [bitsPut_withDone, withDone_withDone] at hrest
    exact ⟨dn, by rw [writeBytes, hwrite, ok_bind, hrest]; rfl⟩

/-! ## Finding and replacing a field (R320) -/

/-- `bfPlace` on memory: the effective address, then the bytes from the base on. -/
theorem bfPlace_memory {ea : Ea} (hea : ∀ n, ea ≠ .dn n) (s : State) (off : Long) (w : Nat) :
    bfPlace s off w ea = (do
      let (loc, u) ← evalEa s .l (extAt s 1) ea
      let (raw, u) ← readBytes loc.prog ((off.toNat % 8 + w + 7) / 8) u (loc.addr + off.sshiftRight 3) 0#40
      .ok ({ memoryField s loc.prog loc.addr off w with raw := raw }, u)) := by
  cases ea with
  | dn n => exact absurd rfl (hea n)
  | _ => rfl

theorem bfPlace_quiet (h : Quiet s) (off : Long) (w : Nat) (ea : Ea) :
    ∃ dn, bfPlace s off w ea = .ok (fieldAt s off w ea, (eaStep s .l ea).withDone dn) := by
  by_cases hea : ∃ n, ea = .dn n
  · obtain ⟨n, rfl⟩ := hea
    exact ⟨s.done, rfl⟩
  · push Not at hea
    obtain ⟨d1, heval⟩ := evalEa_quiet h .l (extAt s 1) ea
    obtain ⟨d2, hread⟩ := readBytes_quiet (quiet_withDone (quiet_eaStep h .l ea) d1) (eaLoc s .l 1 ea).prog
      ((off.toNat % 8 + w + 7) / 8) ((eaLoc s .l 1 ea).addr + off.sshiftRight 3) 0#40
    rw [spaceFc_withDone, spaceFc_eaStep, bitsAt_withDone, bitsAt_eaStep, withDone_withDone] at hread
    rw [← eaLoc] at heval
    refine ⟨d2, ?_⟩
    rw [bfPlace_memory hea, fieldAt_memory hea]
    simp only [heval, hread, ok_bind]
    rfl

theorem bfWrite_quiet (h : Quiet s) (p : BfPlace) (w : Nat) (v : Long) :
    ∃ dn, bfWrite s p w v = .ok ((fieldPut s p w v).withDone dn) := by
  rw [bfWrite, fieldPut]
  cases p.reg with
  | some n => exact ⟨s.done, rfl⟩
  | none => exact writeBytes_quiet h p.bytes p.addr (p.replace w v)

theorem fieldPut_withDone (s : State) (dn : List BusRec) (p : BfPlace) (w : Nat) (v : Long) :
    fieldPut (s.withDone dn) p w v = (fieldPut s p w v).withDone dn := by
  rw [fieldPut, fieldPut]
  cases p.reg with
  | some n => rfl
  | none => exact bitsPut_withDone (dataFc s) p.bytes p.addr (p.replace w v) s dn

/-! ## Shapes of the instructions -/

/-- The flags that a field of `w` bits gives (R320). -/
theorem bfFlags_eq (f : Ccr) (w : Nat) (v : Long) :
    bfFlags f w v = { x := f.x, n := v.getLsbD (w - 1), z := decide (v = 0#32), v := false, c := false } := by
  rw [bfFlags, isZero_eq_decide]

/-- An instruction that reads a field and does with it what does not touch the log. -/
theorem bfRead_quiet (h : Quiet s) (f : BfSpec) (ea : Ea) {k : Long → Nat → Long → State → State}
    (hk : ∀ off w v u dn, k off w v (u.withDone dn) = (k off w v u).withDone dn) {v : Long}
    (hv : v = (fieldAt s (bfOffset s f) (bfWidth s f) ea).value (bfWidth s f)) :
    CompletesAs (bfRead f ea s k) (finish (k (bfOffset s f) (bfWidth s f) v (eaStep s .l ea)) (2 + eaLen .l ea)
      (bfFlags s.ccr (bfWidth s f) v)) := by
  subst hv
  obtain ⟨dn, hplace⟩ := bfPlace_quiet h (bfOffset s f) (bfWidth s f) ea
  exact ⟨dn, by simp only [bfRead, hplace, ok_bind, hk, setCcr_withDone, advance_withDone, toRes, finish]⟩

/-- What BFCHG, BFCLR, BFSET and BFINS share: the field is found and replaced by `g` of the old one, which gives the
flags `fl`. -/
def bfReplace (s : State) (off : Long) (w : Nat) (ea : Ea) (g : Long → Long) (fl : Long → Ccr) : Res :=
  toRes do
    let (p, s1) ← bfPlace s off w ea
    let s2 ← bfWrite s1 p w (g (p.value w))
    .ok (advance (2 + eaLen .l ea) (s2.setCcr (fl (p.value w))))

theorem bfModify_eq (f : BfSpec) (ea : Ea) (s : State) (g : Nat → Long → Long) :
    bfModify f ea s g = bfReplace s (bfOffset s f) (bfWidth s f) ea (g (bfWidth s f)) (bfFlags s.ccr (bfWidth s f)) :=
  rfl

theorem execBfins_eq (d : Reg) (f : BfSpec) (ea : Ea) (s : State) :
    execBfins d f ea s = bfReplace s (bfOffset s f) (bfWidth s f) ea (fun _ => s.d d)
      (fun _ => bfFlags s.ccr (bfWidth s f) (lowBits (bfWidth s f) (s.d d))) := rfl

theorem bfReplace_quiet (h : Quiet s) (off : Long) (w : Nat) (ea : Ea) (g : Long → Long) (fl : Long → Ccr) {v : Long}
    (hv : v = (fieldAt s off w ea).value w) :
    CompletesAs (bfReplace s off w ea g fl)
      (finish (fieldPut (eaStep s .l ea) (fieldAt s off w ea) w (g v)) (2 + eaLen .l ea) (fl v)) := by
  subst hv
  obtain ⟨d1, hplace⟩ := bfPlace_quiet h off w ea
  obtain ⟨d2, hwrite⟩ := bfWrite_quiet (quiet_withDone (quiet_eaStep h .l ea) d1) (fieldAt s off w ea) w
    (g ((fieldAt s off w ea).value w))
  rw [fieldPut_withDone, withDone_withDone] at hwrite
  exact ⟨d2, by simp only [bfReplace, hplace, hwrite, ok_bind, setCcr_withDone, advance_withDone, toRes, finish]⟩

/-- Settles O41: the reading instructions by `bfRead_quiet`, the replacing ones by `bfReplace_quiet`. -/
theorem bitFieldInstructions : Obligations.BitFieldInstructions := by
  unfold Obligations.BitFieldInstructions
  intro s f d ea h off w5 w p v u flags reads
  have hflags : bfFlags s.ccr w = flags := funext (bfFlags_eq s.ccr w)
  simp only [reads, ← hflags, exec_bftst, exec_bfextu, exec_bfexts, exec_bfffo, exec_bfchg, exec_bfclr, exec_bfset,
    exec_bfins, execBftst, execBfextu, execBfexts, execBfffo, execBfchg, execBfclr, execBfset, bfModify_eq,
    execBfins_eq]
  exact ⟨bfRead_quiet h f ea (fun _ _ _ _ _ => rfl) rfl, bfRead_quiet h f ea (fun _ _ _ _ _ => rfl) rfl,
    bfRead_quiet h f ea (fun _ _ _ _ _ => rfl) rfl, bfRead_quiet h f ea (fun _ _ _ _ _ => rfl) rfl,
    bfReplace_quiet h off w ea _ _ rfl, bfReplace_quiet h off w ea _ _ rfl, bfReplace_quiet h off w ea _ _ rfl,
    bfReplace_quiet h off w ea _ _ rfl⟩

end Sys2Proof.Proofs
end

section
/-! PROOFS. Address errors (R614, R622, R652): the frame of a bus fault, and its fields read back from memory. -/

namespace Sys2Proof.Proofs

open Sys2Proof Sys2Proof.Machine Sys2Proof.Laws

variable {s t : State}

/-! ## Fields at ascending addresses (D8) -/

/-- Storing fields changes memory only. -/
theorem fieldsPut_eq (s : State) (fc : Fc) (a : Long) (fs : List (Nat × Long)) :
    fieldsPut s fc a fs = { s with mem := (fieldsPut s fc a fs).mem } := by
  induction fs generalizing s a with
  | nil => rfl
  | cons x fs ih =>
    rw [fieldsPut, ih, store_eq]

@[simp] theorem fieldsPut_platform (s : State) (fc : Fc) (a : Long) (fs : List (Nat × Long)) :
    (fieldsPut s fc a fs).platform = s.platform := by
  rw [fieldsPut_eq]

theorem quiet_fieldsPut (h : Quiet s) (fc : Fc) (a : Long) (fs : List (Nat × Long)) : Quiet (fieldsPut s fc a fs) := by
  rw [fieldsPut_eq]
  exact quiet_congr h rfl rfl rfl

theorem fieldsPut_wf (hwf : Memory.wf s.mem = true) (fc : Fc) (a : Long) (fs : List (Nat × Long)) :
    Memory.wf (fieldsPut s fc a fs).mem = true := by
  induction fs generalizing s a with
  | nil => exact hwf
  | cons x fs ih => exact ih (store_wf fc _ _ _ s hwf) _

/-- What a store leaves in memory depends on memory and platform alone. -/
theorem store_mem_congr (hm : t.mem = s.mem) (hp : t.platform = s.platform) (fc : Fc) (n : Nat) (a v : Long) :
    (store t fc n a v).mem = (store s fc n a v).mem := by
  induction n generalizing s t a with
  | zero => exact hm
  | succ n ih =>
    have hbyte : (setByteAt t fc a (byteOf v n)).mem = (setByteAt s fc a (byteOf v n)).mem := by
      simp only [setByteAt_eq, hm, hp]
    exact ih hbyte hp _

theorem fieldsPut_mem_congr (hm : t.mem = s.mem) (hp : t.platform = s.platform) (fc : Fc) (a : Long)
    (fs : List (Nat × Long)) : (fieldsPut t fc a fs).mem = (fieldsPut s fc a fs).mem := by
  induction fs generalizing s t a with
  | nil => exact hm
  | cons x fs ih => exact ih (store_mem_congr hm hp fc _ _ _) (by simp [hp]) _

theorem fieldsSize_cons (n : Nat) (v : Long) (fs : List (Nat × Long)) : fieldsSize ((n, v) :: fs) = n + fieldsSize fs :=
  rfl

/-- Every byte stays but those of the fields. -/
theorem sameMemBut_fieldsPut (hwf : Memory.wf s.mem = true) (fc : Fc) (a : Long) (fs : List (Nat × Long)) :
    SameMemBut s (fieldsPut s fc a fs) fc a (fieldsSize fs) := by
  induction fs generalizing s a with
  | nil => exact fun _ _ _ => rfl
  | cons x fs ih =>
    obtain ⟨n, v⟩ := x
    have hfirst : SameMemBut s (store s fc n a v) fc (a + BitVec.ofNat 32 0) n := fun fc' b hne =>
      byteAt_store_of_ne n v hwf (by simpa using hne)
    exact sameMemBut_trans (store_platform fc n a v s) hfirst (ih (store_wf fc n a v s hwf) _)
      (by rw [fieldsSize_cons]; omega) (le_refl _)

/-- A field reads back as what was stored in it. -/
theorem load_fieldsPut (hwf : Memory.wf s.mem = true) (fc : Fc) (a : Long) {fs : List (Nat × Long)}
    (hsize : fieldsSize fs ≤ 2 ^ 24) {i n : Nat} {v : Long} (hi : fs[i]? = some (n, v)) :
    load (fieldsPut s fc a fs) fc (a + BitVec.ofNat 32 (fieldsSize (fs.take i))) n = lowBits (8 * n) v := by
  induction fs generalizing s a i with
  | nil => exact nomatch hi
  | cons x fs ih =>
    obtain ⟨m, w⟩ := x
    rw [fieldsSize_cons] at hsize
    have hwf' := store_wf fc m a w s hwf
    cases i with
    | zero =>
      obtain ⟨rfl, rfl⟩ : m = n ∧ w = v := by simpa using hi
      refine load_of_byteOf fun j hj => ?_
      have hrest : byteAt (fieldsPut s fc a ((m, w) :: fs)) fc (a + BitVec.ofNat 32 j) =
          byteAt (store s fc m a w) fc (a + BitVec.ofNat 32 j) :=
        byteAt_of_outside (sameMemBut_fieldsPut hwf' fc _ fs) hsize (by omega) (.inl hj)
      have hstored := byteAt_store fc (by omega) a w hwf hj
      simpa [fieldsSize] using hrest.trans hstored
    | succ i =>
      have hfield := ih hwf' (a + BitVec.ofNat 32 m) (by omega) (i := i) (by simpa using hi)
      rwa [← add_ofNat_add] at hfield

/-- Where no bus cycle fails, every field is written. -/
theorem writeFields_quiet (h : Quiet s) {fc : Fc} (hf : fc ≠ 7#3) (a : Long) (fs : List (Nat × Long)) :
    writeFields s fc a fs = .ok (fieldsPut s fc a fs) := by
  induction fs generalizing s a with
  | nil => rfl
  | cons x fs ih =>
    rw [writeFields, busWrite_quiet h hf, ok_bind, ih (quiet_store h _ _ _ _)]
    rfl

/-- The state with fields pushed on the active stack. -/
def framePushed (s : State) (fs : List (Nat × Long)) : State :=
  fieldsPut (s.setSp (s.sp - BitVec.ofNat 32 (fieldsSize fs))) 5#3 (s.sp - BitVec.ofNat 32 (fieldsSize fs)) fs

theorem pushFields_quiet (h : Quiet s) (fs : List (Nat × Long)) : pushFields s fs = .ok (framePushed s fs) := by
  have hq : Quiet (s.setSp (s.sp - BitVec.ofNat 32 (fieldsSize fs))) := quiet_congr h rfl rfl rfl
  simp only [pushFields, sp_setSp, writeFields_quiet hq supervisorData_ne]
  rfl

/-- Pushing fields moves the stack pointer and changes memory. -/
theorem framePushed_eq (s : State) (fs : List (Nat × Long)) :
    framePushed s fs =
      { s.setSp (s.sp - BitVec.ofNat 32 (fieldsSize fs)) with mem := (framePushed s fs).mem } :=
  fieldsPut_eq _ _ _ fs

theorem framePushed_vbr (s : State) (fs : List (Nat × Long)) : (framePushed s fs).vbr = s.vbr := by
  rw [framePushed_eq]
  rfl

theorem quiet_framePushed (h : Quiet s) (fs : List (Nat × Long)) : Quiet (framePushed s fs) :=
  quiet_fieldsPut (s := s.setSp (s.sp - BitVec.ofNat 32 (fieldsSize fs))) (quiet_congr h rfl rfl rfl) _ _ fs

/-! ## The processing of a bus fault (R618) -/

/-- Where no bus cycle fails, a word tried at an even address changes cache and holding register only. -/
theorem prefetch_quiet (h : Quiet s) (hp : s.pipe = .empty) (hv : s.holding.valid = false) {a : Long}
    (ha : a.getLsbD 0 = false) : ∃ c x, prefetch s a = .ok { s with cache := c, holding := x } := by
  obtain ⟨lw, c, x, hl⟩ : ∃ lw c x, fetchLong s a = .ok (lw, { s with cache := c, holding := x }) := by
    cases hc : cacheHit s (progFc s) a with
    | none => exact ⟨_, _, _, fetchLong_miss hv hc (busRead_quiet h (progFc_ne s) _ 4)⟩
    | some lw => exact ⟨_, _, _, fetchLong_hit hv hc⟩
  exact ⟨c, x, by simp only [prefetch, fetchWord_of_fetchLong hp ha hl]⟩

/-- SR after step 1 of exception processing (R610). -/
def supervisorSr (s : State) : Sr := { s.sr with s := true, t1 := false, t0 := false }

/-- The state with the frame of a bus fault stacked. -/
def faultStacked (s : State) (f : FaultFrame) : State := framePushed (suspend s f) (faultFields s f)

/-- The vector of a bus fault, as it reads with the frame in memory. -/
def faultVector (s : State) (f : FaultFrame) : Long := load (faultStacked s f) 5#3 (vectorAddr s f.vector) 4

theorem quiet_suspend (h : Quiet s) (f : FaultFrame) : Quiet (suspend s f) :=
  ⟨⟨rfl, rfl, h.1.2.2.1, h.1.2.2.2⟩, h.2⟩

theorem quiet_faultStacked (h : Quiet s) (f : FaultFrame) : Quiet (faultStacked s f) :=
  quiet_framePushed (quiet_suspend h f) _

theorem vectorAddr_faultStacked (s : State) (f : FaultFrame) (vector : Byte) :
    vectorAddr (faultStacked s f) vector = vectorAddr s vector := by
  have hvbr : (faultStacked s f).vbr = s.vbr := framePushed_vbr (suspend s f) _
  simp only [vectorAddr, hvbr]

/-- Where no bus cycle fails, the handler's first word decides how the processing of a bus fault ends. -/
theorem takeFault_quiet (h : Quiet s) (f : FaultFrame) :
    takeFault s f = endState (prefetch (startAt (faultStacked s f) (faultVector s f)) (faultVector s f)) := by
  have hpush : pushFields (suspend s f) (faultFields s f) = .ok (faultStacked s f) :=
    pushFields_quiet (quiet_suspend h f) _
  have hread : busRead (faultStacked s f) 5#3 (vectorAddr (faultStacked s f) f.vector) 4 =
      .ok (faultVector s f, faultStacked s f) := by
    rw [busRead_quiet (quiet_faultStacked h f) supervisorData_ne, vectorAddr_faultStacked, faultVector]
  simp only [takeFault, hpush, hread]

/-- An even vector: the handler starts. -/
theorem takeFault_even (h : Quiet s) (f : FaultFrame) (hv : (faultVector s f).getLsbD 0 = false) :
    ∃ c x, takeFault s f = { startAt (faultStacked s f) (faultVector s f) with cache := c, holding := x } := by
  have hq := quiet_faultStacked h f
  obtain ⟨c, x, hfetch⟩ := prefetch_quiet (s := startAt (faultStacked s f) (faultVector s f))
    (quiet_congr hq rfl rfl rfl) rfl rfl hv
  exact ⟨c, x, by rw [takeFault_quiet h, hfetch]; rfl⟩

/-- An odd vector: the processor halts (R604). -/
theorem takeFault_odd (h : Quiet s) (f : FaultFrame) (hv : (faultVector s f).getLsbD 0 = true) :
    takeFault s f = halt (startAt (faultStacked s f) (faultVector s f)) := by
  rw [takeFault_quiet h, prefetch_odd rfl hv]
  rfl

/-- The processing of a bus fault leaves memory with the frame in it, whatever its vector. -/
theorem takeFault_mem (h : Quiet s) (f : FaultFrame) :
    (takeFault s f).mem = (faultStacked s f).mem ∧ (takeFault s f).platform = (faultStacked s f).platform := by
  cases hv : (faultVector s f).getLsbD 0
  · obtain ⟨c, x, he⟩ := takeFault_even h f hv
    rw [he]
    exact ⟨rfl, rfl⟩
  · rw [takeFault_odd h f hv]
    exact ⟨rfl, rfl⟩

/-- Every operand reads after the processing of a bus fault as with the frame just stacked. -/
theorem load_takeFault (h : Quiet s) (f : FaultFrame) (fc : Fc) (a : Long) (n : Nat) :
    load (takeFault s f) fc a n = load (faultStacked s f) fc a n := by
  obtain ⟨hm, hp⟩ := takeFault_mem h f
  exact load_congr hm hp fc a n

/-! ## Frame $B (R652) -/

/-- The size of frame $B. -/
theorem fieldsSize_long {f : FaultFrame} (hf : f.long = true) : fieldsSize (faultFields s f) = 92 := by
  simp [faultFields, hf, shortFields, longFields, frameHead, fieldsSize]

/-- Where frame $B is written: below the active stack pointer of the supervisor. -/
def longFrameSp (s : State) : Long := activeSp s.regs (supervisorSr s) - 92#32

theorem faultStacked_long {f : FaultFrame} (hf : f.long = true) :
    faultStacked s f = fieldsPut ((suspend s f).setSp (longFrameSp s)) 5#3 (longFrameSp s) (faultFields s f) := by
  rw [faultStacked, framePushed, fieldsSize_long hf]
  rfl

/-- A field of frame $B reads back after the processing of the bus fault. -/
theorem load_longFrame (h : Quiet s) (hwf : Memory.wf s.mem = true) {f : FaultFrame} (hf : f.long = true) {i n : Nat}
    {v : Long} (hi : (shortFields s f 11#4 ++ longFields s f)[i]? = some (n, v)) :
    load (takeFault s f) 5#3
      (longFrameSp s + BitVec.ofNat 32 (fieldsSize ((shortFields s f 11#4 ++ longFields s f).take i))) n =
      lowBits (8 * n) v := by
  have hfields : faultFields s f = shortFields s f 11#4 ++ longFields s f := if_pos hf
  have hsize := fieldsSize_long (s := s) hf
  rw [load_takeFault h, faultStacked_long hf]
  rw [hfields] at hsize ⊢
  exact load_fieldsPut (s := (suspend s f).setSp _) hwf 5#3 _ (by omega) hi

theorem load_longFrame_word (h : Quiet s) (hwf : Memory.wf s.mem = true) {f : FaultFrame} (hf : f.long = true) (i : Nat)
    {w : Word} (hi : (shortFields s f 11#4 ++ longFields s f)[i]? = some (2, w.setWidth 32)) :
    load (takeFault s f) 5#3
      (longFrameSp s + BitVec.ofNat 32 (fieldsSize ((shortFields s f 11#4 ++ longFields s f).take i))) 2 =
      w.setWidth 32 := by
  rw [load_longFrame h hwf hf hi, show 8 * 2 = 8 * bytesOf .w from rfl, lowBits_bytesOf]
  simp [trunc]

theorem load_longFrame_long (h : Quiet s) (hwf : Memory.wf s.mem = true) {f : FaultFrame} (hf : f.long = true) (i : Nat)
    {v : Long} (hi : (shortFields s f 11#4 ++ longFields s f)[i]? = some (4, v)) :
    load (takeFault s f) 5#3
      (longFrameSp s + BitVec.ofNat 32 (fieldsSize ((shortFields s f 11#4 ++ longFields s f).take i))) 4 = v :=
  (load_longFrame h hwf hf hi).trans (lowBits_bytesOf .l v)

/-- Every byte stays but those of frame $B. -/
theorem sameMemBut_takeFault (h : Quiet s) (hwf : Memory.wf s.mem = true) {f : FaultFrame} (hf : f.long = true) :
    SameMemBut s (takeFault s f) 5#3 (longFrameSp s) 92 := by
  obtain ⟨hm, hp⟩ := takeFault_mem h f
  have hstacked := sameMemBut_fieldsPut (s := (suspend s f).setSp (longFrameSp s)) hwf 5#3 (longFrameSp s)
    (faultFields s f)
  rw [fieldsSize_long hf, ← faultStacked_long hf] at hstacked
  exact fun fc' a' hne => (byteAt_congr hm hp fc' a').trans (hstacked fc' a' hne)

/-- From `s` a bus fault with frame $B has led to its handler, in `t`: the registers, the documented fields of the frame,
and the rest of memory. -/
structure LongFaultTaken (s t : State) (f : FaultFrame) : Prop where
  run : t.run = .normal
  pc : t.pc = load t 5#3 (vectorAddr s f.vector) 4
  sr : t.sr = supervisorSr s
  regs : t.regs = setActiveSp s.regs (supervisorSr s) (longFrameSp s)
  srCopy : load t 5#3 (longFrameSp s) 2 = s.sr.toWord.setWidth 32
  returnPc : load t 5#3 (longFrameSp s + 2#32) 4 = f.pc
  format : load t 5#3 (longFrameSp s + 6#32) 2 = (formatWord 11#4 f.vector).setWidth 32
  ssw : load t 5#3 (longFrameSp s + 0x0A#32) 2 = f.ssw.setWidth 32
  faultAddr : load t 5#3 (longFrameSp s + 0x10#32) 4 = f.faultAddr
  stageB : load t 5#3 (longFrameSp s + 0x24#32) 4 = f.stageB
  others : SameMemBut s t 5#3 (longFrameSp s) 92

/-- Where no bus cycle fails, a bus fault with frame $B leads to its handler at an even vector. -/
theorem longFaultTaken_takeFault (h : Quiet s) (hwf : Memory.wf s.mem = true) {f : FaultFrame} (hf : f.long = true)
    (hv : (load (takeFault s f) 5#3 (vectorAddr s f.vector) 4).getLsbD 0 = false) :
    LongFaultTaken s (takeFault s f) f := by
  rw [load_takeFault h] at hv
  obtain ⟨c, x, ht⟩ := takeFault_even h f hv
  have hstacked := framePushed_eq (suspend s f) (faultFields s f)
  rw [fieldsSize_long hf] at hstacked
  constructor
  case run => rw [ht, faultStacked, hstacked]; rfl
  case pc => rw [load_takeFault h, ht]; rfl
  case sr => rw [ht, faultStacked, hstacked]; rfl
  case regs => rw [ht, faultStacked, hstacked]; rfl
  case srCopy =>
    rw [← BitVec.add_zero (longFrameSp s)]
    exact load_longFrame_word h hwf hf 0 rfl
  case returnPc => exact load_longFrame_long h hwf hf 1 rfl
  case format => exact load_longFrame_word h hwf hf 2 rfl
  case ssw => exact load_longFrame_word h hwf hf 4 rfl
  case faultAddr => exact load_longFrame_long h hwf hf 7 rfl
  case stageB => exact load_longFrame_long h hwf hf 12 rfl
  case others => exact sameMemBut_takeFault h hwf hf

/-! ## Address errors (R622) -/

/-- From `s` the address error at the odd address `target` has led to its handler, in `t`, if its vector is even. `copy` is
the SR and `pc` the PC in its frame. -/
def AddressErrorTaken (s t : State) (copy : Sr) (pc target : Long) : Prop :=
  (load t 5#3 (s.vbr + 12#32) 4).getLsbD 0 = false →
    t.run = .normal ∧ t.pc = load t 5#3 (s.vbr + 12#32) 4 ∧ t.sr = supervisorSr s ∧
    t.regs = setActiveSp s.regs (supervisorSr s) (longFrameSp s) ∧
    load t 5#3 (longFrameSp s) 2 = copy.toWord.setWidth 32 ∧ load t 5#3 (longFrameSp s + 2#32) 4 = pc ∧
    load t 5#3 (longFrameSp s + 6#32) 2 = 0xB00C#32 ∧ load t 5#3 (longFrameSp s + 0x0A#32) 2 = 0x3000#32 ∧
    load t 5#3 (longFrameSp s + 0x24#32) 4 = target + 2#32 ∧ SameMemBut s t 5#3 (longFrameSp s) 92

/-- The address error at an odd address, where no bus cycle fails. -/
theorem addressErrorTaken_takeOdd (h : Quiet s) (hwf : Memory.wf s.mem = true) (pc target : Long) (kind : SuspKind) :
    AddressErrorTaken s (takeOdd s pc target kind) s.sr pc target := by
  intro hv
  have hq : Quiet { s with pipe := oddPipe s.pipe target } := quiet_congr h rfl rfl rfl
  have hformat : (formatWord 11#4 3#8).setWidth 32 = 0xB00C#32 := by decide
  have hssw : oddSsw.setWidth 32 = 0x3000#32 := by decide
  have hfault := longFaultTaken_takeFault hq hwf rfl hv
  exact ⟨hfault.run, hfault.pc, hfault.sr, hfault.regs, hfault.srCopy, hfault.returnPc,
    hfault.format.trans hformat, hfault.ssw.trans hssw, hfault.stageB, hfault.others⟩

/-- A jump to an odd address. -/
theorem addressErrorTaken_jmp (h : Quiet s) (hwf : Memory.wf s.mem = true) {a : Long} (ha : a.getLsbD 0 = true) :
    ∃ t, exec (.jmp (.absL a)) s = .next t ∧ AddressErrorTaken s t s.sr s.pc a := by
  obtain ⟨dn, hexec⟩ := (jmp_quiet h (.absL a)).2 ha
  have hq : Quiet (markFlow (s.withDone dn)) := quiet_congr h rfl rfl rfl
  exact ⟨_, hexec, addressErrorTaken_takeOdd hq hwf s.pc a (.jump a)⟩

/-! ## Odd vectors (R614) -/

/-- The fields of an exception's frame. -/
def entryFields (s : State) (e : Entry) : List (Nat × Long) :=
  frameHead s.sr e.pc e.body.format e.vector ++ e.body.fields

/-- The frame of an exception is shorter than frame $B. -/
theorem fieldsSize_entryFields_le (s : State) (e : Entry) : fieldsSize (entryFields s e) ≤ 92 := by
  obtain ⟨vector, body, pc, level⟩ := e
  cases body <;> simp [entryFields, frameHead, FrameBody.fields, fieldsSize]

/-- Where an exception writes its frame, after step 1. -/
def entrySp (s : State) (e : Entry) : Long :=
  activeSp s.regs (supervisorSr s) - BitVec.ofNat 32 (fieldsSize (entryFields s e))

/-- The vector of an exception, as it reads with the frame in memory. -/
def entryVector (s : State) (e : Entry) : Long :=
  load (fieldsPut s 5#3 (entrySp s e) (entryFields s e)) 5#3 (vectorAddr s e.vector) 4

/-- The state with the frame of an exception stacked. -/
def entryStacked (s : State) (e : Entry) : State := framePushed (stepOne s none) (entryFields s e)

theorem entryStacked_eq_fieldsPut (s : State) (e : Entry) :
    entryStacked s e =
      fieldsPut ((stepOne s none).setSp (entrySp s e)) 5#3 (entrySp s e) (entryFields s e) := rfl

/-- Where no bus cycle fails, an exception other than an interrupt stacks its frame and reads its vector. -/
theorem takeEntry_quiet (h : Quiet s) {e : Entry} (hl : e.level = none) :
    takeEntry s e = enterHandler (stepOne s none) e s.sr (entryStacked s e) (entryVector s e) := by
  have hstep : Quiet (stepOne s none) := quiet_congr h rfl rfl rfl
  have hq : Quiet (entryStacked s e) := quiet_framePushed hstep (entryFields s e)
  have hpush : stackEntry (stepOne s none) e s.sr = .ok (entryStacked s e) := by
    simp only [stackEntry, hl, Option.isSome_none, Bool.false_and, Bool.false_eq_true, if_false]
    rw [← entryFields, pushFields_quiet hstep]
    rfl
  have hmem : (entryStacked s e).mem = (fieldsPut s 5#3 (entrySp s e) (entryFields s e)).mem :=
    fieldsPut_mem_congr (s := s) (t := (stepOne s none).setSp (entrySp s e)) rfl rfl _ _ _
  have hplatform : (entryStacked s e).platform = (fieldsPut s 5#3 (entrySp s e) (entryFields s e)).platform := by
    rw [entryStacked, framePushed, fieldsPut_platform, fieldsPut_platform]
    rfl
  have hvbr : vectorAddr (entryStacked s e) e.vector = vectorAddr s e.vector := by
    rw [entryStacked, framePushed_eq]
    rfl
  have hread : busRead (entryStacked s e) 5#3 (vectorAddr (entryStacked s e) e.vector) 4 =
      .ok (entryVector s e, entryStacked s e) := by
    rw [busRead_quiet hq supervisorData_ne, hvbr, load_congr hmem hplatform]
    rfl
  simp only [takeEntry, processEntry, hl, hpush, entryBus, hread]

/-- What an exception has pushed lies in the place of frame $B. -/
theorem sameMemBut_entryStacked (hwf : Memory.wf s.mem = true) (e : Entry) :
    SameMemBut s (entryStacked s e) 5#3
      (longFrameSp s + BitVec.ofNat 32 (92 - fieldsSize (entryFields s e))) (fieldsSize (entryFields s e)) := by
  have hplace : longFrameSp s + BitVec.ofNat 32 (92 - fieldsSize (entryFields s e)) = entrySp s e := by
    have hle := fieldsSize_entryFields_le s e
    simp only [longFrameSp, entrySp]
    generalize fieldsSize (entryFields s e) = n at hle ⊢
    bv_omega
  rw [hplace, entryStacked_eq_fieldsPut]
  exact sameMemBut_of_eq rfl rfl
    (sameMemBut_fieldsPut (s := (stepOne s none).setSp (entrySp s e)) hwf 5#3 (entrySp s e) (entryFields s e))

/-- The state in which the address error of an odd vector begins: as after step 1, with the frame in memory (D18). -/
def oddVectorStart (s : State) (e : Entry) : State := { stepOne s none with mem := (entryStacked s e).mem }

theorem backTo_entryStacked (s : State) (e : Entry) : backTo (entryStacked s e) (stepOne s none) = oddVectorStart s e := by
  rw [oddVectorStart, entryStacked, framePushed_eq]
  rfl

/-- From there only frame $B is written, over the place of the exception's own frame. -/
theorem sameMemBut_oddVector (hwf : Memory.wf s.mem = true) {e : Entry}
    (h : SameMemBut (oddVectorStart s e) t 5#3 (longFrameSp s) 92) : SameMemBut s t 5#3 (longFrameSp s) 92 := by
  have hle := fieldsSize_entryFields_le s e
  have hplatform : (entryStacked s e).platform = s.platform := by
    rw [entryStacked_eq_fieldsPut, fieldsPut_platform]
    rfl
  have hafter : SameMemBut (entryStacked s e) t 5#3 (longFrameSp s + BitVec.ofNat 32 0) 92 := by
    rw [BitVec.add_zero]
    exact sameMemBut_of_eq (u := oddVectorStart s e) rfl hplatform.symm h
  exact sameMemBut_trans (c := 0) hplatform (sameMemBut_entryStacked hwf e) hafter (by omega) (le_refl _)

/-- An odd vector of an exception other than an interrupt. -/
theorem addressErrorTaken_takeEntry (h : Quiet s) (hwf : Memory.wf s.mem = true) {e : Entry} (hl : e.level = none)
    (hodd : (entryVector s e).getLsbD 0 = true) :
    AddressErrorTaken s (takeEntry s e) (supervisorSr s) e.pc (entryVector s e) := by
  have htaken : takeEntry s e = takeOdd (oddVectorStart s e) e.pc (entryVector s e)
      (.entry e s.sr (some (entryVector s e)) 0#32) := by
    rw [takeEntry_quiet h hl, enterHandler, if_pos hodd, backTo_entryStacked]
  have hq : Quiet (oddVectorStart s e) := quiet_congr h rfl rfl rfl
  have hmem : Memory.wf (oddVectorStart s e).mem = true :=
    fieldsPut_wf (s := (stepOne s none).setSp (entrySp s e)) hwf _ _ _
  intro hv
  rw [htaken] at hv ⊢
  obtain ⟨hrun, hpc, hsr, hregs, hcopy, hreturn, hformat, hssw, hstage, hothers⟩ :=
    addressErrorTaken_takeOdd hq hmem e.pc (entryVector s e) _ hv
  exact ⟨hrun, hpc, hsr, hregs, hcopy, hreturn, hformat, hssw, hstage, sameMemBut_oddVector hwf hothers⟩

/-- Settles O18: each clause is an `AddressErrorTaken`, by the frame that `takeFault` stacks where no bus cycle fails. -/
theorem oddTargetFaults : Obligations.OddTargetFaults := by
  unfold Obligations.OddTargetFaults
  intro s a e h hwf hl sr sp faults fields framed vector
  exact ⟨addressErrorTaken_takeOdd h hwf s.pc a (.jump a), addressErrorTaken_jmp h hwf,
    addressErrorTaken_takeEntry h hwf hl⟩

end Sys2Proof.Proofs
end

section
/-! PROOFS. System control (R390-R416, R420-R429, R627): what needs the supervisor, moves to and from special registers
and spaces, and the instructions that take an exception. -/

namespace Sys2Proof.Proofs

open Sys2Proof Sys2Proof.Machine Sys2Proof.Laws

variable {s : State}

/-! ## Privileged instructions (R390, R627) -/

/-- An SR instruction with an immediate, for a user program. -/
theorem srImm_user (hs : s.sr.s = false) (f : Word → Word) : srImm s f = privilegeViolation s :=
  requireSupervisor_user hs _

/-- Settles O11: every privileged instruction asks for the supervisor first. -/
theorem privilegedInUser : Obligations.PrivilegedInUser := by
  unfold Obligations.PrivilegedInUser
  intro i s hi hs
  have hviolation : privilegeViolation s = .next (abandoned s 8#8) := rfl
  rw [← hviolation]
  cases i with
  | andiSr imm => exact (exec_andiSr s imm).trans (srImm_user hs fun x => x &&& imm)
  | eoriSr imm => exact (exec_eoriSr s imm).trans (srImm_user hs fun x => x ^^^ imm)
  | oriSr imm => exact (exec_oriSr s imm).trans (srImm_user hs fun x => x ||| imm)
  | moveFromSr ea => exact (exec_moveFromSr s ea).trans (requireSupervisor_user hs _)
  | moveToSr ea => exact (exec_moveToSr s ea).trans (requireSupervisor_user hs _)
  | moveUsp fromUsp a => exact (exec_moveUsp s fromUsp a).trans (requireSupervisor_user hs _)
  | movec toCtl rn code => exact (exec_movec s toCtl rn code).trans (requireSupervisor_user hs _)
  | moves sz rn toMem ea => exact (exec_moves s sz rn toMem ea).trans (requireSupervisor_user hs _)
  | reset => exact (exec_reset s).trans (requireSupervisor_user hs _)
  | rte => exact (exec_rte s).trans (requireSupervisor_user hs _)
  | stop imm => exact (exec_stop s imm).trans (requireSupervisor_user hs _)
  | cpSave id ea => exact (exec_cpSave s id ea).trans (requireSupervisor_user hs _)
  | cpRestore id ea => exact (exec_cpRestore s id ea).trans (requireSupervisor_user hs _)
  | _ => exact absurd hi Bool.false_ne_true

/-! ## SR, RESET, STOP, USP (R399, R400, R406, R408, R412) -/

theorem moveToSr_quiet (h : Quiet s) (hs : s.sr.s = true) (ea : Ea) :
    CompletesAs (exec (.moveToSr ea) s) (advance (1 + eaLen .w ea)
      (markFlow (flush { eaStep s .w ea with sr := .ofWord ((eaVal s .w 0 ea).setWidth 16) }))) := by
  obtain ⟨dn, hread⟩ := withOperand_quiet h .w 0 ea fun v u =>
    .next (advance (1 + eaLen .w ea) (writeSr u (v.setWidth 16)))
  exact ⟨dn, ((exec_moveToSr s ea).trans (requireSupervisor_super hs _)).trans hread⟩

/-- Settles O46: each instruction asks for the supervisor and goes on; operands by their laws for quiet states. -/
theorem supervisorMoves : Obligations.SupervisorMoves := by
  unfold Obligations.SupervisorMoves
  intro s ea imm a h hs stop
  refine ⟨?_, moveToSr_quiet h hs ea, ⟨_, ?_, rfl⟩, ?_, ?_, ?_⟩
  · rw [exec_moveFromSr, execMoveFromSr, requireSupervisor_super hs]
    exact setEa_keeps_flags h .w ea _
  · rw [exec_reset, execReset, requireSupervisor_super hs]
    rfl
  · rw [exec_stop, execStop, requireSupervisor_super hs]
    rfl
  · rw [exec_moveUsp, execMoveUsp, requireSupervisor_super hs]
    rfl
  · rw [exec_moveUsp, execMoveUsp, requireSupervisor_super hs]
    rfl

/-! ## MOVES (R416) -/

/-- MOVES stores the register that its own address changes. -/
def StoresOwn (rn : Rn) (ea : Ea) : Prop := ∃ n, rn = anNum n ∧ (ea = .postInc n ∨ ea = .preDec n)

theorem storesOwnAddress_iff (rn : Rn) (ea : Ea) : storesOwnAddress rn ea = true ↔ StoresOwn rn ea := by
  cases ea with
  | postInc n | preDec n => simp [storesOwnAddress, StoresOwn, anNum]
  | _ => simp [storesOwnAddress, StoresOwn]

theorem setRnSized_eq (s : State) (sz : Size) (rn : Rn) (v : Long) :
    setRnSized s sz rn v =
      if rn.getLsbD 3 then s.setA (rn.extractLsb' 0 3) (sext sz v) else s.setDSized sz (rn.extractLsb' 0 3) v := by
  rw [setRnSized, isAn]
  split
  case isTrue hrn => rw [State.setRn, if_pos hrn]
  case isFalse => rfl

theorem setRnSized_withDone (s : State) (dn : List BusRec) (sz : Size) (rn : Rn) (v : Long) :
    setRnSized (s.withDone dn) sz rn v = (setRnSized s sz rn v).withDone dn := by
  simp only [setRnSized_eq, setA_withDone, setDSized_withDone]
  split <;> rfl

/-- MOVES to memory stores `x`, of a state `u` in which the free value, if it is one, has been used. -/
theorem moves_toMem (h : Quiet s) (hs : s.sr.s = true) (hfc : s.dfc ≠ 7#3) (sz : Size) (rn : Rn) (ea : Ea) {x : Long}
    {u : State} (hx : x = if storesOwnAddress rn ea then Config.freeLong s.freeIdx else s.rn rn)
    (hu : u = if storesOwnAddress rn ea then (eaStep s sz ea).tick else eaStep s sz ea) :
    CompletesAs (exec (.moves sz rn true ea) s)
      (advance (2 + eaLen sz ea) (store u s.dfc (bytesOf sz) (eaLoc s sz 1 ea).addr x)) := by
  obtain ⟨dn, heval⟩ := evalEa_quiet h sz (extAt s 1) ea
  rw [← eaLoc] at heval
  have hstate : (if storesOwnAddress rn ea = true then ((eaStep s sz ea).withDone dn).tick
      else (eaStep s sz ea).withDone dn) = u.withDone dn := by
    rw [hu]
    split <;> rfl
  have hq : Quiet (u.withDone dn) := by
    have hstep := quiet_eaStep h sz ea
    rw [hu]
    split
    · exact quiet_congr hstep rfl rfl rfl
    · exact quiet_congr hstep rfl rfl rfl
  have hwrite := writeFc_quiet hq hfc (eaLoc s sz 1 ea).addr (bytesOf sz) x
  rw [store_withDone, withDone_withDone] at hwrite
  rw [exec_moves, execMoves, requireSupervisor_super hs]
  simp only [heval, ok_bind, if_true, hstate, State.freeLong, ← hx, hwrite]
  exact ⟨_, rfl⟩

theorem moves_toReg (h : Quiet s) (hs : s.sr.s = true) (hfc : s.sfc ≠ 7#3) (sz : Size) (rn : Rn) (ea : Ea) :
    CompletesAs (exec (.moves sz rn false ea) s)
      (advance (2 + eaLen sz ea) (setRnSized (eaStep s sz ea) sz rn
        (load s s.sfc (eaLoc s sz 1 ea).addr (bytesOf sz)))) := by
  obtain ⟨dn, heval⟩ := evalEa_quiet h sz (extAt s 1) ea
  rw [← eaLoc] at heval
  have hread := readFc_quiet (quiet_withDone (quiet_eaStep h sz ea) dn) hfc (eaLoc s sz 1 ea).addr (bytesOf sz)
  rw [load_withDone, load_eaStep, withDone_withDone] at hread
  rw [exec_moves, execMoves, requireSupervisor_super hs]
  simp only [heval, ok_bind, Bool.false_eq_true, if_false, hread, setRnSized_withDone]
  exact ⟨_, rfl⟩

/-- Settles O48: the value and the state that MOVES stores depend on whether the register is that of its own address. -/
theorem alternateSpaces : Obligations.AlternateSpaces := by
  unfold Obligations.AlternateSpaces
  intro s sz rn ea h hs _ a u v own
  refine ⟨fun hfc hown => ?_, fun hfc hown => ?_, fun hfc => ?_⟩
  · have hfalse : ¬ storesOwnAddress rn ea = true := mt (storesOwnAddress_iff rn ea).1 hown
    exact moves_toMem h hs hfc sz rn ea (if_neg hfalse).symm (if_neg hfalse).symm
  · have htrue : storesOwnAddress rn ea = true := (storesOwnAddress_iff rn ea).2 hown
    exact moves_toMem h hs hfc sz rn ea (if_pos htrue).symm (if_pos htrue).symm
  · exact setRnSized_eq u sz rn v ▸ moves_toReg h hs hfc sz rn ea

/-! ## Traps in words (R424, R425, R428) -/

/-- The operation word of TRAP from its twelve fixed bits and the number. -/
theorem decode_trap (v : BitVec 4) : decode [0b010011100100#12 ++ v] = .instr (.trap v) [] := by
  refine decode_of_encode rfl (congrArg (fun w => [w]) ?_)
  revert v
  decide

/-! ## The breakpoint acknowledge cycle (R130, R420) -/

/-- The address of a breakpoint's acknowledge cycle. -/
def bkptAddr (n : BitVec 3) : Long := n.setWidth 32 <<< 2

/-- The acknowledge cycles of a breakpoint, of which both bytes of the word are read, are in CPU space type 0. -/
theorem bkptAddr_fields (n : BitVec 3) :
    (bkptAddr n).toNat = 4 * n.toNat ∧
    (∀ v, extAddr v (bkptAddr n) = 4 * n.toNat) ∧
    (cpuType (bkptAddr n) = 0 ∧ (bkptAddr n).extractLsb' 2 3 = n ∧ (bkptAddr n).toNat % 4 = 0) ∧
    (cpuType (bkptAddr n + 1#32) = 0 ∧ (bkptAddr n + 1#32).extractLsb' 2 3 = n ∧ (bkptAddr n + 1#32).toNat % 4 = 1) := by
  refine ⟨?_, fun v => ?_, ?_⟩
  · revert n
    decide
  · cases v
    · revert n
      decide
    · revert n
      decide
  · revert n
    decide

/-- A read of CPU space where no bus cycle fails of itself: the unit that is addressed answers. -/
theorem readCycle_cpu (h : Quiet s) (a : Long) (k : Nat) : readCycle s 7#3 a k = cpuReadCycle s a k := by
  simp only [readCycle, h.2, cycleWaits_none h.1.2.2.2, Bool.false_eq_true, if_false, if_true]

/-- A cycle of a read of CPU space that is answered. -/
theorem readCycles_cpu_ok (h : Quiet s) {fuel rem k : Nat} (hrem : rem ≠ 0) {a v acc : Long}
    (hk : cycleBytes s.platform 7#3 a rem = k) (hc : cpuReadCycle s a k = .ok (v, s)) :
    readCycles 7#3 (fuel + 1) s a rem acc =
      readCycles 7#3 fuel s (a + BitVec.ofNat 32 k) (rem - k) ((acc <<< (8 * k)) ||| v) := by
  rw [← readCycle_cpu h] at hc
  simp only [readCycles, hrem, if_false, otherMasters_none h.1.2.2.1, hk,
    runCycle_ok (cycle := fun s => readCycle s 7#3 a k) hc]

/-- A cycle of a read of CPU space that nothing answers. -/
theorem readCycles_cpu_err (h : Quiet s) {fuel rem : Nat} (hrem : rem ≠ 0) {a acc : Long}
    (hc : ∀ k, cpuReadCycle s a k = .error (.err s)) :
    ∃ f, readCycles 7#3 (fuel + 1) s a rem acc = .error (.fault f acc s) := by
  simp only [← readCycle_cpu h] at hc
  simp only [readCycles, hrem, if_false, otherMasters_none h.1.2.2.1,
    runCycle_err (cycle := fun s => readCycle s 7#3 a _) (hc _)]
  exact ⟨_, rfl⟩

/-- The bytes of a breakpoint's word stand at offsets 0 and 1 of its address. -/
theorem cpuReadCycle_bkpt {n : BitVec 3} {w : Word} (hw : bkptAnswer s.platform n = some w) {a : Long} {o k : Nat}
    (ha : cpuType a = 0 ∧ a.extractLsb' 2 3 = n ∧ a.toNat % 4 = o) (hk : o + k ≤ 2) :
    cpuReadCycle s a k = .ok (lowBits (8 * k) (w.setWidth 32 >>> (8 * (2 - o - k))), s) := by
  obtain ⟨htype, hn, ho⟩ := ha
  simp only [cpuReadCycle, htype, hn, ho, hw, hk, if_true]

/-- The acknowledge cycle of a breakpoint that nothing answers. -/
theorem cpuReadCycle_bkpt_none {n : BitVec 3} (hw : bkptAnswer s.platform n = none)
    (hmem : ∀ r ∈ s.platform.cpuSpace, ¬ (r.1 ≤ 4 * n.toNat ∧ 4 * n.toNat ≤ r.2)) (k : Nat) :
    cpuReadCycle s (bkptAddr n) k = .error (.err s) := by
  obtain ⟨-, hext, ⟨htype, hn, -⟩, -⟩ := bkptAddr_fields n
  have hany : (s.platform.cpuSpace.any fun r => decide (r.1 ≤ 4 * n.toNat ∧ 4 * n.toNat ≤ r.2)) = false := by
    simpa using hmem
  simp only [cpuReadCycle, htype, hn, hw, cpuMemRead, hext, hany, Bool.false_eq_true, if_false]

/-- The low bytes of a word, read in one cycle or in two. -/
theorem word_of_cycles (w : Word) :
    lowBits 16 (w.setWidth 32) = w.setWidth 32 ∧
    (lowBits 8 (w.setWidth 32 >>> 8) <<< 8) ||| lowBits 8 (w.setWidth 32) = w.setWidth 32 := by
  constructor
  · refine BitVec.eq_of_getLsbD_eq fun i hi => ?_
    rw [getLsbD_lowBits]
    interval_cases i <;> simp
  · refine BitVec.eq_of_getLsbD_eq fun i hi => ?_
    rw [BitVec.getLsbD_or, BitVec.getLsbD_shiftLeft, getLsbD_lowBits, getLsbD_lowBits]
    interval_cases i <;> simp

/-- The acknowledge cycles of a breakpoint deliver its word, whatever the width of the port. -/
theorem busRead_bkpt (h : Quiet s) {n : BitVec 3} {w : Word} (hw : bkptAnswer s.platform n = some w) :
    busRead s 7#3 (bkptAddr n) 2 = .ok (w.setWidth 32, s) := by
  obtain ⟨-, -, hfirst, hsecond⟩ := bkptAddr_fields n
  obtain ⟨hone, htwo⟩ := word_of_cycles w
  obtain ⟨hpos, hle⟩ := cycleBytes_bounds s.platform 7#3 (bkptAddr n) 2 (by decide)
  rw [busRead]
  obtain hk | hk : cycleBytes s.platform 7#3 (bkptAddr n) 2 = 2 ∨ cycleBytes s.platform 7#3 (bkptAddr n) 2 = 1 := by
    omega
  · rw [readCycles_cpu_ok h (by decide) hk (cpuReadCycle_bkpt hw hfirst (by decide))]
    simpa [readCycles] using hone
  · have hk' : cycleBytes s.platform 7#3 (bkptAddr n + 1#32) 1 = 1 := by
      obtain ⟨hpos', hle'⟩ := cycleBytes_bounds s.platform 7#3 (bkptAddr n + 1#32) 1 (by decide)
      omega
    rw [readCycles_cpu_ok h (by decide) hk (cpuReadCycle_bkpt hw hfirst (by decide)),
      readCycles_cpu_ok h (by decide) hk' (cpuReadCycle_bkpt hw hsecond (by decide))]
    simpa [readCycles] using htwo

theorem bkpt_answered (h : Quiet s) {n : BitVec 3} {w : Word} (hw : bkptAnswer s.platform n = some w) :
    exec (.bkpt n) s = .next
      { s with pipe := { s.pipe with d := { valid := true, addr := s.pc, word := w, fault := false } },
               resume := some .decode } := by
  have hword : (w.setWidth 32 : Long).setWidth 16 = w := by simp
  rw [exec_bkpt, execBkpt, ← bkptAddr, busRead_bkpt h hw]
  simp only [hword]

theorem bkpt_unanswered (h : Quiet s) {n : BitVec 3} (hw : bkptAnswer s.platform n = none)
    (hmem : ∀ r ∈ s.platform.cpuSpace, ¬ (r.1 ≤ 4 * n.toNat ∧ 4 * n.toNat ≤ r.2)) :
    exec (.bkpt n) s = .next (abandoned s 4#8) := by
  obtain ⟨f, hread⟩ := readCycles_cpu_err h (fuel := 1) (rem := 2) (by decide) (acc := 0#32)
    (cpuReadCycle_bkpt_none hw hmem)
  rw [exec_bkpt, execBkpt, ← bkptAddr, busRead, hread]
  rfl

/-! ## Traps (R424-R429) -/

/-- A conditional trap in terms of its condition. -/
theorem trapIf_eq (b : Bool) (n : Nat) (s : State) :
    trapIf b n s = .next (if b then trapSixState s 7#8 n else advance n s) := by
  cases b <;> rfl

theorem execUnassigned_eq (w : Word) (s : State) :
    execUnassigned w s = .next (abandoned s (if w.extractLsb' 12 4 = 15#4 then 11#8 else 4#8)) := by
  rw [execUnassigned, field]
  split <;> rfl

theorem execFlineCpid0_absent (hid : hasCoprocessor s.platform 0#3 = false) (x : BitVec 9) :
    execFlineCpid0 x s = .next (abandoned s (if s.sr.s then 11#8 else 8#8)) := by
  rw [execFlineCpid0, hid, if_neg Bool.false_ne_true]
  split <;> rfl

/-- Settles O49: words by the encoder, traps by their condition, BKPT by its acknowledge cycle. -/
theorem trapInstructions : Obligations.TrapInstructions := by
  unfold Obligations.TrapInstructions
  refine ⟨fun s v cc w l x12 x9 id x7 => ?_, fun s n h => ⟨fun w => bkpt_answered h, bkpt_unanswered h⟩⟩
  exact ⟨decode_trap v, decode_of_encode rfl rfl, decode_of_encode rfl rfl, exec_trap s v,
    (exec_trapcc s cc).trans (trapIf_eq _ 1 s), (exec_trapccW s cc w).trans (trapIf_eq _ 2 s),
    (exec_trapccL s cc l).trans (trapIf_eq _ 3 s), (exec_trapv s).trans (trapIf_eq _ 1 s), exec_illegal s,
    exec_aline s x12, exec_flineBadType s id x7, (exec_unassigned s w).trans (execUnassigned_eq w s),
    fun hid => (exec_flineCpid0 s x9).trans (execFlineCpid0_absent hid x9)⟩

end Sys2Proof.Proofs
end

section
/-! PROOFS. Coprocessor instructions where no coprocessor answers (R429, R468, R469, R486). -/

namespace Sys2Proof.Proofs

open Sys2Proof Sys2Proof.Machine Sys2Proof.Laws

variable {s : State}

/-! ## The interface registers (R461, R466) -/

/-- Offsets of the two-byte interface registers that begin an instruction or a dialogue: response, save, restore, command,
condition. -/
def cirOffsets : List Long := [0x00#32, 0x04#32, 0x06#32, 0x0A#32, 0x0E#32]

/-- The address of an interface register names CPU space type 2 and the coprocessor, and its word lies in one long word. -/
theorem cirAddr_fields (w : Word) {offset : Long} (ho : offset ∈ cirOffsets) :
    cpuType (cirAddr w offset) = 2 ∧ (cirAddr w offset).extractLsb' 13 3 = cpId w ∧
      (cirAddr w offset).toNat % 4 + 2 ≤ 4 := by
  rw [cirAddr]
  generalize cpId w = id
  fin_cases ho
  all_goals
    revert id
    decide

theorem cpId_mkOp (line : BitVec 4) (id op mode reg : BitVec 3) : cpId (mkOp line id op mode reg) = id := by
  refine BitVec.eq_of_getLsbD_eq fun i hi => ?_
  simp only [cpId, field, mkOp, BitVec.getLsbD_extractLsb', BitVec.getLsbD_append]
  interval_cases i <;> simp

theorem cpId_cpBcc (line : BitVec 4) (id op : BitVec 3) (sel : BitVec 6) : cpId (line ++ id ++ op ++ sel) = id := by
  refine BitVec.eq_of_getLsbD_eq fun i hi => ?_
  simp only [cpId, field, BitVec.getLsbD_extractLsb', BitVec.getLsbD_append]
  interval_cases i <;> simp

/-! ## Accesses that no coprocessor answers (R486) -/

theorem logWrite_absent {id : BitVec 3} {cs : List Coprocessor} (h : (cs.any fun c => c.id == id) = false)
    (x : CirWrite) : logWrite id x cs = none := by
  induction cs with
  | nil => rfl
  | cons c cs ih =>
    obtain ⟨hc, hcs⟩ : ¬ c.id = id ∧ (cs.any fun c => c.id == id) = false := by simpa using h
    rw [logWrite, if_neg hc, ih hcs, Option.map_none]

theorem popAnswer_absent {id : BitVec 3} {cs : List Coprocessor} (h : (cs.any fun c => c.id == id) = false) :
    popAnswer id cs = none := by
  induction cs with
  | nil => rfl
  | cons c cs ih =>
    obtain ⟨hc, hcs⟩ : ¬ c.id = id ∧ (cs.any fun c => c.id == id) = false := by simpa using h
    rw [popAnswer, if_neg hc, ih hcs]

/-- A write of CPU space where no bus cycle fails of itself: the unit that is addressed takes it. -/
theorem writeCycle_cpu (h : Quiet s) (a : Long) (k : Nat) (v : Long) :
    writeCycle s 7#3 a k v = cpuWriteCycle s a k v := by
  simp only [writeCycle, h.2, cycleWaits_none h.1.2.2.2, Bool.false_eq_true, if_false, if_true]

section

variable (h : Quiet s) {w : Word} (hid : hasCoprocessor s.platform (cpId w) = false) {offset : Long}
  (ho : offset ∈ cirOffsets)

include h hid ho

theorem busWrite_absent (v : Long) : ∃ f, busWrite s 7#3 (cirAddr w offset) 2 v = .error (.fault f 0#32 s) := by
  obtain ⟨htype, hcp, -⟩ := cirAddr_fields w ho
  have hc : ∀ k x, writeCycle s 7#3 (cirAddr w offset) k x = .error (.err s) := fun k x => by
    simp only [writeCycle_cpu h, cpuWriteCycle, htype, hcp, logWrite_absent hid]
  simp only [busWrite, writeCycles, OfNat.ofNat_ne_zero, if_false, otherMasters_none h.1.2.2.1,
    runCycle_err (cycle := fun s => writeCycle s 7#3 (cirAddr w offset) _ _) (hc _ _)]
  exact ⟨_, rfl⟩

theorem busRead_absent : ∃ f, busRead s 7#3 (cirAddr w offset) 2 = .error (.fault f 0#32 s) := by
  obtain ⟨htype, hcp, -⟩ := cirAddr_fields w ho
  exact readCycles_cpu_err h (by decide) fun k => by
    simp only [cpuReadCycle, htype, hcp, popAnswer_absent hid]

/-- The write that begins an instruction. -/
theorem cirFirstWrite_absent (v : Long) : cirFirstWrite s w offset v = .error (lineF s) := by
  obtain ⟨f, hwrite⟩ := busWrite_absent h hid ho v
  simp only [cirFirstWrite, h.1.1, land_none h.1.2.1, hwrite]

/-- The read of the save CIR that begins cpSAVE. -/
theorem cirFirstRead_absent : cirFirstRead s w offset = .error (lineF s) := by
  obtain ⟨f, hread⟩ := busRead_absent h hid ho
  simp only [cirFirstRead, h.1.1, land_none h.1.2.1, hread]

theorem cpStart_absent (v : Word) (bytes : Nat) : cpStart w offset v bytes s = .next (abandoned s 11#8) := by
  rw [cpStart, cirFirstWrite_absent h hid ho]
  rfl

end

/-! ## The instructions -/

/-- General and conditional instructions. -/
theorem exec_dialogue_absent (h : Quiet s) {id : BitVec 3} (hid : hasCoprocessor s.platform id = false)
    (m r : BitVec 3) (w : Word) (sel : BitVec 6) (d : Reg) :
    ∀ i ∈ [Instr.cpGen id m r w, .cpDbcc id d w, .cpTrapccW id w, .cpTrapccL id w, .cpTrapcc id w, .cpScc id m r w,
      .cpBccW id sel, .cpBccL id sel], exec i s = .next (abandoned s 11#8) := by
  have hcommand : (0x0A#32 : Long) ∈ cirOffsets := by decide
  have hcondition : (0x0E#32 : Long) ∈ cirOffsets := by decide
  have hfields : ∀ op mode reg, hasCoprocessor s.platform (cpId (mkOp 15 id op mode reg)) = false := fun op mode reg => by
    rw [cpId_mkOp, hid]
  have hbranch : ∀ op, hasCoprocessor s.platform (cpId (15#4 ++ id ++ op ++ sel)) = false := fun op => by
    rw [cpId_cpBcc, hid]
  simp only [List.forall_mem_cons, List.not_mem_nil, false_imp_iff, implies_true, and_true]
  exact ⟨cpStart_absent h (hfields 0 m r) hcommand w 4, cpStart_absent h (hfields 1 1 d) hcondition w 4,
    cpStart_absent h (hfields 1 7 2) hcondition w 4, cpStart_absent h (hfields 1 7 3) hcondition w 4,
    cpStart_absent h (hfields 1 7 4) hcondition w 4, cpStart_absent h (hfields 1 m r) hcondition w 4,
    cpStart_absent h (hbranch 2) hcondition _ 2, cpStart_absent h (hbranch 3) hcondition _ 2⟩

theorem cpId_opword_cpSave (id : BitVec 3) (ea : Ea) : cpId (opword (.cpSave id ea)) = id := cpId_mkOp _ _ _ _ _

theorem cpId_opword_cpRestore (id : BitVec 3) (ea : Ea) : cpId (opword (.cpRestore id ea)) = id := cpId_mkOp _ _ _ _ _

theorem cpSave_absent (h : Quiet s) (hs : s.sr.s = true) {id : BitVec 3} (hid : hasCoprocessor s.platform id = false)
    (ea : Ea) : exec (.cpSave id ea) s = .next (abandoned s 11#8) := by
  have hread := cirFirstRead_absent (w := opword (.cpSave id ea)) (offset := 4#32) h
    (by rw [cpId_opword_cpSave, hid]) (by decide)
  rw [exec_cpSave, execCpSave, requireSupervisor_super hs, cpSaveAt, dialogueFuel, saveFormat, hread]
  rfl

/-- The effective address of cpRESTORE names the location of its format word and steps no register yet (R469). -/
theorem restoreLoc_quiet (h : Quiet s) {ea : Ea} (hea : ea.wf .controlOrPost .l = true) (pcx : Long) :
    ∃ dn, restoreLoc s pcx ea = .ok (locAt s .l pcx ea, s.withDone dn) := by
  obtain ⟨dn, heval⟩ := evalEa_quiet h .l pcx ea
  cases ea with
  | postInc n => exact ⟨s.done, rfl⟩
  | preDec n => exact absurd hea Bool.false_ne_true
  | _ => exact ⟨dn, heval⟩

theorem cpRestore_absent (h : Quiet s) (hs : s.sr.s = true) {id : BitVec 3}
    (hid : hasCoprocessor s.platform id = false) {ea : Ea} (hea : ea.wf .controlOrPost .l = true) :
    ∃ dn, exec (.cpRestore id ea) s = .next (abandoned (s.withDone dn) 11#8) := by
  obtain ⟨d1, hloc⟩ := restoreLoc_quiet h hea (extAt s 0)
  have hread := fun loc : Loc => readFc_quiet (quiet_withDone h d1) (spaceFc_ne (s.withDone d1) loc.prog) loc.addr 2
  have hwrite := fun d2 => cirFirstWrite_absent (s := s.withDone d2) (w := opword (.cpRestore id ea)) (offset := 6#32)
    (quiet_withDone h d2) (by rw [cpId_opword_cpRestore]; exact hid) (by decide)
  rw [exec_cpRestore, execCpRestore, requireSupervisor_super hs]
  simp only [cpRestoreAt, hloc, hread, hwrite, ok_bind, withDone_withDone]
  exact ⟨_, rfl⟩

/-- Settles O54: the first access of each instruction to the coprocessor ends in bus error. -/
theorem absentCoprocessor : Obligations.AbsentCoprocessor := by
  unfold Obligations.AbsentCoprocessor
  intro s id m r w sel d h hid
  exact ⟨exec_dialogue_absent h hid m r w sel d, fun hs ea =>
    ⟨cpSave_absent h hs hid ea, cpRestore_absent h hs hid⟩⟩

end Sys2Proof.Proofs
end

section
/-! PROOFS. RTE (R410): the head of a frame, what each format does with it, and TRAP and RTE as inverse (R425). -/

namespace Sys2Proof.Proofs

open Sys2Proof Sys2Proof.Machine Sys2Proof.Laws

variable {s t : State}

/-! ## Changes of flow that an instruction has noted already (R632) -/

theorem markFlow_markFlow (u : State) : markFlow (markFlow u) = markFlow u := by
  simp only [markFlow, Bool.or_assoc, Bool.or_self]

/-- A change of flow noted before the jump makes no difference. -/
theorem goesTo_of_markFlow {r : Res} {u : State} {target : Long} (h : GoesTo r (markFlow u) target) :
    GoesTo r u target := by
  refine ⟨fun heven => markFlow_markFlow u ▸ h.1 heven, fun hodd => ?_⟩
  obtain ⟨dn, hr⟩ := h.2 hodd
  exact ⟨dn, hr.trans (congrArg (fun x => Host.Outcome.next (jumpFault x target)) (markFlow_markFlow (u.withDone dn)))⟩

/-- Nor does the log of the state that jumps. -/
theorem goesTo_of_withDone {r : Res} {u : State} {dn : List BusRec} {target : Long}
    (h : GoesTo r (u.withDone dn) target) : GoesTo r u target := h

/-! ## The head of a frame (R640) -/

/-- The word at an offset of the frame on the active stack. -/
def frameWord (s : State) (offset : Long) : Long := load s (dataFc s) (s.sp + offset) 2

/-- The format code of the frame on the active stack. -/
def frameFormat (s : State) : BitVec 4 := (frameWord s 6#32).extractLsb' 12 4

/-- The PC in the frame on the active stack. -/
def framePc (s : State) : Long := load s (dataFc s) (s.sp + 2#32) 4

/-- The SR in the frame on the active stack. -/
def frameSr (s : State) : Word := (load s (dataFc s) s.sp 2).setWidth 16

/-- The state with the SR of the frame and `n` bytes popped. -/
def popped (s : State) (n : Long) : State := { s.setSp (s.sp + n) with sr := .ofWord (frameSr s) }

/-- The frame on the active stack depends on registers, SR, memory and platform alone. -/
theorem frame_congr (hregs : t.regs = s.regs) (hsr : t.sr = s.sr) (hmem : t.mem = s.mem)
    (hplatform : t.platform = s.platform) :
    frameFormat t = frameFormat s ∧ framePc t = framePc s ∧ frameSr t = frameSr s := by
  have hsp : t.sp = s.sp := by rw [State.sp, State.sp, hregs, hsr]
  have hload := load_congr hmem hplatform
  simp only [frameFormat, frameWord, framePc, frameSr, hsp, dataFc_congr hsr, hload, and_self]

/-- What RTE does with a frame of a format, at `sp`, once its head has been read. -/
def rteDispatch (n : Nat) (sp : Long) (sr : Word) (pc : Long) (format : BitVec 4) (s : State) : Res :=
  match format.toNat with
  | 0 => .next (jumpTo (writeSr (s.setSp (sp + 8#32)) sr) pc)
  | 1 => rteLoop n (writeSr (s.setSp (sp + 8#32)) sr)
  | 2 => .next (jumpTo (writeSr (s.setSp (sp + 12#32)) sr) pc)
  | 9 => rteMid sp sr pc s
  | 10 => rteFault false sp sr s
  | 11 => rteFault true sp sr s
  | _ => formatError s

/-- Where no bus cycle fails, RTE reads the head of the frame, and its format decides. -/
theorem rteLoop_quiet (h : Quiet s) (n : Nat) :
    ∃ dn, rteLoop (n + 1) s = rteDispatch n s.sp (frameSr s) (framePc s) (frameFormat s) (s.withDone dn) := by
  obtain ⟨d1, hsr⟩ : ∃ dn, memRead s s.sp 2 = .ok (load s (dataFc s) s.sp 2, s.withDone dn) := ⟨_, memRead_quiet h _ _⟩
  obtain ⟨d2, hpc⟩ : ∃ dn, memRead (s.withDone d1) (s.sp + 2#32) 4 = .ok (framePc s, s.withDone dn) :=
    ⟨_, memRead_quiet (quiet_withDone h d1) _ _⟩
  obtain ⟨d3, hformat⟩ : ∃ dn, memRead (s.withDone d2) (s.sp + 6#32) 2 = .ok (frameWord s 6#32, s.withDone dn) :=
    ⟨_, memRead_quiet (quiet_withDone h d2) _ _⟩
  refine ⟨d3, ?_⟩
  simp only [rteLoop, hsr, hpc, hformat] <;> rfl

theorem exec_rte_super (hs : s.sr.s = true) : exec .rte s = rteLoop (15 + 1) s :=
  (exec_rte s).trans (requireSupervisor_super hs _)

/-! ## Four-word, six-word and throwaway frames -/

/-- RTE of a frame without internal state goes to its PC. -/
theorem rteLoop_plain (h : Quiet s) (n : Nat) :
    (frameFormat s = 0#4 → GoesTo (rteLoop (n + 1) s) (flush (popped s 8#32)) (framePc s)) ∧
    (frameFormat s = 2#4 → GoesTo (rteLoop (n + 1) s) (flush (popped s 12#32)) (framePc s)) := by
  obtain ⟨dn, hrte⟩ := rteLoop_quiet h n
  constructor
  · intro hf
    rw [hrte, hf]
    exact goesTo_of_markFlow (goesTo_jumpTo_withDone (markFlow (flush (popped s 8#32))) dn _)
  · intro hf
    rw [hrte, hf]
    exact goesTo_of_markFlow (goesTo_jumpTo_withDone (markFlow (flush (popped s 12#32))) dn _)

/-- RTE of a throwaway frame goes on with the stack that the new SR selects. -/
theorem rteLoop_throwaway (h : Quiet s) (n : Nat) (hf : frameFormat s = 1#4) :
    ∃ dn, rteLoop (n + 1) s = rteLoop n (markFlow (flush ((popped s 8#32).withDone dn))) := by
  obtain ⟨dn, hrte⟩ := rteLoop_quiet h n
  rw [hf] at hrte
  exact ⟨dn, hrte⟩

/-- A throwaway frame, and then one without internal state. -/
theorem rteLoop_throwaway_plain (h : Quiet s) (n : Nat) (hf : frameFormat s = 1#4) {u : State} (hu : u = popped s 8#32) :
    (frameFormat u = 0#4 → GoesTo (rteLoop (n + 1 + 1) s) (flush (popped u 8#32)) (framePc u)) ∧
    (frameFormat u = 2#4 → GoesTo (rteLoop (n + 1 + 1) s) (flush (popped u 12#32)) (framePc u)) := by
  obtain ⟨dn, hrte⟩ := rteLoop_throwaway h (n + 1) hf
  rw [← hu] at hrte
  obtain ⟨hformat, hpc, hsr⟩ := frame_congr (s := u) (t := markFlow (flush (u.withDone dn))) rfl rfl rfl rfl
  have hpopped : ∀ k, flush (popped (markFlow (flush (u.withDone dn))) k) =
      (markFlow (flush (popped u k))).withDone dn := fun k => by
    rw [popped, hsr]
    rfl
  have hq : Quiet (markFlow (flush (u.withDone dn))) := quiet_congr (hu ▸ h) rfl rfl rfl
  have hplain := rteLoop_plain hq n
  rw [hformat, hpc, hpopped, hpopped, ← hrte] at hplain
  exact ⟨fun h0 => goesTo_of_markFlow (goesTo_of_withDone (hplain.1 h0)), fun h2 => goesTo_of_markFlow (goesTo_of_withDone (hplain.2 h2))⟩

/-- RTE of a frame of an undefined format is a format error (R636). -/
theorem rteLoop_undefined (h : Quiet s) (n : Nat)
    (hf : frameFormat s ∈ [3#4, 4#4, 5#4, 6#4, 7#4, 8#4, 12#4, 13#4, 14#4, 15#4]) :
    ∃ dn, rteLoop (n + 1) s = formatError (s.withDone dn) := by
  obtain ⟨dn, hrte⟩ := rteLoop_quiet h n
  refine ⟨dn, hrte.trans ?_⟩
  generalize frameFormat s = f at hf
  fin_cases hf
  all_goals rfl

/-! ## TRAP and RTE (R410, R425) -/

/-- An exception with an even vector starts its handler with the frame stacked. -/
theorem takeEntry_even (h : Quiet s) {e : Entry} (hl : e.level = none) (hv : (entryVector s e).getLsbD 0 = false) :
    takeEntry s e = startAt (entryStacked s e) (entryVector s e) := by
  rw [takeEntry_quiet h hl, enterHandler, hv, if_neg Bool.false_ne_true]

theorem quiet_startAt (h : Quiet s) (a : Long) : Quiet (startAt s a) := quiet_congr h rfl rfl rfl

theorem startAt_controls (s : State) (a : Long) : (startAt s a).controls = s.controls := rfl

/-- The registers in the handler of an exception: the active stack pointer of the supervisor has moved. -/
theorem entryStacked_regs (s : State) (e : Entry) :
    (entryStacked s e).regs = setActiveSp s.regs (supervisorSr s) (entrySp s e) ∧ (entryStacked s e).sr = supervisorSr s ∧
      (entryStacked s e).controls = s.controls := by
  rw [entryStacked, framePushed_eq]
  exact ⟨rfl, rfl, rfl⟩

theorem activeSp_setActiveSp (r : Regs) (sr : Sr) (v : Long) : activeSp (setActiveSp r sr v) sr = v := by
  simp only [activeSp, setActiveSp]
  split
  · split <;> rfl
  · rfl

/-- A stack pointer moved and moved back. -/
theorem setActiveSp_back (r : Regs) (sr : Sr) (v : Long) : setActiveSp (setActiveSp r sr v) sr (activeSp r sr) = r := by
  simp only [activeSp, setActiveSp]
  split
  · split <;> rfl
  · rfl

/-- A field of the frame of an exception reads back. -/
theorem load_entryStacked (hwf : Memory.wf s.mem = true) (e : Entry) {i n : Nat} {v : Long}
    (hi : (entryFields s e)[i]? = some (n, v)) :
    load (entryStacked s e) 5#3 (entrySp s e + BitVec.ofNat 32 (fieldsSize ((entryFields s e).take i))) n =
      lowBits (8 * n) v := by
  have hle := fieldsSize_entryFields_le s e
  rw [entryStacked_eq_fieldsPut]
  exact load_fieldsPut (s := (stepOne s none).setSp (entrySp s e)) hwf 5#3 _ (by omega) hi

theorem lowBits_word (w : Word) : lowBits (8 * 2) (w.setWidth 32) = w.setWidth 32 := (word_of_cycles w).1

theorem formatWord_format (format : BitVec 4) (vector : Byte) :
    ((formatWord format vector).setWidth 32 : Long).extractLsb' 12 4 = format := by
  refine BitVec.eq_of_getLsbD_eq fun i hi => ?_
  simp only [formatWord, BitVec.getLsbD_extractLsb', BitVec.getLsbD_setWidth, BitVec.getLsbD_append]
  interval_cases i <;> simp

/-- The head of an exception's frame, as its handler finds it. -/
theorem frame_entryStacked (hwf : Memory.wf s.mem = true) (e : Entry) (hsp : t.sp = entrySp s e)
    (hs : t.sr.s = true) (hmem : t.mem = (entryStacked s e).mem) (hplatform : t.platform = (entryStacked s e).platform) :
    frameSr t = s.sr.toWord ∧ framePc t = e.pc ∧ frameFormat t = e.body.format := by
  have hfc : dataFc t = 5#3 := if_pos hs
  have hsr : load (entryStacked s e) 5#3 (entrySp s e) 2 = s.sr.toWord.setWidth 32 := by
    rw [← BitVec.add_zero (entrySp s e)]
    exact (load_entryStacked hwf e (i := 0) rfl).trans (lowBits_word _)
  have hpc : load (entryStacked s e) 5#3 (entrySp s e + 2#32) 4 = e.pc :=
    (load_entryStacked hwf e (i := 1) rfl).trans (lowBits_bytesOf .l e.pc)
  have hformat : load (entryStacked s e) 5#3 (entrySp s e + 6#32) 2 = (formatWord e.body.format e.vector).setWidth 32 :=
    (load_entryStacked hwf e (i := 2) rfl).trans (lowBits_word _)
  simp only [frameSr, framePc, frameFormat, frameWord, hfc, hsp, load_congr hmem hplatform, hsr, hpc, hformat,
    formatWord_format, BitVec.setWidth_setWidth_of_le, and_self, Nat.reduceLeDiff, BitVec.setWidth_eq]

/-- RTE undoes an exception with a four-word frame, where vector and saved PC are even. -/
theorem rte_takeEntry (h : Quiet s) (hwf : Memory.wf s.mem = true) {e : Entry} (hl : e.level = none)
    (hbody : e.body = .four) (hv : (entryVector s e).getLsbD 0 = false) (hpc : e.pc.getLsbD 0 = false) :
    ∃ u, exec .rte (takeEntry s e) = .next u ∧ u.regs = s.regs ∧ u.sr = s.sr ∧ u.pc = e.pc ∧
      u.controls = s.controls := by
  obtain ⟨t, ht⟩ : ∃ t, t = startAt (entryStacked s e) (entryVector s e) := ⟨_, rfl⟩
  have hq : Quiet t := by
    have hstacked : Quiet (entryStacked s e) :=
      quiet_framePushed (s := stepOne s none) (quiet_congr h rfl rfl rfl) (entryFields s e)
    exact ht ▸ quiet_startAt hstacked _
  obtain ⟨hregs, hsr, hcontrols⟩ : t.regs = setActiveSp s.regs (supervisorSr s) (entrySp s e) ∧
      t.sr = supervisorSr s ∧ t.controls = s.controls := by
    rw [ht, startAt_regs, startAt_sr, startAt_controls]
    exact entryStacked_regs s e
  obtain ⟨hmem, hplatform⟩ : t.mem = (entryStacked s e).mem ∧ t.platform = (entryStacked s e).platform := by
    rw [ht, startAt_mem, startAt_platform]
    exact ⟨rfl, rfl⟩
  rw [takeEntry_even h hl hv, ← ht]
  have hsp : t.sp = entrySp s e := by rw [State.sp, hregs, hsr, activeSp_setActiveSp]
  have hsuper : t.sr.s = true := by rw [hsr]; rfl
  obtain ⟨hframeSr, hframePc, hformat⟩ := frame_entryStacked hwf e hsp hsuper hmem hplatform
  have hback : t.sp + 8#32 = activeSp s.regs (supervisorSr s) := by
    have hsize : fieldsSize (entryFields s e) = 8 := by rw [entryFields, hbody]; rfl
    rw [hsp, entrySp, hsize]
    exact BitVec.sub_add_cancel _ _
  obtain ⟨dn, hrte⟩ := ((rteLoop_plain hq 15).1 (hformat.trans (congrArg FrameBody.format hbody))).1
    (hframePc.symm ▸ hpc)
  refine ⟨_, (exec_rte_super hsuper).trans hrte, ?_, ?_, hframePc, hcontrols⟩
  · change setActiveSp t.regs t.sr (t.sp + 8#32) = s.regs
    rw [hregs, hsr, hback, setActiveSp_back]
  · change Sr.ofWord (frameSr t) = s.sr
    rw [hframeSr, sr_ofWord_toWord]

/-- Settles O21: TRAP is an exception with a four-word frame, and RTE undoes it. -/
theorem trapReturn : Obligations.TrapReturn := by
  unfold Obligations.TrapReturn
  intro s t v h hwf hpc htrap framed hv
  have hq : Quiet (markFlow s) := quiet_congr h rfl rfl rfl
  have hvector := load_congr
    (fieldsPut_mem_congr (s := s) (t := markFlow s) rfl rfl 5#3 (activeSp s.regs { s.sr with s := true } - 8#32)
      (frameHead s.sr (pcAfter s 1) 0#4 (32#8 + v.setWidth 8)))
    (by rw [fieldsPut_platform, fieldsPut_platform]; rfl) 5#3
    (s.vbr + ((32#8 + v.setWidth 8).setWidth 32 <<< 2)) 4
  obtain rfl : takeEntry (markFlow s) _ = t := Host.Outcome.next.inj ((exec_trap s v).symm.trans htrap)
  exact rte_takeEntry hq hwf rfl rfl ((congrArg (fun x => x.getLsbD 0) hvector).trans hv) hpc

end Sys2Proof.Proofs
end

section
/-! PROOFS. RTE of midinstruction and bus fault frames (R558, R648, R650, R662). -/

namespace Sys2Proof.Proofs

open Sys2Proof Sys2Proof.Machine Sys2Proof.Laws

variable {s t u : State}

/-! ## A dialogue that ends with its first response (R531) -/

/-- A response that releases the processor ends the dialogue with its condition. -/
theorem servePrimitive_releases {general : Bool} {v : Long} {tf : Bool} (h : Releases s general v tf) (w : Word) :
    servePrimitive general w (primitiveOf (v.setWidth 16)) s = .ok (.release tf s) := by
  obtain ⟨hcode, hca, -, htf, hdone⟩ := h
  have hnull : ∀ ia, primNull general w (primitiveOf (v.setWidth 16)) ia s = .ok (.release tf s) := fun ia => by
    have hfree : (general && !(primitiveOf (v.setWidth 16)).param.getLsbD 1 && s.trace.pending) = false := by
      cases general with
      | false => rfl
      | true => rcases hdone rfl with hpf | htrace <;> simp [*]
    rw [primNull, hca, Bool.false_or, hfree, if_neg Bool.false_ne_true, htf]
  rcases hcode with hcode | hcode
  · simp only [servePrimitive, hcode, hnull]
  · simp only [servePrimitive, hcode, hnull]

theorem setWidth_lowBits_word (v : Long) : (lowBits (8 * 2) v).setWidth 16 = v.setWidth 16 := by
  refine BitVec.eq_of_getLsbD_eq fun i hi => ?_
  rw [BitVec.getLsbD_setWidth, BitVec.getLsbD_setWidth, getLsbD_lowBits, decide_eq_true hi, Bool.true_and,
    Bool.true_and]

/-- The coprocessor answers the next read with `v`. -/
theorem popAnswer_of_converse {id : BitVec 3} {v : Long} {cs cs' : List Coprocessor}
    (h : converse id [.read v] cs = some cs') : popAnswer id cs = some (some (.data v, cs')) := by
  rw [converse] at h
  split at h
  case h_1 v' cs'' hpop =>
    split at h
    case isTrue hv =>
      obtain rfl : cs'' = cs' := Option.some.inj h
      rw [hpop, hv]
    case isFalse => exact nomatch h
  case h_2 => exact nomatch h

/-- The read of the response register (R522). -/
theorem cirRead_response (h : Quiet s) (hw : Wide s) {w : Word} {v : Long} {cs : List Coprocessor}
    (hv : converse (cpId w) [.read v] s.platform.coprocessors = some cs) :
    ∃ dn, cirRead s w 0#32 2 = .ok (lowBits (8 * 2) v, (s.setCoprocessors cs).withDone dn) := by
  obtain ⟨htype, hid, hplace⟩ := cirAddr_fields w (offset := 0#32) (by decide)
  exact ⟨_, readFc_cir h hw (by decide) hplace htype (hid ▸ popAnswer_of_converse hv)⟩

theorem endAtScan_zero (s : State) : endAtScan s 0 = { s with pc := s.scanPc } := by
  rw [endAtScan, BitVec.add_zero]

/-- A dialogue of a general instruction whose first response releases the processor. -/
theorem cpDialogue_releases (h : Quiet s) (hw : Wide s) {w : Word} (hk : cpKind w = .gen) {v : Long} {tf : Bool}
    {cs : List Coprocessor} (hv : converse (cpId w) [.read v] s.platform.coprocessors = some cs)
    (hr : Releases s true v tf) :
    CompletesAs (cpDialogue w s) { s.setCoprocessors cs with pc := s.scanPc } := by
  obtain ⟨dn, hread⟩ := cirRead_response h hw hv
  have hserve := servePrimitive_releases (s := (s.setCoprocessors cs).withDone dn) (general := true) hr w
  obtain ⟨-, -, hpc, -⟩ := hr
  refine ⟨dn, ?_⟩
  simp only [cpDialogue, dialogueFuel, serveLoop, hread, ok_bind, setWidth_lowBits_word, hpc, hk, beq_self_eq_true,
    hserve, Bool.false_eq_true, if_false, cpComplete, endAtScan_zero, toRes]
  rfl

/-! ## Midinstruction frames (R558, R648) -/

/-- The state in which RTE of a midinstruction frame goes on with the dialogue: SR, PC, scanPC, address register and trace
state from the frame. -/
def midResumed (s : State) : State :=
  let bits := frameWord s 12#32
  let pc := load s (dataFc s) (s.sp + 8#32) 4
  let u := flush (markFlow (popped s 20#32))
  { u with
    pc := pc, scanPc := framePc s, eaTmp := load s (dataFc s) (s.sp + 16#32) 4, eaValid := bits.getLsbD 2
    trace := { pending := bits.getLsbD 0 || u.trace.pending, flow := bits.getLsbD 1, addr := pc } }

theorem rteMid_quiet (h : Quiet s) :
    ∃ dn, rteMid s.sp (frameSr s) (framePc s) s =
      cpDialogue ((frameWord s 14#32).setWidth 16) ((midResumed s).withDone dn) := by
  obtain ⟨d1, hpc⟩ : ∃ dn, memRead s (s.sp + 8#32) 4 = .ok (load s (dataFc s) (s.sp + 8#32) 4, s.withDone dn) :=
    ⟨_, memRead_quiet h _ _⟩
  obtain ⟨d2, hbits⟩ : ∃ dn, memRead (s.withDone d1) (s.sp + 12#32) 2 = .ok (frameWord s 12#32, s.withDone dn) :=
    ⟨_, memRead_quiet (quiet_withDone h d1) _ _⟩
  obtain ⟨d3, hop⟩ : ∃ dn, memRead (s.withDone d2) (s.sp + 14#32) 2 = .ok (frameWord s 14#32, s.withDone dn) :=
    ⟨_, memRead_quiet (quiet_withDone h d2) _ _⟩
  obtain ⟨d4, hea⟩ : ∃ dn, memRead (s.withDone d3) (s.sp + 16#32) 4 =
      .ok (load s (dataFc s) (s.sp + 16#32) 4, s.withDone dn) := ⟨_, memRead_quiet (quiet_withDone h d3) _ _⟩
  exact ⟨d4, by simp only [rteMid, hpc, hbits, hop, hea, ok_bind, toRes]; rfl⟩

theorem rteLoop_mid (h : Quiet s) (n : Nat) (hf : frameFormat s = 9#4) :
    ∃ dn, rteLoop (n + 1) s = cpDialogue ((frameWord s 14#32).setWidth 16) ((midResumed s).withDone dn) := by
  obtain ⟨d1, hrte⟩ := rteLoop_quiet h n
  obtain ⟨d2, hmid⟩ := rteMid_quiet (quiet_withDone h d1)
  rw [hf] at hrte
  exact ⟨d2, hrte.trans hmid⟩

theorem quiet_midResumed (h : Quiet s) : Quiet (midResumed s) := quiet_congr h rfl rfl rfl

/-- Whether a response releases the processor depends on the trace state alone. -/
theorem releases_congr (ht : t.trace = s.trace) {general : Bool} {v : Long} {tf : Bool} (h : Releases s general v tf) :
    Releases t general v tf := by
  rw [Releases, ht]
  exact h

/-- RTE of the frame of a general instruction whose coprocessor then releases the processor: `u` is the state it resumes
in, with the coprocessors after the response. -/
theorem rteLoop_mid_releases (h : Quiet s) (hw : Wide s) (n : Nat) (hf : frameFormat s = 9#4) {w : Word}
    (hword : w = (frameWord s 14#32).setWidth 16) (hk : cpKind w = .gen) {v : Long} {tf : Bool} {cs : List Coprocessor}
    (hv : converse (cpId w) [.read v] s.platform.coprocessors = some cs)
    (hu : u = (midResumed s).setCoprocessors cs) (hr : Releases u true v tf) :
    CompletesAs (rteLoop (n + 1) s) { u with pc := u.scanPc } := by
  obtain ⟨dn, hrte⟩ := rteLoop_mid h n hf
  have hrelease : Releases ((midResumed s).withDone dn) true v tf := releases_congr (congrArg State.trace hu).symm hr
  rw [hrte, ← hword, hu]
  exact cpDialogue_releases (quiet_withDone (quiet_midResumed h) dn) hw hk hv hrelease

/-! ## Bus fault frames (R650, R662) -/

/-- The first `n` words of the frame on the active stack. -/
def frameImage (s : State) (n : Nat) : List Word :=
  (List.range n).map fun i => memWord s (dataFc s) (s.sp + BitVec.ofNat 32 (2 * i))

/-- The words from an address on, where no bus cycle fails. -/
theorem frameWords_quiet (h : Quiet s) (n : Nat) (a : Long) :
    frameWords n s a = .ok ((List.range n).map fun i => memWord s (dataFc s) (a + BitVec.ofNat 32 (2 * i)), s) := by
  induction n generalizing a with
  | zero => rfl
  | succ n ih =>
    have hword : (load s (dataFc s) a 2).setWidth 16 = memWord s (dataFc s) (a + BitVec.ofNat 32 (2 * 0)) := by
      rw [load_word]
      simp
    have hnext : ∀ i, a + 2#32 + BitVec.ofNat 32 (2 * i) = a + BitVec.ofNat 32 (2 * (i + 1)) := fun i => by
      rw [Nat.mul_succ, Nat.add_comm, add_ofNat_add]
    simp only [frameWords, busRead_quiet h (dataFc_ne s), ih, ok_bind, hnext, hword, List.range_succ_eq_map,
      List.map_cons, List.map_map]
    rfl

/-- The documented fields of a short bus fault frame. -/
theorem repairOf_short (s : State) :
    (repairOf false (frameImage s 16)).pc = framePc s ∧
    (repairOf false (frameImage s 16)).ssw = (frameWord s 0x0A#32).setWidth 16 ∧
    (repairOf false (frameImage s 16)).stageC = (frameWord s 0x0C#32).setWidth 16 ∧
    (repairOf false (frameImage s 16)).stageB = (frameWord s 0x0E#32).setWidth 16 := by
  have hword : ∀ a, (load s (dataFc s) a 2).setWidth 16 = memWord s (dataFc s) a := fun a => by
    rw [load_word]
    simp
  simp only [frameWord, hword]
  refine ⟨?_, rfl, rfl, rfl⟩
  rw [framePc, load_long, BitVec.add_assoc]
  rfl

/-- The pipe as RTE of a short bus fault frame restores it: of each stage the image in the frame, where its rerun bit is
clear. -/
def framePipe (s : State) (p : Pipe) : Pipe :=
  { b := restoredStage p.b ((frameWord s 0x0A#32).getLsbD 12) ((frameWord s 0x0E#32).setWidth 16)
    c := restoredStage p.c ((frameWord s 0x0A#32).getLsbD 13) ((frameWord s 0x0C#32).setWidth 16)
    d := p.d }

theorem restoredPipe_short (s : State) (p : Pipe) :
    restoredPipe p (repairOf false (frameImage s 16)) = framePipe s p := by
  obtain ⟨-, hssw, hc, hb⟩ := repairOf_short s
  have hbit : ∀ i < 16, ((frameWord s 0x0A#32).setWidth 16).getLsbD i = (frameWord s 0x0A#32).getLsbD i :=
    fun i hi => by rw [BitVec.getLsbD_setWidth, decide_eq_true hi, Bool.true_and]
  rw [restoredPipe, hssw, hc, hb, hbit 12 (by decide), hbit 13 (by decide)]
  rfl

/-- A suspension before the operation word: the next instruction is fetched at the frame's PC. -/
theorem resumeFault_opword {p : Suspension} (hk : p.kind = .fetch []) (s : State) (r : Repair) :
    resumeFault s p r = .next { s with pipe := restoredPipe p.pipe r, pc := r.pc } := by
  simp only [resumeFault, hk, resumeWords]

/-- RTE of a bus fault frame taken for an operation word. -/
theorem rteFault_opword (h : Quiet s) {p : Suspension} (hk : p.kind = .fetch [])
    (hp : s.suspended.find? (fun q => q.key == load s (dataFc s) (s.sp + 0x1C#32) 4 && q.long == false) = some p) :
    CompletesAs (rteFault false s.sp (frameSr s) s)
      { flush (markFlow (popped s 32#32)) with pc := framePc s, pipe := framePipe s p.pipe } := by
  obtain ⟨d1, hlast⟩ : ∃ dn, memRead s (s.sp + lastWord false) 2 = .ok (frameWord s 0x1E#32, s.withDone dn) :=
    ⟨_, memRead_quiet h _ _⟩
  obtain ⟨d2, hkey⟩ : ∃ dn, memRead (s.withDone d1) (s.sp + 0x1C#32) 4 =
      .ok (load s (dataFc s) (s.sp + 0x1C#32) 4, s.withDone dn) := ⟨_, memRead_quiet (quiet_withDone h d1) _ _⟩
  have hwords : frameWords (frameSize false) (s.withDone d2) s.sp = .ok (frameImage s 16, s.withDone d2) :=
    frameWords_quiet (quiet_withDone h d2) 16 s.sp
  have hfind : (s.withDone d2).suspended.find?
      (fun q => q.key == load s (dataFc s) (s.sp + 0x1C#32) 4 && q.long == false) = some p := hp
  refine ⟨d2, ?_⟩
  simp only [rteFault, Bool.false_eq_true, if_false, ok_bind, hlast, hkey, Bool.false_and, hfind, hwords, toRes,
    resumeFault_opword hk, restoredPipe_short, (repairOf_short s).1]
  rfl

theorem rteLoop_opword (h : Quiet s) (n : Nat) (hf : frameFormat s = 10#4) {p : Suspension} (hk : p.kind = .fetch [])
    (hp : s.suspended.find? (fun q => q.key == load s (dataFc s) (s.sp + 0x1C#32) 4 && q.long == false) = some p) :
    CompletesAs (rteLoop (n + 1) s)
      { flush (markFlow (popped s 32#32)) with pc := framePc s, pipe := framePipe s p.pipe } := by
  obtain ⟨d1, hrte⟩ := rteLoop_quiet h n
  obtain ⟨d2, hfault⟩ := rteFault_opword (quiet_withDone h d1) hk hp
  rw [hf] at hrte
  exact ⟨d2, hrte.trans hfault⟩

/-- Settles O44: one law of `rteLoop` for each format; a midinstruction frame goes on with a dialogue that ends at
once. -/
theorem returnFromException : Obligations.ReturnFromException := by
  unfold Obligations.ReturnFromException
  intro s h hs format popped back plain
  have hfc : dataFc s = 5#3 := if_pos hs
  have hexec := exec_rte_super hs
  have hplain := rteLoop_plain h 15
  have hthrowaway := fun hf => rteLoop_throwaway_plain h 14 hf rfl
  rw [← hexec] at hplain
  simp only [← hexec] at hthrowaway
  rw [hexec, ← hfc]
  refine ⟨hplain, hthrowaway, rteLoop_undefined h 15, ?_, fun p hf hk hp => rteLoop_opword h 15 hf hk hp⟩
  intro v tf cs hf hw w bits u resumed hk hv hr
  exact rteLoop_mid_releases h hw 15 hf rfl hk hv (u := resumed) rfl hr

end Sys2Proof.Proofs
end

section
/-! PROOFS. The read-modify-write instructions (R440-R443). -/

namespace Sys2Proof.Proofs

open Sys2Proof Sys2Proof.Machine Sys2Proof.Laws

variable {s : State} {sz : Size}

/-! ## Accesses, whatever the log of the state -/

theorem memRead_log (h : Quiet s) (dn : List BusRec) (a : Long) (n : Nat) :
    ∃ dn', memRead (s.withDone dn) a n = .ok (load s (dataFc s) a n, s.withDone dn') := by
  have hread := memRead_quiet (quiet_withDone h dn) a n
  rw [dataFc_withDone, load_withDone, withDone_withDone] at hread
  exact ⟨_, hread⟩

theorem memWrite_log (h : Quiet s) (dn : List BusRec) (a : Long) (n : Nat) (v : Long) :
    ∃ dn', memWrite (s.withDone dn) a n v = .ok ((store s (dataFc s) n a v).withDone dn') := by
  have hwrite := memWrite_quiet (quiet_withDone h dn) a n v
  rw [dataFc_withDone, store_withDone, withDone_withDone] at hwrite
  exact ⟨_, hwrite⟩

/-! ## The comparison (R244) -/

/-- Z of a comparison says whether the operands agree at its size. -/
theorem cmpFlags_z (f : Ccr) (sz : Size) (d v : Long) :
    (cmpFlags f sz d v).z = decide (trunc sz d = trunc sz v) := by
  have hiff : subRes sz d v false = 0#32 ↔ trunc sz d = trunc sz v := by
    simp only [← BitVec.toNat_inj, subRes, toNat_trunc, BitVec.toNat_sub, bitLong]
    have hd := d.isLt
    have hv := v.isLt
    cases sz with
    | b | w | l => simp [Size.bits]; omega
  exact (isZero_eq_decide _).trans (decide_eq_decide.2 hiff)

/-- The compare operand is truncated already. -/
theorem cmpFlags_z_trunc (f : Ccr) (sz : Size) (d v : Long) :
    (cmpFlags f sz d (trunc sz v)).z = decide (trunc sz d = trunc sz v) := by
  rw [cmpFlags_z, trunc_of_fits (fits_trunc sz v)]

/-! ## Locked sequences (R443) -/

/-- The state inside or outside a locked sequence. -/
def withRmc (s : State) (b : Bool) : State := { s with rmc := b }

/-- The end of a locked sequence, and of the instruction with it. -/
theorem locked_end (s : State) (b : Bool) (dn : List BusRec) (n : Nat) (f : Ccr) :
    toRes (.ok (advance n ((unlockBus ((withRmc s b).withDone dn)).setCcr f))) =
      .next ((finish (withRmc s false) n f).withDone dn) := rfl

theorem withRmc_withDone (s : State) (dn : List BusRec) (b : Bool) :
    withRmc (s.withDone dn) b = (withRmc s b).withDone dn := rfl

theorem setDSized_withRmc (s : State) (b : Bool) (sz : Size) (n : Reg) (v : Long) :
    (withRmc s b).setDSized sz n v = withRmc (s.setDSized sz n v) b := rfl

theorem quiet_withRmc (h : Quiet s) (b : Bool) : Quiet (withRmc s b) := quiet_congr h rfl rfl rfl

theorem store_withRmc (fc : Fc) (n : Nat) (a v : Long) (s : State) (b : Bool) :
    store (withRmc s b) fc n a v = withRmc (store s fc n a v) b := by
  induction n generalizing s a with
  | zero => rfl
  | succ n ih => exact ih _ (setByteAt s fc a (byteOf v n))

theorem load_withRmc (s : State) (b : Bool) (fc : Fc) (a : Long) (n : Nat) :
    load (withRmc s b) fc a n = load s fc a n := load_congr (s := s) (t := withRmc s b) rfl rfl fc a n

theorem valueAt_withRmc (s : State) (b : Bool) (sz : Size) (loc : Loc) :
    valueAt (withRmc s b) sz loc = valueAt s sz loc := by
  cases loc with
  | mem prog a => exact load_withRmc s b (spaceFc s prog) a (bytesOf sz)
  | _ => rfl

theorem putAt_withRmc (s : State) (b : Bool) (sz : Size) (v : Long) (loc : Loc) :
    putAt (withRmc s b) sz v loc = withRmc (putAt s sz v loc) b := by
  cases loc with
  | mem prog a =>
    cases prog with
    | false => exact store_withRmc (dataFc s) (bytesOf sz) a v s b
    | true => rfl
  | areg n =>
    simp only [putAt, State.setA]
    split <;> rfl
  | _ => rfl

theorem lockBus_quiet (h : Quiet s) : lockBus s = withRmc s true := by
  obtain ⟨⟨-, -, hmasters, -⟩, -⟩ := h
  exact lockBus_none hmasters

/-- Where no other master stores, locking for an operand at most marks the sequence. -/
theorem lockFor_quiet (h : Quiet s) (loc : Loc) : ∃ b, lockFor s loc = withRmc s b := by
  cases loc with
  | mem prog a => exact ⟨true, lockBus_quiet h⟩
  | _ => exact ⟨s.rmc, rfl⟩

/-- TAS and CAS find their operand, lock the bus and read. -/
theorem lockedRead_quiet (h : Quiet s) (sz : Size) (own : Nat) (ea : Ea) {u : State} (hu : u = eaStep s sz ea)
    {loc : Loc} (hloc : loc = eaLoc s sz own ea) :
    ∃ d1 b d2, evalEa s sz (extAt s own) ea = .ok (loc, u.withDone d1) ∧
      readLoc (lockFor (u.withDone d1) loc) sz loc = .ok (eaVal s sz own ea, (withRmc u b).withDone d2) := by
  subst hu hloc
  obtain ⟨d1, heval⟩ := evalEa_quiet h sz (extAt s own) ea
  have hq := quiet_withDone (quiet_eaStep h sz ea) d1
  obtain ⟨b, hlock⟩ := lockFor_quiet hq (eaLoc s sz own ea)
  obtain ⟨d2, hread⟩ := readLoc_quiet (quiet_withRmc hq b) sz (eaLoc s sz own ea)
  rw [withRmc_withDone, valueAt_withDone, valueAt_withRmc, withDone_withDone] at hread
  exact ⟨d1, b, d2, heval, by rw [hlock, withRmc_withDone, hread, eaVal]⟩

theorem lockedWrite_quiet (h : Quiet s) (b : Bool) (dn : List BusRec) (sz : Size) (v : Long) (loc : Loc) :
    ∃ dn', writeLoc ((withRmc s b).withDone dn) sz v loc = .ok ((withRmc (putAt s sz v loc) b).withDone dn') := by
  obtain ⟨dn', hwrite⟩ := writeLoc_quiet (quiet_withDone (quiet_withRmc h b) dn) sz v loc
  rw [putAt_withDone, withDone_withDone, putAt_withRmc] at hwrite
  exact ⟨dn', hwrite⟩

/-! ## TAS and CAS (R440, R441) -/

theorem tas_quiet (h : Quiet s) (ea : Ea) {v : Long} (hv : v = eaVal s .b 0 ea) :
    CompletesAs (exec (.tas ea) s) (finish (withRmc (putAt (eaStep s .b ea) .b (v ||| 0x80#32) (eaLoc s .b 0 ea)) false)
      (1 + eaLen .b ea) (logicFlags s.ccr .b v)) := by
  obtain ⟨d1, b, d2, heval, hread⟩ := lockedRead_quiet h .b 0 ea rfl rfl
  obtain ⟨d3, hwrite⟩ := lockedWrite_quiet (quiet_eaStep h .b ea) b d2 .b (v ||| 0x80#32) (eaLoc s .b 0 ea)
  rw [← hv] at hread
  exact ⟨d3, by simp only [exec_tas, execTas, heval, hread, hwrite, ok_bind, locked_end]⟩

/-- CAS writes memory where the operand is the compare operand, else the compare register. -/
theorem cas_quiet (h : Quiet s) (sz : Size) (dc du : Reg) (ea : Ea) {u : State} (hu : u = eaStep s sz ea)
    {v : Long} (hv : v = eaVal s sz 1 ea) :
    CompletesAs (exec (.cas sz dc du ea) s)
      (finish (withRmc (if trunc sz v = trunc sz (s.d dc) then putAt u sz (trunc sz (s.d du)) (eaLoc s sz 1 ea)
        else u.setDSized sz dc v) false) (2 + eaLen sz ea) (cmpFlags s.ccr sz v (trunc sz (s.d dc)))) := by
  obtain ⟨d1, b, d2, heval, hread⟩ := lockedRead_quiet h sz 1 ea hu rfl
  obtain ⟨d3, hwrite⟩ := lockedWrite_quiet (hu ▸ quiet_eaStep h sz ea) b d2 sz (trunc sz (s.d du)) (eaLoc s sz 1 ea)
  rw [← hv] at hread
  simp only [exec_cas, execCas, heval, hread, cmpFlags_z_trunc, ok_bind, decide_eq_true_eq]
  split
  · exact ⟨d3, by simp only [hwrite, ok_bind, locked_end]⟩
  · exact ⟨d2, by simp only [setDSized_withDone, setDSized_withRmc, locked_end]⟩

/-! ## CAS2 (R442) -/

/-- A read inside a locked sequence. -/
theorem lockedMemRead (h : Quiet s) (dn : List BusRec) (a : Long) (n : Nat) :
    ∃ dn', memRead ((withRmc s true).withDone dn) a n = .ok (load s (dataFc s) a n, (withRmc s true).withDone dn') := by
  obtain ⟨dn', hread⟩ := memRead_log (quiet_withRmc h true) dn a n
  rw [load_withRmc] at hread
  exact ⟨dn', hread⟩

/-- A write inside a locked sequence. -/
theorem lockedMemWrite (h : Quiet s) (dn : List BusRec) (a : Long) (n : Nat) (v : Long) :
    ∃ dn', memWrite ((withRmc s true).withDone dn) a n v =
      .ok ((withRmc (store s (dataFc s) n a v) true).withDone dn') := by
  obtain ⟨dn', hwrite⟩ := memWrite_log (quiet_withRmc h true) dn a n v
  rw [store_withRmc] at hwrite
  exact ⟨dn', hwrite⟩

/-- The comparison of CAS2 goes on to the second operand where the first one agrees. -/
def cas2Flags (s : State) (sz : Size) (dc dc2 : Reg) (v1 v2 : Long) : Ccr :=
  if trunc sz v1 = trunc sz (s.d dc) then cmpFlags s.ccr sz v2 (trunc sz (s.d dc2))
  else cmpFlags s.ccr sz v1 (trunc sz (s.d dc))

theorem cas2Flags_eq (s : State) (sz : Size) (dc dc2 : Reg) (v1 v2 : Long) :
    (if (cmpFlags s.ccr sz v1 (trunc sz (s.d dc))).z then cmpFlags s.ccr sz v2 (trunc sz (s.d dc2))
      else cmpFlags s.ccr sz v1 (trunc sz (s.d dc))) = cas2Flags s sz dc dc2 v1 v2 := by
  rw [cmpFlags_z_trunc, cas2Flags]
  exact if_congr decide_eq_true_iff rfl rfl

/-- CAS2 writes where its flags say that both operands agree. -/
theorem cas2Flags_z (s : State) (sz : Size) (dc dc2 : Reg) (v1 v2 : Long) :
    ((cmpFlags s.ccr sz v1 (trunc sz (s.d dc))).z && (cas2Flags s sz dc dc2 v1 v2).z) = true ↔
      trunc sz v1 = trunc sz (s.d dc) ∧ trunc sz v2 = trunc sz (s.d dc2) := by
  rw [cmpFlags_z_trunc, Bool.and_eq_true, decide_eq_true_iff, cas2Flags]
  refine and_congr_right fun hfirst => ?_
  rw [if_pos hfirst, cmpFlags_z_trunc, decide_eq_true_iff]

theorem cas2_quiet (h : Quiet s) (sz : Size) (rn rn2 : Rn) (du dc du2 dc2 : Reg) {fc : Fc} (hfc : fc = dataFc s)
    {v1 v2 : Long} (hv1 : v1 = load s fc (s.rn rn) (bytesOf sz)) (hv2 : v2 = load s fc (s.rn rn2) (bytesOf sz)) :
    CompletesAs (cas2 sz rn du dc rn2 du2 dc2 s)
      (if trunc sz v1 = trunc sz (s.d dc) ∧ trunc sz v2 = trunc sz (s.d dc2) then
        finish (withRmc (store (store s fc (bytesOf sz) (s.rn rn) (trunc sz (s.d du))) fc (bytesOf sz) (s.rn rn2)
          (trunc sz (s.d du2))) false) 3 (cmpFlags s.ccr sz v2 (trunc sz (s.d dc2)))
      else finish (withRmc ((s.setDSized sz dc2 v2).setDSized sz dc v1) false) 3 (cas2Flags s sz dc dc2 v1 v2)) := by
  subst hfc
  have hlock : lockBus s = (withRmc s true).withDone s.done := lockBus_quiet h
  obtain ⟨d1, hread1⟩ := lockedMemRead h s.done (s.rn rn) (bytesOf sz)
  obtain ⟨d2, hread2⟩ := lockedMemRead h d1 (s.rn rn2) (bytesOf sz)
  obtain ⟨d3, hwrite1⟩ := lockedMemWrite h d2 (s.rn rn) (bytesOf sz) (trunc sz (s.d du))
  obtain ⟨d4, hwrite2⟩ := lockedMemWrite (quiet_store h (dataFc s) (bytesOf sz) (s.rn rn) (trunc sz (s.d du))) d3
    (s.rn rn2) (bytesOf sz) (trunc sz (s.d du2))
  rw [dataFc_store] at hwrite2
  rw [← hv1] at hread1
  rw [← hv2] at hread2
  simp only [cas2, hlock, hread1, hread2, ok_bind, cas2Flags_eq, cas2Flags_z]
  split
  case isTrue hboth =>
    obtain ⟨hfirst, -⟩ := hboth
    exact ⟨d4, by simp only [hwrite1, hwrite2, ok_bind, cas2Flags, hfirst, if_true, locked_end]⟩
  case isFalse =>
    exact ⟨d2, by simp only [setDSized_withDone, setDSized_withRmc, locked_end]⟩

/-- Settles O51: the operand is read with the bus locked; where the comparison holds, memory is written, else the
compare registers are. -/
theorem lockedInstructions : Obligations.LockedInstructions := by
  unfold Obligations.LockedInstructions
  intro s sz dc du dc2 du2 rn rn2 ea h free loc v u same cas2
  refine ⟨tas_quiet h ea rfl, cas_quiet h sz dc du ea rfl rfl, ?_, ?_⟩
  · exact cas2_quiet h .w rn rn2 du dc du2 dc2 rfl rfl rfl
  · exact cas2_quiet h .l rn rn2 du dc du2 dc2 rfl rfl rfl

end Sys2Proof.Proofs
end

section
/-! PROOFS. The module instructions CALLM and RTM (R444-R448). -/

namespace Sys2Proof.Proofs

open Sys2Proof Sys2Proof.Machine Sys2Proof.Laws

variable {s t u : State} {fc : Fc}

/-! ## Parts of an instruction, whatever the log -/

/-- A part of an instruction ends in a state, whatever the log. -/
def RunsTo (r : Run State) (t : State) : Prop := ∃ dn, r = .ok (t.withDone dn)

/-- Quiet, with operands in the space `fc`. -/
structure QuietIn (fc : Fc) (s : State) : Prop where
  quiet : Quiet s
  space : dataFc s = fc

theorem QuietIn.store (h : QuietIn fc s) {n : Nat} {a v : Long} : QuietIn fc (store s fc n a v) :=
  ⟨quiet_store h.quiet fc n a v, (dataFc_store fc n a v).trans h.space⟩

theorem QuietIn.memRead (h : QuietIn fc s) (dn : List BusRec) (a : Long) (n : Nat) :
    ∃ dn', memRead (s.withDone dn) a n = .ok (load s fc a n, s.withDone dn') := h.space ▸ memRead_log h.quiet dn a n

theorem QuietIn.memWrite (h : QuietIn fc s) (dn : List BusRec) (a : Long) (n : Nat) (v : Long) :
    ∃ dn', memWrite (s.withDone dn) a n v = .ok ((Machine.store s fc n a v).withDone dn') :=
  h.space ▸ memWrite_log h.quiet dn a n v

/-- A write, and what goes on from it. -/
theorem RunsTo.write (h : QuietIn fc s) {dn : List BusRec} {a : Long} {n : Nat} {v : Long} {k : State → Run State}
    (hk : ∀ dn', RunsTo (k ((store s fc n a v).withDone dn')) t) : RunsTo (memWrite (s.withDone dn) a n v >>= k) t := by
  obtain ⟨dn', hwrite⟩ := h.memWrite dn a n v
  rw [hwrite, ok_bind]
  exact hk dn'

theorem setRn_withDone (s : State) (dn : List BusRec) (n : Rn) (v : Long) :
    (s.withDone dn).setRn n v = (s.setRn n v).withDone dn := by
  simp only [State.setRn, setA_withDone, setD_withDone]
  split <;> rfl

theorem rn_withDone (s : State) (dn : List BusRec) (n : Rn) : (s.withDone dn).rn n = s.rn n := rfl

theorem ccr_withDone (s : State) (dn : List BusRec) : (s.withDone dn).ccr = s.ccr := rfl

theorem pcAfter_withDone (s : State) (dn : List BusRec) (n : Nat) : pcAfter (s.withDone dn) n = pcAfter s n := rfl

theorem ccr_store (n : Nat) (a v : Long) : (store s fc n a v).ccr = s.ccr := congrArg Sr.ccr (store_sr fc n a v s)

theorem pcAfter_store (n k : Nat) (a v : Long) : pcAfter (store s fc n a v) k = pcAfter s k :=
  congrArg (· + BitVec.ofNat 32 (2 * k)) (store_pc fc n a v s)

/-! ## The access-level exchange (R446) -/

/-- The register of the access-level hardware that a request is written to. -/
def accessReg (decrease : Bool) : Nat := if decrease then 0x10044 else 0x10040

theorem accessReg_fields (decrease : Bool) :
    cpuType (BitVec.ofNat 32 (accessReg decrease)) = 1 ∧
    (BitVec.ofNat 32 (accessReg decrease)).extractLsb' 0 8 = (if decrease then 0x44#8 else 0x40#8) ∧
    ∀ v, extAddr v (BitVec.ofNat 32 (accessReg decrease)) = accessReg decrease := by
  refine ⟨?_, ?_, fun v => ?_⟩
  · cases decrease <;> decide
  · cases decrease <;> decide
  · cases v <;> cases decrease <;> decide

theorem lowBits_byte (b : Byte) : lowBits (8 * 1) (b.setWidth 32) = b.setWidth 32 :=
  (lowBits_bytesOf .b _).trans (trunc_of_fits (fits_setWidth (sz := .b) b le_rfl))

/-- A byte is written in one cycle, which ends the write as it ends itself. -/
theorem busWrite_byte (h : Quiet s) (fc : Fc) (a : Long) (b : Byte) :
    (∀ t, writeCycle s fc a 1 (b.setWidth 32) = .ok t → busWrite s fc a 1 (b.setWidth 32) = .ok t) ∧
    (∀ t, writeCycle s fc a 1 (b.setWidth 32) = .error (.err t) → busWrite s fc a 1 (b.setWidth 32) =
      .error (.fault { addr := a, fc := fc, read := false, bytes := 1, data := b.setWidth 32 } 0#32 t)) := by
  have hone : cycleBytes s.platform fc a 1 = 1 := by
    obtain ⟨hpos, hle⟩ := cycleBytes_bounds s.platform fc a 1 one_ne_zero
    exact le_antisymm hle hpos
  obtain ⟨⟨-, -, hmasters, -⟩, -⟩ := h
  simp only [busWrite, writeCycles, one_ne_zero, if_false, otherMasters_none hmasters, hone, Nat.sub_self, Nat.mul_zero,
    BitVec.ushiftRight_zero, lowBits_byte]
  refine ⟨fun t hcycle => ?_, fun t hcycle => ?_⟩
  · rw [runCycle_ok (cycle := fun u => writeCycle u fc a 1 _) hcycle]
  · rw [runCycle_err (cycle := fun u => writeCycle u fc a 1 _) hcycle]

/-- The cycle of a request that the hardware answers ends; else memory answers it, if at all. -/
theorem writeCycle_access (h : Quiet s) (decrease : Bool) (level : Byte) :
    writeCycle s 7#3 (BitVec.ofNat 32 (accessReg decrease)) 1 (level.setWidth 32) =
      if accessAnswer s.platform decrease level ≠ .busError then .ok s
      else cpuMemWrite s (BitVec.ofNat 32 (accessReg decrease)) 1 (level.setWidth 32) := by
  obtain ⟨htype, hreg, -⟩ := accessReg_fields decrease
  have hlevel : (level.setWidth 32 : Long).setWidth 8 = level := by simp
  rw [writeCycle_cpu h, cpuWriteCycle, htype]
  cases decrease with
  | false => simp [hreg, hlevel]
  | true => simp [hreg, hlevel]

/-- The hardware takes a request that it answers. -/
theorem busWrite_access (h : Quiet s) {decrease : Bool} {level : Byte}
    (ha : accessAnswer s.platform decrease level ≠ .busError) :
    busWrite s 7#3 (BitVec.ofNat 32 (accessReg decrease)) 1 (level.setWidth 32) = .ok s := by
  obtain ⟨hok, -⟩ := busWrite_byte h 7#3 (BitVec.ofNat 32 (accessReg decrease)) level
  exact hok s ((writeCycle_access h decrease level).trans (if_pos ha))

/-- The bus error of a request. -/
def accessFault (decrease : Bool) (level : Byte) : BusFault :=
  { addr := BitVec.ofNat 32 (accessReg decrease), fc := 7#3, read := false, bytes := 1, data := level.setWidth 32 }

/-- A request that nothing answers ends in bus error. -/
theorem busWrite_access_unanswered (h : Quiet s) {decrease : Bool} {level : Byte}
    (ha : accessAnswer s.platform decrease level = .busError)
    (hmem : ∀ r ∈ s.platform.cpuSpace, ¬ (r.1 ≤ accessReg decrease ∧ accessReg decrease ≤ r.2)) :
    busWrite s 7#3 (BitVec.ofNat 32 (accessReg decrease)) 1 (level.setWidth 32) =
      .error (.fault (accessFault decrease level) 0#32 s) := by
  obtain ⟨-, -, hext⟩ := accessReg_fields decrease
  have hany :
      (s.platform.cpuSpace.any fun r => decide (r.1 ≤ accessReg decrease ∧ accessReg decrease ≤ r.2)) = false := by
    simpa using hmem
  obtain ⟨-, herr⟩ := busWrite_byte h 7#3 (BitVec.ofNat 32 (accessReg decrease)) level
  refine herr s ?_
  rw [writeCycle_access h, if_neg (not_not_intro ha), cpuMemWrite]
  simp only [hext, hany, Bool.false_eq_true, if_false]

/-- The exchange in terms of its write. -/
theorem accessLevel_eq (h : Quiet s) (decrease : Bool) (level : Byte) :
    accessLevel s decrease level =
      match busWrite s 7#3 (BitVec.ofNat 32 (accessReg decrease)) 1 (level.setWidth 32) with
      | .error b => .error (stopRun b)
      | .ok t => accessEnd t (accessAnswer t.platform decrease level) >>= fun r =>
          .ok (r.1, r.2.withDone (t.done ++ [.read (if r.1 then 1#32 else 0#32)])) := by
  obtain ⟨⟨hreplay, hlanding, -, -⟩, -⟩ := h
  cases decrease <;> simp only [accessLevel, hreplay, land_none hlanding] <;> rfl

theorem accessLevel_granted (h : Quiet s) {decrease : Bool} {level : Byte} {change : Bool}
    (ha : accessAnswer s.platform decrease level = .granted change) :
    ∃ dn, accessLevel s decrease level = .ok (change, s.withDone dn) := by
  rw [accessLevel_eq h, busWrite_access h (ha ▸ AccessAnswer.noConfusion)]
  simp only [ha, accessEnd, ok_bind]
  exact ⟨_, rfl⟩

theorem accessLevel_denied (h : Quiet s) {decrease : Bool} {level : Byte}
    (ha : accessAnswer s.platform decrease level = .denied) :
    accessLevel s decrease level = .error (formatError s) := by
  rw [accessLevel_eq h, busWrite_access h (ha ▸ AccessAnswer.noConfusion)]
  simp only [ha, accessEnd]
  rfl

theorem accessLevel_unanswered (h : Quiet s) {decrease : Bool} {level : Byte}
    (ha : accessAnswer s.platform decrease level = .busError)
    (hmem : ∀ r ∈ s.platform.cpuSpace, ¬ (r.1 ≤ accessReg decrease ∧ accessReg decrease ≤ r.2)) :
    accessLevel s decrease level = .error (.next (dataFault s (accessFault decrease level) 0#32)) := by
  rw [accessLevel_eq h, busWrite_access_unanswered h ha hmem]
  rfl

/-! ## What CALLM and RTM share: the checks and the exchange -/

/-- OPT and TYPE are checked, and for type $01 the exchange is made; then the instruction goes on with `k`. -/
def moduleChecked (s : State) (opt : BitVec 3) (type : BitVec 5) (decrease : Bool) (level : Byte)
    (k : Bool × State → Run State) : Res :=
  toRes (if !moduleOk opt type then .error (formatError s) else accessFor s type decrease level >>= k)

theorem moduleOk_iff (opt : BitVec 3) (type : BitVec 5) :
    moduleOk opt type = true ↔ (opt = 0#3 ∨ opt = 4#3) ∧ (type = 0#5 ∨ type = 1#5) := by
  simp [moduleOk]

section

variable {opt : BitVec 3} {type : BitVec 5} {decrease : Bool} {level : Byte} {k : Bool × State → Run State}

theorem moduleChecked_improper (hno : ¬ ((opt = 0#3 ∨ opt = 4#3) ∧ (type = 0#5 ∨ type = 1#5))) :
    moduleChecked s opt type decrease level k = formatError s := by
  rw [← moduleOk_iff, Bool.not_eq_true] at hno
  rw [moduleChecked, hno]
  rfl

/-- Type $00 makes no exchange. -/
theorem moduleChecked_zero (hopt : opt = 0#3 ∨ opt = 4#3) (htype : type = 0#5) :
    moduleChecked s opt type decrease level k = toRes (k (false, s)) := by
  subst htype
  rw [moduleChecked, (moduleOk_iff opt 0#5).2 ⟨hopt, .inl rfl⟩]
  rfl

theorem moduleChecked_one (hopt : opt = 0#3 ∨ opt = 4#3) (htype : type = 1#5) :
    moduleChecked s opt type decrease level k = toRes (accessLevel s decrease level >>= k) := by
  subst htype
  rw [moduleChecked, (moduleOk_iff opt 1#5).2 ⟨hopt, .inr rfl⟩]
  rfl

end

/-! ## CALLM (R444, R447, R448) -/

/-- CALLM's frame for an instruction of `n` words, but for the saved module data pointer; `osp` is the stack pointer
that the frame holds. -/
def callmFrame (argc : Byte) (n : Nat) (d osp : Long) (opt : BitVec 3) (type : BitVec 5) (s : State) : Run State := do
  let f := s.sp
  let reserved := frameReserved s
  let s ← memWrite (s.tickBy 2) f 2 ((opt ++ type ++ savedLevel s type : Word).setWidth 32)
  let s ← memWrite s (f + 2#32) 2 (s.ccr.toByte.setWidth 32)
  let s ← memWrite s (f + 4#32) 2 (argc.setWidth 32)
  let s ← memWrite s (f + 6#32) 2 (reserved.setWidth 32)
  let s ← memWrite s (f + 8#32) 4 d
  let s ← memWrite s (f + 12#32) 4 (pcAfter s n)
  memWrite s (f + 20#32) 4 osp

/-- The end of CALLM, with the frame at `f`: the register that the module's entry word names is saved and loaded, and
the module starts. -/
def callmEnter (f d : Long) (s : State) : Run State := do
  let (e, s) ← memRead s (d + 4#32) 4
  let (ew, s) ← memRead s e 2
  let rn : Rn := ew.extractLsb' 12 4
  let s ← memWrite s (f + 16#32) 4 (s.rn rn)
  let (mdp, s) ← memRead s (d + 8#32) 4
  .ok (jumpTo (s.setRn rn mdp) (e + 2#32))

/-- CALLM from its frame on. -/
def callmFramed (argc : Byte) (n : Nat) (d osp : Long) (opt : BitVec 3) (type : BitVec 5) (s : State) : Run State :=
  callmFrame argc n d osp opt type s >>= callmEnter s.sp d

/-- CALLM after the checks: where the stack changes, the arguments are copied to the one that the descriptor at `d`
names. -/
def callmGoesOn (argc : Byte) (n : Nat) (d : Long) (opt : BitVec 3) (type : BitVec 5)
    (r : Bool × State) : Run State := do
  let (change, s) := r
  if change then
    let (nsp, t) ← memRead s (d + 12#32) 4
    let t ← copyArgs argc.toNat t s.sp (nsp - argc.setWidth 32)
    callmFramed argc n d s.sp opt type (t.setSp (nsp - argc.setWidth 32 - 24#32))
  else callmFramed argc n d s.sp opt type (s.setSp (s.sp - 24#32))

/-- CALLM is its parts in a row. -/
theorem execCallm_eq (argc : Byte) (ea : Ea) (s : State) :
    execCallm argc ea s = toRes (do
      let (d, s) ← eaAddr s 1 ea
      let (w0, s) ← memRead s d 4
      if !moduleOk (w0.extractLsb' 29 3) (w0.extractLsb' 24 5) then .error (formatError s)
      else
        let r ← accessFor s (w0.extractLsb' 24 5) false (w0.extractLsb' 16 8)
        callmGoesOn argc (2 + eaLen .l ea) d (w0.extractLsb' 29 3) (w0.extractLsb' 24 5) r) := by
  simp only [execCallm, callmGoesOn, callmFramed, callmFrame, bind_assoc, ok_bind] <;> rfl

theorem argsCopied_eq (n : Nat) (s : State) (src dst : Long) :
    argsCopied n s src dst = { s with mem := (argsCopied n s src dst).mem } := by
  induction n generalizing s src dst with
  | zero => rfl
  | succ n ih =>
    rw [argsCopied, ih, store_eq]

theorem copyArgs_quiet (h : Quiet s) (n : Nat) (src dst : Long) (dn : List BusRec) :
    RunsTo (copyArgs n (s.withDone dn) src dst) (argsCopied n s src dst) := by
  induction n generalizing s src dst dn with
  | zero => exact ⟨dn, rfl⟩
  | succ n ih =>
    obtain ⟨d1, hread⟩ := memRead_log h dn src 1
    obtain ⟨d2, hwrite⟩ := memWrite_log h d1 dst 1 ((byteAt s (dataFc s) src).setWidth 32)
    rw [load_byte] at hread
    simp only [copyArgs, hread, hwrite, ok_bind]
    exact ih (quiet_store h _ _ _ _) (src + 1#32) (dst + 1#32) d2

theorem callmFrame_quiet (h : Quiet s) (argc : Byte) (n : Nat) (d f : Long) (opt : BitVec 3) (type : BitVec 5)
    (dn : List BusRec) :
    RunsTo (callmFrame argc n d s.sp opt type ((s.setSp f).withDone dn))
      (moduleFrame s f d (pcAfter s n) argc opt type) := by
  have h0 : QuietIn (dataFc s) ((s.tickBy 2).setSp f) := ⟨quiet_congr h rfl rfl rfl, rfl⟩
  rw [callmFrame, sp_withDone, sp_setSp]
  refine .write h0 fun d1 => ?_
  refine .write h0.store fun d2 => ?_
  refine .write h0.store.store fun d3 => ?_
  refine .write h0.store.store.store fun d4 => ?_
  refine .write h0.store.store.store.store fun d5 => ?_
  refine .write h0.store.store.store.store.store fun d6 => ?_
  obtain ⟨d7, hlast⟩ := h0.store.store.store.store.store.store.memWrite d6 (f + 20#32) 4 s.sp
  refine ⟨d7, hlast.trans ?_⟩
  simp only [ccr_withDone, ccr_store, pcAfter_withDone, pcAfter_store]
  rfl

theorem quietIn_moduleFrame (h : Quiet s) (f d next : Long) (argc : Byte) (opt : BitVec 3) (type : BitVec 5) :
    QuietIn (dataFc s) (moduleFrame s f d next argc opt type) := by
  have h0 : QuietIn (dataFc s) ((s.tickBy 2).setSp f) := ⟨quiet_congr h rfl rfl rfl, rfl⟩
  exact h0.store.store.store.store.store.store.store

theorem callmEnter_quiet (h : QuietIn fc t) (f d : Long) (dn : List BusRec) {e : Long} (he : e = load t fc (d + 4#32) 4)
    {rn : Rn} (hrn : rn = (load t fc e 2).extractLsb' 12 4) (hu : u = store t fc 4 (f + 16#32) (t.rn rn)) :
    GoesTo (toRes (callmEnter f d (t.withDone dn))) (u.setRn rn (load u fc (d + 8#32) 4)) (e + 2#32) := by
  subst hu
  obtain ⟨d1, hentry⟩ := h.memRead dn (d + 4#32) 4
  obtain ⟨d2, hword⟩ := h.memRead d1 e 2
  obtain ⟨d3, hsave⟩ := h.memWrite d2 (f + 16#32) 4 (t.rn rn)
  obtain ⟨d4, hload⟩ := (h.store (n := 4) (a := f + 16#32) (v := t.rn rn)).memRead d3 (d + 8#32) 4
  rw [← he] at hentry
  simp only [callmEnter, hentry, hword, ok_bind, ← hrn, rn_withDone, hsave, hload, setRn_withDone]
  exact goesTo_jumpTo_withDone _ d4 _

theorem callmFramed_quiet (h : Quiet s) (argc : Byte) (n : Nat) (d f : Long) (opt : BitVec 3) (type : BitVec 5)
    (dn : List BusRec) :
    GoesTo (toRes (callmFramed argc n d s.sp opt type ((s.setSp f).withDone dn)))
      (called s f d (pcAfter s n) argc opt type).1 (called s f d (pcAfter s n) argc opt type).2 := by
  obtain ⟨d1, hframe⟩ := callmFrame_quiet h argc n d f opt type dn
  rw [callmFramed, hframe, ok_bind, sp_withDone, sp_setSp]
  exact callmEnter_quiet (quietIn_moduleFrame h f d (pcAfter s n) argc opt type) f d d1 rfl rfl rfl

/-- CALLM on the caller's stack. -/
theorem callmGoesOn_same (h : Quiet s) (argc : Byte) (n : Nat) (d : Long) (opt : BitVec 3) (type : BitVec 5)
    (dn : List BusRec) {result : State × Long} (hr : result = called s (s.sp - 24#32) d (pcAfter s n) argc opt type) :
    GoesTo (toRes (callmGoesOn argc n d opt type (false, s.withDone dn))) result.1 result.2 := by
  subst hr
  exact callmFramed_quiet h argc n d (s.sp - 24#32) opt type dn

/-- CALLM on the stack that the descriptor names. -/
theorem callmGoesOn_change (h : Quiet s) (argc : Byte) (n : Nat) (d : Long) (opt : BitVec 3) (type : BitVec 5)
    (dn : List BusRec) {base : Long} (hbase : base = load s (dataFc s) (d + 12#32) 4 - argc.setWidth 32)
    {result : State × Long}
    (hr : result = called (argsCopied argc.toNat s s.sp base) (base - 24#32) d (pcAfter s n) argc opt type) :
    GoesTo (toRes (callmGoesOn argc n d opt type (true, s.withDone dn))) result.1 result.2 := by
  have heq := argsCopied_eq argc.toNat s s.sp base
  have hsp : (argsCopied argc.toNat s s.sp base).sp = s.sp := by rw [heq]; rfl
  have hpc : pcAfter (argsCopied argc.toNat s s.sp base) n = pcAfter s n := by rw [heq]; rfl
  have hq : Quiet (argsCopied argc.toNat s s.sp base) := by
    rw [heq]
    exact quiet_congr h rfl rfl rfl
  obtain ⟨d1, hread⟩ := memRead_log h dn (d + 12#32) 4
  obtain ⟨d2, hcopy⟩ := copyArgs_quiet h argc.toNat s.sp base d1
  have hframed := callmFramed_quiet hq argc n d (base - 24#32) opt type d2
  rw [hsp, hpc, ← hr] at hframed
  simp only [callmGoesOn, if_true, hread, ok_bind, ← hbase, sp_withDone, hcopy, setSp_withDone]
  exact hframed

/-- CALLM reads the first long word of the descriptor and goes through the checks. -/
theorem callm_quiet (h : Quiet s) (argc : Byte) {ea : Ea} (hea : ea.wf .control .l = true) {d w0 : Long}
    (hd : d = (eaLoc s .l 1 ea).addr) (hw0 : w0 = load s (dataFc s) d 4) :
    ∃ dn, exec (.callm argc ea) s = moduleChecked (s.withDone dn) (w0.extractLsb' 29 3) (w0.extractLsb' 24 5) false
      (w0.extractLsb' 16 8)
      (callmGoesOn argc (2 + eaLen .l ea) d (w0.extractLsb' 29 3) (w0.extractLsb' 24 5)) := by
  obtain ⟨d1, haddr⟩ := eaAddr_quiet h 1 ea
  obtain ⟨d2, hread⟩ := memRead_log h d1 d 4
  rw [eaStep_control hea, ← hd] at haddr
  rw [← hw0] at hread
  refine ⟨d2, ?_⟩
  simp only [exec_callm, execCallm_eq, haddr, hread, ok_bind]
  rfl

/-! ## RTM (R445, R448) -/

/-- RTM of the frame at `f`, after the checks. -/
def rtmGoesOn (rn : Rn) (f : Long) (type : BitVec 5) (r : Bool × State) : Run State := do
  let (_, s) := r
  let (ccr, s) ← memRead s (f + 2#32) 2
  let (mdp, s) ← memRead s (f + 16#32) 4
  let (pc, s) ← memRead s (f + 12#32) 4
  let (argc, s) ← memRead s (f + 4#32) 2
  let args := lowBits 8 argc
  let (base, s) ← if type = 1#5 then memRead s (f + 20#32) 4 else .ok (f + 24#32, s)
  .ok (jumpTo (((s.setCcr (.ofByte (ccr.setWidth 8))).setRn rn mdp).setSp (base + args)) pc)

theorem execRtm_eq (rn : Rn) (s : State) :
    execRtm rn s = toRes (do
      let (w, t) ← memRead s s.sp 2
      if !moduleOk (w.extractLsb' 13 3) (w.extractLsb' 8 5) then .error (formatError t)
      else
        let r ← accessFor t (w.extractLsb' 8 5) true (w.extractLsb' 0 8)
        rtmGoesOn rn s.sp (w.extractLsb' 8 5) r) := rfl

theorem rtm_quiet (h : Quiet s) (rn : Rn) {w : Long} (hw : w = load s (dataFc s) s.sp 2) :
    ∃ dn, exec (.rtm rn) s = moduleChecked (s.withDone dn) (w.extractLsb' 13 3) (w.extractLsb' 8 5) true
      (w.extractLsb' 0 8) (rtmGoesOn rn s.sp (w.extractLsb' 8 5)) := by
  obtain ⟨dn, hread⟩ := memRead_log h s.done s.sp 2
  rw [← hw, withDone_self] at hread
  refine ⟨dn, ?_⟩
  simp only [exec_rtm, execRtm_eq, hread, ok_bind]
  rfl

theorem rtmGoesOn_quiet (h : Quiet s) (rn : Rn) (type : BitVec 5) (change : Bool) (dn : List BusRec) :
    GoesTo (toRes (rtmGoesOn rn s.sp type (change, s.withDone dn))) (returned s rn type).1 (returned s rn type).2 := by
  obtain ⟨d1, hccr⟩ := memRead_log h dn (s.sp + 2#32) 2
  obtain ⟨d2, hmdp⟩ := memRead_log h d1 (s.sp + 16#32) 4
  obtain ⟨d3, hpc⟩ := memRead_log h d2 (s.sp + 12#32) 4
  obtain ⟨d4, hargc⟩ := memRead_log h d3 (s.sp + 4#32) 2
  obtain ⟨d5, hbase⟩ := memRead_log h d4 (s.sp + 20#32) 4
  simp only [rtmGoesOn, returned, hccr, hmdp, hpc, hargc, hbase, ok_bind]
  split
  case isTrue =>
    simp only [setCcr_withDone, setRn_withDone, setSp_withDone]
    exact goesTo_jumpTo_withDone _ d5 _
  case isFalse =>
    simp only [setCcr_withDone, setRn_withDone, setSp_withDone]
    exact goesTo_jumpTo_withDone _ d4 _

/-! ## RTE and the frame of a module (R447, log 21) -/

/-- The word where RTE looks for a format has its upper bits set. -/
theorem frameReserved_high (s : State) : (frameReserved s).extractLsb' 14 2 = 3#2 := by
  rw [frameReserved]
  generalize (s.freeAt 1).extractLsb' 0 14 = low
  refine BitVec.eq_of_getLsbD_eq fun i hi => ?_
  simp only [BitVec.getLsbD_extractLsb', BitVec.getLsbD_append]
  interval_cases i <;> simp

theorem format_of_high (format : BitVec 4) (h : format.extractLsb' 2 2 = 3#2) :
    format ∈ [3#4, 4#4, 5#4, 6#4, 7#4, 8#4, 12#4, 13#4, 14#4, 15#4] := by
  revert h
  revert format
  decide

/-- RTE of a frame whose format word has its upper bits set is a format error (R636). -/
theorem rte_reserved (h : Quiet s) (hs : s.sr.s = true)
    (hhigh : (load s 5#3 (s.sp + 6#32) 2).extractLsb' 14 2 = 3#2) :
    ∃ dn, exec .rte s = formatError (s.withDone dn) := by
  have hfc : dataFc s = 5#3 := if_pos hs
  have hformat : (frameFormat s).extractLsb' 2 2 = 3#2 := by
    rw [← hhigh, ← hfc]
    refine BitVec.eq_of_getLsbD_eq fun i hi => ?_
    simp only [frameFormat, frameWord, BitVec.getLsbD_extractLsb']
    interval_cases i <;> simp
  rw [exec_rte_super hs]
  exact rteLoop_undefined h 15 (format_of_high _ hformat)

/-! ## The obligations -/

/-- Settles O52: type $00 goes through the checks without an exchange, improper values do not pass them, and RTE goes by
the format of the frame. -/
theorem modules : Obligations.Modules := by
  unfold Obligations.Modules
  intro s argc rn ea h hea d w0 opt type w popt ptype error call ret
  obtain ⟨d1, hcallm⟩ := callm_quiet h argc hea (d := d) rfl (w0 := w0) rfl
  obtain ⟨d2, hrtm⟩ := rtm_quiet h rn (w := w) rfl
  refine ⟨fun hopt htype => ?_, fun hno => ⟨d1, hcallm.trans (moduleChecked_improper hno)⟩, fun hopt htype => ?_,
    fun hno => ⟨d2, hrtm.trans (moduleChecked_improper hno)⟩, frameReserved_high s, rte_reserved h⟩
  · rw [hcallm, moduleChecked_zero hopt htype]
    exact callmGoesOn_same h argc (2 + eaLen .l ea) d opt type d1 rfl
  · rw [hrtm, moduleChecked_zero hopt htype]
    exact rtmGoesOn_quiet h rn ptype false d2

/-- An instruction of type $01, which does `done` where the request is granted. -/
theorem access_cases (h : Quiet s) {i : Instr} {opt : BitVec 3} {type : BitVec 5} {decrease : Bool} {level : Byte}
    {k : Bool × State → Run State} {done : Bool → State × Long}
    (hexec : ∃ dn, exec i s = moduleChecked (s.withDone dn) opt type decrease level k) (hopt : opt = 0#3 ∨ opt = 4#3)
    (htype : type = 1#5)
    (hk : ∀ change dn, GoesTo (toRes (k (change, s.withDone dn))) (done change).1 (done change).2) :
    (∀ change, accessAnswer s.platform decrease level = .granted change →
      GoesTo (exec i s) (done change).1 (done change).2) ∧
    (accessAnswer s.platform decrease level = .denied → ∃ dn, exec i s = formatError (s.withDone dn)) ∧
    (accessAnswer s.platform decrease level = .busError →
      (∀ r ∈ s.platform.cpuSpace, ¬ (r.1 ≤ accessReg decrease ∧ accessReg decrease ≤ r.2)) →
      ∃ dn, exec i s = .next (dataFault (s.withDone dn) (accessFault decrease level) 0#32)) := by
  obtain ⟨dn, hexec⟩ := hexec
  have hq := quiet_withDone h dn
  rw [hexec, moduleChecked_one hopt htype]
  refine ⟨fun change ha => ?_, fun ha => ⟨dn, ?_⟩, fun ha hmem => ⟨dn, ?_⟩⟩
  · obtain ⟨dn', hgranted⟩ := accessLevel_granted hq ha
    rw [hgranted, ok_bind, withDone_withDone]
    exact hk change dn'
  · rw [accessLevel_denied hq ha]
    rfl
  · rw [accessLevel_unanswered hq ha hmem]
    rfl

/-- Settles O53: what the hardware answers by `access_cases`; granted, CALLM goes on by one law for either stack. -/
theorem moduleAccess : Obligations.ModuleAccess := by
  unfold Obligations.ModuleAccess
  intro s argc rn ea h hea d w0 opt next w popt asks
  refine ⟨fun hopt htype => ?_, fun hopt htype => ?_⟩
  · refine access_cases h (callm_quiet h argc hea (d := d) rfl (w0 := w0) rfl) hopt htype fun change dn => ?_
    rw [htype]
    cases change with
    | false => exact callmGoesOn_same h argc (2 + eaLen .l ea) d opt 1#5 dn rfl
    | true => exact callmGoesOn_change h argc (2 + eaLen .l ea) d opt 1#5 dn rfl rfl
  · refine access_cases h (rtm_quiet h rn (w := w) rfl) hopt htype fun change dn => ?_
    rw [htype]
    exact rtmGoesOn_quiet h rn 1#5 change dn

end Sys2Proof.Proofs
end

section
/-! PROOFS. Dialogues that end with the coprocessor's first response (R462-R467, R522, R531). -/

namespace Sys2Proof.Proofs

open Sys2Proof Sys2Proof.Machine Sys2Proof.Laws

variable {s t : State}

/-! ## A platform with other coprocessors -/

theorem setCoprocessors_withDone (s : State) (dn : List BusRec) (cs : List Coprocessor) :
    (s.withDone dn).setCoprocessors cs = (s.setCoprocessors cs).withDone dn := rfl

theorem setCoprocessors_setCoprocessors (s : State) (cs cs' : List Coprocessor) :
    (s.setCoprocessors cs).setCoprocessors cs' = s.setCoprocessors cs' := rfl

/-- The coprocessors take no part in whether a bus cycle fails. -/
theorem quiet_setCoprocessors (h : Quiet s) (cs : List Coprocessor) : Quiet (s.setCoprocessors cs) := h

theorem setCoprocessors_answered (s : State) (cs cs' : List Coprocessor) (n : Nat) :
    (answered s cs n).setCoprocessors cs' = answered s cs' n := rfl

theorem quiet_answered (h : Quiet s) (cs : List Coprocessor) (n : Nat) : Quiet (answered s cs n) := h

/-- What an effective address names depends on registers and memory alone. -/
theorem locAt_congr (hr : t.regs = s.regs) (hs : t.sr = s.sr) (hb : ∀ fc a, byteAt t fc a = byteAt s fc a)
    (sz : Size) (pcx : Long) (ea : Ea) : locAt t sz pcx ea = locAt s sz pcx ea := by
  have ha : t.a = s.a := funext fun n => by simp only [State.a, hr, hs]
  have hindex : indexValue t = indexValue s := funext fun x => by simp only [indexValue, State.rn, State.d, ha, hr]
  have hspace : spaceFc t = spaceFc s := funext fun prog => by simp only [spaceFc, progFc, dataFc, hs]
  have hat : indexAt t = indexAt s := by
    funext prog base x
    cases x with
    | brief x d8 => simp only [indexAt, hindex]
    | full x bs is bd ind => cases ind <;> simp only [indexAt, hindex, hspace, load_of_bytes (hb _)]
  cases ea <;> simp only [locAt, ha, hat]

/-! ## Accesses in which the coprocessor takes part (R461) -/

variable {w : Word} {offset v : Long} {cs : List Coprocessor}

theorem cirAddr_offset (w : Word) (ho : offset ∈ cirOffsets) :
    (cirAddr w offset).extractLsb' 0 5 = offset.setWidth 5 := by
  rw [cirAddr]
  generalize cpId w = id
  fin_cases ho
  all_goals
    revert id
    decide

/-- The coprocessor takes the write that comes first in a dialogue. -/
theorem logWrite_of_converse {id : BitVec 3} {o : BitVec 5} {n : Nat} {d : Long} {es : List CirEvent}
    {cs cs' : List Coprocessor} (h : converse id (.write o n d :: es) cs = some cs') :
    ∃ cs₁, logWrite id { offset := o, bytes := n, data := d } cs = some (some (true, cs₁)) ∧
      converse id es cs₁ = some cs' := by
  rw [converse] at h
  split at h
  case h_1 cs₁ hlog => exact ⟨cs₁, hlog, h⟩
  case h_2 => exact nomatch h

section

variable (h : Quiet s) (hw : Wide s) (ho : offset ∈ cirOffsets)

include h hw ho

/-- A write to a two-byte register. -/
theorem cirWrite_converse {es : List CirEvent} (hv : lowBits (8 * 2) v = v)
    (hc : converse (cpId w) (.write (offset.setWidth 5) 2 v :: es) s.platform.coprocessors = some cs) :
    ∃ cs₁ dn, cirWrite s w offset 2 v = .ok ((s.setCoprocessors cs₁).withDone dn) ∧
      converse (cpId w) es cs₁ = some cs := by
  obtain ⟨cs₁, hlog, hrest⟩ := logWrite_of_converse hc
  obtain ⟨htype, hid, hplace⟩ := cirAddr_fields w ho
  rw [← hid, ← cirAddr_offset w ho, ← hv] at hlog
  exact ⟨cs₁, _, writeFc_cir h hw (by decide) hplace htype hlog, hrest⟩

/-- A read of a two-byte register. -/
theorem cirRead_converse (hc : converse (cpId w) [.read v] s.platform.coprocessors = some cs) :
    ∃ dn, cirRead s w offset 2 = .ok (lowBits (8 * 2) v, (s.setCoprocessors cs).withDone dn) := by
  obtain ⟨htype, hid, hplace⟩ := cirAddr_fields w ho
  exact ⟨_, readFc_cir h hw (by decide) hplace htype (hid ▸ popAnswer_of_converse hc)⟩

end

/-- A first write that is taken is a write. -/
theorem cirFirstWrite_of_cirWrite (hwrite : cirWrite s w offset 2 v = .ok t) :
    cirFirstWrite s w offset v = .ok t := by
  rw [cirFirstWrite]
  split
  case h_1 hreplay hbus =>
    simp only [cirWrite, writeFc, hreplay, hbus] at hwrite
    exact nomatch hwrite
  case h_2 => exact hwrite

/-- A first read that is answered is a read. -/
theorem cirFirstRead_of_cirRead {r : Long × State} (hread : cirRead s w offset 2 = .ok r) :
    cirFirstRead s w offset = .ok r := by
  rw [cirFirstRead]
  split
  case h_1 hreplay hbus =>
    simp only [cirRead, readFc, hreplay, hbus] at hread
    exact nomatch hread
  case h_2 => exact hread

/-! ## The dialogue (R522) -/

/-- With the response that releases the processor, the dialogue is over. -/
theorem cpDialogue_completes (h : Quiet s) (hw : Wide s) {tf : Bool}
    (hv : converse (cpId w) [.read v] s.platform.coprocessors = some cs)
    (hr : Releases s (cpKind w == .gen) v tf) :
    ∃ dn, cpDialogue w s = toRes (cpComplete w tf ((s.setCoprocessors cs).withDone dn)) := by
  obtain ⟨dn, hread⟩ := cirRead_response h hw hv
  have hserve := servePrimitive_releases (s := (s.setCoprocessors cs).withDone dn) hr w
  obtain ⟨-, -, hpc, -⟩ := hr
  refine ⟨dn, ?_⟩
  simp only [cpDialogue, dialogueFuel, serveLoop, hread, ok_bind, setWidth_lowBits_word, hpc, hserve,
    Bool.false_eq_true, if_false]

/-- An instruction whose write is taken, and whose first response releases the processor. -/
theorem cpStart_completes (h : Quiet s) (hw : Wide s) (ho : offset ∈ cirOffsets) {id : BitVec 3} (hid : cpId w = id)
    {x : Word} (ha : Answers s id (offset.setWidth 5) (x.setWidth 32) v cs) {kind : CpKind} (hk : cpKind w = kind)
    {tf : Bool} (hr : Releases s (kind == .gen) v tf) (n : Nat) :
    ∃ dn, cpStart w offset x n s = toRes (cpComplete w tf ((answered s cs n).withDone dn)) := by
  subst hid hk
  obtain ⟨cs₁, d1, hwrite, hrest⟩ := cirWrite_converse h hw ho (lowBits_word x) ha
  have hscan : { (s.setCoprocessors cs₁).withDone d1 with scanPc := s.pc + BitVec.ofNat 32 n } =
      (answered s cs₁ n).withDone d1 := rfl
  obtain ⟨d2, hdialogue⟩ := cpDialogue_completes (quiet_withDone (quiet_answered h cs₁ n) d1) hw hrest hr
  rw [setCoprocessors_withDone, withDone_withDone, setCoprocessors_answered, ← hscan] at hdialogue
  exact ⟨d2, by rw [cpStart, cirFirstWrite_of_cirWrite hwrite]; exact hdialogue⟩

/-! ## Operation words (R460) -/

theorem fields_mkOp (line : BitVec 4) (r9 op mode reg : BitVec 3) :
    field (mkOp line r9 op mode reg) 6 3 = op ∧ cpMode (mkOp line r9 op mode reg) = mode ∧
      cpReg (mkOp line r9 op mode reg) = reg := by
  simp only [cpMode, cpReg, field, mkOp]
  refine ⟨?_, ?_, extractLsb'_append_low _ _⟩
  · iterate 2 rw [BitVec.extractLsb'_append_eq_of_le (by decide)]
    exact extractLsb'_append_low _ _
  · rw [BitVec.extractLsb'_append_eq_of_le (by decide)]
    exact extractLsb'_append_low _ _

theorem cpKind_general (id mode reg : BitVec 3) : cpKind (mkOp 15 id 0 mode reg) = .gen := by
  obtain ⟨htype, -, -⟩ := fields_mkOp 15 id 0 mode reg
  rw [cpKind, htype]
  rfl

/-- Among the conditional instructions but branches, mode 1 is cpDBcc. -/
theorem cpKind_dbcc (id : BitVec 3) (d : Reg) : cpKind (mkOp 15 id 1 1 d) = .dbcc := by
  obtain ⟨htype, hmode, -⟩ := fields_mkOp 15 id 1 1 d
  rw [cpKind, htype, hmode]
  rfl

/-- Three registers of mode 7 are cpTRAPcc, by the number of operand words. -/
theorem cpKind_trapcc (id : BitVec 3) :
    cpKind (mkOp 15 id 1 7 4) = .trapcc 0 ∧ cpKind (mkOp 15 id 1 7 2) = .trapcc 1 ∧
      cpKind (mkOp 15 id 1 7 3) = .trapcc 2 := by
  revert id
  decide

/-- The modes without extension words, but that of cpDBcc, are cpScc. -/
theorem cpKind_scc (id : BitVec 3) {mode : BitVec 3} (hmode : mode ∈ [0#3, 2#3, 3#3, 4#3]) (reg : BitVec 3) :
    cpKind (mkOp 15 id 1 mode reg) = .scc := by
  obtain ⟨htype, hm, -⟩ := fields_mkOp 15 id 1 mode reg
  rw [cpKind, htype, hm]
  fin_cases hmode <;> rfl

theorem cpKind_bcc (id : BitVec 3) (sel : BitVec 6) :
    cpKind (15#4 ++ id ++ 2#3 ++ sel) = .bcc false ∧ cpKind (15#4 ++ id ++ 3#3 ++ sel) = .bcc true := by
  have htype : ∀ type : BitVec 3, field (15#4 ++ id ++ type ++ sel) 6 3 = type := fun type => by
    rw [field, BitVec.extractLsb'_append_eq_of_le (by decide)]
    exact extractLsb'_append_low _ _
  simp only [cpKind, htype]
  exact ⟨rfl, rfl⟩

/-! ## Instructions with nothing left to do but to pass over their operand words (R462, R463, R465, R467) -/

/-- The state after a dialogue that began `n` bytes after the operation word, with `k` bytes of operand words passed
over. -/
def released (s : State) (cs : List Coprocessor) (n k : Nat) : State :=
  { answered s cs n with pc := s.pc + BitVec.ofNat 32 (n + k) }

theorem endAtScan_answered (s : State) (cs : List Coprocessor) (n k : Nat) (dn : List BusRec) :
    endAtScan ((answered s cs n).withDone dn) k = (released s cs n k).withDone dn := by
  rw [released, add_ofNat_add]
  rfl

section

variable {u : State}

theorem cpComplete_gen (hk : cpKind w = .gen) {tf : Bool} : cpComplete w tf u = .ok (endAtScan u 0) := by
  rw [cpComplete, hk]

/-- cpTRAPcc with its condition false does not trap. -/
theorem cpComplete_trapcc {words : Nat} (hk : cpKind w = .trapcc words) :
    cpComplete w false u = .ok (endAtScan u (2 * words)) := by
  rw [cpComplete, hk]
  rfl

/-- cpDBcc with its condition true neither counts nor branches. -/
theorem cpComplete_dbcc (hk : cpKind w = .dbcc) : cpComplete w true u = .ok (endAtScan u 2) := by
  rw [cpComplete, hk]
  rfl

/-- cpBcc with its condition false does not branch. -/
theorem cpComplete_bcc {long : Bool} (hk : cpKind w = .bcc long) :
    cpComplete w false u = .ok (endAtScan u (if long then 4 else 2)) := by
  rw [cpComplete, hk]
  rfl

end

section

variable (h : Quiet s) (hw : Wide s) {id : BitVec 3} {x : Word}

include h hw

/-- An instruction that ends with the dialogue. -/
theorem cpStart_released (ho : offset ∈ cirOffsets) (hid : cpId w = id)
    (ha : Answers s id (offset.setWidth 5) (x.setWidth 32) v cs) {kind : CpKind} (hk : cpKind w = kind) {tf : Bool}
    (hr : Releases s (kind == .gen) v tf) (n : Nat) {k : Nat} (hend : ∀ u, cpComplete w tf u = .ok (endAtScan u k)) :
    CompletesAs (cpStart w offset x n s) (released s cs n k) := by
  obtain ⟨dn, hstart⟩ := cpStart_completes h hw ho hid ha hk hr n
  rw [hend, endAtScan_answered] at hstart
  exact ⟨dn, hstart⟩

theorem cpGen_released {tf : Bool} (ha : Answers s id 0x0A#5 (x.setWidth 32) v cs) (hr : Releases s true v tf)
    (m r : BitVec 3) : CompletesAs (exec (.cpGen id m r x) s) (released s cs 4 0) :=
  have hk := cpKind_general id m r
  cpStart_released h hw (by decide) (cpId_mkOp ..) ha hk hr 4 fun _ => cpComplete_gen hk

theorem cpTrapcc_released (ha : Answers s id 0x0E#5 (x.setWidth 32) v cs) (hr : Releases s false v false) :
    CompletesAs (exec (.cpTrapcc id x) s) (released s cs 4 0) ∧
      CompletesAs (exec (.cpTrapccW id x) s) (released s cs 4 2) ∧
      CompletesAs (exec (.cpTrapccL id x) s) (released s cs 4 4) := by
  have hends : ∀ reg words, cpKind (mkOp 15 id 1 7 reg) = .trapcc words →
      CompletesAs (cpStart (mkOp 15 id 1 7 reg) 0x0E#32 x 4 s) (released s cs 4 (2 * words)) := fun _ _ hk =>
    cpStart_released h hw (by decide) (cpId_mkOp ..) ha hk hr 4 fun _ => cpComplete_trapcc hk
  obtain ⟨hnone, hword, hlong⟩ := cpKind_trapcc id
  exact ⟨hends 4 0 hnone, hends 2 1 hword, hends 3 2 hlong⟩

theorem cpDbcc_released (ha : Answers s id 0x0E#5 (x.setWidth 32) v cs) (hr : Releases s false v true) (d : Reg) :
    CompletesAs (exec (.cpDbcc id d x) s) (released s cs 4 2) :=
  have hk := cpKind_dbcc id d
  cpStart_released h hw (by decide) (cpId_mkOp ..) ha hk hr 4 fun _ => cpComplete_dbcc hk

variable {sel : BitVec 6}

theorem cpBccW_released (ha : Answers s id 0x0E#5 ((opword (.cpBccW id sel)).setWidth 32) v cs)
    (hr : Releases s false v false) : CompletesAs (exec (.cpBccW id sel) s) (released s cs 2 2) := by
  obtain ⟨hk, -⟩ := cpKind_bcc id sel
  exact cpStart_released h hw (by decide) (cpId_cpBcc ..) ha hk hr 2 fun _ => cpComplete_bcc hk

theorem cpBccL_released (ha : Answers s id 0x0E#5 ((opword (.cpBccL id sel)).setWidth 32) v cs)
    (hr : Releases s false v false) : CompletesAs (exec (.cpBccL id sel) s) (released s cs 2 4) := by
  obtain ⟨-, hk⟩ := cpKind_bcc id sel
  exact cpStart_released h hw (by decide) (cpId_cpBcc ..) ha hk hr 2 fun _ => cpComplete_bcc hk

end

/-! ## cpScc (R464) -/

/-- The modes of cpScc without extension words. -/
theorem mode_mem_of_getEa_nil {mode reg : BitVec 3} {ea : Ea} (h : getEa .dataAlt .b mode reg [] = .ok (ea, [])) :
    mode ∈ [0#3, 2#3, 3#3, 4#3] := by
  have hok : (getEa .dataAlt .b mode reg []).toBool = true := by rw [h]; rfl
  clear h
  revert mode reg
  decide

@[simp] theorem eaStep_scanPc (s : State) (sz : Size) (ea : Ea) : (eaStep s sz ea).scanPc = s.scanPc := by
  cases ea <;> simp [eaStep]

@[simp] theorem putAt_scanPc (s : State) (sz : Size) (v : Long) (loc : Loc) : (putAt s sz v loc).scanPc = s.scanPc := by
  cases loc with
  | mem prog a =>
    cases prog with
    | false => rw [putAt, store_eq]
    | true => rfl
  | areg n => exact setA_scanPc s n _
  | _ => rfl

/-- The operand gets the condition; its address needs no words of the instruction stream. -/
theorem endScc_bare (h : Quiet s) (dn : List BusRec) {ea : Ea}
    (hea : getEa .dataAlt .b (cpMode w) (cpReg w) [] = .ok (ea, [])) (tf : Bool) :
    ∃ dn', endScc w tf (s.withDone dn) = .ok (State.withDone
      { putAt (eaStep s .b ea) .b (truthByte tf) (locAt s .b s.scanPc ea) with pc := s.scanPc } dn') := by
  obtain ⟨d1, heval⟩ := evalEa_quiet (quiet_withDone h dn) .b s.scanPc ea
  rw [locAt_withDone, eaStep_withDone, withDone_withDone] at heval
  obtain ⟨d2, hwrite⟩ := writeLoc_quiet (quiet_withDone (quiet_eaStep h .b ea) d1) .b (truthByte tf)
    (locAt s .b s.scanPc ea)
  rw [putAt_withDone, withDone_withDone] at hwrite
  have hstream : streamEa .dataAlt .b w eaFuel (s.withDone dn) [] = .ok (some ea, s.withDone dn) := by
    simp only [eaFuel, streamEa, hea, List.length_nil, Nat.mul_zero, BitVec.add_zero]
  have hscan : (putAt (eaStep s .b ea) .b (truthByte tf) (locAt s .b s.scanPc ea)).scanPc = s.scanPc := by
    rw [putAt_scanPc, eaStep_scanPc]
  generalize putAt (eaStep s .b ea) .b (truthByte tf) (locAt s .b s.scanPc ea) = u at *
  have hpcx : (s.withDone dn).scanPc = s.scanPc := rfl
  simp only [endScc, hpcx, hstream, heval, hwrite, ok_bind, endAtScan_zero]
  exact ⟨d2, congrArg (fun a => Except.ok (State.withDone { u with pc := a } d2)) hscan⟩

theorem cpScc_released (h : Quiet s) (hw : Wide s) {id : BitVec 3} {x : Word} {tf : Bool}
    (ha : Answers s id 0x0E#5 (x.setWidth 32) v cs) (hr : Releases s false v tf) {m r : BitVec 3} {ea : Ea}
    (hea : getEa .dataAlt .b m r [] = .ok (ea, [])) :
    CompletesAs (exec (.cpScc id m r x) s)
      { putAt (eaStep (answered s cs 4) .b ea) .b (truthByte tf) (locAt s .b (s.pc + 4#32) ea) with
        pc := s.pc + 4#32 } := by
  obtain ⟨-, hmode, hreg⟩ := fields_mkOp 15 id 1 m r
  have hk := cpKind_scc id (mode_mem_of_getEa_nil hea) r
  obtain ⟨d1, hstart⟩ := cpStart_completes h hw (offset := 0x0E#32) (by decide) (cpId_mkOp ..) ha hk hr 4
  obtain ⟨d2, hend⟩ := endScc_bare (s := answered s cs 4) (w := mkOp 15 id 1 m r) h d1 (by rw [hmode, hreg, hea]) tf
  have hloc : locAt (answered s cs 4) .b (s.pc + 4#32) ea = locAt s .b (s.pc + 4#32) ea :=
    locAt_congr rfl rfl (fun _ _ => rfl) ..
  rw [cpComplete, hk] at hstart
  rw [← hloc]
  exact ⟨d2, hstart.trans (congrArg toRes hend)⟩

/-! ## A taken cpBcc.W (R463) -/

/-- A fetch neither reads nor writes the log. -/
theorem fetchLong_withDone (h : Quiet s) (dn : List BusRec) (a : Long) :
    fetchLong (s.withDone dn) a = (fetchLong s a).map fun r => (r.1, r.2.withDone dn) := by
  have hread := busRead_quiet h (progFc_ne s) (longBase a) 4
  have hread' := busRead_quiet (quiet_withDone h dn) (progFc_ne s) (longBase a) 4
  have hhit : cacheHit (s.withDone dn) (progFc s) a = cacheHit s (progFc s) a := rfl
  have hfc : progFc (s.withDone dn) = progFc s := rfl
  have hhold : (s.withDone dn).holding = s.holding := rfl
  have hcache : cacheEnabled (s.withDone dn) = cacheEnabled s := rfl
  have hfrozen : (s.withDone dn).cacrF = s.cacrF := rfl
  simp only [fetchLong, hfc, hhit, hread, hread', load_withDone, hhold, hcache, hfrozen]
  split
  · rfl
  · cases cacheHit s (progFc s) a with
    | some lw => rfl
    | none => cases cacheEnabled s && !s.cacrF <;> rfl

theorem fetchWord_withDone (h : Quiet s) (dn : List BusRec) (a : Long) {x : Word} (hf : fetchWord s a = .ok (x, t)) :
    fetchWord (s.withDone dn) a = .ok (x, t.withDone dn) := by
  have hpipe : (s.withDone dn).pipe = s.pipe := rfl
  rw [fetchWord] at hf ⊢
  rw [hpipe, fetchLong_withDone h]
  cases hp : pipeWord s.pipe a with
  | some w =>
    rw [hp] at hf
    cases hf
    rfl
  | none =>
    simp only [hp] at hf
    split at hf
    case isTrue => exact nomatch hf
    case isFalse heven =>
      cases hl : fetchLong s a with
      | error e =>
        rw [hl] at hf
        exact nomatch hf
      | ok r =>
        rw [hl] at hf
        cases hf
        exact if_neg heven

/-- A word of the instruction stream is fetched, whatever the log. -/
theorem streamWord_quiet (h : Quiet s) (dn : List BusRec) {a : Long} {x : Word} (hf : fetchWord s a = .ok (x, t)) :
    ∃ dn', streamWord (s.withDone dn) a = .ok (x, t.withDone dn') := by
  have hword := fetchWord_withDone h dn a hf
  obtain ⟨⟨hreplay, hlanding, -, -⟩, -⟩ := quiet_withDone h dn
  simp only [streamWord, hreplay, land_none hlanding, hword]
  exact ⟨_, rfl⟩

/-- A fetch leaves the scanPC. -/
theorem fetchWord_scanPc {a : Long} {x : Word} (hf : fetchWord s a = .ok (x, t)) : t.scanPc = s.scanPc := by
  have hframe := fetchWord_frame s a
  rw [hf] at hframe
  obtain ⟨_, _, _, _, _, _, rfl⟩ := hframe
  rfl

theorem cpBccW_taken (h : Quiet s) (hw : Wide s) {id : BitVec 3} {sel : BitVec 6}
    (ha : Answers s id 0x0E#5 ((opword (.cpBccW id sel)).setWidth 32) v cs) (hr : Releases s false v true)
    {disp : Word} (hf : fetchWord (answered s cs 2) (s.pc + 2#32) = .ok (disp, t)) :
    GoesTo (exec (.cpBccW id sel) s) t (s.pc + 2#32 + disp.signExtend 32) := by
  obtain ⟨hk, -⟩ := cpKind_bcc id sel
  obtain ⟨d1, hstart⟩ := cpStart_completes h hw (offset := 0x0E#32) (by decide) (cpId_cpBcc ..) ha hk hr 2
  obtain ⟨d2, hword⟩ := streamWord_quiet (s := answered s cs 2) h d1 hf
  have hscan : t.scanPc = s.pc + 2#32 := fetchWord_scanPc hf
  have hend : cpComplete (15#4 ++ id ++ 2#3 ++ sel) true ((answered s cs 2).withDone d1) =
      .ok (jumpTo (t.withDone d2) (s.pc + 2#32 + disp.signExtend 32)) := by
    have hpcx : ((answered s cs 2).withDone d1).scanPc = s.pc + 2#32 := rfl
    rw [cpComplete, hk]
    simp only [endBcc, if_true, hpcx, hword, ok_bind, Bool.false_eq_true, if_false]
    rw [← hscan]
    rfl
  have hexec : exec (.cpBccW id sel) s = .next (jumpTo (t.withDone d2) (s.pc + 2#32 + disp.signExtend 32)) :=
    hstart.trans (congrArg toRes hend)
  exact hexec ▸ goesTo_jumpTo_withDone t d2 _

/-- Settles O55: each instruction writes, reads the response that releases the processor, and completes by its kind. -/
theorem coprocessorRelease : Obligations.CoprocessorRelease := by
  unfold Obligations.CoprocessorRelease
  refine ⟨fun s id m r w sel d v tf cs h hw => ?_, fun s u id sel v cs disp h hw ha hr hf =>
    cpBccW_taken h hw ha hr hf⟩
  refine ⟨fun ha hr => cpGen_released h hw ha hr m r,
    fun ha hr => ⟨?_, ?_, fun ea hea => cpScc_released h hw ha hr hea⟩, fun ha hr => cpBccW_released h hw ha hr, fun ha hr => cpBccL_released h hw ha hr⟩
  · rintro rfl
    exact cpTrapcc_released h hw ha hr
  · rintro rfl
    exact cpDbcc_released h hw ha hr d

end Sys2Proof.Proofs
end

section
/-! PROOFS. cpSAVE and cpRESTORE of an empty state frame (R468, R469, R481). -/

namespace Sys2Proof.Proofs

open Sys2Proof Sys2Proof.Machine Sys2Proof.Laws

variable {s : State} {w : Word} {ea : Ea} {f g : Long} {cs : List Coprocessor}

/-! ## Format words (R481) -/

/-- The format code lies in the low word. -/
theorem formatCode_lowBits (f : Long) : formatCode (lowBits (8 * 2) f) = formatCode f := by
  refine congrArg BitVec.toNat (BitVec.eq_of_getLsbD_eq fun i hi => ?_)
  have hword : 8 + i < 8 * 2 := by omega
  rw [BitVec.getLsbD_extractLsb', BitVec.getLsbD_extractLsb', getLsbD_lowBits, decide_eq_true hword, Bool.true_and]

/-- An empty format is valid, and no state follows it. -/
theorem format_empty (hf : formatCode f = 0) : codeBad f = false ∧ lenBad f = false ∧ stateLen f = 0 := by
  simp [codeBad, lenBad, stateLen, hf]

/-- A word in memory is its low word. -/
theorem lowBits_load_word (s : State) (fc : Fc) (a : Long) : lowBits (8 * 2) (load s fc a 2) = load s fc a 2 :=
  (lowBits_bytesOf .w _).trans (trunc_of_fits (fits_load s fc a .w))

/-- Storing a word stores the low word. -/
theorem store_lowBits_word (s : State) (fc : Fc) (a v : Long) : store s fc 2 a (lowBits (8 * 2) v) = store s fc 2 a v :=
  store_bytes fc 2 s a _ v fun i hi => by simpa using byteOf_part v 2 0 i hi

/-! ## Format words of the coprocessor (R468, R469) -/

section

variable (h : Quiet s) (hw : Wide s)

include h hw

/-- cpSAVE reads the format word of a coprocessor that is ready. -/
theorem saveFormat_ready (hc : converse (cpId w) [.read f] s.platform.coprocessors = some cs) (hf : formatCode f = 0) :
    ∃ dn, saveFormat w (dialogueFuel s) s = .ok (lowBits (8 * 2) f, (s.setCoprocessors cs).withDone dn) := by
  obtain ⟨dn, hread⟩ := cirRead_converse h hw (offset := 4#32) (by decide) hc
  have hready : ¬ formatCode (lowBits (8 * 2) f) = 1 := by rw [formatCode_lowBits, hf]; decide
  exact ⟨dn, by simp only [dialogueFuel, saveFormat, cirFirstRead_of_cirRead hread, ok_bind, hready, if_false]⟩

/-- cpRESTORE reads the coprocessor's answer to the format word. -/
theorem restoreFormat_ready (hc : converse (cpId w) [.read g] s.platform.coprocessors = some cs)
    (hg : formatCode g = 0) :
    ∃ dn, restoreFormat w (dialogueFuel s) s = .ok (lowBits (8 * 2) g, (s.setCoprocessors cs).withDone dn) := by
  obtain ⟨dn, hread⟩ := cirRead_converse h hw (offset := 6#32) (by decide) hc
  have hready : ¬ formatCode (lowBits (8 * 2) g) = 1 := by rw [formatCode_lowBits, hg]; decide
  exact ⟨dn, by simp only [dialogueFuel, restoreFormat, hread, ok_bind, hready, if_false]⟩

/-- The exchange of cpRESTORE: the format word is written, and answered by an empty one. -/
theorem restoreExchange_ready (hf : lowBits (8 * 2) f = f)
    (hc : converse (cpId w) [.write 6#5 2 f, .read g] s.platform.coprocessors = some cs) (hg : formatCode g = 0) :
    ∃ u dn, cirFirstWrite s w 6#32 f = .ok u ∧
      restoreFormat w (dialogueFuel u) u = .ok (lowBits (8 * 2) g, (s.setCoprocessors cs).withDone dn) := by
  obtain ⟨cs₁, d1, hwrite, hrest⟩ := cirWrite_converse h hw (offset := 6#32) (by decide) hf hc
  obtain ⟨d2, hread⟩ := restoreFormat_ready (quiet_withDone (quiet_setCoprocessors h cs₁) d1) hw hrest hg
  rw [setCoprocessors_withDone, setCoprocessors_setCoprocessors, withDone_withDone] at hread
  exact ⟨_, d2, cirFirstWrite_of_cirWrite hwrite, hread⟩

end

/-! ## Effective addresses (D23) -/

theorem eaStep_setCoprocessors (s : State) (cs : List Coprocessor) (sz : Size) (ea : Ea) :
    eaStep (s.setCoprocessors cs) sz ea = (eaStep s sz ea).setCoprocessors cs := by
  have hset : ∀ n v, (s.setCoprocessors cs).setA n v = (s.setA n v).setCoprocessors cs := fun n v => by
    unfold State.setA
    split <;> rfl
  cases ea with
  | postInc n | preDec n => exact hset n _
  | _ => rfl

theorem locAt_setCoprocessors (s : State) (cs : List Coprocessor) (sz : Size) (pcx : Long) (ea : Ea) :
    locAt (s.setCoprocessors cs) sz pcx ea = locAt s sz pcx ea := locAt_congr rfl rfl (fun _ _ => rfl) sz pcx ea

/-- Where cpSAVE puts an empty frame: the address that -(An) steps to is that of a long word. -/
theorem saveAddr_empty (h : Quiet s) (pcx : Long) (ea : Ea) :
    ∃ dn, saveAddr s pcx ea 0 = .ok ((locAt s .l pcx ea).addr, (eaStep s .l ea).withDone dn) := by
  obtain ⟨dn, heval⟩ := evalEa_quiet h .l pcx ea
  cases ea with
  | preDec n =>
    have ha : (s.setA n (s.a n - 4#32)).a n = s.a n - 4#32 := (a_setA s n n _).trans (if_pos rfl)
    exact ⟨(s.setA n (s.a n - 4#32)).done, congrArg (fun a => Except.ok (a, s.setA n (s.a n - 4#32))) ha⟩
  | _ => exact ⟨dn, by simp only [saveAddr, heval, ok_bind]⟩

/-- cpRESTORE of an empty frame steps (An)+ by a long word. -/
theorem restoreStep_empty (hea : ea.wf .controlOrPost .l = true) (s : State) (pcx : Long) :
    restoreStep s ea (locAt s .l pcx ea).addr 0 = eaStep s .l ea := by
  cases ea with
  | preDec n => exact absurd hea Bool.false_ne_true
  | _ => rfl

/-! ## The instructions -/

section

variable (h : Quiet s) (hw : Wide s) (hs : s.sr.s = true) {id : BitVec 3}

include h hw hs

/-- cpSAVE: the coprocessor's format word is stored. -/
theorem cpSave_empty (hc : converse id [.read f] s.platform.coprocessors = some cs) (hf : formatCode f = 0) (ea : Ea) :
    CompletesAs (exec (.cpSave id ea) s)
      { store ((eaStep s .l ea).setCoprocessors cs) (dataFc s) 2 (eaLoc s .l 0 ea).addr f with
        pc := pcAfter s (1 + eaLen .l ea) } := by
  rw [← cpId_opword_cpSave id ea] at hc
  obtain ⟨d1, hformat⟩ := saveFormat_ready h hw hc hf
  obtain ⟨d2, haddr⟩ := saveAddr_empty (quiet_withDone (quiet_setCoprocessors h cs) d1) (extAt s 0) ea
  rw [locAt_withDone, locAt_setCoprocessors, eaStep_withDone, eaStep_setCoprocessors, withDone_withDone] at haddr
  obtain ⟨d3, hwrite⟩ := memWrite_log (quiet_setCoprocessors (quiet_eaStep h .l ea) cs) d2
    (locAt s .l (extAt s 0) ea).addr 2 (lowBits (8 * 2) f)
  rw [store_lowBits_word] at hwrite
  obtain ⟨hcode, hlen, hstate⟩ := format_empty ((formatCode_lowBits f).trans hf)
  have hfc : dataFc ((eaStep s .l ea).setCoprocessors cs) = dataFc s := dataFc_eaStep s .l ea
  refine ⟨d3, ?_⟩
  rw [exec_cpSave, execCpSave, requireSupervisor_super hs]
  simp only [cpSaveAt, hformat, ok_bind, hcode, hlen, Bool.or_self, Bool.false_eq_true, if_false, hstate, haddr,
    hwrite, hfc, Nat.zero_div, saveWords]
  rfl

/-- cpRESTORE: the format word in memory goes to the coprocessor, which accepts it. -/
theorem cpRestore_empty (hea : ea.wf .controlOrPost .l = true) {loc : Loc} (hloc : eaLoc s .l 0 ea = loc)
    (hf : load s (spaceFc s loc.prog) loc.addr 2 = f)
    (hc : converse id [.write 6#5 2 f, .read g] s.platform.coprocessors = some cs) (hcode : formatCode f = 0)
    (hg : formatCode g = 0) :
    CompletesAs (exec (.cpRestore id ea) s)
      { (eaStep s .l ea).setCoprocessors cs with pc := pcAfter s (1 + eaLen .l ea) } := by
  rw [← cpId_opword_cpRestore id ea] at hc
  rw [eaLoc] at hloc
  obtain ⟨d1, haddr⟩ := restoreLoc_quiet h hea (extAt s 0)
  have hread := readFc_quiet (quiet_withDone h d1) (spaceFc_ne (s.withDone d1) loc.prog) loc.addr 2
  rw [load_withDone, spaceFc_withDone, hf, withDone_withDone] at hread
  generalize (s.withDone d1).done ++ [BusRec.read f] = d2 at hread
  obtain ⟨u, d3, hwrite, hformat⟩ := restoreExchange_ready (quiet_withDone h d2) hw (hf ▸ lowBits_load_word ..) hc hg
  rw [setCoprocessors_withDone, withDone_withDone] at hformat
  obtain ⟨hvalid, -, -⟩ := format_empty ((formatCode_lowBits g).trans hg)
  obtain ⟨-, hlen, -⟩ := format_empty hcode
  have hstep := restoreStep_empty hea ((s.setCoprocessors cs).withDone d3) (extAt s 0)
  rw [locAt_withDone, locAt_setCoprocessors, hloc, eaStep_withDone, eaStep_setCoprocessors] at hstep
  refine ⟨d3, ?_⟩
  rw [exec_cpRestore, execCpRestore, requireSupervisor_super hs]
  simp only [cpRestoreAt, haddr, ok_bind, hloc, spaceFc_withDone, hread, hwrite, hformat, hvalid, hlen, Bool.or_self,
    Bool.false_eq_true, if_false, formatCode_lowBits, hg, if_true, Nat.zero_div, restoreWords, hstep]
  rfl

end

/-- Settles O56: the address and the register update of an empty frame are those of a long word. -/
theorem coprocessorContext : Obligations.CoprocessorContext := by
  unfold Obligations.CoprocessorContext
  intro s id ea f g cs h hw hs a prog stepped fmt
  have ha : (eaLoc s .l 0 ea).addr = a := by cases ea <;> rfl
  have hstep : eaStep s .l ea = stepped := by cases ea <;> rfl
  have hset : (eaStep s .l ea).setCoprocessors cs =
      { stepped with platform := { s.platform with coprocessors := cs } } := by
    rw [State.setCoprocessors, eaStep_platform, hstep]
  refine ⟨fun _ hc hf => ?_, fun hea hcode hc hg => ?_⟩
  · rw [← hset, ← ha]
    exact cpSave_empty h hw hs hc hf ea
  · have hrestore := cpRestore_empty h hw hs hea rfl (congrArg (load s (spaceFc s prog) · 2) ha) hc hcode hg
    rw [hset] at hrestore
    exact hrestore

end Sys2Proof.Proofs
end

section
/-! PROOFS. Steps and exception entry (R600, R610-R612, R630, R631, R640, R690): the step of a decoded instruction, the
trace latch and the boundary, and the frame of an exception other than an interrupt. -/

namespace Sys2Proof.Proofs

open Sys2Proof Sys2Proof.Machine Sys2Proof.Laws

variable {s t : State}

/-! ## The step and the boundary -/

/-- A step of the running processor, with nothing suspended and no interrupt pending, runs the instruction fetched. -/
theorem step_fetched {i : Instr} (hrun : s.run = .normal) (hresume : s.resume = none) (hirq : s.irq.pending = false)
    (hfetch : fetchInstr maxWords (beginInstr s) [] = .ok (i, t)) :
    step s = settle (exec i { t with current := i }) := by
  simp only [step, hrun, hresume, hirq, Bool.false_eq_true, if_false, runFetched, hfetch]

/-- Settles O4. -/
theorem stepRunsDecoded : Obligations.StepRunsDecoded := by
  unfold Obligations.StepRunsDecoded
  exact fun s t i hrun hresume hirq hfetch _ => step_fetched hrun hresume hirq hfetch

/-- What T1,T0 latch at the start of an instruction. -/
theorem beginInstr_trace (s : State) :
    (beginInstr s).trace =
      { pending := traceMode s.sr == .every, flow := traceMode s.sr == .flow, addr := s.pc } := rfl

/-- The boundary of an instruction that is complete. -/
theorem afterInstr_complete (h : s.resume = none) :
    afterInstr s =
      pollInputs (if s.trace.pending && s.run != .halted && s.run != .waiting then
        takeTrace { s with done := [], replay := [] } else { s with done := [], replay := [] }) := by
  unfold afterInstr
  rw [h]
  rfl

/-- Settles O6: the latch by the value of T1,T0, the boundary by its condition. -/
theorem traceAndBoundary : Obligations.TraceAndBoundary := by
  unfold Obligations.TraceAndBoundary
  refine ⟨fun s => ⟨rfl, fun h1 h0 => ?_, fun h1 h0 => ?_, fun h1 h0 => ?_⟩, fun s hresume => ⟨fun hp hh hw => ?_, fun hno => ?_⟩⟩
  · simp [beginInstr_trace, traceMode, h1, h0]
  · simp [markFlow, beginInstr_trace, traceMode, h1, h0]
  · simp [markFlow, beginInstr_trace, traceMode, h1, h0]
  · have hcond : (s.trace.pending && s.run != .halted && s.run != .waiting) = true := by simp [hp, hh, hw]
    rw [afterInstr_complete hresume, if_pos hcond]
  · have hcond : ¬ (s.trace.pending && s.run != .halted && s.run != .waiting) = true := by
      obtain h | h | h := hno <;> simp [h]
    rw [afterInstr_complete hresume, if_neg hcond]

/-! ## The frame of an exception -/

/-- The handler of an exception finds a field of its frame as it was pushed. -/
theorem load_startAt_entryStacked (hwf : Memory.wf s.mem = true) (e : Entry) (a : Long) {i n : Nat} {v : Long}
    (hi : (entryFields s e)[i]? = some (n, v)) :
    load (startAt (entryStacked s e) a) 5#3
      (entrySp s e + BitVec.ofNat 32 (fieldsSize ((entryFields s e).take i))) n = lowBits (8 * n) v :=
  (load_congr (startAt_mem _ _) (startAt_platform _ _) 5#3 _ n).trans (load_entryStacked hwf e hi)

/-- Settles O15: with an even vector the exception stacks its frame and starts at the vector. -/
theorem entryFrame : Obligations.EntryFrame := by
  unfold Obligations.EntryFrame
  intro s e h hwf hl sr fields size sp target t heven
  have ht : t = startAt (entryStacked s e) (entryVector s e) := takeEntry_even h hl heven
  obtain ⟨hregs, hsr, hcontrols⟩ := entryStacked_regs s e
  have hfield : ∀ {i n v}, (entryFields s e)[i]? = some (n, v) →
      load t 5#3 (sp + BitVec.ofNat 32 (fieldsSize ((entryFields s e).take i))) n = lowBits (8 * n) v := fun hi =>
    ht ▸ load_startAt_entryStacked hwf e (entryVector s e) hi
  have hothers : SameMemBut s (entryStacked s e) 5#3 sp size :=
    sameMemBut_of_eq rfl rfl (sameMemBut_fieldsPut (s := (stepOne s none).setSp sp) hwf 5#3 sp fields)
  refine ⟨?pc, ?sr, ?regs, ?srCopy, ?returnPc, ?format, ?six, ?mid, ?others, ?controls, ?pipe⟩
  case pc => rw [ht]; rfl
  case sr => rw [ht, startAt_sr, hsr]; rfl
  case regs => rw [ht, startAt_regs, hregs]; rfl
  case srCopy =>
    rw [← BitVec.add_zero sp]
    exact (hfield (i := 0) rfl).trans (lowBits_word _)
  case returnPc => exact (hfield (i := 1) rfl).trans (lowBits_bytesOf .l e.pc)
  case format => exact (hfield (i := 2) rfl).trans (lowBits_word _)
  case six =>
    intro x hx
    have hfields : entryFields s e = frameHead s.sr e.pc e.body.format e.vector ++ [(4, x)] := by rw [entryFields, hx]; rfl
    rw [hfields] at hfield
    exact (hfield (i := 3) rfl).trans (lowBits_bytesOf .l x)
  case mid =>
    intro x i w ea hx
    have hfields : entryFields s e =
        frameHead s.sr e.pc e.body.format e.vector ++ [(4, x), (2, i.setWidth 32), (2, w.setWidth 32), (4, ea)] := by
      rw [entryFields, hx]
      rfl
    rw [hfields] at hfield
    exact ⟨(hfield (i := 3) rfl).trans (lowBits_bytesOf .l x), (hfield (i := 4) rfl).trans (lowBits_word i),
      (hfield (i := 5) rfl).trans (lowBits_word w), (hfield (i := 6) rfl).trans (lowBits_bytesOf .l ea)⟩
  case others =>
    intro fc a hne
    rw [ht]
    exact (byteAt_congr (startAt_mem _ _) (startAt_platform _ _) fc a).trans (hothers fc a hne)
  case controls => rw [ht, startAt_controls, hcontrols]
  case pipe => rw [ht]; rfl

end Sys2Proof.Proofs
end

section
/-! PROOFS. The invariant (R680, R681; canonical memory) through bus cycles, inputs, fetches, exceptions and reset. -/

namespace Sys2Proof.Proofs

open Sys2Proof Sys2Proof.Machine Sys2Proof.Laws

variable {s t : State}

/-! ## Updates of the state -/

/-- The invariant speaks of memory and the interrupt request state alone. -/
theorem inv_congr (h : Machine.Inv s) (hm : t.mem = s.mem) (hi : t.irq = s.irq) : Machine.Inv t := by
  unfold Machine.Inv
  rw [hm, hi]
  exact h

/-- Another memory in canonical form. -/
theorem inv_of_wf (h : Machine.Inv s) (hm : Memory.wf t.mem = true) (hi : t.irq = s.irq) : Machine.Inv t := by
  unfold Machine.Inv
  rw [hi]
  exact ⟨hm, h.2⟩

/-- A state in which no interrupt is pending. -/
theorem inv_of_not_pending (hm : Memory.wf s.mem = true) (hp : s.irq.pending = false) : Machine.Inv s :=
  ⟨hm, fun h => absurd (hp.symm.trans h) Bool.noConfusion⟩

theorem inv_setA (h : Machine.Inv s) (n : Reg) (v : Long) :
    Machine.Inv (s.setA n v) := inv_congr h (setA_mem ..) (setA_irq ..)

theorem inv_setRn (h : Machine.Inv s) (n : Rn) (v : Long) : Machine.Inv (s.setRn n v) := by
  rw [setRn_eq]
  exact h

theorem inv_store (h : Machine.Inv s) (fc : Fc) (n : Nat) (a v : Long) : Machine.Inv (store s fc n a v) :=
  inv_of_wf h (store_wf fc n a v s h.1) (by rw [store_eq])

/-- Stores of other bus masters, one after the other. -/
theorem wf_foldl_write {m : List Host.Cell} (h : Memory.wf m = true) (b : List (Nat × Byte)) :
    Memory.wf (b.foldl (fun m c => Memory.write m c.1 c.2) m) = true := by
  induction b generalizing m with
  | nil => exact h
  | cons c b ih => exact ih (write_wf c.1 c.2 h)

theorem inv_otherMasters (h : Machine.Inv s) : Machine.Inv (otherMasters s) := by
  unfold otherMasters
  split
  · exact h
  · split
    · exact h
    · exact inv_of_wf h (wf_foldl_write h.1 _) rfl

theorem inv_lockFor (h : Machine.Inv s) (loc : Loc) : Machine.Inv (lockFor s loc) := by
  cases loc
  case mem => exact inv_of_wf h (inv_otherMasters h).1 rfl
  all_goals exact h

/-! ## Inputs (log 5) -/

theorem inv_applyInput (h : Machine.Inv s) (i : Input) : Machine.Inv (applyInput s i) := by
  cases i
  case store k b => exact inv_of_wf h (write_wf k b h.1) rfl
  all_goals exact h

theorem inv_takeBatch (is : List Input) (h : Machine.Inv s) : Machine.Inv (takeBatch is s).1 := by
  induction is generalizing s with
  | nil => exact h
  | cons i is ih =>
    unfold takeBatch
    split
    · exact h
    · exact ih (inv_applyInput h i)

theorem inv_awaitInputs (h : Machine.Inv s) : Machine.Inv (awaitInputs s).2 := by
  unfold awaitInputs
  split
  · exact h
  · have hbatch : ∀ is bs, Machine.Inv (takeBatch is (s.setInputs bs)).1 := fun is bs =>
      inv_takeBatch is (s := s.setInputs bs) h
    dsimp only
    generalize (if s.rmc then _ else _ : List Input) = arrived
    generalize (if s.rmc then _ else _ : List (List Input)) = later
    split <;> exact hbatch _ _

/-! ## Bus cycles -/

/-- A cycle with its wait keeps the invariant if the cycle does. -/
theorem runCycle_inv {β : Type} {ok : β → State} {cycle : State → Sys2Proof.Machine.Cycle β}
    (hc : ∀ t, Machine.Inv t → Leaves Machine.Inv ok cycleStopState (cycle t)) (h : Machine.Inv s) :
    Leaves Machine.Inv ok cycleStopState (runCycle cycle s) := by
  have hawait : ∀ n s, Machine.Inv s → Leaves Machine.Inv ok cycleStopState (awaitCycle cycle n s) := by
    intro n
    induction n with
    | zero => exact fun _ h => h
    | succ n ih =>
      intro s h
      have hcycle := hc s h
      unfold awaitCycle
      split
      case h_1 t heq =>
        rw [heq] at hcycle
        have hinputs : Machine.Inv (awaitInputs t).2 := inv_awaitInputs hcycle
        split
        · exact ih _ hinputs
        · exact hinputs
      case h_2 => exact hcycle
  exact hawait _ s h

theorem cpuMemRead_inv (h : Machine.Inv s) (a : Long) (k : Nat) :
    Leaves Machine.Inv Prod.snd cycleStopState (cpuMemRead s a k) := by
  unfold cpuMemRead
  dsimp only
  split <;> exact h

theorem cpuReadCycle_inv (h : Machine.Inv s) (a : Long) (k : Nat) :
    Leaves Machine.Inv Prod.snd cycleStopState (cpuReadCycle s a k) := by
  have hmem := cpuMemRead_inv h a k
  unfold cpuReadCycle
  split
  case h_1 =>
    dsimp only
    split
    · split
      · exact h
      · exact hmem
    · exact hmem
  case h_2 =>
    split
    · exact h
    · exact hmem
  case h_3 => split <;> exact h
  case h_4 =>
    split
    · split <;> exact h
    · exact hmem
  case h_5 => exact hmem

theorem cpuWriteCycle_inv (h : Machine.Inv s) (a : Long) (k : Nat) (v : Long) :
    Leaves Machine.Inv id cycleStopState (cpuWriteCycle s a k v) := by
  have hmem : Leaves Machine.Inv id cycleStopState (cpuMemWrite s a k v) := by
    unfold cpuMemWrite
    dsimp only
    split
    · exact inv_store h 7#3 k a v
    · exact h
  unfold cpuWriteCycle
  split
  case h_1 =>
    dsimp only
    split
    · exact h
    · exact hmem
  case h_2 => split <;> exact h
  case h_3 => exact hmem

theorem readCycle_inv (h : Machine.Inv s) (fc : Fc) (a : Long) (k : Nat) :
    Leaves Machine.Inv Prod.snd cycleStopState (readCycle s fc a k) := by
  unfold readCycle
  split
  · exact h
  · split
    · exact h
    · split
      · exact cpuReadCycle_inv h a k
      · exact h

theorem writeCycle_inv (h : Machine.Inv s) (fc : Fc) (a : Long) (k : Nat) (v : Long) :
    Leaves Machine.Inv id cycleStopState (writeCycle s fc a k v) := by
  unfold writeCycle
  split
  · exact h
  · split
    · exact h
    · split
      · exact cpuWriteCycle_inv h a k v
      · exact inv_store h fc k a v

/-! ## Bus operations -/

theorem readCycles_inv (fc : Fc) (fuel : Nat) (h : Machine.Inv s) (a : Long) (rem : Nat) (acc : Long) :
    Leaves Machine.Inv Prod.snd busStopState (readCycles fc fuel s a rem acc) := by
  induction fuel generalizing s a rem acc with
  | zero => exact h
  | succ fuel ih =>
    have hcycle := fun k => runCycle_inv (fun t ht => readCycle_inv ht fc a k) (inv_otherMasters h)
    unfold readCycles
    split
    · exact h
    · dsimp only
      generalize cycleBytes (otherMasters s).platform fc a rem = k
      specialize hcycle k
      split
      all_goals
        rename_i heq
        rw [heq] at hcycle
      · exact ih hcycle _ _ _
      · exact hcycle
      · exact hcycle

theorem writeCycles_inv (fc : Fc) (fuel : Nat) (h : Machine.Inv s) (a : Long) (rem : Nat) (v : Long) :
    Leaves Machine.Inv id busStopState (writeCycles fc fuel s a rem v) := by
  induction fuel generalizing s a rem with
  | zero => exact h
  | succ fuel ih =>
    have hcycle := fun k x => runCycle_inv (fun t ht => writeCycle_inv ht fc a k x) (inv_otherMasters h)
    unfold writeCycles
    split
    · exact h
    · dsimp only
      generalize cycleBytes (otherMasters s).platform fc a rem = k
      specialize hcycle k (lowBits (8 * k) (v >>> (8 * (rem - k))))
      split
      all_goals
        rename_i heq
        rw [heq] at hcycle
      · exact ih hcycle _ _
      · exact hcycle
      · exact hcycle

theorem busRead_inv (h : Machine.Inv s) (fc : Fc) (a : Long) (n : Nat) :
    Leaves Machine.Inv Prod.snd busStopState (busRead s fc a n) :=
  readCycles_inv fc n h a n 0#32

theorem busWrite_inv (h : Machine.Inv s) (fc : Fc) (a : Long) (n : Nat) (v : Long) :
    Leaves Machine.Inv id busStopState (busWrite s fc a n v) := writeCycles_inv fc n h a n v

theorem writeFields_inv (h : Machine.Inv s) (fc : Fc) (a : Long) (fs : List (Nat × Long)) :
    Leaves Machine.Inv id busStopState (writeFields s fc a fs) := by
  induction fs generalizing s a with
  | nil => exact h
  | cons f fs ih => exact (busWrite_inv h fc a f.1 f.2).bind fun t ht => ih ht _

theorem pushFields_inv (h : Machine.Inv s) (fs : List (Nat × Long)) :
    Leaves Machine.Inv id busStopState (pushFields s fs) :=
  writeFields_inv (s := s.setSp _) h _ _ _

/-! ## Instruction fetch -/

theorem fetchLong_inv (h : Machine.Inv s) (a : Long) : Leaves Machine.Inv Prod.snd Prod.snd (fetchLong s a) := by
  have hread := busRead_inv h (progFc s) (longBase a) 4
  unfold fetchLong
  dsimp only
  split
  · exact h
  · split
    · exact h
    · split
      all_goals
        rename_i heq
        rw [heq] at hread
      · split <;> exact hread
      · exact hread
      · dsimp only [Leaves]
        split <;> exact hread

theorem fetchWord_inv (h : Machine.Inv s) (a : Long) : Leaves Machine.Inv Prod.snd Prod.snd (fetchWord s a) := by
  have hlong := fetchLong_inv h a
  unfold fetchWord
  split
  · exact h
  · split
    · exact h
    · split
      all_goals
        rename_i heq
        rw [heq] at hlong
        exact hlong

theorem prefetch_inv (h : Machine.Inv s) (a : Long) : Leaves Machine.Inv id id (prefetch s a) := by
  have hword := fetchWord_inv h a
  unfold prefetch
  split
  all_goals
    rename_i heq
    rw [heq] at hword
    exact hword

/-! ## Exception processing (R610, R618) -/

theorem inv_halted {stop : BusStop} (h : Machine.Inv (busStopState stop)) :
    Machine.Inv stop.halted := by cases stop <;> exact h

theorem inv_takeFault (h : Machine.Inv s) (f : FaultFrame) : Machine.Inv (takeFault s f) := by
  have hpush := pushFields_inv (s := suspend s f) h (faultFields s f)
  unfold takeFault
  split
  case h_1 heq =>
    rw [heq] at hpush
    exact inv_halted hpush
  case h_2 v heq =>
    rw [heq] at hpush
    have hvector := busRead_inv (s := v) hpush 5#3 (vectorAddr v f.vector) 4
    split
    all_goals
      rename_i heq
      rw [heq] at hvector
    · exact inv_halted hvector
    · exact endState_of_leaves (prefetch_inv (s := startAt _ _) hvector _)

theorem inv_takeOdd (h : Machine.Inv s) (pc a : Long) (kind : SuspKind) : Machine.Inv (takeOdd s pc a kind) :=
  inv_takeFault (s := { s with pipe := oddPipe s.pipe a }) h _

/-- A bus operation of exception processing, and what follows it. -/
theorem inv_entryBus {β : Type} {ok : β → State} {r : BusRun β} {k : β → State} (e : Entry) (copy : Sr)
    (hr : Leaves Machine.Inv ok busStopState r) (hk : ∀ v, Machine.Inv (ok v) → Machine.Inv (k v)) :
    Machine.Inv (entryBus s e copy r k) := by
  unfold entryBus
  split
  · exact hk _ hr
  · exact inv_takeFault (s := backTo _ s) hr _
  · exact hr

theorem inv_enterHandler (e : Entry) (copy : Sr) (h : Machine.Inv t) (target : Long) :
    Machine.Inv (enterHandler s e copy t target) := by
  unfold enterHandler
  split
  · exact inv_takeOdd (s := backTo t s) h _ _ _
  · exact h

theorem stackEntry_inv (h : Machine.Inv s) (e : Entry) (copy : Sr) :
    Leaves Machine.Inv id busStopState (stackEntry s e copy) := by
  unfold stackEntry
  refine (pushFields_inv h _).bind fun v hv => ?_
  split
  · exact pushFields_inv (s := { v with sr := { v.sr with m := false } }) hv _
  · exact hv

theorem inv_processEntry (h : Machine.Inv s) (e : Entry) (copy : Sr) (vector : Option Long) :
    Machine.Inv (processEntry s e copy vector) := by
  refine inv_entryBus e copy (stackEntry_inv h e copy) fun t ht => ?_
  split
  · exact inv_enterHandler e copy ht _
  · exact inv_entryBus e copy (busRead_inv ht ..) fun r hr => inv_enterHandler e copy hr _

theorem inv_takeEntry (h : Machine.Inv s) (e : Entry) : Machine.Inv (takeEntry s e) :=
  inv_processEntry (s := stepOne s e.level) h e s.sr none

theorem inv_fetchFault (h : Machine.Inv s) (a : Long) (kind : SuspKind) (stop : FetchStop) :
    Machine.Inv (fetchFault s a kind stop) := by
  cases stop
  case odd => exact inv_takeOdd h _ _ _
  case bus => exact inv_takeFault (s := { s with pipe := faultedPipe s.pipe _ a }) h _
  case never => exact h

theorem inv_jumpTo (h : Machine.Inv s) (target : Long) : Machine.Inv (jumpTo s target) := by
  unfold jumpTo
  split
  · exact inv_takeOdd (s := markFlow s) h _ _ _
  · exact h

/-! ## Interrupts and reset (R680-R685, R701) -/

theorem iackCycle_inv (level : BitVec 3) (h : Machine.Inv s) :
    Leaves Machine.Inv Prod.snd cycleStopState (iackCycle level s) := by
  unfold iackCycle
  split <;> exact h

/-- An interrupt is taken with its request cleared. -/
theorem inv_takeInterrupt (h : Machine.Inv s) (body : FrameBody) (pc : Long) :
    Machine.Inv (takeInterrupt s body pc) := by
  have hstart : Machine.Inv (stepOne { s with irq := { s.irq with pending := false } } (some s.irq.level)) :=
    inv_of_not_pending h.1 rfl
  have hcycle := runCycle_inv (fun t ht => iackCycle_inv s.irq.level ht) (inv_otherMasters hstart)
  unfold takeInterrupt
  dsimp only
  split
  all_goals
    rename_i heq
    rw [heq] at hcycle
  · exact inv_processEntry hcycle _ _ _
  · exact hcycle
  · exact hcycle

/-- A request that becomes pending is above the mask, or of level 7: it has a level. -/
theorem inv_sampleIpl (h : Machine.Inv s) : Machine.Inv (sampleIpl s) := by
  refine ⟨h.1, fun hp => ?_⟩
  have hhit : (decide (s.sr.mask.toNat < s.platform.ipl.toNat) || (s.platform.ipl == 7#3 && s.irq.prev != 7#3)) = true →
      s.platform.ipl ≠ 0#3 := by
    intro hhit hzero
    rw [hzero] at hhit
    simp at hhit
  simp only [sampleIpl] at hp ⊢
  split
  case isTrue hyes => exact hhit hyes
  case isFalse hno =>
    rw [Bool.not_eq_true _ |>.mp hno, Bool.or_false] at hp
    exact h.2 hp

theorem inv_resetProcessor (h : Machine.Inv s) : Machine.Inv (resetProcessor s) := by
  have hstart : Machine.Inv (Machine.resetState s) := inv_of_not_pending h.1 rfl
  have hisp := busRead_inv hstart 6#3 0#32 4
  unfold resetProcessor
  split
  case h_1 heq =>
    rw [heq] at hisp
    exact inv_halted hisp
  case h_2 isp t heq =>
    rw [heq] at hisp
    dsimp only
    have hpc := busRead_inv (s := { t with regs := { t.regs with isp := isp } }) hisp 6#3 4#32 4
    split
    case h_1 heq =>
      rw [heq] at hpc
      exact inv_halted hpc
    case h_2 start u heq =>
      rw [heq] at hpc
      exact endState_of_leaves <| (prefetch_inv (s := { u with pc := start }) hpc _).bind fun _ h1 =>
        (prefetch_inv h1 _).bind fun _ h2 => prefetch_inv h2 _

theorem inv_arrive (h : Machine.Inv s) (batch : List Input) : Machine.Inv (arrive s batch) := by
  have hbatch := inv_takeBatch batch h
  unfold arrive
  split
  all_goals
    rename_i heq
    rw [heq] at hbatch
  · exact hbatch
  · exact inv_resetProcessor (s := State.setInputs _ _) hbatch

theorem inv_pollInputs (h : Machine.Inv s) : Machine.Inv (pollInputs s) := by
  unfold pollInputs
  split
  case h_1 => exact inv_sampleIpl h
  case h_2 batch rest _ => exact inv_sampleIpl (inv_arrive (s := s.setInputs rest) h batch)

end Sys2Proof.Proofs
end

section
/-! PROOFS. The invariant (R680, R681; canonical memory) through the parts of instructions. -/

namespace Sys2Proof.Proofs

open Sys2Proof Sys2Proof.Machine Sys2Proof.Laws

variable {s t u : State}

/-! ## Registers, flags and free values -/

theorem inv_setSp (h : Machine.Inv t) (v : Long) : Machine.Inv (t.setSp v) := h

theorem inv_setCcr (h : Machine.Inv t) (f : Ccr) : Machine.Inv (t.setCcr f) := h

theorem inv_setD (h : Machine.Inv t) (n : Reg) (v : Long) : Machine.Inv (t.setD n v) := h

theorem inv_setDSized (h : Machine.Inv t) (sz : Size) (n : Reg) (v : Long) : Machine.Inv (t.setDSized sz n v) := h

theorem inv_tickBy (h : Machine.Inv t) (n : Nat) : Machine.Inv (t.tickBy n) := h

theorem inv_lockBus (h : Machine.Inv t) : Machine.Inv (lockBus t) := inv_lockFor h (.mem false 0#32)

/-! ## Outcomes and parts of instructions -/

/-- The outcome of an instruction, if it is a state, keeps the invariant. -/
def ResInv : Res → Prop
  | .next t => Machine.Inv t
  | _ => True

/-- A part of an instruction ends with `P`, or ends the instruction with the invariant kept. -/
def RunInv {β : Type} (P : β → Prop) : Run β → Prop
  | .ok v => P v
  | .error r => ResInv r

theorem RunInv.bind {β γ : Type} {P : β → Prop} {Q : γ → Prop} {r : Run β} {k : β → Run γ} (h : RunInv P r)
    (hk : ∀ v, P v → RunInv Q (k v)) : RunInv Q (r >>= k) := by
  cases r with
  | ok v => exact hk v h
  | error e => exact h

/-- A part that answers a value and a state, and what follows it. -/
theorem RunInv.andThen {β γ : Type} {Q : γ → Prop} {r : Run (β × State)} {k : β × State → Run γ}
    (h : RunInv (Machine.Inv ·.2) r) (hk : ∀ v t, Machine.Inv t → RunInv Q (k (v, t))) : RunInv Q (r >>= k) :=
  h.bind fun v hv => hk v.1 v.2 hv

theorem ResInv.toRes {r : Run State} (h : RunInv Machine.Inv r) : ResInv (toRes r) := by
  cases r <;> exact h

/-! ## Exceptions -/

theorem trapTo_inv (h : Machine.Inv t) (vector : Byte) (body : FrameBody) (pc : Long) :
    ResInv (trapTo t vector body pc) := inv_takeEntry (s := markFlow t) h _

theorem abandonTo_inv (h : Machine.Inv t) (vector : Byte) : ResInv (abandonTo t vector) :=
  inv_takeEntry (s := clearTrace t) h _

/-- What a supervisor program does keeps the invariant, and so does the privilege violation of a user program. -/
theorem requireSupervisor_inv (h : Machine.Inv t) {k : State → Res} (hk : ResInv (k t)) :
    ResInv (requireSupervisor t k) := by
  unfold requireSupervisor
  split
  · exact hk
  · exact abandonTo_inv h 8#8

theorem srImm_inv (h : Machine.Inv t) (f : Word → Word) : ResInv (srImm t f) := requireSupervisor_inv h h

theorem stopRun_inv {b : BusStop} (h : Machine.Inv (busStopState b)) : ResInv (stopRun b) := by
  cases b with
  | fault f got t => exact inv_takeFault (s := t) h _
  | never t => exact h

/-! ## Accesses -/

theorem inv_land (h : Machine.Inv t) : Machine.Inv (land t) := by
  unfold land
  split <;> exact h

theorem inv_tookOver (h : Machine.Inv t) (r : BusRec) (rest : List BusRec) : Machine.Inv (tookOver t r rest) := by
  unfold tookOver
  dsimp only
  split
  · exact inv_land (t := { t with replay := rest, done := t.done ++ [r] }) h
  · exact h

theorem readFc_inv (h : Machine.Inv t) (fc : Fc) (a : Long) (n : Nat) :
    RunInv (Machine.Inv ·.2) (readFc t fc a n) := by
  have hb := busRead_inv (inv_land h) fc a n
  unfold readFc
  split
  · exact inv_tookOver h _ _
  · exact inv_tookOver (t := t.tick) h _ _
  · split
    all_goals
      rename_i heq
      rw [heq] at hb
    · exact hb
    · exact stopRun_inv hb

theorem writeFc_inv (h : Machine.Inv t) (fc : Fc) (a : Long) (n : Nat) (v : Long) :
    RunInv Machine.Inv (writeFc t fc a n v) := by
  have hb := busWrite_inv (inv_land h) fc a n v
  unfold writeFc
  split
  · exact inv_tookOver h _ _
  · split
    all_goals
      rename_i heq
      rw [heq] at hb
    · exact hb
    · exact stopRun_inv hb

theorem streamWord_inv (h : Machine.Inv t) (a : Long) : RunInv (Machine.Inv ·.2) (streamWord t a) := by
  have hw := fetchWord_inv (inv_land h) a
  unfold streamWord
  split
  · exact inv_tookOver h _ _
  · exact inv_tookOver (t := t.tick) h _ _
  · split
    all_goals
      rename_i heq
      rw [heq] at hw
    · exact hw
    · exact inv_fetchFault hw _ _ _

theorem streamLong_inv (h : Machine.Inv t) (a : Long) : RunInv (Machine.Inv ·.2) (streamLong t a) :=
  (streamWord_inv h a).andThen fun _ _ h1 => (streamWord_inv h1 _).andThen fun _ _ h2 => h2

theorem memRead_inv (h : Machine.Inv t) (a : Long) (n : Nat) : RunInv (Machine.Inv ·.2) (memRead t a n) :=
  readFc_inv h _ a n

theorem memWrite_inv (h : Machine.Inv t) (a : Long) (n : Nat) (v : Long) : RunInv Machine.Inv (memWrite t a n v) :=
  writeFc_inv h _ a n v

theorem pushLong_inv (h : Machine.Inv t) (v : Long) : RunInv Machine.Inv (pushLong t v) :=
  memWrite_inv (inv_setSp h _) _ 4 v

theorem pop_inv (h : Machine.Inv t) (n : Nat) : RunInv (Machine.Inv ·.2) (pop t n) :=
  (memRead_inv h _ n).andThen fun _ _ hu => hu

/-! ## Operands -/

theorem indexAddr_inv (h : Machine.Inv t) (prog : Bool) (base : Long) (x : Index) :
    RunInv (Machine.Inv ·.2) (indexAddr t prog base x) := by
  cases x with
  | brief x d8 => exact h
  | full x bs is bd ind =>
    cases ind with
    | none => exact h
    | pre od => exact (readFc_inv h _ _ 4).andThen fun _ _ hu => hu
    | post od => exact (readFc_inv h _ _ 4).andThen fun _ _ hu => hu

theorem evalEa_inv (h : Machine.Inv t) (sz : Size) (pcx : Long) (ea : Ea) :
    RunInv (Machine.Inv ·.2) (evalEa t sz pcx ea) := by
  cases ea with
  | postInc n => exact inv_setA h n _
  | preDec n => exact inv_setA h n _
  | idx n x => exact (indexAddr_inv h false _ x).andThen fun _ _ hu => hu
  | pcIdx x => exact (indexAddr_inv h true _ x).andThen fun _ _ hu => hu
  | _ => exact h

theorem readLoc_inv (h : Machine.Inv t) (sz : Size) (loc : Loc) : RunInv (Machine.Inv ·.2) (readLoc t sz loc) := by
  cases loc with
  | mem prog a => exact readFc_inv h _ a _
  | _ => exact h

theorem writeLoc_inv (h : Machine.Inv t) (sz : Size) (v : Long) (loc : Loc) :
    RunInv Machine.Inv (writeLoc t sz v loc) := by
  cases loc with
  | dreg n => exact h
  | areg n => exact inv_setA h n _
  | mem prog a =>
    cases prog with
    | false => exact memWrite_inv h a _ v
    | true => exact h
  | imm _ => exact h

theorem readEa_inv (h : Machine.Inv t) (sz : Size) (own : Nat) (ea : Ea) :
    RunInv (Machine.Inv ·.2) (readEa t sz own ea) :=
  (evalEa_inv h sz _ ea).andThen fun loc _ hu => readLoc_inv hu sz loc

theorem eaAddr_inv (h : Machine.Inv t) (own : Nat) (ea : Ea) : RunInv (Machine.Inv ·.2) (eaAddr t own ea) :=
  (evalEa_inv h .l _ ea).andThen fun _ _ hu => hu

/-! ## Shapes of instructions -/

theorem modifyEa_inv (h : Machine.Inv t) (sz : Size) (own : Nat) (ea : Ea) (f : Long → Long × Ccr) :
    ResInv (modifyEa t sz own ea f) :=
  .toRes <| (evalEa_inv h sz _ ea).andThen fun loc _ h1 => (readLoc_inv h1 sz loc).andThen fun _ _ h2 =>
    (writeLoc_inv h2 sz _ loc).bind fun _ h3 => h3

theorem setEa_inv (h : Machine.Inv t) (sz : Size) (ea : Ea) (v : Long) (f : Ccr) :
    ResInv (setEa t sz ea v f) :=
  .toRes <| (evalEa_inv h sz _ ea).andThen fun loc _ h1 =>
    (writeLoc_inv h1 sz v loc).bind fun _ h2 => h2

theorem withOperand_inv (h : Machine.Inv t) (sz : Size) (own : Nat) (ea : Ea) {k : Long → State → Res}
    (hk : ∀ v u, Machine.Inv u → ResInv (k v u)) : ResInv (withOperand t sz own ea k) := by
  have hr := readEa_inv h sz own ea
  unfold withOperand
  split
  all_goals
    rename_i heq
    rw [heq] at hr
  · exact hk _ _ hr
  · exact hr

theorem testEa_inv (h : Machine.Inv t) (sz : Size) (own : Nat) (ea : Ea) (f : Long → Ccr) :
    ResInv (testEa t sz own ea f) :=
  withOperand_inv h sz own ea fun _ _ hu => hu

theorem eaToDn_inv (h : Machine.Inv t) (sz : Size) (d : Reg) (ea : Ea) (f : Long → Long → Long × Ccr) :
    ResInv (eaToDn t sz d ea f) :=
  withOperand_inv h sz 0 ea fun _ _ hu => hu

theorem eaToAn_inv (h : Machine.Inv t) (sz : Size) (a : Reg) (ea : Ea) (f : Long → Long → Long) :
    ResInv (eaToAn t sz a ea f) :=
  withOperand_inv h sz 0 ea fun _ _ hu => inv_setA hu a _

theorem twoWay_inv (h : Machine.Inv t) (sz : Size) (toEa : Bool) (d : Reg) (ea : Ea)
    (f : Long → Long → Long × Ccr) : ResInv (twoWay t sz toEa d ea f) := by
  unfold twoWay
  split
  · exact modifyEa_inv h sz 0 ea _
  · exact eaToDn_inv h sz d ea f

theorem readPre_inv (h : Machine.Inv t) (sz : Size) (n : Reg) : RunInv (Machine.Inv ·.2) (readPre t sz n) :=
  memRead_inv (inv_setA h n _) _ _

theorem readPost_inv (h : Machine.Inv t) (sz : Size) (n : Reg) : RunInv (Machine.Inv ·.2) (readPost t sz n) :=
  (memRead_inv h _ _).andThen fun _ _ hu => inv_setA hu n _

theorem pairOp_inv (h : Machine.Inv t) (sz : Size) (mem : Bool) (src dst : Reg) (f : Long → Long → Long × Ccr) :
    ResInv (pairOp t sz mem src dst f) := by
  unfold pairOp
  split
  · exact .toRes <| (readPre_inv h sz src).andThen fun _ _ h1 => (readPre_inv h1 sz dst).andThen fun _ _ h2 =>
      (memWrite_inv h2 _ _ _).bind fun _ h3 => h3
  · exact h

/-! ## Integer arithmetic and decimal instructions -/

theorem execAddq_inv (h : Machine.Inv t) (sz : Size) (q : BitVec 3) (ea : Ea) : ResInv (execAddq sz q ea t) := by
  unfold execAddq
  split
  · exact inv_setA h _ _
  · exact modifyEa_inv h sz 0 _ _

theorem execSubq_inv (h : Machine.Inv t) (sz : Size) (q : BitVec 3) (ea : Ea) : ResInv (execSubq sz q ea t) := by
  unfold execSubq
  split
  · exact inv_setA h _ _
  · exact modifyEa_inv h sz 0 _ _

theorem execCmpa_inv (h : Machine.Inv t) (long : Bool) (a : Reg) (ea : Ea) : ResInv (execCmpa long a ea t) :=
  withOperand_inv h _ 0 ea fun _ _ hu => hu

theorem execCmpm_inv (h : Machine.Inv t) (sz : Size) (src dst : Reg) : ResInv (execCmpm sz src dst t) :=
  .toRes <| (readPost_inv h sz src).andThen fun _ _ h1 => (readPost_inv h1 sz dst).andThen fun _ _ h2 =>
    h2

theorem readBounds_inv (h : Machine.Inv t) (sz : Size) (ea : Ea) : RunInv (Machine.Inv ·.2) (readBounds t sz ea) :=
  (evalEa_inv h sz _ ea).andThen fun _ _ h1 => (readLoc_inv h1 sz _).andThen fun _ _ h2 =>
    (readLoc_inv h2 sz _).andThen fun _ _ h3 => h3

theorem execCmp2_inv (h : Machine.Inv t) (sz : Size) (rn : Rn) (ea : Ea) : ResInv (execCmp2 sz rn ea t) :=
  .toRes <| (readBounds_inv h sz ea).andThen fun _ _ hu => hu

theorem execChk2_inv (h : Machine.Inv t) (sz : Size) (rn : Rn) (ea : Ea) : ResInv (execChk2 sz rn ea t) := by
  have hb := readBounds_inv h sz ea
  unfold execChk2
  split
  case h_1 r heq =>
    rw [heq] at hb
    exact hb
  case h_2 b u heq =>
    rw [heq] at hb
    dsimp only
    split
    · exact trapTo_inv (inv_tickBy (inv_setCcr hb _) 2) 6#8 _ _
    · exact hb

theorem chk_inv (h : Machine.Inv t) (sz : Size) (d : Reg) (ea : Ea) : ResInv (chk sz d ea t) := by
  refine withOperand_inv h sz 0 ea fun b u hu => ?_
  dsimp only
  split
  · exact trapTo_inv (inv_tickBy (inv_setCcr hu _) 4) 6#8 _ _
  · exact hu

theorem mulWord16_inv (h : Machine.Inv t) (d : Reg) (ea : Ea) (ext : Long → Long) :
    ResInv (mulWord16 t d ea ext) :=
  withOperand_inv h .w 0 ea fun _ _ hu => hu

theorem mulL_inv (h : Machine.Inv t) (signed quad : Bool) (dl dh : Reg) (ea : Ea) :
    ResInv (mulL signed quad dl dh ea t) := by
  refine withOperand_inv h .l 1 ea fun v u hu => ?_
  dsimp only
  split
  · split <;> exact hu
  · exact hu

theorem zeroDivide_inv (h : Machine.Inv t) (n : Nat) : ResInv (zeroDivide t n) :=
  trapTo_inv (inv_tickBy (inv_setCcr h _) 3) 5#8 _ _

theorem inv_putQuotient (h : Machine.Inv t) (quad : Bool) (dq dr : Reg) (q r : Long) :
    Machine.Inv (putQuotient quad dq dr q r t) := by
  unfold putQuotient
  split
  · exact h
  · split <;> exact h

theorem divW_inv (h : Machine.Inv t) (signed : Bool) (d : Reg) (ea : Ea) : ResInv (divW signed d ea t) := by
  refine withOperand_inv h .w 0 ea fun v u hu => ?_
  dsimp only
  split
  · exact zeroDivide_inv hu _
  · generalize Machine.divide _ _ = qr
    split
    · exact hu
    · exact hu

theorem divL_inv (h : Machine.Inv t) (signed quad : Bool) (dq dr : Reg) (ea : Ea) :
    ResInv (divL signed quad dq dr ea t) := by
  refine withOperand_inv h .l 1 ea fun v u hu => ?_
  dsimp only
  split
  · exact zeroDivide_inv hu _
  · split
    · exact inv_putQuotient hu ..
    · exact hu

theorem packRead_inv (h : Machine.Inv t) (n : Reg) : RunInv (Machine.Inv ·.2) (packRead t n) :=
  memRead_inv (inv_setA h n _) _ 1

theorem packWrite_inv (h : Machine.Inv t) (n : Reg) (v : Long) : RunInv Machine.Inv (packWrite t n v) :=
  memWrite_inv (inv_setA h n _) _ 1 v

theorem execPack_inv (h : Machine.Inv t) (mem : Bool) (src dst : Reg) (adj : Word) :
    ResInv (execPack mem src dst adj t) := by
  unfold execPack
  split
  · exact .toRes <| (packRead_inv h src).andThen fun _ _ h1 => (packRead_inv h1 src).andThen fun _ _ h2 =>
      (packWrite_inv h2 dst _).bind fun _ h3 => h3
  · exact h

theorem execUnpk_inv (h : Machine.Inv t) (mem : Bool) (src dst : Reg) (adj : Word) :
    ResInv (execUnpk mem src dst adj t) := by
  unfold execUnpk
  split
  · exact .toRes <| (packRead_inv h src).andThen fun _ _ h1 => (packWrite_inv h1 dst _).bind fun _ h2 =>
      (packWrite_inv h2 dst _).bind fun _ h3 => h3
  · exact h

/-! ## Bits and bit fields -/

theorem bitModify_inv (h : Machine.Inv t) (f : Long → Long → Long) (num : Long) (own : Nat) (ea : Ea) :
    ResInv (bitModify f num own ea t) := by
  unfold bitModify
  split
  · exact h
  · exact modifyEa_inv h .b own _ _

theorem bitTest_inv (h : Machine.Inv t) (num : Long) (own : Nat) (ea : Ea) : ResInv (bitTest num own ea t) := by
  unfold bitTest
  split
  · exact h
  · exact testEa_inv h .b own _ _

theorem readBytes_inv (prog : Bool) (n : Nat) (h : Machine.Inv t) (a : Long) (acc : BitVec 40) :
    RunInv (Machine.Inv ·.2) (readBytes prog n t a acc) := by
  induction n generalizing t a acc with
  | zero => exact h
  | succ n ih => exact (readFc_inv h _ a 1).andThen fun _ _ hu => ih hu _ _

theorem writeBytes_inv (n : Nat) (h : Machine.Inv t) (a : Long) (v : BitVec 40) :
    RunInv Machine.Inv (writeBytes n t a v) := by
  induction n generalizing t a with
  | zero => exact h
  | succ n ih => exact (memWrite_inv h a 1 _).bind fun _ hu => ih hu _

theorem bfPlace_inv (h : Machine.Inv t) (off : Long) (w : Nat) (ea : Ea) :
    RunInv (Machine.Inv ·.2) (bfPlace t off w ea) := by
  unfold bfPlace
  split
  · exact h
  · exact (evalEa_inv h .l _ _).andThen fun _ _ h1 => (readBytes_inv _ _ h1 _ _).andThen fun _ _ h2 => h2

theorem bfWrite_inv (h : Machine.Inv t) (p : BfPlace) (w : Nat) (v : Long) :
    RunInv Machine.Inv (bfWrite t p w v) := by
  unfold bfWrite
  split
  · exact h
  · exact writeBytes_inv _ h _ _

theorem bfRead_inv (h : Machine.Inv t) (f : BfSpec) (ea : Ea) {k : Long → Nat → Long → State → State}
    (hk : ∀ off w v u, Machine.Inv u → Machine.Inv (k off w v u)) : ResInv (bfRead f ea t k) :=
  .toRes <| (bfPlace_inv h _ _ ea).andThen fun _ _ hu => hk _ _ _ _ hu

theorem bfModify_inv (h : Machine.Inv t) (f : BfSpec) (ea : Ea) (g : Nat → Long → Long) :
    ResInv (bfModify f ea t g) :=
  .toRes <| (bfPlace_inv h _ _ ea).andThen fun _ _ h1 => (bfWrite_inv h1 _ _ _).bind fun _ h2 =>
    h2

theorem execBfins_inv (h : Machine.Inv t) (d : Reg) (f : BfSpec) (ea : Ea) : ResInv (execBfins d f ea t) :=
  .toRes <| (bfPlace_inv h _ _ ea).andThen fun _ _ h1 => (bfWrite_inv h1 _ _ _).bind fun _ h2 =>
    h2

/-! ## Shifts -/

theorem shiftReg_inv (h : Machine.Inv t) (k : ShiftKind) (sz : Size) (byReg : Bool) (c : BitVec 3) (d : Reg) :
    ResInv (shiftReg k sz byReg c d t) := h

theorem shiftEa_inv (h : Machine.Inv t) (k : ShiftKind) (ea : Ea) : ResInv (shiftEa k ea t) :=
  modifyEa_inv h .w 0 ea _

/-! ## Data movement -/

theorem moveSized_inv (h : Machine.Inv t) (sz : Size) (src dst : Ea) : ResInv (moveSized sz src dst t) :=
  .toRes <| (readEa_inv h sz 0 src).andThen fun _ _ h1 => (evalEa_inv h1 sz _ dst).andThen fun loc _ h2 =>
    (writeLoc_inv h2 sz _ loc).bind fun _ h3 => h3

theorem storeRegs_inv (sz : Size) (rs : List Rn) (h : Machine.Inv t) (a : Long) :
    RunInv Machine.Inv (storeRegs sz t a rs) := by
  induction rs generalizing t a with
  | nil => exact h
  | cons r rs ih => exact (memWrite_inv h a _ _).bind fun _ hu => ih hu _

theorem storeRegsDown_inv (sz : Size) (an : Rn) (own : Long) (rs : List Rn) (h : Machine.Inv t) (a : Long) :
    RunInv (Machine.Inv ·.2) (storeRegsDown sz an own t a rs) := by
  induction rs generalizing t a with
  | nil => exact h
  | cons r rs ih => exact (memWrite_inv h _ _ _).bind fun _ hu => ih hu _

theorem loadRegs_inv (sz : Size) (prog : Bool) (rs : List Rn) (h : Machine.Inv t) (a : Long) :
    RunInv (Machine.Inv ·.2) (loadRegs sz prog t a rs) := by
  induction rs generalizing t a with
  | nil => exact h
  | cons r rs ih => exact (readFc_inv h _ a _).andThen fun _ _ hu => ih (inv_setRn hu r _) _

theorem execMovemToMem_inv (h : Machine.Inv t) (long : Bool) (mask : Word) (ea : Ea) :
    ResInv (execMovemToMem long mask ea t) := by
  unfold execMovemToMem
  refine .toRes ?_
  split
  · exact (storeRegsDown_inv _ _ _ _ h _).andThen fun _ _ hu => inv_setA hu _ _
  · exact (eaAddr_inv h 1 _).andThen fun _ _ h1 => (storeRegs_inv _ _ h1 _).bind fun _ h2 => h2

theorem execMovemToRegs_inv (h : Machine.Inv t) (long : Bool) (mask : Word) (ea : Ea) :
    ResInv (execMovemToRegs long mask ea t) := by
  unfold execMovemToRegs
  refine .toRes ?_
  split
  · exact (loadRegs_inv _ _ _ h _).andThen fun _ _ hu => inv_setA hu _ _
  · exact (evalEa_inv h .l _ _).andThen fun _ _ h1 => (loadRegs_inv _ _ _ h1 _).andThen fun _ _ h2 =>
      h2

theorem storeAlternate_inv (n : Nat) (h : Machine.Inv t) (a v : Long) :
    RunInv Machine.Inv (storeAlternate n t a v) := by
  induction n generalizing t a with
  | zero => exact h
  | succ n ih => exact (memWrite_inv h a 1 _).bind fun _ hu => ih hu _

theorem loadAlternate_inv (n : Nat) (h : Machine.Inv t) (a acc : Long) :
    RunInv (Machine.Inv ·.2) (loadAlternate n t a acc) := by
  induction n generalizing t a acc with
  | zero => exact h
  | succ n ih => exact (memRead_inv h a 1).andThen fun _ _ hu => ih hu _ _

theorem execMovep_inv (h : Machine.Inv t) (long toMem : Bool) (d a : Reg) (d16 : Word) :
    ResInv (execMovep long toMem d a d16 t) := by
  unfold execMovep
  refine .toRes ?_
  split
  · exact (storeAlternate_inv _ h _ _).bind fun _ hu => hu
  · exact (loadAlternate_inv _ h _ _).andThen fun _ _ hu => hu

theorem execLea_inv (h : Machine.Inv t) (a : Reg) (ea : Ea) : ResInv (execLea a ea t) :=
  .toRes <| (eaAddr_inv h 0 ea).andThen fun _ _ hu => inv_setA hu a _

theorem execPea_inv (h : Machine.Inv t) (ea : Ea) : ResInv (execPea ea t) :=
  .toRes <| (eaAddr_inv h 0 ea).andThen fun _ _ h1 => (pushLong_inv h1 _).bind fun _ h2 => h2

theorem link_inv (h : Machine.Inv t) (a : Reg) (disp : Long) (n : Nat) : ResInv (link a disp n t) :=
  .toRes <| (memWrite_inv (inv_setSp h _) _ 4 _).bind fun _ hu => inv_setA hu a _

theorem execUnlk_inv (h : Machine.Inv t) (a : Reg) : ResInv (execUnlk a t) :=
  .toRes <| (memRead_inv (inv_setSp h _) _ 4).andThen fun _ _ hu => inv_setA hu a _

/-! ## Program control -/

theorem execBcc_inv (h : Machine.Inv t) (cc : Cond) (d : BrDisp) : ResInv (execBcc cc d t) := by
  unfold execBcc
  split
  · exact inv_jumpTo h _
  · exact h

theorem execBsr_inv (h : Machine.Inv t) (d : BrDisp) : ResInv (execBsr d t) :=
  .toRes <| (pushLong_inv h _).bind fun _ hu => inv_jumpTo hu _

theorem execDbcc_inv (h : Machine.Inv t) (cc : Cond) (d : Reg) (d16 : Word) : ResInv (execDbcc cc d d16 t) := by
  unfold execDbcc
  split
  · exact h
  · dsimp only
    split
    · exact h
    · exact inv_jumpTo (inv_setDSized h _ _ _) _

theorem execJmp_inv (h : Machine.Inv t) (ea : Ea) : ResInv (execJmp ea t) :=
  .toRes <| (eaAddr_inv h 0 ea).andThen fun _ _ hu => inv_jumpTo hu _

theorem execJsr_inv (h : Machine.Inv t) (ea : Ea) : ResInv (execJsr ea t) :=
  .toRes <| (eaAddr_inv h 0 ea).andThen fun _ _ h1 => (pushLong_inv h1 _).bind fun _ h2 => inv_jumpTo h2 _

theorem execRts_inv (h : Machine.Inv t) : ResInv (execRts t) :=
  .toRes <| (pop_inv h 4).andThen fun _ _ hu => inv_jumpTo hu _

theorem execRtd_inv (h : Machine.Inv t) (d16 : Word) : ResInv (execRtd d16 t) :=
  .toRes <| (pop_inv h 4).andThen fun _ _ hu => inv_jumpTo (inv_setSp hu _) _

theorem execRtr_inv (h : Machine.Inv t) : ResInv (execRtr t) :=
  .toRes <| (pop_inv h 2).andThen fun _ _ h1 => (pop_inv (inv_setCcr h1 _) 4).andThen fun _ _ h2 =>
    inv_jumpTo h2 _

/-! ## Breakpoint, traps and unassigned words -/

theorem execBkpt_inv (h : Machine.Inv t) (v : BitVec 3) : ResInv (execBkpt v t) := by
  have hb := (busRead_inv h 7#3 (v.setWidth 32 <<< 2) 2)
  unfold execBkpt
  split
  all_goals
    rename_i heq
    rw [heq] at hb
  · exact hb
  · exact abandonTo_inv hb 4#8
  · exact hb

theorem trapIf_inv (h : Machine.Inv t) (b : Bool) (n : Nat) : ResInv (trapIf b n t) := by
  unfold trapIf
  split
  · exact trapTo_inv h 7#8 _ _
  · exact h

theorem execUnassigned_inv (h : Machine.Inv t) (w : Word) : ResInv (execUnassigned w t) := by
  unfold execUnassigned
  split <;> exact abandonTo_inv h _

/-! ## Locked instructions and modules -/

theorem execTas_inv (h : Machine.Inv t) (ea : Ea) : ResInv (execTas ea t) :=
  .toRes <| (evalEa_inv h .b _ ea).andThen fun loc _ h1 => (readLoc_inv (inv_lockFor h1 loc) .b loc).andThen
    fun _ _ h2 => (writeLoc_inv h2 .b _ loc).bind fun _ h3 => h3

theorem execCas_inv (h : Machine.Inv t) (sz : Size) (dc du : Reg) (ea : Ea) : ResInv (execCas sz dc du ea t) := by
  refine .toRes <| (evalEa_inv h sz _ ea).andThen fun loc _ h1 => (readLoc_inv (inv_lockFor h1 loc) sz loc).andThen
    fun v t2 h2 => ?_
  dsimp -zeta only
  extract_lets f rest
  have hrest (u : State) (hu : Machine.Inv u) : RunInv Machine.Inv (rest u) := hu
  split
  · exact (writeLoc_inv h2 sz _ loc).bind hrest
  · exact hrest _ h2

theorem cas2_inv (h : Machine.Inv t) (sz : Size) (rn1 : Rn) (du1 dc1 : Reg) (rn2 : Rn) (du2 dc2 : Reg) :
    ResInv (cas2 sz rn1 du1 dc1 rn2 du2 dc2 t) := by
  refine .toRes <| (memRead_inv (inv_lockBus h) _ _).andThen fun v1 t1 h1 => (memRead_inv h1 _ _).andThen
    fun v2 t2 h2 => ?_
  dsimp -zeta only
  extract_lets f1 f rest
  have hrest (u : State) (hu : Machine.Inv u) : RunInv Machine.Inv (rest u) := hu
  split
  · exact (memWrite_inv h2 _ _ _).bind fun _ h3 => (memWrite_inv h3 _ _ _).bind hrest
  · exact hrest _ h2

theorem accessEnd_inv (h : Machine.Inv t) (a : AccessAnswer) : RunInv (Machine.Inv ·.2) (accessEnd t a) := by
  unfold accessEnd
  split
  · exact h
  · exact trapTo_inv h 14#8 _ _
  · split
    · exact h
    · exact trapTo_inv (inv_tickBy h 2) 14#8 _ _

theorem accessLevel_inv (h : Machine.Inv t) (decrease : Bool) (level : Byte) :
    RunInv (Machine.Inv ·.2) (accessLevel t decrease level) := by
  have hb := busWrite_inv (inv_land h) 7#3 (if decrease then 0x00010044#32 else 0x00010040#32) 1 (level.setWidth 32)
  unfold accessLevel
  dsimp only
  split
  · exact inv_tookOver h _ _
  · exact (accessEnd_inv (inv_tookOver h _ _) _).andThen fun _ _ hu => hu
  · split
    all_goals
      rename_i heq
      rw [heq] at hb
    · exact stopRun_inv hb
    · exact (accessEnd_inv hb _).andThen fun _ _ hu => hu

theorem accessFor_inv (h : Machine.Inv t) (type : BitVec 5) (decrease : Bool) (level : Byte) :
    RunInv (Machine.Inv ·.2) (accessFor t type decrease level) := by
  unfold accessFor
  split
  · exact accessLevel_inv h decrease level
  · exact h

theorem copyArgs_inv (n : Nat) (h : Machine.Inv t) (src dst : Long) : RunInv Machine.Inv (copyArgs n t src dst) := by
  induction n generalizing t src dst with
  | zero => exact h
  | succ n ih => exact (memRead_inv h src 1).andThen fun _ _ h1 => (memWrite_inv h1 dst 1 _).bind fun _ h2 => ih h2 _ _

theorem execCallm_inv (h : Machine.Inv t) (argc : Byte) (ea : Ea) : ResInv (execCallm argc ea t) := by
  refine .toRes <| (eaAddr_inv h 1 ea).andThen fun d _ h1 => (memRead_inv h1 d 4).andThen fun w0 t2 h2 => ?_
  dsimp -zeta only
  extract_lets opt type
  split
  · exact trapTo_inv h2 14#8 _ _
  · refine (accessFor_inv h2 type false _).andThen fun change t3 h3 => ?_
    dsimp -zeta only
    extract_lets osp frame
    have hframe (u : State) (hu : Machine.Inv u) : RunInv Machine.Inv (frame u) :=
      (memWrite_inv (inv_tickBy hu 2) _ 2 _).bind fun _ hf => (memWrite_inv hf _ 2 _).bind fun _ hf =>
      (memWrite_inv hf _ 2 _).bind fun _ hf => (memWrite_inv hf _ 2 _).bind fun _ hf =>
      (memWrite_inv hf _ 4 _).bind fun _ hf => (memWrite_inv hf _ 4 _).bind fun _ hf =>
      (memWrite_inv hf _ 4 _).bind fun _ hf => (memRead_inv hf _ 4).andThen fun _ _ hf =>
      (memRead_inv hf _ 2).andThen fun _ _ hf => (memWrite_inv hf _ 4 _).bind fun _ hf =>
      (memRead_inv hf _ 4).andThen fun _ _ hf => inv_jumpTo (inv_setRn hf _ _) _
    split
    · exact (memRead_inv h3 _ 4).andThen fun _ _ hn => (copyArgs_inv _ hn _ _).bind fun _ hc =>
        hframe _ hc
    · exact hframe _ h3

theorem execRtm_inv (h : Machine.Inv t) (rn : Rn) : ResInv (execRtm rn t) := by
  refine .toRes <| (memRead_inv h _ 2).andThen fun w t1 h1 => ?_
  dsimp -zeta only
  extract_lets type
  split
  · exact trapTo_inv h1 14#8 _ _
  · refine (accessFor_inv h1 type true _).andThen fun _ _ h2 => (memRead_inv h2 _ 2).andThen fun _ _ h3 =>
      (memRead_inv h3 _ 4).andThen fun _ _ h4 => (memRead_inv h4 _ 4).andThen fun _ _ h5 =>
      (memRead_inv h5 _ 2).andThen fun argc t6 h6 => ?_
    dsimp -zeta only
    extract_lets args rest
    have hrest (v : Long) (u : State) (hu : Machine.Inv u) : RunInv Machine.Inv (rest (v, u)) :=
      inv_jumpTo (inv_setSp (inv_setRn (inv_setCcr hu _) rn _) _) _
    split
    · exact (memRead_inv h6 _ 4).andThen hrest
    · exact hrest _ _ h6

end Sys2Proof.Proofs
end

section
/-! PROOFS. The invariant (R680, R681; canonical memory) through system control, coprocessor dialogues and RTE. -/

namespace Sys2Proof.Proofs

open Sys2Proof Sys2Proof.Machine Sys2Proof.Laws

variable {s t u : State}

/-! ## System control (R390-R416) -/

theorem inv_writeCacr (h : Machine.Inv t) (v : Long) : Machine.Inv (writeCacr t v) := by
  unfold writeCacr
  dsimp only
  split <;> split <;> exact h

theorem inv_writeCtl (h : Machine.Inv t) {code : BitVec 12} {v : Long} (hu : writeCtl t code v = some u) :
    Machine.Inv u := by
  unfold writeCtl at hu
  split at hu
  case h_3 =>
    obtain rfl := Option.some.inj hu
    exact inv_writeCacr h v
  case h_9 => exact nomatch hu
  all_goals
    obtain rfl := Option.some.inj hu
    exact h

/-- A write to a control register that may name none. -/
theorem inv_written (h : Machine.Inv t) (code : BitVec 12) (v : Long) :
    Machine.Inv ((writeCtl t code v).getD t) := by
  cases hctl : writeCtl t code v with
  | none => exact h
  | some u => exact inv_writeCtl h hctl

theorem inv_setRnSized (h : Machine.Inv t) (sz : Size) (rn : Rn) (v : Long) : Machine.Inv (setRnSized t sz rn v) := by
  unfold setRnSized
  split
  · exact inv_setRn h rn _
  · exact h

theorem inv_writeSr (h : Machine.Inv t) (w : Word) : Machine.Inv (writeSr t w) := h

theorem execMoveToSr_inv (h : Machine.Inv t) (ea : Ea) : ResInv (execMoveToSr ea t) :=
  requireSupervisor_inv h (withOperand_inv h .w 0 ea fun _ _ hu => hu)

theorem execStop_inv (h : Machine.Inv t) (imm : Word) : ResInv (execStop imm t) := by
  refine requireSupervisor_inv h ?_
  dsimp only [ResInv]
  split <;> exact h

theorem execMoveUsp_inv (h : Machine.Inv t) (fromUsp : Bool) (a : Reg) : ResInv (execMoveUsp fromUsp a t) := by
  refine requireSupervisor_inv h ?_
  cases fromUsp
  · exact h
  · exact inv_setA h a _

theorem execMovec_inv (h : Machine.Inv t) (toCtl : Bool) (rn : Rn) (code : BitVec 12) :
    ResInv (execMovec toCtl rn code t) := by
  refine requireSupervisor_inv h ?_
  have hctl : ∀ u, (if toCtl then writeCtl t code (t.rn rn) else (readCtl t code).map (t.setRn rn)) = some u →
      Machine.Inv u := by
    intro u hu
    cases toCtl
    · obtain ⟨v, -, rfl⟩ := Option.map_eq_some_iff.mp hu
      exact inv_setRn h rn v
    · exact inv_writeCtl h hu
  split
  case h_1 u heq => exact hctl u heq
  case h_2 => exact abandonTo_inv h 4#8

theorem execMoves_inv (h : Machine.Inv t) (sz : Size) (rn : Rn) (toMem : Bool) (ea : Ea) :
    ResInv (execMoves sz rn toMem ea t) := by
  refine requireSupervisor_inv h (.toRes <| (evalEa_inv h sz _ ea).andThen fun loc t1 h1 => ?_)
  have hown : Machine.Inv (if storesOwnAddress rn ea then t1.tick else t1) := by
    split <;> exact h1
  cases toMem
  · exact (readFc_inv h1 _ _ _).andThen fun _ _ h2 => inv_setRnSized h2 sz rn _
  · exact (writeFc_inv hown _ _ _ _).bind fun _ h2 => h2

/-! ## Interface registers and interruptible points (R461, R486, R555) -/

theorem cirRead_inv (h : Machine.Inv t) (w : Word) (offset : Long) (n : Nat) :
    RunInv (Machine.Inv ·.2) (cirRead t w offset n) := readFc_inv h _ _ n

theorem cirWrite_inv (h : Machine.Inv t) (w : Word) (offset : Long) (n : Nat) (v : Long) :
    RunInv Machine.Inv (cirWrite t w offset n v) := writeFc_inv h _ _ n v

theorem cirFirstWrite_inv (h : Machine.Inv t) (w : Word) (offset v : Long) :
    RunInv Machine.Inv (cirFirstWrite t w offset v) := by
  have hb := busWrite_inv (inv_land h) 7#3 (cirAddr w offset) 2 v
  unfold cirFirstWrite
  split
  case h_1 heq =>
    rw [heq] at hb
    exact abandonTo_inv hb 11#8
  case h_2 => exact cirWrite_inv h w offset 2 v

theorem cirFirstRead_inv (h : Machine.Inv t) (w : Word) (offset : Long) :
    RunInv (Machine.Inv ·.2) (cirFirstRead t w offset) := by
  have hb := busRead_inv (inv_land h) 7#3 (cirAddr w offset) 2
  unfold cirFirstRead
  split
  case h_1 heq =>
    rw [heq] at hb
    exact abandonTo_inv hb 11#8
  case h_2 => exact cirRead_inv h w offset 2

theorem abortTo_inv (h : Machine.Inv t) (w : Word) {r : State → Res} (hr : ∀ u, Machine.Inv u → ResInv (r u)) :
    RunInv Machine.Inv (abortTo t w r) := (cirWrite_inv h w _ 2 _).bind fun u hu => hr u hu

theorem lineF_inv (h : Machine.Inv t) : ResInv (lineF t) := abandonTo_inv h 11#8

theorem formatError_inv (h : Machine.Inv t) : ResInv (formatError t) := trapTo_inv h 14#8 _ _

theorem privilegeViolation_inv (h : Machine.Inv t) : ResInv (privilegeViolation t) := abandonTo_inv h 8#8

theorem takeMid_inv (h : Machine.Inv t) (w : Word) (vector : Byte) : ResInv (takeMid t w vector) :=
  inv_takeEntry (s := clearTrace t.tick) h _

theorem protocolViolation_inv (h : Machine.Inv t) (w : Word) : ResInv (protocolViolation t w) := takeMid_inv h w _

theorem interruptPoint_inv (h : Machine.Inv t) (body : State → FrameBody) (pc : Long) :
    RunInv Machine.Inv (interruptPoint t body pc) := by
  have hpoll := inv_pollInputs (inv_land h)
  unfold interruptPoint
  split
  · exact inv_tookOver h _ _
  · dsimp only
    split
    · exact hpoll
    · split
      · exact inv_takeInterrupt (s := clearTrace (pollInputs (land t)).tick) hpoll _ _
      · exact hpoll

/-! ## Moving operands (R477, R534, R543) -/

theorem memToCp_inv (w : Word) (prog : Bool) (ns : List Nat) (h : Machine.Inv t) (a : Long) :
    RunInv Machine.Inv (memToCp w prog ns t a) := by
  induction ns generalizing t a with
  | nil => exact h
  | cons n ns ih => exact (readFc_inv h _ a n).andThen fun _ _ h1 => (cirWrite_inv h1 w _ n _).bind fun _ h2 => ih h2 _

theorem cpToMem_inv (w : Word) (ns : List Nat) (h : Machine.Inv t) (a : Long) :
    RunInv Machine.Inv (cpToMem w ns t a) := by
  induction ns generalizing t a with
  | nil => exact h
  | cons n ns ih => exact (cirRead_inv h w _ n).andThen fun _ _ h1 => (memWrite_inv h1 a n _).bind fun _ h2 => ih h2 _

theorem moveOperand_inv (h : Machine.Inv t) (w : Word) (dr prog : Bool) (n : Nat) (a : Long) :
    RunInv Machine.Inv (moveOperand w dr prog n t a) := by
  cases dr
  · exact memToCp_inv w prog _ h a
  · exact cpToMem_inv w _ h a

theorem moveUp_inv (w : Word) (dr prog : Bool) (len n : Nat) (h : Machine.Inv t) (a : Long) :
    RunInv Machine.Inv (moveUp w dr prog len n t a) := by
  induction n generalizing t a with
  | zero => exact h
  | succ n ih => exact (moveOperand_inv h w dr prog len a).bind fun _ hu => ih hu _

theorem moveDown_inv (w : Word) (len n : Nat) (h : Machine.Inv t) (r : Reg) :
    RunInv Machine.Inv (moveDown w len n t r) := by
  induction n generalizing t with
  | zero => exact h
  | succ n ih => exact (moveOperand_inv (inv_setA h r _) w true false len _).bind fun _ hu => ih hu

theorem streamToCp_inv (w : Word) (ns : List Nat) (h : Machine.Inv t) : RunInv Machine.Inv (streamToCp w ns t) := by
  induction ns generalizing t with
  | nil => exact h
  | cons n ns ih =>
    unfold streamToCp
    extract_lets rest
    have hrest (v : Long) (u : State) (hu : Machine.Inv u) : RunInv Machine.Inv (rest (v, u)) :=
      (cirWrite_inv hu w _ n v).bind fun x hx => ih (t := { x with scanPc := x.scanPc + BitVec.ofNat 32 n }) hx
    split
    · exact (streamLong_inv h _).andThen hrest
    · exact (streamWord_inv h _).andThen fun x u hu => hrest _ u hu

/-! ## Effective addresses at the scanPC (R482) -/

theorem streamEa_inv (c : EaClass) (sz : Size) (w : Word) (n : Nat) (h : Machine.Inv t) (ws : List Word) :
    RunInv (Machine.Inv ·.2) (streamEa c sz w n t ws) := by
  induction n generalizing t ws with
  | zero => exact h
  | succ n ih =>
    unfold streamEa
    dsimp only
    split
    · exact h
    · exact h
    · exact (streamWord_inv h _).andThen fun _ _ hu => ih hu _

theorem scanAddr_inv (h : Machine.Inv t) (w : Word) : RunInv (Machine.Inv ·.2) (scanAddr t w) := by
  refine (streamEa_inv .control .l w eaFuel h []).andThen fun ea u hu => ?_
  cases ea with
  | none => exact (cirWrite_inv hu w _ 2 _).bind fun _ hx => lineF_inv hx
  | some ea => exact evalEa_inv hu .l _ ea

/-! ## Services (R533-R543, R566) -/

theorem primEvalEa_inv (h : Machine.Inv t) (w : Word) : RunInv Machine.Inv (primEvalEa w t) := by
  unfold primEvalEa
  split
  · split
    · exact (scanAddr_inv h w).andThen fun loc u hu => cirWrite_inv (t := setEaTmp u loc.addr) hu w _ 4 _
    · exact abortTo_inv h w fun _ => lineF_inv
  · exact abortTo_inv h w fun _ => lineF_inv

theorem primRegister_inv (h : Machine.Inv t) (w : Word) (rn : Rn) (dr : Bool) (n : Nat) :
    RunInv Machine.Inv (primRegister w rn dr n t) := by
  have hstart : Machine.Inv { t with eaValid := false } := h
  cases dr
  · exact cirWrite_inv hstart w _ n _
  · exact (cirRead_inv hstart w _ n).andThen fun _ _ hu => inv_setRnSized hu _ rn _

theorem primImmediate_inv (h : Machine.Inv t) (w : Word) (n : Nat) : RunInv Machine.Inv (primImmediate w n t) := by
  unfold primImmediate
  split
  · exact (streamWord_inv h _).andThen fun _ _ h1 => (cirWrite_inv h1 w _ 1 _).bind fun _ h2 => h2
  · exact streamToCp_inv w _ h

theorem inv_setEaTmp (h : Machine.Inv t) (a : Long) : Machine.Inv (setEaTmp t a) := h

theorem primEaData_inv (h : Machine.Inv t) (w : Word) (valid : BitVec 3) (dr : Bool) (n : Nat) :
    RunInv Machine.Inv (primEaData w valid dr n t) := by
  unfold primEaData
  dsimp only
  split
  · exact abortTo_inv h w fun _ => lineF_inv
  · split
    · exact abortTo_inv h w fun _ => lineF_inv
    · split
      · exact protocolViolation_inv h w
      · split
        case h_1 | h_2 =>
          split
          · exact primRegister_inv h w _ dr n
          · exact protocolViolation_inv h w
        case h_3 =>
          split
          · exact protocolViolation_inv h w
          · exact primImmediate_inv h w n
        case h_4 => exact moveOperand_inv (inv_setEaTmp (inv_setA h _ _) _) w dr false n _
        case h_5 => exact (moveOperand_inv (inv_setEaTmp h _) w dr false n _).bind fun _ hu => inv_setA hu _ _
        case h_6 =>
          exact (scanAddr_inv h w).andThen fun _ _ hu => moveOperand_inv (inv_setEaTmp hu _) w dr _ n _

theorem primWriteEa_inv (h : Machine.Inv t) (w : Word) (n : Nat) : RunInv Machine.Inv (primWriteEa w n t) := by
  unfold primWriteEa
  split
  · exact cpToMem_inv w _ h _
  · exact cpToMem_inv w _ (inv_tickBy h 1) _

theorem primTakeAddr_inv (h : Machine.Inv t) (w : Word) (dr : Bool) (n : Nat) :
    RunInv Machine.Inv (primTakeAddr w dr n t) :=
  (cirRead_inv h w _ 4).andThen fun _ _ hu => moveOperand_inv hu w dr false n _

theorem primStack_inv (h : Machine.Inv t) (w : Word) (dr : Bool) (n : Nat) :
    RunInv Machine.Inv (primStack w dr n t) := by
  unfold primStack
  split
  · split
    · exact (cirRead_inv (inv_setSp h _) w _ n).andThen fun _ _ hu => memWrite_inv hu _ n _
    · exact (memRead_inv h _ n).andThen fun _ _ h1 => (cirWrite_inv h1 w _ n _).bind fun _ h2 => h2
  · exact protocolViolation_inv h w

theorem primOneReg_inv (h : Machine.Inv t) (w : Word) (dr : Bool) (rn : Rn) :
    RunInv Machine.Inv (primOneReg w dr rn t) := by
  cases dr
  · exact cirWrite_inv h w _ 4 _
  · exact (cirRead_inv h w _ 4).andThen fun _ _ hu => inv_setRn hu rn _

theorem primCtlReg_inv (h : Machine.Inv t) (w : Word) (dr : Bool) : RunInv Machine.Inv (primCtlReg w dr t) := by
  refine (cirRead_inv h w _ 2).andThen fun c u hu => ?_
  dsimp only
  split
  · exact protocolViolation_inv hu w
  · split
    · exact (cirRead_inv hu w _ 4).andThen fun v _ hx => inv_written hx _ v
    · exact cirWrite_inv hu w _ 4 _

theorem moveRegs_inv (w : Word) (dr : Bool) (rs : List Rn) (h : Machine.Inv t) :
    RunInv Machine.Inv (moveRegs w dr rs t) := by
  induction rs generalizing t with
  | nil => exact h
  | cons r rs ih => exact (primOneReg_inv h w dr r).bind fun _ hu => ih hu

theorem primRegs_inv (h : Machine.Inv t) (w : Word) (dr : Bool) : RunInv Machine.Inv (primRegs w dr t) :=
  (cirRead_inv h w _ 2).andThen fun _ _ hu => moveRegs_inv w dr _ hu

theorem primCpRegs_inv (h : Machine.Inv t) (w : Word) (dr : Bool) (len : Nat) :
    RunInv Machine.Inv (primCpRegs w dr len t) := by
  unfold primCpRegs
  dsimp only
  split
  · exact protocolViolation_inv h w
  · split
    · exact abortTo_inv h w fun _ => lineF_inv
    · split
      · exact (cirRead_inv (inv_setEaTmp h _) w _ 2).andThen fun _ _ h1 =>
          (moveUp_inv w dr false len _ h1 _).bind fun _ h2 => inv_setEaTmp (inv_setA h2 _ _) _
      · split
        · exact (cirRead_inv (inv_setEaTmp h _) w _ 2).andThen fun _ _ h1 =>
            (moveDown_inv w len _ h1 _).bind fun _ h2 => inv_setEaTmp h2 _
        · split
          · exact (scanAddr_inv h w).andThen fun _ _ h1 => (cirRead_inv (inv_setEaTmp h1 _) w _ 2).andThen
              fun _ _ h2 => moveUp_inv w dr _ len _ h2 _
          · exact abortTo_inv h w fun _ => lineF_inv

theorem primStatus_inv (h : Machine.Inv t) (w : Word) (dr sp : Bool) : RunInv Machine.Inv (primStatus w dr sp t) := by
  unfold primStatus
  split
  · refine (cirRead_inv h w _ 2).andThen fun v u hu => ?_
    dsimp only
    split
    · refine (cirRead_inv (t := writeSr u (v.setWidth 16)) hu w _ 4).andThen fun a x hx => ?_
      have hscan : Machine.Inv { x with scanPc := a } := hx
      dsimp only
      split
      · exact (streamWord_inv hscan a).andThen fun _ _ hy => hy
      · exact hscan
    · exact hu
  · split
    · exact (cirWrite_inv h w _ 4 _).bind fun _ hu => cirWrite_inv hu w _ 2 _
    · exact cirWrite_inv h w _ 2 _

/-! ## Primitives and the dialogue (R520-R522) -/

/-- The state in which a primitive has been served. -/
def servedState : Served → State
  | .again s => s
  | .release _ s => s

theorem primNull_inv (h : Machine.Inv t) (general : Bool) (w : Word) (p : Primitive) (ia : Bool) :
    RunInv (Machine.Inv <| servedState ·) (primNull general w p ia t) := by
  unfold primNull
  dsimp only
  split
  · split
    · exact (interruptPoint_inv h _ _).bind fun _ hu => hu
    · exact h
  · exact h

/-- Every service of either kind of instruction. -/
theorem serviceBoth_inv (h : Machine.Inv t) (w : Word) (p : Primitive) {r : Run State}
    (hr : serviceBoth w p t = some r) : RunInv Machine.Inv r := by
  unfold serviceBoth at hr
  dsimp only at hr
  split at hr
  case h_13 => exact nomatch hr
  all_goals obtain rfl := Option.some.inj hr
  · exact primTakeAddr_inv h w false _
  · exact primTakeAddr_inv h w true _
  · exact primRegs_inv h w false
  · exact primRegs_inv h w true
  · exact cirWrite_inv h w _ 2 _
  · exact primOneReg_inv h w false _
  · exact primOneReg_inv h w true _
  · exact primCtlReg_inv h w false
  · exact primCtlReg_inv h w true
  · exact primStack_inv h w false _
  · exact primStack_inv h w true _
  · split
    · exact protocolViolation_inv h w
    · exact streamToCp_inv w _ h

/-- Every service of general instructions only. -/
theorem serviceGeneral_inv (h : Machine.Inv t) (w : Word) (p : Primitive) {r : Run State}
    (hr : serviceGeneral w p t = some r) : RunInv Machine.Inv r := by
  unfold serviceGeneral at hr
  dsimp only at hr
  split at hr
  case h_9 =>
    split at hr
    · obtain rfl := Option.some.inj hr
      exact primEaData_inv h w _ false _
    · split at hr
      · obtain rfl := Option.some.inj hr
        exact primEaData_inv h w _ true _
      · exact nomatch hr
  all_goals obtain rfl := Option.some.inj hr
  · exact primCpRegs_inv h w false _
  · exact primCpRegs_inv h w true _
  · exact primStatus_inv h w false false
  · exact primStatus_inv h w false true
  · exact primStatus_inv h w true false
  · exact primStatus_inv h w true true
  · exact primEvalEa_inv h w
  · exact primWriteEa_inv h w _

theorem inv_afterService (h : Machine.Inv t) (ca : Bool) : Machine.Inv (servedState (afterService ca t)) := by
  unfold afterService
  split <;> exact h

/-- A service, allowed or not, and what it leads to. -/
theorem serviced_inv (h : Machine.Inv t) (w : Word) (ca bad : Bool) {r : Run State} (hr : RunInv Machine.Inv r) :
    RunInv (Machine.Inv <| servedState ·)
      (if bad then .error (protocolViolation t w) else r >>= fun u => .ok (afterService ca u)) := by
  cases bad
  · exact hr.bind fun _ hu => inv_afterService hu ca
  · exact protocolViolation_inv h w

theorem primSupervisor_inv (h : Machine.Inv t) (general : Bool) (w : Word) (ca : Bool) :
    RunInv (Machine.Inv <| servedState ·) (primSupervisor general w ca t) := by
  unfold primSupervisor
  split
  · exact protocolViolation_inv h w
  · split
    · exact h
    · exact (abortTo_inv h w fun _ => privilegeViolation_inv).bind fun _ hu => hu

theorem primTake_inv (h : Machine.Inv t) (w : Word) {r : State → Res} (hr : ∀ u, Machine.Inv u → ResInv (r u)) :
    RunInv (Machine.Inv <| servedState ·) (primTake w t r) := (cirWrite_inv h w _ 2 _).bind hr

theorem servePrimitive_inv (h : Machine.Inv t) (general : Bool) (w : Word) (p : Primitive) :
    RunInv (Machine.Inv <| servedState ·) (servePrimitive general w p t) := by
  unfold servePrimitive
  split
  case h_1 => exact h
  case h_2 => exact primNull_inv h general w p false
  case h_3 => exact primNull_inv h general w p true
  case h_4 => exact primSupervisor_inv h general w p.ca
  case h_5 => exact primTake_inv h w fun _ hu => abandonTo_inv hu _
  case h_6 => exact primTake_inv h w fun _ hu => takeMid_inv hu w _
  case h_7 => exact primTake_inv h w fun _ hu => inv_takeEntry hu _
  case h_8 =>
    split
    case h_1 r hr => exact serviced_inv h w p.ca _ (serviceBoth_inv h w p hr)
    case h_2 =>
      split
      case h_1 r hr => exact serviced_inv h w p.ca _ (serviceGeneral_inv h w p hr)
      case h_2 => exact protocolViolation_inv h w

theorem serveLoop_inv (general : Bool) (w : Word) (n : Nat) (h : Machine.Inv t) :
    RunInv (Machine.Inv ·.2) (serveLoop general w n t) := by
  induction n generalizing t with
  | zero => exact h
  | succ n ih =>
    refine (cirRead_inv h w _ 2).andThen fun v u hu => ?_
    dsimp -zeta only
    extract_lets p serve
    have hserve (u : State) (hu : Machine.Inv u) : RunInv (Machine.Inv ·.2) (serve u) :=
      (servePrimitive_inv hu general w p).bind fun served hserved => by
        cases served with
        | again x => exact ih hserved
        | release tf x => exact hserved
    split
    · exact (cirWrite_inv hu w _ 4 _).bind hserve
    · exact hserve u hu

/-! ## The instructions (R460-R469) -/

theorem endBcc_inv (h : Machine.Inv t) (long tf : Bool) : RunInv Machine.Inv (endBcc long tf t) := by
  unfold endBcc
  split
  · split
    · exact (streamLong_inv h _).andThen fun _ _ hu => inv_jumpTo hu _
    · exact (streamWord_inv h _).andThen fun _ _ hu => inv_jumpTo hu _
  · exact h

theorem endDbcc_inv (h : Machine.Inv t) (w : Word) (tf : Bool) : RunInv Machine.Inv (endDbcc w tf t) := by
  unfold endDbcc
  split
  · exact h
  · dsimp only
    split
    · exact h
    · exact (streamWord_inv (inv_setDSized h .w _ _) _).andThen fun _ _ hu => inv_jumpTo hu _

theorem endScc_inv (h : Machine.Inv t) (w : Word) (tf : Bool) : RunInv Machine.Inv (endScc w tf t) := by
  refine (streamEa_inv .dataAlt .b w eaFuel h []).andThen fun ea u hu => ?_
  cases ea with
  | none => exact abortTo_inv hu w fun _ => lineF_inv
  | some ea => exact (evalEa_inv hu .b _ ea).andThen fun loc _ h1 => (writeLoc_inv h1 .b _ loc).bind fun _ h2 => h2

theorem endTrapcc_inv (h : Machine.Inv t) (words : Nat) (tf : Bool) : RunInv Machine.Inv (endTrapcc words tf t) := by
  unfold endTrapcc
  dsimp only
  split
  · exact trapTo_inv h 7#8 _ _
  · exact h

theorem cpComplete_inv (h : Machine.Inv t) (w : Word) (tf : Bool) : RunInv Machine.Inv (cpComplete w tf t) := by
  unfold cpComplete
  split
  · exact h
  · exact endBcc_inv h _ tf
  · exact endDbcc_inv h w tf
  · exact endTrapcc_inv h _ tf
  · exact endScc_inv h w tf

theorem cpDialogue_inv (h : Machine.Inv t) (w : Word) : ResInv (cpDialogue w t) :=
  .toRes <| (serveLoop_inv _ w _ h).andThen fun tf _ hu => cpComplete_inv hu w tf

theorem cpStart_inv (h : Machine.Inv t) (w : Word) (offset : Long) (v : Word) (bytes : Nat) :
    ResInv (cpStart w offset v bytes t) := by
  have hfirst := cirFirstWrite_inv h w offset (v.setWidth 32)
  unfold cpStart
  split
  case h_1 heq =>
    rw [heq] at hfirst
    exact hfirst
  case h_2 u heq =>
    rw [heq] at hfirst
    exact cpDialogue_inv (t := { u with scanPc := u.pc + BitVec.ofNat 32 bytes }) hfirst w

theorem saveFormat_inv (w : Word) (n : Nat) (h : Machine.Inv t) : RunInv (Machine.Inv ·.2) (saveFormat w n t) := by
  induction n generalizing t with
  | zero => exact h
  | succ n ih =>
    refine (cirFirstRead_inv h w 4#32).andThen fun f u hu => ?_
    dsimp only
    split
    · exact (interruptPoint_inv hu _ _).bind fun _ hx => ih hx
    · exact hu

theorem saveWords_inv (w : Word) (k : Nat) (h : Machine.Inv t) (a : Long) :
    RunInv Machine.Inv (saveWords w k t a) := by
  induction k generalizing t with
  | zero => exact h
  | succ k ih => exact (cirRead_inv h w _ 4).andThen fun _ _ h1 => (memWrite_inv h1 _ 4 _).bind fun _ h2 => ih h2

theorem saveAddr_inv (h : Machine.Inv t) (pcx : Long) (ea : Ea) (len : Nat) :
    RunInv (Machine.Inv ·.2) (saveAddr t pcx ea len) := by
  unfold saveAddr
  split
  · exact inv_setA h _ _
  · exact (evalEa_inv h .l pcx _).andThen fun _ _ hu => hu

theorem cpSaveAt_inv (h : Machine.Inv t) (w : Word) (ea : Ea) (pcx next : Long) :
    ResInv (cpSaveAt w ea pcx next t) := by
  refine .toRes <| (saveFormat_inv w _ h).andThen fun f u hu => ?_
  dsimp only
  split
  · exact abortTo_inv hu w fun _ => formatError_inv
  · exact (saveAddr_inv hu pcx ea _).andThen fun _ _ h1 => (memWrite_inv h1 _ 2 _).bind fun _ h2 =>
      (saveWords_inv w _ h2 _).bind fun _ h3 => h3

theorem restoreFormat_inv (w : Word) (n : Nat) (h : Machine.Inv t) :
    RunInv (Machine.Inv ·.2) (restoreFormat w n t) := by
  induction n generalizing t with
  | zero => exact h
  | succ n ih =>
    refine (cirRead_inv h w _ 2).andThen fun g u hu => ?_
    dsimp only
    split
    · exact ih hu
    · exact hu

theorem restoreWords_inv (w : Word) (prog : Bool) (k : Nat) (h : Machine.Inv t) (a : Long) :
    RunInv Machine.Inv (restoreWords w prog k t a) := by
  induction k generalizing t a with
  | zero => exact h
  | succ k ih => exact (readFc_inv h _ a 4).andThen fun _ _ h1 => (cirWrite_inv h1 w _ 4 _).bind fun _ h2 => ih h2 _

theorem restoreLoc_inv (h : Machine.Inv t) (pcx : Long) (ea : Ea) : RunInv (Machine.Inv ·.2) (restoreLoc t pcx ea) := by
  unfold restoreLoc
  split
  · exact h
  · exact evalEa_inv h .l pcx _

theorem inv_restoreStep (h : Machine.Inv t) (ea : Ea) (a : Long) (len : Nat) :
    Machine.Inv (restoreStep t ea a len) := by
  unfold restoreStep
  split
  · exact inv_setA h _ _
  · exact h

theorem cpRestoreAt_inv (h : Machine.Inv t) (w : Word) (ea : Ea) (pcx next : Long) :
    ResInv (cpRestoreAt w ea pcx next t) := by
  refine .toRes <| (restoreLoc_inv h pcx ea).andThen fun loc _ h1 => (readFc_inv h1 _ _ 2).andThen fun f _ h2 =>
    (cirFirstWrite_inv h2 w _ f).bind fun _ h3 => (restoreFormat_inv w _ h3).andThen fun g u hu => ?_
  dsimp only
  split
  · exact abortTo_inv hu w fun _ => formatError_inv
  · exact (restoreWords_inv w _ _ hu _).bind fun _ hx => inv_restoreStep hx ea _ _

/-! ## CpID 0 (R429) -/

theorem cpStartFetched_inv (h : Machine.Inv t) (w : Word) (offset : Long) : ResInv (cpStartFetched w offset t) := by
  have hword := streamWord_inv h (t.pc + 2#32)
  unfold cpStartFetched
  split
  all_goals
    rename_i heq
    rw [heq] at hword
  · exact hword
  · exact cpStart_inv hword w offset _ 4

theorem extensionOk_inv (c : EaClass) (w : Word) (n : Nat) (h : Machine.Inv t) (ws : List Word) :
    RunInv (Machine.Inv ·.2) (extensionOk c w n t ws) := by
  induction n generalizing t ws with
  | zero => exact h
  | succ n ih =>
    have hword := fetchWord_inv h (t.pc + BitVec.ofNat 32 (2 * (1 + ws.length)))
    unfold extensionOk
    split
    · exact h
    · exact h
    · split
      all_goals
        rename_i heq
        rw [heq] at hword
      · exact ih hword _
      · exact hword
      · exact hword

theorem cpContextFetched_inv (h : Machine.Inv t) (w : Word) (c : EaClass) {k : Ea → Long → Long → State → Res}
    (hk : ∀ ea pcx next u, Machine.Inv u → ResInv (k ea pcx next u)) : ResInv (cpContextFetched w c k t) := by
  have hstream := streamEa_inv c .l w eaFuel (t := { t with scanPc := t.pc + 2#32 }) h []
  have hvalid := extensionOk_inv c w eaFuel h []
  unfold cpContextFetched
  split
  · split
    all_goals
      rename_i heq
      rw [heq] at hstream
    · exact hstream
    · exact lineF_inv hstream
    · exact hk _ _ _ _ hstream
  · split
    all_goals
      rename_i heq
      rw [heq] at hvalid
    · exact hvalid
    · split
      · exact privilegeViolation_inv hvalid
      · exact lineF_inv hvalid

theorem cpMapped_inv (h : Machine.Inv t) (w : Word) : ResInv (cpMapped w t) := by
  unfold cpMapped
  split
  · exact cpStartFetched_inv h w _
  · split
    · exact cpStartFetched_inv h w _
    · exact lineF_inv h
  · exact cpStart_inv h w _ _ 2
  · exact cpStart_inv h w _ _ 2
  · exact cpContextFetched_inv h w _ fun ea pcx next _ hu => cpSaveAt_inv hu w ea pcx next
  · exact cpContextFetched_inv h w _ fun ea pcx next _ hu => cpRestoreAt_inv hu w ea pcx next
  · exact lineF_inv h

theorem execFlineCpid0_inv (h : Machine.Inv t) (x : BitVec 9) : ResInv (execFlineCpid0 x t) := by
  unfold execFlineCpid0
  split
  · exact cpMapped_inv h _
  · split
    · exact lineF_inv h
    · exact privilegeViolation_inv h

/-! ## RTE (R410, R660-R670) -/

theorem frameWords_inv (n : Nat) (h : Machine.Inv t) (a : Long) :
    Leaves Machine.Inv Prod.snd id (frameWords n t a) := by
  induction n generalizing t a with
  | zero => exact h
  | succ n ih =>
    have hread := busRead_inv h (dataFc t) a 2
    unfold frameWords
    split
    case h_1 heq =>
      rw [heq] at hread
      exact inv_halted hread
    case h_2 v u heq =>
      rw [heq] at hread
      exact (ih hread _).bind fun _ hx => hx

theorem resumeAccess_inv (h : Machine.Inv t) (p : Suspension) (got : Long) (r : Repair) :
    ResInv (resumeAccess t p got r) := by
  have hread := busRead_inv (s := rerunState t p) h (repairCycle r).fc (repairCycle r).addr (repairCycle r).bytes
  have hwrite := busWrite_inv (s := rerunState t p) h (repairCycle r).fc (repairCycle r).addr (repairCycle r).bytes
    (repairCycle r).data
  unfold resumeAccess
  dsimp only
  split
  · split <;> exact h
  · split
    · exact h
    · split
      · split
        all_goals
          rename_i heq
          rw [heq] at hread
        · exact hread
        · exact inv_takeFault hread _
        · exact hread
      · split
        all_goals
          rename_i heq
          rw [heq] at hwrite
        · exact hwrite
        · exact inv_takeFault hwrite _
        · exact hwrite

theorem inv_resumeEntry (h : Machine.Inv t) (p : Suspension) (e : Entry) (copy : Sr) (odd : Option Long) (got : Long)
    (r : Repair) : Machine.Inv (resumeEntry t p e copy odd got r) := by
  have hstart : Machine.Inv (restoreTrace t p.atFault.trace) := h
  unfold resumeEntry
  dsimp only
  split
  · exact inv_processEntry hstart e copy _
  · split
    · exact inv_entryBus e copy (stackEntry_inv hstart e copy) fun _ hu => hu
    · exact inv_processEntry hstart e copy none

theorem inv_resumeWords (h : Machine.Inv t) (p : Suspension) (ws : List Word) (r : Repair) :
    Machine.Inv (resumeWords t p ws r) := by
  cases ws <;> exact h

theorem resumeFault_inv (h : Machine.Inv t) (p : Suspension) (r : Repair) : ResInv (resumeFault t p r) := by
  have hpipe : Machine.Inv { t with pipe := restoredPipe p.pipe r } := h
  unfold resumeFault
  dsimp only
  split
  · exact inv_resumeWords hpipe p _ r
  · exact h
  · exact resumeAccess_inv hpipe p _ r
  · split
    · exact h
    · exact inv_takeOdd (s := { restoreTrace { t with pipe := restoredPipe p.pipe r } p.atFault.trace with
        pc := p.atFault.pc, current := p.instr, start := p.start }) h _ _ _
  · exact inv_resumeEntry hpipe p _ _ _ _ r

theorem rteFault_inv (h : Machine.Inv t) (long : Bool) (sp : Long) (sr : Word) : ResInv (rteFault long sp sr t) := by
  unfold rteFault
  refine .toRes ?_
  extract_lets rest
  have hrest (version : Long) (u : State) (hu : Machine.Inv u) : RunInv Machine.Inv (rest (version, u)) := by
    refine (memRead_inv hu _ 2).andThen fun _ _ h1 => (memRead_inv h1 _ 4).andThen fun key x hx => ?_
    have hwords := frameWords_inv (frameSize long) hx sp
    dsimp only
    split
    · exact formatError_inv hx
    · split
      · exact formatError_inv hx
      · split
        all_goals
          rename_i heq
          rw [heq] at hwords
        · exact hwords
        · exact resumeFault_inv (inv_writeSr (inv_setSp hwords _) sr) _ _
  split
  · exact (memRead_inv h _ 2).andThen hrest
  · exact hrest _ t h

theorem rteMid_inv (h : Machine.Inv t) (sp : Long) (sr : Word) (scan : Long) : ResInv (rteMid sp sr scan t) := by
  refine .toRes <| (memRead_inv h _ 4).andThen fun pc _ h1 => (memRead_inv h1 _ 2).andThen fun _ _ h2 =>
    (memRead_inv h2 _ 2).andThen fun _ _ h3 => (memRead_inv h3 _ 4).andThen fun _ _ h4 => ?_
  change ResInv (cpDialogue _ _)
  refine cpDialogue_inv ?_ _
  exact h4

/-- What RTE does once the head of a frame has been read. -/
theorem rteDispatch_inv {n : Nat} (hloop : ∀ u, Machine.Inv u → ResInv (rteLoop n u)) (h : Machine.Inv t) (sp : Long)
    (sr : Word) (pc : Long) (format : BitVec 4) : ResInv (rteDispatch n sp sr pc format t) := by
  unfold rteDispatch
  split
  · exact inv_jumpTo (inv_writeSr (inv_setSp h _) sr) pc
  · exact hloop _ (inv_writeSr (inv_setSp h _) sr)
  · exact inv_jumpTo (inv_writeSr (inv_setSp h _) sr) pc
  · exact rteMid_inv h sp sr pc
  · exact rteFault_inv h false sp sr
  · exact rteFault_inv h true sp sr
  · exact formatError_inv h

theorem rteLoop_inv (n : Nat) (h : Machine.Inv t) : ResInv (rteLoop n t) := by
  induction n generalizing t with
  | zero => exact h
  | succ n ih =>
    have hsr := memRead_inv h t.sp 2
    unfold rteLoop
    dsimp only
    split
    case h_1 heq =>
      rw [heq] at hsr
      exact hsr
    case h_2 sr u heq =>
      rw [heq] at hsr
      have hpc := memRead_inv (t := u) hsr (t.sp + 2#32) 4
      split
      case h_1 heq =>
        rw [heq] at hpc
        exact hpc
      case h_2 pc x heq =>
        rw [heq] at hpc
        have hformat := memRead_inv (t := x) hpc (t.sp + 6#32) 2
        split
        case h_1 heq =>
          rw [heq] at hformat
          exact hformat
        case h_2 format y heq =>
          rw [heq] at hformat
          exact rteDispatch_inv (fun _ hz => ih hz) (t := y) hformat t.sp _ pc _

end Sys2Proof.Proofs
end

section
/-! PROOFS. Every step keeps the invariant (R680, R681; canonical memory): one arm per shape of instruction, then fetch,
boundary and step. -/

namespace Sys2Proof.Proofs

open Sys2Proof Sys2Proof.Machine Sys2Proof.Laws

variable {s t : State}

/-- Every instruction keeps the invariant. -/
theorem exec_inv (h : Machine.Inv s) (i : Instr) : ResInv (exec i s) := by
  unfold exec
  cases i with
  -- privileged
  | oriSr | andiSr | eoriSr => exact srImm_inv h _
  | moveFromSr ea => exact requireSupervisor_inv h (setEa_inv h .w ea _ _)
  | moveToSr ea => exact execMoveToSr_inv h ea
  | moveUsp fromUsp a => exact execMoveUsp_inv h fromUsp a
  | movec toCtl rn code => exact execMovec_inv h toCtl rn code
  | moves sz rn toMem ea => exact execMoves_inv h sz rn toMem ea
  | reset => exact requireSupervisor_inv h h
  | stop imm => exact execStop_inv h imm
  | rte => exact requireSupervisor_inv h (rteLoop_inv _ h)
  | cpSave id ea => exact requireSupervisor_inv h (cpSaveAt_inv h _ ea _ _)
  | cpRestore id ea => exact requireSupervisor_inv h (cpRestoreAt_inv h _ ea _ _)
  -- condition codes
  | oriCcr | andiCcr | eoriCcr => exact h
  | moveFromCcr ea => exact setEa_inv h .w ea _ _
  | moveToCcr ea => exact testEa_inv h .w 0 ea _
  -- an operand replaced in place
  | ori sz _ ea | andi sz _ ea | subi sz _ ea | addi sz _ ea | eori sz _ ea => exact modifyEa_inv h sz _ ea _
  | negx sz ea | neg sz ea | not sz ea | eor sz _ ea => exact modifyEa_inv h sz 0 ea _
  | nbcd ea => exact modifyEa_inv (inv_tickBy h 5) .b 0 ea _
  | addq sz q ea => exact execAddq_inv h sz q ea
  | subq sz q ea => exact execSubq_inv h sz q ea
  | asrEa ea | aslEa ea | lsrEa ea | lslEa ea | roxrEa ea | roxlEa ea | rorEa ea | rolEa ea =>
    exact shiftEa_inv h _ ea
  -- an operand only written
  | clr sz ea => exact setEa_inv h sz ea _ _
  | scc _ ea => exact setEa_inv h .b ea _ _
  -- an operand only tested
  | tst sz ea | cmp sz _ ea => exact testEa_inv h sz 0 ea _
  | cmpi sz _ ea => exact testEa_inv h sz _ ea _
  | cmpa long a ea => exact execCmpa_inv h long a ea
  | cmpm sz src dst => exact execCmpm_inv h sz src dst
  | cmp2 sz rn ea => exact execCmp2_inv h sz rn ea
  | chk2 sz rn ea => exact execChk2_inv h sz rn ea
  | chkW d ea => exact chk_inv h .w d ea
  | chkL d ea => exact chk_inv h .l d ea
  -- two operands
  | or sz toEa d ea | sub sz toEa d ea | and sz toEa d ea | add sz toEa d ea => exact twoWay_inv h sz toEa d ea _
  | suba _ a ea | adda _ a ea => exact eaToAn_inv h _ a ea _
  | moveaW a src => exact eaToAn_inv h .w a src _
  | moveaL a src => exact eaToAn_inv h .l a src _
  | subx sz mem src dst | addx sz mem src dst => exact pairOp_inv h sz mem src dst _
  | sbcd mem src dst | abcd mem src dst => exact pairOp_inv (inv_tickBy h 5) .b mem src dst _
  | pack mem src dst adj => exact execPack_inv h mem src dst adj
  | unpk mem src dst adj => exact execUnpk_inv h mem src dst adj
  | muluW d ea | mulsW d ea => exact mulWord16_inv h d ea _
  | muluL quad dl dh ea | mulsL quad dl dh ea => exact mulL_inv h _ quad dl dh ea
  | divuW d ea | divsW d ea => exact divW_inv h _ d ea
  | divuL quad dq dr ea | divsL quad dq dr ea => exact divL_inv h _ quad dq dr ea
  -- registers only
  | extW d => exact h
  | extL d | extbL d | swap d | moveq d => exact h
  | exgDD x y => exact h
  | exgAA x y => exact inv_setA (inv_setA h x _) y _
  | exgDA x y => exact inv_setA (inv_setD h x _) y _
  | asr sz byReg c d | asl sz byReg c d | lsr sz byReg c d | lsl sz byReg c d | roxr sz byReg c d | roxl sz byReg c d
  | ror sz byReg c d | rol sz byReg c d => exact shiftReg_inv h _ sz byReg c d
  -- bits and bit fields
  | btst _ ea | btstDn _ ea => exact bitTest_inv h _ _ ea
  | bchg _ ea | bclr _ ea | bset _ ea | bchgDn _ ea | bclrDn _ ea | bsetDn _ ea => exact bitModify_inv h _ _ _ ea
  | bftst f ea => exact bfRead_inv h f ea fun _ _ _ _ hu => hu
  | bfextu d f ea | bfexts d f ea | bfffo d f ea => exact bfRead_inv h f ea fun _ _ _ _ hu => hu
  | bfchg f ea | bfclr f ea | bfset f ea => exact bfModify_inv h f ea _
  | bfins d f ea => exact execBfins_inv h d f ea
  -- data movement
  | moveB src dst | moveW src dst | moveL src dst => exact moveSized_inv h _ src dst
  | movep long toMem d a d16 => exact execMovep_inv h long toMem d a d16
  | movemToMem long mask ea => exact execMovemToMem_inv h long mask ea
  | movemToRegs long mask ea => exact execMovemToRegs_inv h long mask ea
  | lea a ea => exact execLea_inv h a ea
  | pea ea => exact execPea_inv h ea
  | linkW a | linkL a => exact link_inv h a _ _
  | unlk a => exact execUnlk_inv h a
  -- program control
  | nop => exact h
  | bra => exact inv_jumpTo h _
  | bsr d => exact execBsr_inv h d
  | bcc cc d => exact execBcc_inv h cc d
  | dbcc cc d d16 => exact execDbcc_inv h cc d d16
  | jmp ea => exact execJmp_inv h ea
  | jsr ea => exact execJsr_inv h ea
  | rts => exact execRts_inv h
  | rtd d16 => exact execRtd_inv h d16
  | rtr => exact execRtr_inv h
  -- exceptions
  | trap => exact trapTo_inv h _ _ _
  | trapv | trapcc | trapccW | trapccL => exact trapIf_inv h _ _
  | bkpt v => exact execBkpt_inv h v
  | illegal | aline | flineBadType => exact abandonTo_inv h _
  | unassigned w => exact execUnassigned_inv h w
  -- locked instructions and modules
  | tas ea => exact execTas_inv h ea
  | cas sz dc du ea => exact execCas_inv h sz dc du ea
  | cas2W rn1 du1 dc1 rn2 du2 dc2 | cas2L rn1 du1 dc1 rn2 du2 dc2 => exact cas2_inv h _ rn1 du1 dc1 rn2 du2 dc2
  | callm argc ea => exact execCallm_inv h argc ea
  | rtm rn => exact execRtm_inv h rn
  -- dialogues with a coprocessor
  | flineCpid0 x => exact execFlineCpid0_inv h x
  | cpGen | cpDbcc | cpTrapccW | cpTrapccL | cpTrapcc | cpScc | cpBccW | cpBccL => exact cpStart_inv h _ _ _ _

/-! ## Fetch, boundary and step -/

theorem inv_wordFault (h : Machine.Inv t) (a : Long) (ws : List Word) (stop : FetchStop) :
    Machine.Inv (wordFault t a ws stop) := by
  unfold wordFault
  split
  · exact inv_takeEntry (s := clearTrace t) h _
  · exact inv_fetchFault h a _ stop

theorem fetchInstr_inv (n : Nat) (h : Machine.Inv t) (ws : List Word) :
    Leaves Machine.Inv Prod.snd id (fetchInstr n t ws) := by
  induction n generalizing t ws with
  | zero => exact h
  | succ n ih =>
    have hword := fetchWord_inv h (t.pc + BitVec.ofNat 32 (2 * ws.length))
    unfold fetchInstr
    dsimp only
    split
    all_goals
      rename_i heq
      rw [heq] at hword
    · exact inv_wordFault hword _ _ _
    · split
      · exact hword
      · exact ih hword _

theorem inv_takeTrace (h : Machine.Inv t) : Machine.Inv (takeTrace t) := inv_takeEntry (s := clearTrace t) h _

theorem inv_afterInstr (h : Machine.Inv t) : Machine.Inv (afterInstr t) := by
  have hready : Machine.Inv { t with done := [], replay := [] } := h
  unfold afterInstr
  split
  · exact h
  · dsimp only
    split
    · exact inv_pollInputs (inv_takeTrace hready)
    · exact inv_pollInputs hready

theorem settle_inv {r : Res} (h : ResInv r) : ResInv (settle r) := by
  cases r with
  | next t => exact inv_afterInstr h
  | _ => exact h

theorem inv_interruptStep (h : Machine.Inv t) : Machine.Inv (interruptStep t) :=
  inv_pollInputs (inv_takeInterrupt h _ _)

theorem runFetched_inv (h : Machine.Inv t) (ws : List Word) : ResInv (runFetched t ws) := by
  have hfetch := fetchInstr_inv maxWords h ws
  unfold runFetched
  split
  case h_1 heq =>
    rw [heq] at hfetch
    exact inv_afterInstr hfetch
  case h_2 i u heq =>
    rw [heq] at hfetch
    exact settle_inv (exec_inv (s := { u with current := i }) hfetch i)

/-- Every step keeps the invariant, whatever state the processor is in. -/
theorem step_inv (h : Machine.Inv s) : ResInv (step s) := by
  unfold step
  split
  case h_1 => exact inv_pollInputs h
  case h_2 =>
    split
    · trivial
    · exact inv_pollInputs h
  case h_3 =>
    split
    · exact inv_interruptStep h
    · exact inv_pollInputs h
  case h_4 =>
    split
    case h_1 i _ => exact settle_inv (exec_inv (s := { s with resume := none, current := i }) h i)
    case h_2 => exact settle_inv (rteLoop_inv (t := { s with resume := none }) rteFuel h)
    case h_3 ws _ => exact runFetched_inv (t := { s with resume := none }) h ws
    case h_4 => exact runFetched_inv (t := { s with resume := none }) h []
    case h_5 =>
      split
      · exact inv_interruptStep h
      · exact runFetched_inv (t := beginInstr s) h []

/-- Settles O10. -/
theorem stepKeepsInv : Obligations.StepKeepsInv := by
  unfold Obligations.StepKeepsInv
  intro s t h hstep
  have ht := step_inv h
  rwa [hstep] at ht

end Sys2Proof.Proofs
end

section
/-! PROOFS. Interrupts (R680-R685): which requests become pending, and the frames on master and interrupt stack. -/

namespace Sys2Proof.Proofs

open Sys2Proof Sys2Proof.Machine Sys2Proof.Laws

variable {s t : State}

/-! ## Requests (R680, R681) -/

/-- A request above the mask, or a rise to level 7. -/
def Requests (s : State) : Prop :=
  s.sr.mask.toNat < s.platform.ipl.toNat ∨ (s.platform.ipl = 7#3 ∧ s.irq.prev ≠ 7#3)

theorem sampleIpl_pending (s : State) :
    (sampleIpl s).irq.pending = true ↔ s.irq.pending = true ∨ Requests s := by
  simp [sampleIpl, Requests]

theorem sampleIpl_level (h : Requests s) : (sampleIpl s).irq.level = s.platform.ipl :=
  if_pos (by simpa [Requests] using h)

/-! ## The head of a frame (R640) -/

/-- The head of a frame at `sp` in supervisor data space, as it reads back. -/
structure HeadAt (t : State) (sp : Long) (sr : Sr) (pc : Long) (format : BitVec 4) (vector : Byte) : Prop where
  sr : load t 5#3 sp 2 = sr.toWord.setWidth 32
  pc : load t 5#3 (sp + 2#32) 4 = pc
  format : load t 5#3 (sp + 6#32) 2 = (formatWord format vector).setWidth 32

theorem headAt_fieldsPut (hwf : Memory.wf s.mem = true) (sp : Long) (sr : Sr) (pc : Long) (format : BitVec 4)
    (vector : Byte) :
    HeadAt (fieldsPut s 5#3 sp (frameHead sr pc format vector)) sp sr pc format vector := by
  have hfield := fun {i n v} (hi : (frameHead sr pc format vector)[i]? = some (n, v)) =>
    load_fieldsPut hwf 5#3 sp (fs := frameHead sr pc format vector) (by simp [frameHead, fieldsSize]) hi
  constructor
  case sr =>
    have hsr := (hfield (i := 0) rfl).trans (lowBits_word _)
    rwa [List.take_zero, show fieldsSize [] = 0 from rfl, BitVec.add_zero] at hsr
  case pc => exact (hfield (i := 1) rfl).trans (lowBits_bytesOf .l pc)
  case format => exact (hfield (i := 2) rfl).trans (lowBits_word _)

/-- An operand whose bytes stay reads as before. -/
theorem load_of_sameBytes {fc : Fc} {a : Long} {n : Nat}
    (h : ∀ i < n, byteAt t fc (a + BitVec.ofNat 32 i) = byteAt s fc (a + BitVec.ofNat 32 i)) :
    load t fc a n = load s fc a n := by
  induction n generalizing a with
  | zero => rfl
  | succ n ih =>
    have hfirst : byteAt t fc a = byteAt s fc a := by simpa using h 0 (Nat.succ_pos n)
    have hrest : load t fc (a + 1#32) n = load s fc (a + 1#32) n := ih fun i hi => by
      rw [← add_ofNat_succ]
      exact h (i + 1) (Nat.succ_lt_succ hi)
    rw [load, load, loadAcc, loadAcc, loadAcc_eq, loadAcc_eq s, hrest, hfirst]

/-- A head whose eight bytes stay. -/
theorem HeadAt.keep {sp pc : Long} {sr : Sr} {format : BitVec 4} {vector : Byte} (h : HeadAt s sp sr pc format vector)
    (hbytes : ∀ i < 8, byteAt t 5#3 (sp + BitVec.ofNat 32 i) = byteAt s 5#3 (sp + BitVec.ofNat 32 i)) :
    HeadAt t sp sr pc format vector := by
  have hload : ∀ k n, k + n ≤ 8 →
      load t 5#3 (sp + BitVec.ofNat 32 k) n = load s 5#3 (sp + BitVec.ofNat 32 k) n := fun k n hk =>
    load_of_sameBytes fun i hi => by
      rw [← add_ofNat_add]
      exact hbytes (k + i) (by omega)
  have hsr := hload 0 2 (by decide)
  rw [BitVec.add_zero] at hsr
  exact ⟨hsr.trans h.sr, (hload 2 4 (by decide)).trans h.pc, (hload 6 2 (by decide)).trans h.format⟩

/-! ## The interrupt (R683-R685) -/

/-- Step 1 of the processing of an interrupt: its request cleared, the mask at its level. -/
def interruptStart (s : State) : State :=
  stepOne { s with irq := { s.irq with pending := false } } (some s.irq.level)

/-- The exception of an interrupt with a four-word frame at the next instruction. -/
def interruptEntry (s : State) : Entry :=
  { vector := iackVector s.platform s.irq.level, body := .four, pc := s.pc, level := some s.irq.level }

/-- The state with the frame of an interrupt on the stack that was active. -/
def interruptFramed (s : State) : State :=
  framePushed (interruptStart s) (frameHead s.sr s.pc 0#4 (interruptEntry s).vector)

/-- Where the throwaway frame goes (R685): the interrupt stack becomes the active one. -/
def onInterruptStack (s : State) : State := { s with sr := { s.sr with m := false } }

theorem quiet_onInterruptStack (h : Quiet s) : Quiet (onInterruptStack s) := quiet_congr h rfl rfl rfl

/-- The state with all frames of an interrupt stacked: in master mode the throwaway frame too. -/
def interruptStacked (s : State) : State :=
  if s.sr.m then
    framePushed (onInterruptStack (interruptFramed s))
      (frameHead { s.sr with s := true } s.pc 1#4 (interruptEntry s).vector)
  else interruptFramed s

/-- The vector of an interrupt, as it reads with the frames in memory. -/
def interruptVector (s : State) : Long :=
  load (interruptStacked s) 5#3 (vectorAddr s (interruptEntry s).vector) 4

theorem quiet_interruptStart (h : Quiet s) : Quiet (interruptStart s) := quiet_congr h rfl rfl rfl

theorem interruptFramed_sr (s : State) : (interruptFramed s).sr = (interruptStart s).sr := by
  rw [interruptFramed, framePushed_eq]
  rfl

theorem interruptStacked_vbr (s : State) : (interruptStacked s).vbr = s.vbr := by
  have hframed : (interruptFramed s).vbr = s.vbr := framePushed_vbr (interruptStart s) _
  unfold interruptStacked
  split
  · exact (framePushed_vbr _ _).trans hframed
  · exact hframed

theorem quiet_interruptStacked (h : Quiet s) : Quiet (interruptStacked s) := by
  have hframed : Quiet (interruptFramed s) := quiet_framePushed (quiet_interruptStart h) _
  unfold interruptStacked
  split
  · exact quiet_framePushed (quiet_onInterruptStack hframed) _
  · exact hframed

theorem stackEntry_interrupt (h : Quiet s) :
    stackEntry (interruptStart s) (interruptEntry s) s.sr = .ok (interruptStacked s) := by
  have hq := quiet_interruptStart h
  have hfirst : pushFields (interruptStart s) (frameHead s.sr s.pc 0#4 (interruptEntry s).vector) =
      .ok (interruptFramed s) := pushFields_quiet hq _
  have hframed : Quiet (interruptFramed s) := quiet_framePushed hq _
  have hm : (interruptFramed s).sr.m = s.sr.m := by rw [interruptFramed_sr]; rfl
  have hunfold : stackEntry (interruptStart s) (interruptEntry s) s.sr =
      if s.sr.m then
        pushFields (onInterruptStack (interruptFramed s))
          (frameHead { s.sr with s := true } s.pc 1#4 (interruptEntry s).vector)
      else .ok (interruptFramed s) := by
    rw [← hm]
    simp only [stackEntry, interruptEntry, FrameBody.fields, FrameBody.format, List.append_nil] at hfirst ⊢
    rw [hfirst]
    rfl
  rw [hunfold, interruptStacked]
  split
  · exact pushFields_quiet (quiet_onInterruptStack hframed) _
  · rfl

/-- Where no bus cycle fails or waits, an interrupt with an even vector starts its handler. -/
theorem takeInterrupt_even (h : Quiet s) (hv : (interruptVector s).getLsbD 0 = false) :
    takeInterrupt s .four s.pc = startAt (interruptStacked s) (interruptVector s) := by
  have hmasters : otherMasters (interruptStart s) = interruptStart s := otherMasters_none h.1.2.2.1
  have hcycle : runCycle (iackCycle s.irq.level) (interruptStart s) =
      .ok ((interruptEntry s).vector, interruptStart s) :=
    runCycle_ok (if_neg (by rw [cycleWaits_none (quiet_interruptStart h).1.2.2.2]; exact Bool.false_ne_true))
  have haddr : vectorAddr (interruptStacked s) (interruptEntry s).vector = vectorAddr s (interruptEntry s).vector := by
    rw [vectorAddr, vectorAddr, interruptStacked_vbr]
  have hread : busRead (interruptStacked s) 5#3 (vectorAddr (interruptStacked s) (interruptEntry s).vector) 4 =
      .ok (interruptVector s, interruptStacked s) := by
    rw [busRead_quiet (quiet_interruptStacked h) supervisorData_ne, haddr, interruptVector]
  have hprocess : processEntry (interruptStart s) (interruptEntry s) s.sr none =
      startAt (interruptStacked s) (interruptVector s) := by
    simp only [processEntry, stackEntry_interrupt h, entryBus, hread, enterHandler, hv, Bool.false_eq_true, if_false]
  rw [interruptStart] at hmasters hcycle
  simp only [takeInterrupt, hmasters, hcycle]
  exact hprocess

/-! ## The frames of both stacks -/

/-- The stack that an interrupt finds active after step 1: the master stack in master mode. -/
def interruptSp (s : State) : Long := if s.sr.m then s.regs.msp else s.regs.isp

/-- Memory with the frame of the interrupted program. -/
def interruptMem (s : State) : State :=
  fieldsPut s 5#3 (interruptSp s - 8#32) (frameHead s.sr s.pc 0#4 (interruptEntry s).vector)

theorem interruptFramed_eq (s : State) :
    interruptFramed s = { (interruptStart s).setSp (interruptSp s - 8#32) with mem := (interruptMem s).mem } := by
  have hmem : (interruptFramed s).mem = (interruptMem s).mem :=
    fieldsPut_mem_congr (s := s) (t := (interruptStart s).setSp (interruptSp s - 8#32)) rfl rfl 5#3 _ _
  rw [← hmem]
  exact framePushed_eq (interruptStart s) _

/-- With M = 0 there is one frame, on the interrupt stack. -/
theorem interruptStacked_isp (hm : s.sr.m = false) :
    (interruptStacked s).mem = (interruptMem s).mem ∧
      (interruptStacked s).regs = { s.regs with isp := s.regs.isp - 8#32 } := by
  have hone : interruptStacked s = interruptFramed s := if_neg (by rw [hm]; exact Bool.false_ne_true)
  rw [hone, interruptFramed_eq]
  refine ⟨rfl, ?_⟩
  rw [interruptSp]
  change (if s.sr.m then _ else _) = _
  rw [hm]
  rfl

/-- With M = 1 the throwaway frame follows on the interrupt stack. -/
theorem interruptStacked_msp (hm : s.sr.m = true) :
    (interruptStacked s).mem =
        (fieldsPut (interruptMem s) 5#3 (s.regs.isp - 8#32)
          (frameHead { s.sr with s := true } s.pc 1#4 (interruptEntry s).vector)).mem ∧
      (interruptStacked s).regs = { s.regs with isp := s.regs.isp - 8#32, msp := s.regs.msp - 8#32 } := by
  have htwo : interruptStacked s = framePushed (onInterruptStack (interruptFramed s))
      (frameHead { s.sr with s := true } s.pc 1#4 (interruptEntry s).vector) := if_pos hm
  have hregs : (onInterruptStack (interruptFramed s)).regs = { s.regs with msp := s.regs.msp - 8#32 } := by
    rw [interruptFramed_eq, interruptSp]
    change (if s.sr.m then _ else _) = _
    rw [hm]
    rfl
  have hsp : (onInterruptStack (interruptFramed s)).sp = s.regs.isp := by
    rw [State.sp, hregs, interruptFramed_eq]
    rfl
  constructor
  · rw [htwo, framePushed, hsp]
    refine fieldsPut_mem_congr ?_ ?_ 5#3 _ _
    · rw [interruptFramed_eq]
      rfl
    · rw [interruptFramed_eq, interruptMem, fieldsPut_platform]
      rfl
  · rw [htwo, framePushed_eq, hsp]
    change ((onInterruptStack (interruptFramed s)).setSp (s.regs.isp - 8#32)).regs = _
    rw [setSp_regs, hregs, interruptFramed_eq]
    rfl

/-- SR and interrupt state with all frames stacked: the mask at the level, M cleared, no request pending. -/
theorem interruptStacked_state (s : State) :
    (interruptStacked s).sr = { s.sr with s := true, t1 := false, t0 := false, m := false, mask := s.irq.level } ∧
      (interruptStacked s).irq = { s.irq with pending := false } ∧ (interruptStacked s).platform = s.platform := by
  unfold interruptStacked
  split
  case isTrue hm =>
    rw [framePushed_eq, interruptFramed_eq]
    exact ⟨rfl, rfl, rfl⟩
  case isFalse hm =>
    rw [interruptFramed_eq]
    refine ⟨?_, rfl, rfl⟩
    change ({ s.sr with s := true, t1 := false, t0 := false, mask := s.irq.level } : Sr) = _
    rw [← Bool.not_eq_true _ |>.mp hm]

/-- The frames of an interrupt taken in master mode: the throwaway frame, and below it on the master stack the frame of
the interrupted program, unless the two overlap. -/
theorem interruptHeads_msp (hwf : Memory.wf s.mem = true) (hm : s.sr.m = true) :
    HeadAt (interruptStacked s) (s.regs.isp - 8#32) { s.sr with s := true } s.pc 1#4 (interruptEntry s).vector ∧
      ((∀ i < 8, ∀ j < 8, memKey s.platform 5#3 (s.regs.msp - 8#32 + BitVec.ofNat 32 i) ≠
          memKey s.platform 5#3 (s.regs.isp - 8#32 + BitVec.ofNat 32 j)) →
        HeadAt (interruptStacked s) (s.regs.msp - 8#32) s.sr s.pc 0#4 (interruptEntry s).vector) := by
  obtain ⟨hmem, -⟩ := interruptStacked_msp hm
  have hplatform : (interruptMem s).platform = s.platform := fieldsPut_platform ..
  have hwf' : Memory.wf (interruptMem s).mem = true := fieldsPut_wf hwf _ _ _
  have hbytes : ∀ a, byteAt (interruptStacked s) 5#3 a = byteAt (fieldsPut (interruptMem s) 5#3 (s.regs.isp - 8#32)
      (frameHead { s.sr with s := true } s.pc 1#4 (interruptEntry s).vector)) 5#3 a := fun a =>
    byteAt_congr hmem (by rw [fieldsPut_platform, hplatform, (interruptStacked_state s).2.2]) 5#3 a
  refine ⟨(headAt_fieldsPut hwf' _ _ _ _ _).keep fun i _ => hbytes _, fun hapart => ?_⟩
  have hfirst : HeadAt (interruptMem s) (s.regs.msp - 8#32) s.sr s.pc 0#4 (interruptEntry s).vector := by
    have hhead := headAt_fieldsPut hwf (interruptSp s - 8#32) s.sr s.pc 0#4 (interruptEntry s).vector
    rw [interruptSp, hm] at hhead
    rw [interruptMem, interruptSp, hm]
    exact hhead
  refine hfirst.keep fun i hi => (hbytes _).trans ?_
  refine sameMemBut_fieldsPut hwf' 5#3 _ _ 5#3 _ fun j hj => ?_
  rw [hplatform]
  exact hapart i hi j hj

/-- The frame of an interrupt taken with M = 0. -/
theorem interruptHead_isp (hwf : Memory.wf s.mem = true) (hm : s.sr.m = false) :
    HeadAt (interruptStacked s) (s.regs.isp - 8#32) s.sr s.pc 0#4 (interruptEntry s).vector := by
  have hsp : interruptSp s = s.regs.isp := by rw [interruptSp, hm]; rfl
  have hplatform : (interruptStacked s).platform = (interruptMem s).platform := by
    rw [(interruptStacked_state s).2.2, interruptMem, fieldsPut_platform]
  rw [← hsp]
  exact (headAt_fieldsPut hwf _ _ _ _ _).keep fun i _ => byteAt_congr (interruptStacked_isp hm).1 hplatform 5#3 _

/-- Settles O16: the sample by its definition; the interrupt by the frames on each stack, for either value of M. -/
theorem interrupts : Obligations.Interrupts := by
  unfold Obligations.Interrupts
  refine ⟨fun s => ⟨sampleIpl_pending s, sampleIpl_level, rfl⟩, ?_⟩
  intro s h hwf v t head framed stacked target heven
  have hstacked : (interruptStacked s).mem = stacked.mem ∧ (interruptStacked s).platform = stacked.platform := by
    rw [(interruptStacked_state s).2.2]
    cases hm : s.sr.m with
    | false =>
      have hone : stacked = interruptMem s := if_neg (by rw [hm]; exact Bool.false_ne_true)
      rw [hone, interruptMem, fieldsPut_platform]
      exact ⟨(interruptStacked_isp hm).1, rfl⟩
    | true =>
      have htwo : stacked = fieldsPut (interruptMem s) 5#3 (s.regs.isp - 8#32)
          (frameHead { s.sr with s := true } s.pc 1#4 v) := if_pos hm
      rw [htwo, fieldsPut_platform, interruptMem, fieldsPut_platform]
      exact ⟨(interruptStacked_msp hm).1, rfl⟩
  have htarget : interruptVector s = target := load_congr hstacked.1 hstacked.2 5#3 _ 4
  have ht : t = startAt (interruptStacked s) target := htarget ▸ takeInterrupt_even h (htarget ▸ heven)
  obtain ⟨hsr, hirq, -⟩ := interruptStacked_state s
  have hkeep : ∀ {sp sr pc format}, HeadAt (interruptStacked s) sp sr pc format v → HeadAt t sp sr pc format v :=
    fun hhead => ht ▸ hhead.keep fun _ _ => rfl
  have hregs : t.regs = (interruptStacked s).regs := ht ▸ startAt_regs ..
  refine ⟨ht ▸ startAt_pc .., by rw [ht, startAt_sr, hsr], by rw [ht, startAt_irq, hirq], ?pc, fun hm => ?isp,
    fun hm => ?msp⟩
  case pc =>
    cases hm : s.sr.m with
    | false => exact (hkeep (interruptHead_isp hwf hm)).pc
    | true => exact (hkeep (interruptHeads_msp hwf hm).1).pc
  case isp =>
    have hhead := hkeep (interruptHead_isp hwf hm)
    exact ⟨hregs.trans (interruptStacked_isp hm).2, hhead.sr, hhead.format⟩
  case msp =>
    obtain ⟨hthrowaway, hmaster⟩ := interruptHeads_msp hwf hm
    have hhead := hkeep hthrowaway
    refine ⟨hregs.trans (interruptStacked_msp hm).2, hhead.sr, hhead.format, fun hapart => ?_⟩
    have hframe := hkeep (hmaster hapart)
    exact ⟨hframe.sr, hframe.pc, hframe.format⟩

end Sys2Proof.Proofs
end

section
/-! PROOFS. Bus faults of data cycles (R618, R652, R662): what completes where only some cycles fail, the cycle that fails
first, and the frame that the handler finds. -/

namespace Sys2Proof.Proofs

open Sys2Proof Sys2Proof.Machine Sys2Proof.Laws

variable {s t : State} {fc : Fc}

/-! ## Bus operations in a space where no cycle fails -/

theorem busRead_safe (h : Alone s) (hf : fc ≠ 7#3) (he : ∀ ext, cycleErrs s.platform fc true ext = false) (a : Long)
    (n : Nat) : busRead s fc a n = .ok (load s fc a n, s) :=
  busRead_alone h hf fun ⟨_, _, herr⟩ => absurd ((he _).symm.trans herr) Bool.false_ne_true

/-- One cycle of a write without interference, outside CPU space: it ends in bus error, or stores. -/
theorem writeCycles_succ_alone (h : Alone s) (hf : fc ≠ 7#3) (fuel : Nat) (a : Long) {rem : Nat} (h0 : rem ≠ 0)
    (v : Long) :
    writeCycles fc (fuel + 1) s a rem v =
      if cycleErrs s.platform fc false (extAddr s.platform.variant a) = true then
        .error (.fault { addr := a, fc := fc, read := false, bytes := rem, data := lowBits (8 * rem) v } 0#32 s)
      else
        let k := cycleBytes s.platform fc a rem
        writeCycles fc fuel (store s fc k a (lowBits (8 * k) (v >>> (8 * (rem - k))))) (a + BitVec.ofNat 32 k)
          (rem - k) v := by
  obtain ⟨-, -, hmasters, hsilent⟩ := h
  simp only [writeCycles, h0, if_false, otherMasters_none hmasters]
  generalize cycleBytes s.platform fc a rem = k
  generalize lowBits (8 * k) (v >>> (8 * (rem - k))) = x
  cases he : cycleErrs s.platform fc false (extAddr s.platform.variant a)
  · have hc : writeCycle s fc a k x = .ok (store s fc k a x) := by
      simp only [writeCycle, he, if_false, cycleWaits_none hsilent, Bool.false_eq_true, hf]
    rw [runCycle_ok (cycle := fun s => writeCycle s fc a k x) hc]
    rfl
  · have hc : writeCycle s fc a k x = .error (.err s) := by simp only [writeCycle, he, if_true]
    rw [runCycle_err (cycle := fun s => writeCycle s fc a k x) hc]
    rfl

theorem alone_congr (h : Alone s) (hp : t.platform = s.platform) (hr : t.replay = s.replay)
    (hl : t.landing = s.landing) : Alone t :=
  ⟨hr.trans h.1, hl.trans h.2.1, hp ▸ h.2.2.1, hp ▸ h.2.2.2⟩

theorem alone_store (h : Alone s) (fc : Fc) (n : Nat) (a v : Long) : Alone (store s fc n a v) :=
  alone_congr h (by simp) (by simp) (by simp)

theorem writeCycles_safe (hf : fc ≠ 7#3) (fuel : Nat) (h : Alone s)
    (he : ∀ ext, cycleErrs s.platform fc false ext = false) (a : Long) (rem : Nat) (v : Long) (hr : rem ≤ fuel) :
    writeCycles fc fuel s a rem v = .ok (store s fc rem a v) := by
  induction fuel generalizing s a rem with
  | zero =>
    obtain rfl : rem = 0 := by omega
    rfl
  | succ fuel ih =>
    by_cases h0 : rem = 0
    · simp [writeCycles, h0, store]
    · obtain ⟨k1, k2⟩ := cycleBytes_bounds s.platform fc a rem h0
      rw [writeCycles_succ_alone h hf fuel a h0, he, if_neg Bool.false_ne_true]
      dsimp only
      rw [ih (alone_store h ..) (by simpa using he) _ _ (by omega), ← store_add, Nat.add_sub_cancel' k2]

theorem busWrite_safe (h : Alone s) (hf : fc ≠ 7#3) (he : ∀ ext, cycleErrs s.platform fc false ext = false) (a : Long)
    (n : Nat) (v : Long) : busWrite s fc a n v = .ok (store s fc n a v) :=
  writeCycles_safe hf n h he a n v (Nat.le_refl n)

theorem writeFields_safe (h : Alone s) (hf : fc ≠ 7#3) (he : ∀ ext, cycleErrs s.platform fc false ext = false)
    (a : Long) (fs : List (Nat × Long)) : writeFields s fc a fs = .ok (fieldsPut s fc a fs) := by
  induction fs generalizing s a with
  | nil => rfl
  | cons x fs ih =>
    rw [writeFields, busWrite_safe h hf he, ok_bind, ih (alone_store h ..) (by simpa using he)]
    rfl

/-! ## The cycle that fails first -/

/-- A read whose first cycle ends in bus error. -/
theorem busRead_first (h : Alone s) (hf : fc ≠ 7#3) {a : Long}
    (he : cycleErrs s.platform fc true (extAddr s.platform.variant a) = true) (n : Nat) :
    busRead s fc a (n + 1) =
      .error (.fault { addr := a, fc := fc, read := true, bytes := n + 1, data := 0#32 } 0#32 s) := by
  rw [busRead, readCycles_succ_alone h hf n a (Nat.succ_ne_zero n), if_pos he]

/-- A write whose first cycle ends in bus error. -/
theorem busWrite_first (h : Alone s) (hf : fc ≠ 7#3) {a : Long}
    (he : cycleErrs s.platform fc false (extAddr s.platform.variant a) = true) (n : Nat) (v : Long) :
    busWrite s fc a (n + 1) v =
      .error (.fault { addr := a, fc := fc, read := false, bytes := n + 1, data := lowBits (8 * (n + 1)) v } 0#32 s) := by
  rw [busWrite, writeCycles_succ_alone h hf n a (Nat.succ_ne_zero n), if_pos he]

/-! ## The processing of a bus fault where no cycle of supervisor data space fails (R618) -/

/-- From `s` the bus fault `f` has led to its handler, in `t`: the frame stacked, the handler's first word fetched. -/
def HandlerStarted (s t : State) (f : FaultFrame) : Prop :=
  ∃ c x, t = { startAt (faultStacked s f) (faultVector s f) with cache := c, holding := x }

/-- A word tried at an even address, without interference: it is fetched, or the processor halts. -/
theorem prefetch_alone (h : Alone s) (hp : s.pipe = .empty) (hv : s.holding.valid = false) {a : Long}
    (ha : a.getLsbD 0 = false) :
    (∃ c x, prefetch s a = .ok { s with cache := c, holding := x }) ∨
      (∃ u, prefetch s a = .error (halt u)) ∧ TransferErrs s.platform (progFc s) true (longBase a) 4 := by
  have hfetched : ∀ {lw c x}, fetchLong s a = .ok (lw, { s with cache := c, holding := x }) →
      ∃ c x, prefetch s a = .ok { s with cache := c, holding := x } := fun hl =>
    ⟨_, _, by simp only [prefetch, fetchWord_of_fetchLong hp ha hl]; rfl⟩
  cases hc : cacheHit s (progFc s) a with
  | some lw => exact .inl (hfetched (fetchLong_hit hv hc))
  | none =>
    by_cases he : TransferErrs s.platform (progFc s) true (longBase a) 4
    · obtain ⟨f, got, hb⟩ := busRead_alone_errs h (progFc_ne s) he
      have hword := fetchWord_of_fetchLong_error hp ha (fetchLong_bus hv hc hb)
      exact .inr ⟨⟨_, by simp only [prefetch, hword]; rfl⟩, he⟩
    · exact .inl (hfetched (fetchLong_miss hv hc (busRead_alone h (progFc_ne s) he)))

theorem alone_suspend (h : Alone s) (f : FaultFrame) : Alone (suspend s f) := ⟨rfl, rfl, h.2.2.1, h.2.2.2⟩

theorem faultStacked_platform (s : State) (f : FaultFrame) : (faultStacked s f).platform = s.platform := by
  rw [faultStacked, framePushed_eq]
  rfl

theorem alone_faultStacked (h : Alone s) (f : FaultFrame) : Alone (faultStacked s f) := by
  rw [faultStacked, framePushed_eq]
  exact ⟨rfl, rfl, h.2.2.1, h.2.2.2⟩

theorem faultStacked_supervisor (s : State) (f : FaultFrame) : (faultStacked s f).sr = supervisorSr s := by
  rw [faultStacked, framePushed_eq]
  rfl

section
variable (h : Alone s) (h5 : ∀ read ext, cycleErrs s.platform 5#3 read ext = false) (f : FaultFrame)
include h h5

/-- The handler's first word decides how the processing of a bus fault ends. -/
theorem takeFault_safe :
    takeFault s f = endState (prefetch (startAt (faultStacked s f) (faultVector s f)) (faultVector s f)) := by
  have hset : Alone ((suspend s f).setSp ((suspend s f).sp - BitVec.ofNat 32 (fieldsSize (faultFields s f)))) :=
    alone_suspend h f
  have hpush : pushFields (suspend s f) (faultFields s f) = .ok (faultStacked s f) := by
    rw [pushFields, sp_setSp, writeFields_safe hset supervisorData_ne (h5 false)]
    rfl
  have h5' : ∀ ext, cycleErrs (faultStacked s f).platform 5#3 true ext = false := by
    rw [faultStacked_platform]
    exact h5 true
  have hread : busRead (faultStacked s f) 5#3 (vectorAddr (faultStacked s f) f.vector) 4 =
      .ok (faultVector s f, faultStacked s f) := by
    rw [busRead_safe (alone_faultStacked h f) supervisorData_ne h5', vectorAddr_faultStacked, faultVector]
  simp only [takeFault, hpush, hread]

/-- An odd vector halts the processor (R604). -/
theorem takeFault_safe_odd (hv : (faultVector s f).getLsbD 0 = true) :
    takeFault s f = halt (startAt (faultStacked s f) (faultVector s f)) := by
  rw [takeFault_safe h h5 f, prefetch_odd rfl hv]
  rfl

/-- At an even vector the handler starts, unless the fetch of its first word ends in bus error, which halts the
processor. -/
theorem takeFault_safe_even (hv : (faultVector s f).getLsbD 0 = false) :
    HandlerStarted s (takeFault s f) f ∨
      (takeFault s f).run = .halted ∧ TransferErrs s.platform 6#3 true (longBase (faultVector s f)) 4 := by
  have halone : Alone (startAt (faultStacked s f) (faultVector s f)) := alone_congr (alone_faultStacked h f) rfl rfl rfl
  have hfc : progFc (startAt (faultStacked s f) (faultVector s f)) = 6#3 := by
    rw [progFc, startAt_sr, faultStacked_supervisor]
    rfl
  rw [takeFault_safe h h5 f]
  obtain ⟨c, x, hfetch⟩ | ⟨⟨u, hfetch⟩, herrs⟩ := prefetch_alone halone rfl rfl hv
  · rw [hfetch]
    exact .inl ⟨c, x, rfl⟩
  · rw [hfc, startAt_platform, faultStacked_platform] at herrs
    rw [hfetch]
    exact .inr ⟨rfl, herrs⟩

/-- A processor that runs after the processing of a bus fault is in its handler. -/
theorem handlerStarted_of_run (hrun : (takeFault s f).run = .normal) : HandlerStarted s (takeFault s f) f := by
  cases hv : (faultVector s f).getLsbD 0
  · obtain hstarted | ⟨hhalt, -⟩ := takeFault_safe_even h h5 f hv
    · exact hstarted
    · exact nomatch hhalt.symm.trans hrun
  · rw [takeFault_safe_odd h h5 f hv] at hrun
    exact nomatch hrun

end

/-! ## What the handler finds (R652) -/

section
variable {f : FaultFrame}

theorem load_handlerStarted (ht : HandlerStarted s t f) (fc : Fc) (a : Long) (n : Nat) :
    load t fc a n = load (faultStacked s f) fc a n := by
  obtain ⟨c, x, rfl⟩ := ht
  exact load_congr (by rfl) (by rfl) fc a n

/-- A field of frame $B, as it was stacked. -/
theorem load_faultStacked (hwf : Memory.wf s.mem = true) (hf : f.long = true) {i n : Nat} {v : Long}
    (hi : (shortFields s f 11#4 ++ longFields s f)[i]? = some (n, v)) :
    load (faultStacked s f) 5#3
      (longFrameSp s + BitVec.ofNat 32 (fieldsSize ((shortFields s f 11#4 ++ longFields s f).take i))) n =
      lowBits (8 * n) v := by
  have hfields : faultFields s f = shortFields s f 11#4 ++ longFields s f := if_pos hf
  have hsize := fieldsSize_long (s := s) hf
  rw [faultStacked_long hf]
  rw [hfields] at hsize ⊢
  exact load_fieldsPut (s := (suspend s f).setSp _) hwf 5#3 _ (by omega) hi

/-- Every byte stays but those of frame $B. -/
theorem sameMemBut_faultStacked (hwf : Memory.wf s.mem = true) (hf : f.long = true) :
    SameMemBut s (faultStacked s f) 5#3 (longFrameSp s) 92 := by
  have hstacked := sameMemBut_fieldsPut (s := (suspend s f).setSp (longFrameSp s)) hwf 5#3 (longFrameSp s)
    (faultFields s f)
  rwa [fieldsSize_long hf, ← faultStacked_long hf] at hstacked

/-- The handler of a bus fault with frame $B finds its frame. -/
theorem longFaultTaken_of_started (hwf : Memory.wf s.mem = true) (hf : f.long = true) (ht : HandlerStarted s t f) :
    LongFaultTaken s t f := by
  have hfield := fun {i n v} hi => (load_handlerStarted ht 5#3 _ n).trans (load_faultStacked hwf hf (i := i) (v := v) hi)
  have hword := fun {i} {w : Word} hi => (hfield (i := i) (n := 2) (v := w.setWidth 32) hi).trans (lowBits_word w)
  have hstacked := framePushed_eq (suspend s f) (faultFields s f)
  rw [fieldsSize_long hf] at hstacked
  have hload := load_handlerStarted ht
  obtain ⟨c, x, ht⟩ := ht
  constructor
  case run => rw [ht, faultStacked, hstacked]; rfl
  case pc => rw [hload, ht]; rfl
  case sr => rw [ht, faultStacked, hstacked]; rfl
  case regs => rw [ht, faultStacked, hstacked]; rfl
  case srCopy =>
    rw [← BitVec.add_zero (longFrameSp s)]
    exact hword (i := 0) rfl
  case returnPc => exact (hfield (i := 1) rfl).trans (lowBits_bytesOf .l _)
  case format => exact hword (i := 2) rfl
  case ssw => exact hword (i := 4) rfl
  case faultAddr => exact (hfield (i := 7) rfl).trans (lowBits_bytesOf .l _)
  case stageB => exact (hfield (i := 12) rfl).trans (lowBits_bytesOf .l _)
  case others =>
    intro fc' a' hne
    rw [ht]
    exact (byteAt_congr (s := faultStacked s f) rfl rfl fc' a').trans (sameMemBut_faultStacked hwf hf fc' a' hne)

end

/-! ## The operand read of TST (R249, R618) -/

/-- The bus error of an operand's first read cycle. -/
def readFault (fc : Fc) (a : Long) (sz : Size) : BusFault :=
  { addr := a, fc := fc, read := true, bytes := bytesOf sz, data := 0#32 }

theorem readFc_first (h : Alone s) (hf : fc ≠ 7#3) {a : Long}
    (he : cycleErrs s.platform fc true (extAddr s.platform.variant a) = true) (sz : Size) :
    readFc s fc a (bytesOf sz) = .error (.next (dataFault s (readFault fc a sz) 0#32)) := by
  have hread : busRead s fc a (bytesOf sz) = .error (.fault (readFault fc a sz) 0#32 s) := by
    cases sz
    all_goals exact busRead_first h hf he _
  simp only [readFc, h.1, land_none h.2.1, hread]
  rfl

/-- TST of an operand in memory whose first read cycle fails. -/
theorem exec_tst_fault (h : Alone s) (hs : s.sr.s = false) {n : Reg}
    (he : cycleErrs s.platform 1#3 true (extAddr s.platform.variant (s.a n)) = true) (sz : Size) :
    exec (.tst sz (.ind n)) s = .next (dataFault s (readFault 1#3 (s.a n) sz) 0#32) := by
  have hfc : spaceFc s false = 1#3 := by
    rw [spaceFc, dataFc, hs]
    rfl
  have hread : readEa s sz 0 (.ind n) = .error (.next (dataFault s (readFault 1#3 (s.a n) sz) 0#32)) :=
    (congrArg (readFc s · (s.a n) (bytesOf sz)) hfc).trans (readFc_first h (by decide) he sz)
  rw [exec_tst, execTst, testEa, withOperand, hread]

/-- The special status word of a failed operand read in user data space (R662). -/
theorem dataSsw_userRead (a : Long) (sz : Size) :
    (dataSsw (readFault 1#3 a sz) false).setWidth 32 =
      (match sz with | .b => 0x151#32 | .w => 0x161#32 | .l => 0x141#32) := by
  have hparts : dataSsw (readFault 1#3 a sz) false =
      sswWord false false false false true false true (sizeCode (bytesOf sz)) 1#3 := rfl
  rw [hparts]
  cases sz
  all_goals decide

theorem vectorAddr_busError (s : State) : vectorAddr s 2#8 = s.vbr + 8#32 := rfl

/-- Settles O17: TST stops with the bus fault of its operand read, and the handler at an even vector finds its frame. -/
theorem busErrorFrame : Obligations.BusErrorFrame := by
  unfold Obligations.BusErrorFrame
  intro s sz n hwf h hs hrmc h5 h6 he sp
  obtain ⟨f, hf⟩ : ∃ f, f = dataFrame s s.pc s.rmc (readFault 1#3 (s.a n) sz) (.access (readFault 1#3 (s.a n) sz) 0#32) :=
    ⟨_, rfl⟩
  have hexec : exec (.tst sz (.ind n)) s = .next (takeFault s f) := by
    rw [exec_tst_fault h hs he sz, hf]
    rfl
  have hlong : f.long = true := by rw [hf]; rfl
  have hvector : f.vector = 2#8 := by rw [hf]; rfl
  have hloaded : faultVector s f = load (faultStacked s f) 5#3 (s.vbr + 8#32) 4 := by
    rw [faultVector, hvector, vectorAddr_busError]
  refine ⟨takeFault s f, hexec, ?_⟩
  cases hv : (faultVector s f).getLsbD 0 with
  | false =>
    have hstarted : HandlerStarted s (takeFault s f) f := by
      obtain hstarted | ⟨-, _, _, herr⟩ := takeFault_safe_even h h5 f hv
      · exact hstarted
      · exact absurd ((h6 _).symm.trans herr) Bool.false_ne_true
    have hload := load_handlerStarted hstarted 5#3 (s.vbr + 8#32) 4
    have htaken := longFaultTaken_of_started hwf hlong hstarted
    refine ⟨fun _ => ?_, fun hodd => ?_⟩
    · refine ⟨htaken.run, ?pc, htaken.sr, htaken.regs, htaken.srCopy, ?returnPc, ?format, ?ssw, ?addr, htaken.others⟩
      case pc => rw [htaken.pc, hvector, vectorAddr_busError]
      case returnPc => exact htaken.returnPc.trans (by rw [hf]; rfl)
      case format => exact htaken.format.trans (by rw [hvector]; decide)
      case ssw =>
        refine htaken.ssw.trans (Eq.trans ?_ (dataSsw_userRead (s.a n) sz))
        rw [hf, ← hrmc]
        rfl
      case addr => exact htaken.faultAddr.trans (by rw [hf]; rfl)
    · rw [hload, ← hloaded, hv] at hodd
      exact nomatch hodd
  | true =>
    have hhalt := takeFault_safe_odd h h5 f hv
    have hload : load (takeFault s f) 5#3 (s.vbr + 8#32) 4 = faultVector s f := by
      rw [hhalt, hloaded]
      exact load_congr (by rfl) (by rfl) 5#3 _ 4
    refine ⟨fun heven => ?_, fun _ => ?_⟩
    · rw [hload, hv] at heven
      exact nomatch heven
    · rw [hhalt]
      rfl

end Sys2Proof.Proofs
end

section
/-! PROOFS. RTE of a bus fault frame (R660, R664-R670): what the handler leaves of the frame, the validation, and the
instruction restarted behind its only access. -/

namespace Sys2Proof.Proofs

open Sys2Proof Sys2Proof.Machine Sys2Proof.Laws

variable {s t h y : State} {f : FaultFrame} {i : Instr}

/-! ## Stores of the handler -/

theorem load_store_same (hwf : Memory.wf s.mem = true) (fc : Fc) (a v : Long) {n : Nat} (hn : n ≤ 2 ^ 24) :
    load (store s fc n a v) fc a n = lowBits (8 * n) v :=
  load_of_byteOf fun _ hi => byteAt_store fc hn a v hwf hi

/-- An operand apart from the one stored, at offsets from one address. -/
theorem load_store_apart (hwf : Memory.wf s.mem = true) (fc : Fc) (a v : Long) {b m c n : Nat}
    (hb : b + m ≤ 2 ^ 24) (hc : c + n ≤ 2 ^ 24) (hout : c + n ≤ b ∨ b + m ≤ c) :
    load (store s fc m (a + BitVec.ofNat 32 b) v) fc (a + BitVec.ofNat 32 c) n =
      load s fc (a + BitVec.ofNat 32 c) n := by
  have hstore : SameMemBut s (store s fc m (a + BitVec.ofNat 32 b) v) fc (a + BitVec.ofNat 32 b) m :=
    fun _ _ hne => byteAt_store_of_ne m v hwf hne
  refine load_of_sameBytes fun i hi => ?_
  rw [← add_ofNat_add]
  exact byteAt_of_outside hstore hb (by omega) (by omega)

/-! ## The state in which the handler returns -/

/-- Of `t` the handler has changed at most the special status word and the data input buffer of the frame at `sp`, and
where bus cycles fail; not in supervisor data space. -/
structure Repaired (t h : State) (sp : Long) : Prop where
  state : h = { t with mem := h.mem, platform := { t.platform with faults := h.platform.faults } }
  safe : ∀ read ext, cycleErrs h.platform 5#3 read ext = false
  frame : ∀ {k n : Nat}, (k + n ≤ 0x0A ∨ 0x0C ≤ k) → (k + n ≤ 0x2C ∨ 0x30 ≤ k) → k + n ≤ 92 →
    load h 5#3 (sp + BitVec.ofNat 32 k) n = load t 5#3 (sp + BitVec.ofNat 32 k) n

/-- A bus fault of an instruction at its start, in a state without interference, has led to its handler; the handler has
repaired it, in `h`. -/
structure Handled (s h : State) (f : FaultFrame) : Prop where
  alone : Alone s
  wf : Memory.wf s.mem = true
  long : f.long = true
  taken : ∃ t, HandlerStarted s t f ∧ Repaired t h (longFrameSp s)

/-- What the handler keeps: registers, SR, control registers, and the suspension of the instruction. -/
theorem Handled.kept (hh : Handled s h f) :
    h.regs = setActiveSp s.regs (supervisorSr s) (longFrameSp s) ∧ h.sr = supervisorSr s ∧ h.controls = s.controls ∧
      h.run = .normal ∧ h.suspended = suspensionOf s f :: s.suspended ∧
      h.platform.versionNibble = s.platform.versionNibble ∧ Alone h := by
  obtain ⟨t, ⟨c, x, ht⟩, hrepaired⟩ := hh.taken
  have hstacked := framePushed_eq (suspend s f) (faultFields s f)
  rw [fieldsSize_long hh.long] at hstacked
  have hstate : h = { startAt ((suspend s f).setSp (longFrameSp s)) (faultVector s f) with
      cache := c, holding := x, mem := h.mem, platform := { s.platform with faults := h.platform.faults } } := by
    rw [hrepaired.state, ht, faultStacked, hstacked]
    rfl
  rw [hstate]
  exact ⟨rfl, rfl, rfl, rfl, rfl, rfl, rfl, rfl, hh.alone.2.2.1, hh.alone.2.2.2⟩

/-- The offset of the field of frame $B with a number (R652). -/
def frameOffset (i : Nat) : Nat :=
  (([2, 4, 2, 2, 2, 2, 2, 4, 4, 4, 4, 4, 4, 4, 4, 4, 2, 2, 4, 4, 4, 4, 4, 4, 4, 4, 4] : List Nat).take i).sum

theorem fieldsSize_take (s : State) (f : FaultFrame) (i : Nat) :
    fieldsSize ((shortFields s f 11#4 ++ longFields s f).take i) = frameOffset i := by
  rw [fieldsSize, List.map_take]
  rfl

/-- A field of the frame that the handler has not changed reads as it was stacked. -/
theorem Handled.field (hh : Handled s h f) {i n : Nat} {v : Long}
    (hi : (shortFields s f 11#4 ++ longFields s f)[i]? = some (n, v)) {k : Nat}
    (hk : frameOffset i = k)
    (hssw : k + n ≤ 0x0A ∨ 0x0C ≤ k) (hinput : k + n ≤ 0x2C ∨ 0x30 ≤ k) (hle : k + n ≤ 92) :
    load h 5#3 (longFrameSp s + BitVec.ofNat 32 k) n = lowBits (8 * n) v := by
  obtain ⟨t, ht, hrepaired⟩ := hh.taken
  rw [hrepaired.frame hssw hinput hle, load_handlerStarted ht, ← hk, ← fieldsSize_take s f]
  exact load_faultStacked hh.wf hh.long hi

/-- The fields that RTE checks and uses, but for the special status word and the data input buffer. -/
structure FrameFields (h : State) (s : State) (f : FaultFrame) : Prop where
  sr : load h 5#3 (longFrameSp s) 2 = s.sr.toWord.setWidth 32
  format : load h 5#3 (longFrameSp s + 6#32) 2 = (formatWord 11#4 f.vector).setWidth 32
  key : load h 5#3 (longFrameSp s + 0x1C#32) 4 = s.serial
  version : load h 5#3 (longFrameSp s + 0x36#32) 2 =
    (s.platform.versionNibble ++ (s.freeAt 9).extractLsb' 0 12 : Word).setWidth 32
  faultAddr : load h 5#3 (longFrameSp s + 0x10#32) 4 = f.faultAddr
  output : load h 5#3 (longFrameSp s + 0x18#32) 4 = f.dataOut

theorem Handled.fields (hh : Handled s h f) : FrameFields h s f := by
  have hword := fun {i} {w : Word} hi {k} hk h1 h2 h3 =>
    (hh.field (i := i) (n := 2) (v := w.setWidth 32) hi (k := k) hk h1 h2 h3).trans (lowBits_word w)
  have hlong := fun {i} {v : Long} hi {k} hk h1 h2 h3 =>
    (hh.field (i := i) (n := 4) (v := v) hi (k := k) hk h1 h2 h3).trans (lowBits_bytesOf .l v)
  constructor
  case sr =>
    rw [← BitVec.add_zero (longFrameSp s)]
    exact hword (i := 0) rfl rfl (by decide) (by decide) (by decide)
  case format => exact hword (i := 2) rfl (k := 6) rfl (by decide) (by decide) (by decide)
  case key => exact hlong (i := 10) rfl (k := 0x1C) rfl (by decide) (by decide) (by decide)
  case version => exact hword (i := 17) rfl (k := 0x36) rfl (by decide) (by decide) (by decide)
  case faultAddr => exact hlong (i := 7) rfl (k := 0x10) rfl (by decide) (by decide) (by decide)
  case output => exact hlong (i := 9) rfl (k := 0x18) rfl (by decide) (by decide) (by decide)

/-! ## RTE reads the frame (R666, R667) -/

/-- At supervisor level, without interference, and no bus cycle of supervisor data space fails. -/
structure FrameReadable (h : State) : Prop where
  alone : Alone h
  super : h.sr.s = true
  safe : ∀ ext, cycleErrs h.platform 5#3 true ext = false

theorem FrameReadable.fc (hr : FrameReadable h) : dataFc h = 5#3 := if_pos hr.super

theorem frameReadable_withDone (hr : FrameReadable h) (dn : List BusRec) : FrameReadable (h.withDone dn) :=
  ⟨alone_congr hr.alone rfl rfl rfl, hr.super, hr.safe⟩

theorem memRead_readable (hr : FrameReadable h) (a : Long) (n : Nat) :
    ∃ dn, memRead h a n = .ok (load h 5#3 a n, h.withDone dn) := by
  refine ⟨h.done ++ [.read (load h 5#3 a n)], ?_⟩
  simp [memRead, hr.fc, readFc, hr.alone.1, land_none hr.alone.2.1,
    busRead_safe hr.alone supervisorData_ne hr.safe, State.withDone]

theorem frameWords_readable (hr : FrameReadable h) (n : Nat) (a : Long) :
    frameWords n h a = .ok ((List.range n).map fun i => memWord h 5#3 (a + BitVec.ofNat 32 (2 * i)), h) := by
  induction n generalizing a with
  | zero => rfl
  | succ n ih =>
    have hword : (load h 5#3 a 2).setWidth 16 = memWord h 5#3 (a + BitVec.ofNat 32 (2 * 0)) := by
      rw [load_word]
      simp
    have hnext : ∀ i, a + 2#32 + BitVec.ofNat 32 (2 * i) = a + BitVec.ofNat 32 (2 * (i + 1)) := fun i => by
      rw [Nat.mul_succ, Nat.add_comm, add_ofNat_add]
    simp only [frameWords, hr.fc, busRead_safe hr.alone supervisorData_ne hr.safe, ih, ok_bind, hnext, hword,
      List.range_succ_eq_map, List.map_cons, List.map_map]
    rfl

/-- RTE of a valid frame $B goes on with the suspension that its key names. -/
theorem rteFault_long (hr : FrameReadable h) {p : Suspension}
    (hversion : versionOk h (load h 5#3 (h.sp + 0x36#32) 2) = true)
    (hp : h.suspended.find? (fun q => q.key == load h 5#3 (h.sp + 0x1C#32) 4 && q.long == true) = some p)
    (sr : Word) :
    ∃ dn, rteFault true h.sp sr h =
      resumeFault (writeSr ((h.withDone dn).setSp (h.sp + 92#32)) sr) p (repairOf true (frameImage h 46)) := by
  obtain ⟨d1, hread1⟩ := memRead_readable hr (h.sp + 0x36#32) 2
  obtain ⟨d2, hread2⟩ := memRead_readable (frameReadable_withDone hr d1) (h.sp + lastWord true) 2
  obtain ⟨d3, hread3⟩ := memRead_readable (frameReadable_withDone hr d2) (h.sp + 0x1C#32) 4
  rw [withDone_withDone] at hread2 hread3
  rw [load_withDone] at hread3
  have hwords : frameWords (frameSize true) (h.withDone d3) h.sp = .ok (frameImage h 46, h.withDone d3) := by
    rw [frameWords_readable (frameReadable_withDone hr d3), frameImage, hr.fc]
    rfl
  have hok : versionOk (h.withDone d3) (load h 5#3 (h.sp + 0x36#32) 2) = true := hversion
  have hfind : (h.withDone d3).suspended.find? (fun q => q.key == load h 5#3 (h.sp + 0x1C#32) 4 && q.long == true) =
      some p := hp
  refine ⟨d3, ?_⟩
  simp only [rteFault, if_true, ok_bind, hread1, hread2, hread3, hok, Bool.not_true, Bool.and_false, Bool.false_eq_true,
    if_false, hfind, hwords, toRes]
  rfl

/-- RTE at supervisor level reads the head of the frame; format $B is a bus fault frame. -/
theorem exec_rte_long (hr : FrameReadable h) (hf : frameFormat h = 11#4) {p : Suspension}
    (hversion : versionOk h (load h 5#3 (h.sp + 0x36#32) 2) = true)
    (hp : h.suspended.find? (fun q => q.key == load h 5#3 (h.sp + 0x1C#32) 4 && q.long == true) = some p) :
    ∃ dn, exec .rte h =
      resumeFault (flush (markFlow (popped (h.withDone dn) 92#32))) p (repairOf true (frameImage h 46)) := by
  obtain ⟨d1, hsr⟩ := memRead_readable hr h.sp 2
  obtain ⟨d2, hpc⟩ := memRead_readable (frameReadable_withDone hr d1) (h.sp + 2#32) 4
  obtain ⟨d3, hformat⟩ := memRead_readable (frameReadable_withDone hr d2) (h.sp + 6#32) 2
  rw [withDone_withDone] at hpc hformat
  rw [load_withDone] at hformat
  obtain ⟨d4, hfault⟩ := rteFault_long (frameReadable_withDone hr d3) hversion hp (frameSr h)
  rw [withDone_withDone] at hfault
  have hcode : (load h 5#3 (h.sp + 6#32) 2).extractLsb' 12 4 = 11#4 := by
    rw [← hf, frameFormat, frameWord, hr.fc]
  have hdispatch : rteLoop (15 + 1) h = rteFault true h.sp (frameSr h) (h.withDone d3) := by
    have hword : frameSr h = (load h 5#3 h.sp 2).setWidth 16 := by rw [frameSr, hr.fc]
    simp only [rteLoop, hsr, hpc, hformat, hcode, hword]
    rfl
  refine ⟨d4, (exec_rte_super hr.super).trans (hdispatch.trans (hfault.trans ?_))⟩
  rfl

/-- The fields of frame $B that RTE uses for a data cycle. -/
theorem repairOf_long (hr : FrameReadable h) :
    (repairOf true (frameImage h 46)).ssw = (load h 5#3 (h.sp + 0x0A#32) 2).setWidth 16 ∧
    (repairOf true (frameImage h 46)).faultAddr = load h 5#3 (h.sp + 0x10#32) 4 ∧
    (repairOf true (frameImage h 46)).output = load h 5#3 (h.sp + 0x18#32) 4 ∧
    (repairOf true (frameImage h 46)).input = load h 5#3 (h.sp + 0x2C#32) 4 := by
  have hword : ∀ a, (load h 5#3 a 2).setWidth 16 = memWord h 5#3 a := fun a => by
    rw [load_word]
    simp
  rw [frameImage, hr.fc]
  refine ⟨?_, ?_, ?_, ?_⟩
  · rw [hword]
    rfl
  all_goals
    rw [load_long, BitVec.add_assoc]
    rfl

/-! ## The state to which RTE returns -/

/-- RTE has brought back registers, SR and control registers of `s`, in the memory and on the platform that the handler
left in `h`. -/
structure Returned (s h y : State) : Prop where
  regs : y.regs = s.regs
  sr : y.sr = s.sr
  controls : y.controls = s.controls
  run : y.run = .normal
  mem : y.mem = h.mem
  platform : y.platform = h.platform
  alone : Alone y

theorem versionOk_of_nibble {n : BitVec 4} (hn : h.platform.versionNibble = n) (x : BitVec 12) :
    versionOk h ((n ++ x : Word).setWidth 32) = true := by
  have hcode : ((n ++ x : Word).setWidth 32 : Long).extractLsb' 12 4 = n := by
    refine BitVec.eq_of_getLsbD_eq fun i hi => ?_
    simp only [BitVec.getLsbD_extractLsb', BitVec.getLsbD_setWidth, BitVec.getLsbD_append]
    interval_cases i <;> simp
  rw [versionOk, hcode, hn, beq_self_eq_true]

/-- RTE of a handled bus fault continues the suspended instruction (R660). -/
theorem exec_rte_handled (hh : Handled s h f) (hsafe : ∀ ext, cycleErrs h.platform 5#3 true ext = false) :
    ∃ y, Returned s h y ∧ exec .rte h = resumeFault y (suspensionOf s f) (repairOf true (frameImage h 46)) := by
  obtain ⟨hregs, hsr, hcontrols, hrun, hsuspended, hnibble, halone⟩ := hh.kept
  have hfields := hh.fields
  have hsp : h.sp = longFrameSp s := by rw [State.sp, hregs, hsr, activeSp_setActiveSp]
  have hr : FrameReadable h := ⟨halone, by rw [hsr]; rfl, hsafe⟩
  have hformat : frameFormat h = 11#4 := by
    rw [frameFormat, frameWord, hr.fc, hsp, hfields.format, formatWord_format]
  have hcopy : frameSr h = s.sr.toWord := by
    rw [frameSr, hr.fc, hsp, hfields.sr, BitVec.setWidth_setWidth_of_le _ (by decide), BitVec.setWidth_eq]
  have hversion : versionOk h (load h 5#3 (h.sp + 0x36#32) 2) = true := by
    rw [hsp, hfields.version]
    exact versionOk_of_nibble hnibble _
  have hfind : h.suspended.find? (fun q => q.key == load h 5#3 (h.sp + 0x1C#32) 4 && q.long == true) =
      some (suspensionOf s f) := by
    rw [hsp, hfields.key, hsuspended]
    refine List.find?_cons_of_pos ?_
    simp [suspensionOf, hh.long]
  obtain ⟨dn, hrte⟩ := exec_rte_long hr hformat hversion hfind
  refine ⟨flush (markFlow (popped (h.withDone dn) 92#32)), ⟨?_, ?_, hcontrols, hrun, rfl, rfl, halone⟩, hrte⟩
  · change setActiveSp h.regs h.sr (h.sp + 92#32) = s.regs
    rw [hsp, hregs, hsr, longFrameSp, BitVec.sub_add_cancel, setActiveSp_back]
  · change Sr.ofWord (frameSr h) = s.sr
    rw [hcopy, sr_ofWord_toWord]

/-! ## The instruction starts again (R660, log 11) -/

/-- In `u` the instruction is to start again, and then it completes: with the registers of `s`, the flags `fl` and the
memory `m`. -/
def Completes (s : State) (i : Instr) (u : State) (m : List Host.Cell) (fl : Ccr) : Prop :=
  u.run = .normal ∧ u.resume = some (.instr i) ∧
    ∃ w, exec i { u with resume := none } = .next w ∧ w.regs = s.regs ∧ w.pc = pcAfter s 1 ∧
      w.sr = { s.sr with ccr := fl } ∧ w.controls = s.controls ∧ w.mem = m

/-- The registers of the start are those of the fault, where the handler has left the flags. -/
theorem startOf_begun (hb : Begun s i) (hy : y.sr = s.sr) : startOf y (suspensionOf s f) = snapshot s := by
  obtain ⟨-, hstart, -⟩ := hb
  simp [startOf, suspensionOf, hstart, snapshot, hy]

/-- The instruction restarted to take over one record. -/
def restarted (s y : State) (f : FaultFrame) (r : BusRec) : State :=
  { restart y (suspensionOf s f) [r] false with resume := none }

/-- What the restarted instruction lands in: the registers of `y`, behind its only access. -/
theorem landed_restarted (hb : Begun s i) (hy : Returned s h y) (r : BusRec) :
    let x := tookOver (restarted s y f r) r []
    x.regs = s.regs ∧ x.sr = s.sr ∧ x.pc = s.pc ∧ x.controls = s.controls ∧ x.mem = y.mem := by
  have hstart := startOf_begun (f := f) hb hy.sr
  rw [restarted, restart, hstart]
  exact ⟨hy.regs, hy.sr, rfl, hy.controls, rfl⟩

theorem restarted_start (hb : Begun s i) (hy : Returned s h y) (r : BusRec) :
    (restarted s y f r).regs = s.regs ∧ (restarted s y f r).sr = s.sr := by
  rw [restarted, restart, startOf_begun (f := f) hb hy.sr]
  exact ⟨rfl, rfl⟩

/-- TST takes over the operand it has read. -/
theorem exec_tst_replayed {x : State} {v : Long} (hx : x.replay = [.read v]) (sz : Size) (n : Reg) :
    exec (.tst sz (.ind n)) x = .next (advance 1 ((tookOver x (.read v) []).setCcr (logicFlags x.ccr sz v))) := by
  have hread : readEa x sz 0 (.ind n) = .ok (v, tookOver x (.read v) []) := by
    change readFc x _ _ _ = _
    simp only [readFc, hx]
  rw [exec_tst, execTst, testEa, withOperand, hread]
  rfl

/-- MOVE of a data register takes over the operand it has written. -/
theorem exec_moveL_replayed {x : State} (hx : x.replay = [.write]) (d n : Reg) :
    exec (.moveL (.dn d) (.ind n)) x = .next (advance 1 ((tookOver x .write []).setCcr (logicFlags x.ccr .l (x.d d)))) := by
  have hwrite : writeFc x (dataFc x) (x.a n) 4 (x.d d) = .ok (tookOver x .write []) := by simp only [writeFc, hx]
  change toRes (writeFc x (dataFc x) (x.a n) 4 (x.d d) >>= fun s3 =>
    .ok (advance 1 (s3.setCcr (logicFlags x.ccr .l (x.d d))))) = _
  rw [hwrite]
  rfl

theorem completes_tst {sz : Size} {n : Reg} (hb : Begun s (.tst sz (.ind n))) (hy : Returned s h y) (v : Long) :
    Completes s (.tst sz (.ind n)) (restart y (suspensionOf s f) [.read v] false) y.mem (logicFlags s.ccr sz v) := by
  obtain ⟨hregs, hsr, hpc, hcontrols, hmem⟩ := landed_restarted (f := f) hb hy (.read v)
  obtain ⟨-, hstart⟩ := restarted_start (f := f) hb hy (.read v)
  have hexec := exec_tst_replayed (x := restarted s y f (.read v)) rfl sz n
  refine ⟨hy.run, congrArg (fun i => some (Resume.instr i)) hb.1, _, hexec, hregs, ?_, ?_, hcontrols, hmem⟩
  · exact congrArg (· + 2#32) hpc
  · rw [State.ccr, hstart]
    exact congrArg (fun sr : Sr => { sr with ccr := logicFlags s.ccr sz v }) hsr

theorem completes_moveL {d n : Reg} (hb : Begun s (.moveL (.dn d) (.ind n))) (hy : Returned s h y) :
    Completes s (.moveL (.dn d) (.ind n)) (restart y (suspensionOf s f) [.write] false) y.mem
      (logicFlags s.ccr .l (s.d d)) := by
  obtain ⟨hregs, hsr, hpc, hcontrols, hmem⟩ := landed_restarted (f := f) hb hy .write
  obtain ⟨hstartRegs, hstart⟩ := restarted_start (f := f) hb hy .write
  have hexec := exec_moveL_replayed (x := restarted s y f .write) rfl d n
  refine ⟨hy.run, congrArg (fun i => some (Resume.instr i)) hb.1, _, hexec, hregs, ?_, ?_, hcontrols, hmem⟩
  · exact congrArg (· + 2#32) hpc
  · rw [State.ccr, hstart, State.d, hstartRegs]
    exact congrArg (fun sr : Sr => { sr with ccr := logicFlags s.ccr .l (s.d d) }) hsr

/-! ## The cycle completed by the handler, or run again (R668, R669) -/

section
variable {p : Suspension} {r : Repair} {got v : Long}

/-- With DF clear the cycle counts as made (R668). -/
theorem resumeAccess_completed (hl : p.locked = false) (hdf : r.df = false) :
    resumeAccess y p got r =
      .next (restart y p (p.done ++ [if (repairCycle r).read then
        .read (joinBytes got r.input (repairCycle r).bytes) else .write]) false) := by
  simp only [resumeAccess, hl, hdf, Bool.false_eq_true, if_false, Bool.not_false, if_true]

/-- With DF set a read cycle is run again (R669). -/
theorem resumeAccess_reread (hl : p.locked = false) (hdf : r.df = true) (hread : (repairCycle r).read = true) {x : State}
    (hb : busRead (rerunState y p) (repairCycle r).fc (repairCycle r).addr (repairCycle r).bytes = .ok (v, x)) :
    resumeAccess y p got r = .next (restart x p (p.done ++ [.read (joinBytes got v (repairCycle r).bytes)]) false) := by
  simp only [resumeAccess, hl, hdf, Bool.false_eq_true, if_false, Bool.not_true, hread, if_true, hb]

/-- With DF set a write cycle is run again (R669). -/
theorem resumeAccess_rewrite (hl : p.locked = false) (hdf : r.df = true) (hread : (repairCycle r).read = false)
    {x : State} (hb : busWrite (rerunState y p) (repairCycle r).fc (repairCycle r).addr (repairCycle r).bytes
      (repairCycle r).data = .ok x) :
    resumeAccess y p got r = .next (restart x p (p.done ++ [.write]) false) := by
  simp only [resumeAccess, hl, hdf, Bool.false_eq_true, if_false, Bool.not_true, hread, hb]

end

/-- The frame of a data cycle whose first bus cycle has failed. -/
def cycleFrame (s : State) (fault : BusFault) : FaultFrame := dataFrame s s.pc s.rmc fault (.access fault 0#32)

/-- The suspension in such a frame. -/
def cycleSuspension (s : State) (fault : BusFault) : Suspension := suspensionOf s (cycleFrame s fault)

/-- The repair that RTE finds in the frame at the active stack pointer. -/
def repairAt (h : State) : Repair := repairOf true (frameImage h 46)

theorem exec_rte_cycle {fault : BusFault} (hh : Handled s h (cycleFrame s fault))
    (hsafe : ∀ ext, cycleErrs h.platform 5#3 true ext = false) :
    ∃ y, Returned s h y ∧ exec .rte h = resumeAccess y (cycleSuspension s fault) 0#32 (repairAt h) := by
  obtain ⟨y, hy, hrte⟩ := exec_rte_handled hh hsafe
  exact ⟨{ y with pipe := restoredPipe s.pipe (repairAt h) },
    ⟨hy.regs, hy.sr, hy.controls, hy.run, hy.mem, hy.platform, hy.alone⟩, hrte⟩

theorem returned_rerunState (hy : Returned s h y) (p : Suspension) : Returned s h (rerunState y p) :=
  ⟨hy.regs, hy.sr, hy.controls, hy.run, hy.mem, hy.platform, rfl, hy.alone.2.1, hy.alone.2.2.1, hy.alone.2.2.2⟩

theorem joinBytes_zero (v : Long) (n : Nat) : joinBytes 0#32 v n = lowBits (8 * n) v := by simp [joinBytes]

/-! ## The special status words of the two instructions (R662) -/

/-- The cycle that the frame of a failed operand access describes, whatever DF (R660, R662). -/
theorem repairCycle_eq {r : Repair} {sz : Size} {read : Bool} (df : Bool) {a data : Long}
    (hssw : r.ssw = sswWord false false false false df false read (sizeCode (bytesOf sz)) 1#3)
    (ha : r.faultAddr = a) (hdata : r.output = data) :
    r.df = df ∧ repairCycle r = { addr := a, fc := 1#3, read := read, bytes := bytesOf sz, data := data } := by
  rw [Repair.df, repairCycle, hssw, ha, hdata]
  cases sz <;> cases read <;> cases df <;> exact ⟨rfl, rfl⟩

end Sys2Proof.Proofs
end

section
/-! PROOFS. RTE of the bus fault frames of TST and MOVE (R668, R669): the handler completes the cycle, or removes its
cause. -/

namespace Sys2Proof.Proofs

open Sys2Proof Sys2Proof.Machine Sys2Proof.Laws

variable {s t h y : State} {fault : BusFault}

/-! ## What a handler may do -/

theorem repaired_refl (h5 : ∀ read ext, cycleErrs t.platform 5#3 read ext = false) (sp : Long) : Repaired t t sp :=
  ⟨rfl, h5, fun _ _ _ => rfl⟩

/-- A store into the special status word or the data input buffer. -/
theorem Repaired.store {sp : Long} (hr : Repaired t h sp) (hwf : Memory.wf h.mem = true) (b m : Nat) (v : Long)
    (hb : (b = 0x0A ∧ m = 2) ∨ (b = 0x2C ∧ m = 4)) : Repaired t (store h 5#3 m (sp + BitVec.ofNat 32 b) v) sp where
  state := by
    rw [store_eq]
    exact congrArg (fun x : State => { x with mem := (Machine.store h 5#3 m (sp + BitVec.ofNat 32 b) v).mem }) hr.state
  safe := by
    rw [store_platform]
    exact hr.safe
  frame := fun {k n} hssw hinput hle => by
    rw [← hr.frame hssw hinput hle]
    exact load_store_apart hwf 5#3 sp v (by omega) (by omega) (by omega)

/-- The handler removes every cause of a bus error. -/
def mended (t : State) : State := { t with platform := { t.platform with faults := [] } }

theorem load_mended (t : State) (fc : Fc) (a : Long) (n : Nat) : load (mended t) fc a n = load t fc a n :=
  load_of_bytes (s := t) (t := mended t) (fun _ => rfl) a n

theorem store_mended (t : State) (fc : Fc) (n : Nat) (a v : Long) :
    store (mended t) fc n a v = mended (store t fc n a v) := by
  induction n generalizing t a with
  | zero => rfl
  | succ n ih => exact ih (setByteAt t fc a (byteOf v n)) (a + 1#32)

theorem repaired_mended (t : State) (sp : Long) : Repaired t (mended t) sp :=
  ⟨rfl, fun _ _ => rfl, fun _ _ _ => load_mended t 5#3 _ _⟩

theorem quiet_mended (hy : Returned s (mended t) y) : Quiet y :=
  ⟨hy.alone, fun _ _ _ => by rw [hy.platform]; rfl⟩

/-! ## The handler's state -/

/-- The handler's first word leaves memory and platform as with the frame just stacked. -/
theorem HandlerStarted.memory {f : FaultFrame} (ht : HandlerStarted s t f) :
    t.mem = (faultStacked s f).mem ∧ t.platform = (faultStacked s f).platform := by
  obtain ⟨c, x, rfl⟩ := ht
  exact ⟨rfl, rfl⟩

theorem wf_faultStacked (hwf : Memory.wf s.mem = true) {f : FaultFrame} (hf : f.long = true) :
    Memory.wf (faultStacked s f).mem = true := by
  rw [faultStacked_long hf]
  exact fieldsPut_wf (s := (suspend s f).setSp (longFrameSp s)) hwf _ _ _

/-- In `t` the handler of the bus fault that stopped an instruction at its start runs; the failed bus cycle was the first
of an operand access in user data space. -/
structure CycleFaulted (s t : State) (fault : BusFault) (sz : Size) : Prop where
  alone : Alone s
  wf : Memory.wf s.mem = true
  unlocked : s.rmc = false
  done : s.done = []
  safe : ∀ read ext, cycleErrs s.platform 5#3 read ext = false
  space : fault.fc = 1#3
  size : fault.bytes = bytesOf sz
  started : HandlerStarted s t (cycleFrame s fault)

section
variable {sz : Size} (hc : CycleFaulted s t fault sz)
include hc

theorem CycleFaulted.taken : LongFaultTaken s t (cycleFrame s fault) := longFaultTaken_of_started hc.wf rfl hc.started

theorem CycleFaulted.sp : t.sp = longFrameSp s := by
  rw [State.sp, hc.taken.regs, hc.taken.sr, activeSp_setActiveSp]

theorem CycleFaulted.memory : Memory.wf t.mem = true ∧ t.platform = s.platform := by
  obtain ⟨hmem, hplatform⟩ := hc.started.memory
  rw [hmem, hplatform, faultStacked_platform]
  exact ⟨wf_faultStacked hc.wf rfl, rfl⟩

theorem CycleFaulted.handled (hr : Repaired t h (longFrameSp s)) : Handled s h (cycleFrame s fault) :=
  ⟨hc.alone, hc.wf, rfl, t, hc.started, hr⟩

theorem CycleFaulted.repaired : Repaired t t (longFrameSp s) :=
  repaired_refl (by rw [hc.memory.2]; exact hc.safe) _

/-- The special status word as the processor has stacked it. -/
theorem CycleFaulted.ssw : load t 5#3 (longFrameSp s + 0x0A#32) 2 =
    (sswWord false false false false true false fault.read (sizeCode (bytesOf sz)) 1#3).setWidth 32 := by
  have hframe : (cycleFrame s fault).ssw =
      sswWord false false false false true s.rmc fault.read (sizeCode fault.bytes) fault.fc := rfl
  rw [hc.taken.ssw, hframe, hc.space, hc.size, hc.unlocked]

/-- RTE in a repaired state, with DF as the handler has left it. -/
theorem CycleFaulted.rte (hr : Repaired t h (longFrameSp s)) (df : Bool)
    (hssw : (load h 5#3 (longFrameSp s + 0x0A#32) 2).setWidth 16 =
      sswWord false false false false df false fault.read (sizeCode (bytesOf sz)) 1#3) :
    ∃ y, Returned s h y ∧ exec .rte h = resumeAccess y (cycleSuspension s fault) 0#32 (repairAt h) ∧
      (repairAt h).df = df ∧ (repairAt h).input = load h 5#3 (longFrameSp s + 0x2C#32) 4 ∧
      repairCycle (repairAt h) =
        { addr := fault.addr, fc := 1#3, read := fault.read, bytes := bytesOf sz, data := (cycleFrame s fault).dataOut } := by
  have hh := hc.handled hr
  obtain ⟨y, hy, hrte⟩ := exec_rte_cycle hh (hr.safe true)
  obtain ⟨hregs, hsr, -, -, -, -, halone⟩ := hh.kept
  have hsp : h.sp = longFrameSp s := by rw [State.sp, hregs, hsr, activeSp_setActiveSp]
  obtain ⟨hword, haddr, houtput, hinput⟩ := repairOf_long (h := h) ⟨halone, by rw [hsr]; rfl, hr.safe true⟩
  rw [hsp] at hword haddr houtput hinput
  obtain ⟨hdf, hcycle⟩ := repairCycle_eq df (hword.trans hssw) (haddr.trans hh.fields.faultAddr)
    (houtput.trans hh.fields.output)
  exact ⟨y, hy, hrte, hdf, hinput, hcycle⟩

end

/-- The special status word with DF cleared (R668). -/
theorem ssw_cleared (read : Bool) (sz : Size) :
    (lowBits (8 * 2) ((sswWord false false false false true false read (sizeCode (bytesOf sz)) 1#3).setWidth 32 &&&
      0xFEFF#32)).setWidth 16 = sswWord false false false false false false read (sizeCode (bytesOf sz)) 1#3 := by
  cases read <;> cases sz <;> decide

/-! ## The frame with DF cleared -/

/-- The handler has cleared DF in the special status word. -/
def dfCleared (t : State) (sp : Long) : State :=
  store t 5#3 2 (sp + 0x0A#32) (load t 5#3 (sp + 0x0A#32) 2 &&& 0xFEFF#32)

/-- The handler has put `v` into the data input buffer too. -/
def inputGiven (t : State) (sp v : Long) : State := store (dfCleared t sp) 5#3 4 (sp + 0x2C#32) v

section
variable {sz : Size} (hc : CycleFaulted s t fault sz)
include hc

theorem CycleFaulted.cleared :
    Repaired t (dfCleared t (longFrameSp s)) (longFrameSp s) ∧ Memory.wf (dfCleared t (longFrameSp s)).mem = true ∧
      (load (dfCleared t (longFrameSp s)) 5#3 (longFrameSp s + 0x0A#32) 2).setWidth 16 =
        sswWord false false false false false false fault.read (sizeCode (bytesOf sz)) 1#3 := by
  refine ⟨hc.repaired.store hc.memory.1 0x0A 2 _ (.inl ⟨rfl, rfl⟩), store_wf _ _ _ _ _ hc.memory.1, ?_⟩
  rw [dfCleared, load_store_same hc.memory.1 _ _ _ (by decide), hc.ssw, ssw_cleared]

theorem CycleFaulted.answered (v : Long) :
    Repaired t (inputGiven t (longFrameSp s) v) (longFrameSp s) ∧
      (load (inputGiven t (longFrameSp s) v) 5#3 (longFrameSp s + 0x0A#32) 2).setWidth 16 =
        sswWord false false false false false false fault.read (sizeCode (bytesOf sz)) 1#3 ∧
      load (inputGiven t (longFrameSp s) v) 5#3 (longFrameSp s + 0x2C#32) 4 = v := by
  obtain ⟨hr, hwf, hssw⟩ := hc.cleared
  refine ⟨hr.store hwf 0x2C 4 v (.inr ⟨rfl, rfl⟩), ?_, ?_⟩
  · rw [← hssw]
    exact congrArg _ (load_store_apart hwf 5#3 (longFrameSp s) v (by decide) (by decide) (by decide))
  · exact (load_store_same hwf 5#3 _ v (by decide)).trans (lowBits_bytesOf .l v)

/-- In the frame as stacked DF is set. -/
theorem CycleFaulted.mendedSsw :
    (load (mended t) 5#3 (longFrameSp s + 0x0A#32) 2).setWidth 16 =
      sswWord false false false false true false fault.read (sizeCode (bytesOf sz)) 1#3 := by
  rw [load_mended, hc.ssw, BitVec.setWidth_setWidth_of_le _ (by decide), BitVec.setWidth_eq]

end

/-! ## The two instructions (R668, R669) -/

/-- The bus error of the first write cycle of a long word. -/
def writeFault (fc : Fc) (a v : Long) : BusFault := { addr := a, fc := fc, read := false, bytes := 4, data := v }

/-- MOVE of a data register to an operand in memory whose first write cycle fails. -/
theorem exec_moveL_fault (h : Alone s) (hs : s.sr.s = false) {n : Reg}
    (he : cycleErrs s.platform 1#3 false (extAddr s.platform.variant (s.a n)) = true) (d : Reg) :
    exec (.moveL (.dn d) (.ind n)) s = .next (dataFault s (writeFault 1#3 (s.a n) (s.d d)) 0#32) := by
  have hfc : dataFc s = 1#3 := by
    rw [dataFc, hs]
    rfl
  have hbus : busWrite s 1#3 (s.a n) 4 (s.d d) = .error (.fault (writeFault 1#3 (s.a n) (s.d d)) 0#32 s) := by
    have hfirst := busWrite_first h (by decide) he 3 (s.d d)
    have hdata : lowBits (8 * (3 + 1)) (s.d d) = s.d d := lowBits_bytesOf .l _
    rwa [hdata] at hfirst
  have hwrite : writeFc s (dataFc s) (s.a n) 4 (s.d d) =
      .error (.next (dataFault s (writeFault 1#3 (s.a n) (s.d d)) 0#32)) := by
    simp only [writeFc, h.1, land_none h.2.1, hfc, hbus]
    rfl
  change toRes (writeFc s (dataFc s) (s.a n) 4 (s.d d) >>= fun s3 =>
    .ok (advance 1 (s3.setCcr (logicFlags s.ccr .l (s.d d))))) = _
  rw [hwrite]
  rfl

/-- From `h` RTE leads to a state in which the instruction completes. -/
def ReturnCompletes (s : State) (i : Instr) (h : State) (m : List Host.Cell) (fl : Ccr) : Prop :=
  ∃ u, exec .rte h = .next u ∧ Completes s i u m fl

section
variable {sz : Size} {n : Reg} (hc : CycleFaulted s t (readFault 1#3 (s.a n) sz) sz) (hb : Begun s (.tst sz (.ind n)))
include hc hb

/-- TST with the operand given by the handler. -/
theorem tst_answered (v : Long) :
    ReturnCompletes s (.tst sz (.ind n)) (inputGiven t (longFrameSp s) v) (inputGiven t (longFrameSp s) v).mem
      (logicFlags s.ccr sz (lowBits (8 * bytesOf sz) v)) := by
  obtain ⟨hr, hssw, hinput⟩ := hc.answered v
  obtain ⟨y, hy, hrte, hdf, hin, hcycle⟩ := hc.rte hr false hssw
  have hresume := resumeAccess_completed (y := y) (p := cycleSuspension s (readFault 1#3 (s.a n) sz)) (got := 0#32)
    hc.unlocked hdf
  have hdone : (cycleSuspension s (readFault 1#3 (s.a n) sz)).done = [] := hc.done
  rw [hdone, List.nil_append, hcycle, hin, hinput, joinBytes_zero] at hresume
  have hcompletes := completes_tst (f := cycleFrame s (readFault 1#3 (s.a n) sz)) hb hy (lowBits (8 * bytesOf sz) v)
  rw [hy.mem] at hcompletes
  exact ⟨_, hrte.trans hresume, hcompletes⟩

/-- TST with its operand read again. -/
theorem tst_reread :
    ReturnCompletes s (.tst sz (.ind n)) (mended t) t.mem (logicFlags s.ccr sz (load t 1#3 (s.a n) (bytesOf sz))) := by
  obtain ⟨y, hy, hrte, hdf, -, hcycle⟩ := hc.rte (repaired_mended t _) true hc.mendedSsw
  have hrerun := returned_rerunState hy (cycleSuspension s (readFault 1#3 (s.a n) sz))
  have hbus := busRead_quiet (quiet_mended hrerun) (fc := 1#3) (by decide) (s.a n) (bytesOf sz)
  rw [load_congr hrerun.mem hrerun.platform, load_mended] at hbus
  have hresume := resumeAccess_reread (y := y) (p := cycleSuspension s (readFault 1#3 (s.a n) sz)) (got := 0#32)
    hc.unlocked hdf (by rw [hcycle]; rfl) (by rw [hcycle]; exact hbus)
  have hdone : (cycleSuspension s (readFault 1#3 (s.a n) sz)).done = [] := hc.done
  have hvalue : lowBits (8 * bytesOf sz) (load t 1#3 (s.a n) (bytesOf sz)) = load t 1#3 (s.a n) (bytesOf sz) :=
    (lowBits_bytesOf sz _).trans (trunc_of_fits (fits_load t 1#3 (s.a n) sz))
  rw [hdone, List.nil_append, hcycle, joinBytes_zero, hvalue] at hresume
  have hcompletes := completes_tst (f := cycleFrame s (readFault 1#3 (s.a n) sz)) hb hrerun
    (load t 1#3 (s.a n) (bytesOf sz))
  rw [hrerun.mem] at hcompletes
  exact ⟨_, hrte.trans hresume, hcompletes⟩

end

section
variable {d n : Reg} (hc : CycleFaulted s t (writeFault 1#3 (s.a n) (s.d d)) .l)
  (hb : Begun s (.moveL (.dn d) (.ind n)))
include hc hb

/-- MOVE with the write left to the handler. -/
theorem moveL_cleared :
    ReturnCompletes s (.moveL (.dn d) (.ind n)) (dfCleared t (longFrameSp s)) (dfCleared t (longFrameSp s)).mem
      (logicFlags s.ccr .l (s.d d)) := by
  obtain ⟨hr, -, hssw⟩ := hc.cleared
  obtain ⟨y, hy, hrte, hdf, -, hcycle⟩ := hc.rte hr false hssw
  have hresume := resumeAccess_completed (y := y) (p := cycleSuspension s (writeFault 1#3 (s.a n) (s.d d)))
    (got := 0#32) hc.unlocked hdf
  have hdone : (cycleSuspension s (writeFault 1#3 (s.a n) (s.d d))).done = [] := hc.done
  rw [hdone, List.nil_append, hcycle] at hresume
  have hcompletes := completes_moveL (f := cycleFrame s (writeFault 1#3 (s.a n) (s.d d))) hb hy
  rw [hy.mem] at hcompletes
  exact ⟨_, hrte.trans hresume, hcompletes⟩

/-- MOVE with its write run again. -/
theorem moveL_rewrite :
    ReturnCompletes s (.moveL (.dn d) (.ind n)) (mended t) (store t 1#3 4 (s.a n) (s.d d)).mem
      (logicFlags s.ccr .l (s.d d)) := by
  obtain ⟨y, hy, hrte, hdf, -, hcycle⟩ := hc.rte (repaired_mended t _) true hc.mendedSsw
  have hrerun := returned_rerunState hy (cycleSuspension s (writeFault 1#3 (s.a n) (s.d d)))
  have hdata : (cycleFrame s (writeFault 1#3 (s.a n) (s.d d))).dataOut = s.d d := by
    have hshift : s.freeAt 19 <<< (8 * 4) = 0#32 := BitVec.shiftLeft_eq_zero (by decide)
    change s.freeAt 19 <<< (8 * 4) ||| s.d d = s.d d
    rw [hshift, BitVec.zero_or]
  rw [hdata] at hcycle
  obtain ⟨x, hx⟩ : ∃ x, x = store (rerunState y (cycleSuspension s (writeFault 1#3 (s.a n) (s.d d)))) 1#3 4 (s.a n)
      (s.d d) := ⟨_, rfl⟩
  have hbus := busWrite_quiet (quiet_mended hrerun) (fc := 1#3) (by decide) (s.a n) 4 (s.d d)
  rw [← hx] at hbus
  have hmem : x.mem = (store t 1#3 4 (s.a n) (s.d d)).mem := by
    rw [hx, store_mem_congr hrerun.mem hrerun.platform, store_mended]
    rfl
  have hreturned : Returned s x x := by
    rw [hx, store_eq]
    exact ⟨hrerun.regs, hrerun.sr, hrerun.controls, hrerun.run, rfl, rfl, hrerun.alone⟩
  have hresume := resumeAccess_rewrite (y := y) (p := cycleSuspension s (writeFault 1#3 (s.a n) (s.d d))) (got := 0#32)
    hc.unlocked hdf (by rw [hcycle]; rfl) (by rw [hcycle]; exact hbus)
  have hdone : (cycleSuspension s (writeFault 1#3 (s.a n) (s.d d))).done = [] := hc.done
  rw [hdone, List.nil_append] at hresume
  have hcompletes := completes_moveL (f := cycleFrame s (writeFault 1#3 (s.a n) (s.d d))) hb hreturned
  rw [hmem] at hcompletes
  exact ⟨_, hrte.trans hresume, hcompletes⟩

end

/-- Settles O20: the handler starts, the repaired frame is read back, and the instruction takes over its one access. -/
theorem busFaultReturn : Obligations.BusFaultReturn := by
  unfold Obligations.BusFaultReturn
  intro s t i sz d n v hwf h hs hrmc hb h5 he hexec hrun sp cleared answered mendedState ends
  have hends : ∀ {x m fl}, ReturnCompletes s i x m fl → ends x m fl := by
    rintro x m fl ⟨u, hrte, hnormal, hresume, w, hcompletes⟩
    exact ⟨u, w, hrte, hnormal, hresume, hcompletes⟩
  have hfaulted : ∀ {fault sz}, exec i s = .next (dataFault s fault 0#32) → fault.fc = 1#3 →
      fault.bytes = bytesOf sz → CycleFaulted s t fault sz := by
    intro fault sz hfault hspace hsize
    obtain rfl : t = takeFault s (cycleFrame s fault) := Host.Outcome.next.inj (hexec.symm.trans hfault)
    exact ⟨h, hwf, hrmc, hb.2.2, h5, hspace, hsize, handlerStarted_of_run h h5 _ hrun⟩
  constructor
  · rintro rfl
    have hc := hfaulted (exec_tst_fault h hs (he true) sz) rfl rfl
    have hsp : sp = longFrameSp s := hc.sp
    have hanswered : answered = inputGiven t (longFrameSp s) v := by rw [← hsp]; rfl
    exact ⟨hends (hanswered ▸ tst_answered hc hb v), hends (tst_reread hc hb)⟩
  · rintro rfl
    have hc := hfaulted (sz := .l) (exec_moveL_fault h hs (he false) d) rfl rfl
    have hsp : sp = longFrameSp s := hc.sp
    have hcleared : cleared = dfCleared t (longFrameSp s) := by rw [← hsp]; rfl
    exact ⟨hends (hcleared ▸ moveL_cleared hc hb), hends (moveL_rewrite hc hb)⟩

end Sys2Proof.Proofs
end

section
/-! PROOFS. Dialogues with a coprocessor, access by access (R461, R522). -/

namespace Sys2Proof.Proofs

open Sys2Proof Sys2Proof.Machine Sys2Proof.Laws

variable {s t u : State} {w : Word} {cs cs' : List Coprocessor} {es es' : List CirEvent}

/-! ## States in a dialogue -/

/-- The state within a dialogue: what the coprocessors have left, and the log so far. -/
def talking (s : State) (cs : List Coprocessor) (dn : List BusRec) : State := (s.setCoprocessors cs).withDone dn

theorem talking_withDone (s : State) (cs : List Coprocessor) (dn dn' : List BusRec) :
    (talking s cs dn).withDone dn' = talking s cs dn' := rfl

theorem quiet_talking (h : Quiet s) (cs : List Coprocessor) (dn : List BusRec) : Quiet (talking s cs dn) :=
  quiet_withDone (quiet_setCoprocessors h cs) dn

/-- The coprocessors hold no memory. -/
theorem load_talking (s : State) (cs : List Coprocessor) (dn : List BusRec) (fc : Fc) (a : Long) (n : Nat) :
    load (talking s cs dn) fc a n = load s fc a n :=
  load_of_bytes (s := s) (t := talking s cs dn) (fun _ => rfl) a n

theorem store_talking (fc : Fc) (n : Nat) (a v : Long) (s : State) (cs : List Coprocessor) (dn : List BusRec) :
    store (talking s cs dn) fc n a v = talking (store s fc n a v) cs dn := by
  induction n generalizing s a with
  | zero => rfl
  | succ n ih => exact ih _ (setByteAt s fc a (byteOf v n))

theorem dataFc_talking (s : State) (cs : List Coprocessor) (dn : List BusRec) :
    dataFc (talking s cs dn) = dataFc s := rfl

theorem setA_talking (s : State) (cs : List Coprocessor) (dn : List BusRec) (n : Reg) (v : Long) :
    (talking s cs dn).setA n v = talking (s.setA n v) cs dn := by
  unfold State.setA
  split <;> rfl

theorem setRn_talking (s : State) (cs : List Coprocessor) (dn : List BusRec) (rn : Rn) (v : Long) :
    (talking s cs dn).setRn rn v = talking (s.setRn rn v) cs dn := by
  unfold State.setRn
  split
  · exact setA_talking ..
  · rfl

/-! ## What an operand of some bytes holds -/

/-- Above its bytes an operand is zero. -/
theorem load_getLsbD_of_ge (s : State) (fc : Fc) (n : Nat) (a : Long) {i : Nat} (hi : 8 * n ≤ i) :
    (load s fc a n).getLsbD i = false := by
  induction n generalizing a with
  | zero => exact BitVec.getLsbD_zero
  | succ n ih =>
    have hbyte : (byteAt s fc a).getLsbD (i - 8 * n) = false := BitVec.getLsbD_of_ge _ _ (by omega)
    rw [load, loadAcc, loadAcc_eq, BitVec.getLsbD_or, ih _ (by omega), BitVec.getLsbD_shiftLeft]
    simp [hbyte]

theorem lowBits_load (s : State) (fc : Fc) (a : Long) (n : Nat) : lowBits (8 * n) (load s fc a n) = load s fc a n := by
  refine BitVec.eq_of_getLsbD_eq fun i _ => ?_
  rw [getLsbD_lowBits]
  by_cases hi : i < 8 * n
  · rw [decide_eq_true hi, Bool.true_and]
  · rw [decide_eq_false hi, Bool.false_and, load_getLsbD_of_ge s fc n a (Nat.le_of_not_lt hi)]

/-- Storing an operand stores its bytes. -/
theorem store_lowBits (s : State) (fc : Fc) (n : Nat) (a v : Long) :
    store s fc n a (lowBits (8 * n) v) = store s fc n a v :=
  store_bytes fc n s a _ v fun i hi => by simpa using byteOf_part v n 0 i hi

theorem lowBits_long (v : Long) : lowBits (8 * 4) v = v := lowBits_bytesOf .l v

theorem lowBits_idem (n : Nat) (v : Long) : lowBits n (lowBits n v) = lowBits n v := by
  rw [lowBits, lowBits, BitVec.and_assoc, BitVec.and_self]

/-! ## The coprocessor's share in a dialogue -/

/-- The coprocessor answers the read that comes first in a dialogue. -/
theorem popAnswer_of_converse_cons {id : BitVec 3} {v : Long} (h : converse id (.read v :: es) cs = some cs') :
    ∃ cs₁, popAnswer id cs = some (some (.data v, cs₁)) ∧ converse id es cs₁ = some cs' := by
  rw [converse] at h
  split at h
  case h_1 v' cs₁ hpop =>
    split at h
    case isTrue hv => exact ⟨cs₁, hv ▸ hpop, h⟩
    case isFalse => exact nomatch h
  case h_2 => exact nomatch h

/-- The end of a dialogue leaves the coprocessors. -/
theorem eq_of_converse_nil {id : BitVec 3} (h : converse id [] cs = some cs') : cs = cs' := Option.some.inj h

/-- The address of an interface register: CPU space type 2, the coprocessor, the offset. -/
theorem cirAddr_eq (w : Word) (o : BitVec 5) :
    cirAddr w (o.setWidth 32) = (0x0002#16 ++ cpId w ++ 0#8 ++ o : BitVec 32) := by
  refine BitVec.eq_of_getLsbD_eq fun i hi => ?_
  rw [cirAddr]
  simp only [BitVec.getLsbD_or, BitVec.getLsbD_append, BitVec.getLsbD_shiftLeft, BitVec.getLsbD_setWidth]
  interval_cases i <;> simp

theorem cirAddr_place (w : Word) (o : BitVec 5) :
    cpuType (cirAddr w (o.setWidth 32)) = 2 ∧ (cirAddr w (o.setWidth 32)).extractLsb' 13 3 = cpId w ∧
      (cirAddr w (o.setWidth 32)).extractLsb' 0 5 = o ∧ (cirAddr w (o.setWidth 32)).toNat % 4 = o.toNat % 4 := by
  rw [cirAddr_eq]
  generalize cpId w = id
  revert id o
  decide

/-- An access of `n` bytes at the offset `o` lies in one long word of the interface: it is one cycle (R461). -/
def CirFits (offset : Long) (o : BitVec 5) (n : Nat) : Prop := offset = o.setWidth 32 ∧ n ≠ 0 ∧ o.toNat % 4 + n ≤ 4

/-- An operand that one cycle moves fits the operand register. -/
theorem cirFits_operand {n : Nat} (hn : 1 ≤ n) (hn' : n ≤ 4) : CirFits 0x10#32 0x10#5 n :=
  ⟨rfl, Nat.pos_iff_ne_zero.1 hn, by rw [show (0x10#5).toNat % 4 = 0 from rfl]; omega⟩

section

variable (h : Quiet s) (hw : Wide s) (dn : List BusRec) {offset v : Long} {o : BitVec 5} {n : Nat}

include h hw

theorem cirWrite_talking (ho : CirFits offset o n) {d : Long} (hd : lowBits (8 * n) v = d)
    (hc : converse (cpId w) (.write o n d :: es) cs = some cs') :
    ∃ cs₁ dn', cirWrite (talking s cs dn) w offset n v = .ok (talking s cs₁ dn') ∧
      converse (cpId w) es cs₁ = some cs' := by
  obtain ⟨cs₁, hlog, hrest⟩ := logWrite_of_converse hc
  obtain ⟨rfl, hn, hfits⟩ := ho
  obtain ⟨htype, hid, hoffset, hplace⟩ := cirAddr_place w o
  rw [← hplace] at hfits
  exact ⟨cs₁, _, writeFc_cir (quiet_talking h cs dn) hw hn hfits htype (by rw [hid, hoffset, hd]; exact hlog), hrest⟩

theorem cirRead_talking (ho : CirFits offset o n) (hc : converse (cpId w) (.read v :: es) cs = some cs') :
    ∃ cs₁ dn', cirRead (talking s cs dn) w offset n = .ok (lowBits (8 * n) v, talking s cs₁ dn') ∧
      converse (cpId w) es cs₁ = some cs' := by
  obtain ⟨cs₁, hpop, hrest⟩ := popAnswer_of_converse_cons hc
  obtain ⟨rfl, hn, hfits⟩ := ho
  obtain ⟨htype, hid, -, hplace⟩ := cirAddr_place w o
  rw [← hid] at hpop
  rw [← hplace] at hfits
  exact ⟨cs₁, _, readFc_cir (quiet_talking h cs dn) hw hn hfits htype hpop, hrest⟩

end

section

variable (h : Quiet s) (cs : List Coprocessor) (dn : List BusRec) (a : Long) (n : Nat)

include h

theorem memRead_talking :
    ∃ dn', memRead (talking s cs dn) a n = .ok (load s (dataFc s) a n, talking s cs dn') := by
  have hread := memRead_quiet (quiet_talking h cs dn) a n
  rw [dataFc_talking, load_talking, talking_withDone] at hread
  exact ⟨_, hread⟩

theorem memWrite_talking (v : Long) :
    ∃ dn', memWrite (talking s cs dn) a n v = .ok (talking (store s (dataFc s) n a v) cs dn') := by
  have hwrite := memWrite_quiet (quiet_talking h cs dn) a n v
  rw [dataFc_talking, store_talking, talking_withDone] at hwrite
  exact ⟨_, hwrite⟩

end

/-! ## Services by the accesses they make -/

/-- The service `r` begun in `s` holds the dialogue `es` and leads to `t`, whatever the log. -/
def Serves (w : Word) (es : List CirEvent) (s : State) (r : State → Run State) (t : State) : Prop :=
  ∀ cs cs' dn, converse (cpId w) es cs = some cs' → ∃ dn', r (talking s cs dn) = .ok (talking t cs' dn')

/-! ## The service loop (R522) -/

/-- The scanPC behind the command word. -/
def scanning (s : State) : State := { s with scanPc := s.pc + 4#32 }

theorem talking_scanning (s : State) (cs : List Coprocessor) (dn : List BusRec) :
    talking (scanning s) cs dn = (answered s cs 4).withDone dn := rfl

/-- The instruction writes its command or condition and comes to the dialogue. -/
theorem cpStart_dialogue (h : Quiet s) (hw : Wide s) {x : Word} {offset : Long} {o : BitVec 5} (ho : CirFits offset o 2)
    (hc : converse (cpId w) (.write o 2 (x.setWidth 32) :: es) s.platform.coprocessors = some cs) :
    ∃ cs₁ dn, cpStart w offset x 4 s = cpDialogue w (talking (scanning s) cs₁ dn) ∧
      converse (cpId w) es cs₁ = some cs := by
  obtain ⟨cs₁, dn, hwrite, hrest⟩ := cirWrite_talking (w := w) h hw s.done ho (lowBits_word x) hc
  have hself : talking s s.platform.coprocessors s.done = s := rfl
  rw [hself] at hwrite
  exact ⟨cs₁, dn, by rw [cpStart, cirFirstWrite_of_cirWrite hwrite]; rfl, hrest⟩

/-- What follows a response that has been served. -/
def goesOn (general : Bool) (w : Word) (k : Nat) : Served → Run (Bool × State)
  | .again s => serveLoop general w k s
  | .release tf s => .ok (tf, s)

/-- The loop reads a response without PC set, and serves it. -/
theorem serveLoop_response (h : Quiet s) (hw : Wide s) (dn : List BusRec) {p : Word} (hp : (primitiveOf p).pc = false)
    (hc : converse (cpId w) (.read (p.setWidth 32) :: es) cs = some cs') (general : Bool) (k : Nat) :
    ∃ cs₁ dn', converse (cpId w) es cs₁ = some cs' ∧
      serveLoop general w (k + 1) (talking s cs dn) =
        servePrimitive general w (primitiveOf p) (talking s cs₁ dn') >>= goesOn general w k := by
  obtain ⟨cs₁, dn', hread, hrest⟩ := cirRead_talking (w := w) h hw dn (offset := 0#32) (o := 0#5) (n := 2)
    ⟨rfl, by decide, by decide⟩ hc
  have hword : (lowBits (8 * 2) (p.setWidth 32)).setWidth 16 = p := by
    rw [setWidth_lowBits_word, BitVec.setWidth_setWidth_of_le p (by decide), BitVec.setWidth_eq]
  refine ⟨cs₁, dn', hrest, ?_⟩
  rw [serveLoop, hread]
  simp only [ok_bind, hword, hp, Bool.false_eq_true, if_false]
  exact bind_congr fun r => by cases r <;> rfl

end Sys2Proof.Proofs
end

section
/-! PROOFS. Responses that move no operand (R521, R522, R530-R532, R544-R546, R550, R555). -/

namespace Sys2Proof.Proofs

open Sys2Proof Sys2Proof.Machine Sys2Proof.Laws

variable {s t u : State} {w : Word} {cs cs' : List Coprocessor} {es : List CirEvent}

/-! ## Response primitives (R520) -/

theorem primitiveOf_append (c param : Byte) :
    primitiveOf (c ++ param) = ⟨c.getLsbD 7, c.getLsbD 6, (c.extractLsb' 0 6).toNat, param⟩ := by
  have hcode : (c ++ param).extractLsb' 8 6 = c.extractLsb' 0 6 := BitVec.extractLsb'_append_eq_of_le (by decide)
  have hca : (c ++ param).getLsbD 15 = c.getLsbD 7 := by rw [BitVec.getLsbD_append]; rfl
  have hpc : (c ++ param).getLsbD 14 = c.getLsbD 6 := by rw [BitVec.getLsbD_append]; rfl
  rw [primitiveOf, hca, hpc, hcode, extractLsb'_append_low]

/-- Responses without CA and PC. -/
theorem primitiveOf_code (code : BitVec 6) (param : Byte) :
    primitiveOf (0#2 ++ code ++ param) = ⟨false, false, code.toNat, param⟩ := by
  have hfields : (0#2 ++ code).getLsbD 7 = false ∧ (0#2 ++ code).getLsbD 6 = false ∧ (0#2 ++ code).extractLsb' 0 6 = code := by
    revert code
    decide
  obtain ⟨hca, hpc, hcode⟩ := hfields
  exact (primitiveOf_append (0#2 ++ code) param).trans (by rw [hca, hpc, hcode])

/-! ## The course of a dialogue (R522) -/

/-- A coprocessor that answers has an answer left. -/
theorem answers_of_popAnswer {id : BitVec 3} {r : CirAnswer × List Coprocessor} (h : popAnswer id cs = some (some r)) :
    0 < (cs.map fun c => c.answers.length).sum := by
  induction cs generalizing r with
  | nil => exact nomatch h
  | cons c cs ih =>
    rw [List.map_cons, List.sum_cons]
    rw [popAnswer] at h
    split at h
    case isTrue =>
      split at h
      case h_1 => exact nomatch h
      case h_2 hv => rw [hv, List.length_cons]; omega
    case isFalse =>
      split at h
      case h_1 | h_2 => exact nomatch h
      case h_3 hpop =>
        have := ih hpop
        omega

/-- What the service of a response makes of the instruction, with at most `k` more responses. -/
def concludes (w : Word) (k : Nat) (r : Run Served) : Res :=
  toRes (r >>= goesOn (cpKind w == .gen) w k >>= fun r => cpComplete w r.1 r.2)

/-- A service that ends the instruction. -/
theorem concludes_error (w : Word) (k : Nat) (r : Res) : concludes w k (.error r) = r := rfl

/-- A general instruction that is released goes on at the scanPC. -/
theorem concludes_release (hk : cpKind w = .gen) {k : Nat} {r : Run Served} {tf : Bool}
    (hend : r >>= goesOn true w k = .ok (tf, u)) : concludes w k r = .next { u with pc := u.scanPc } := by
  rw [concludes, hk, beq_self_eq_true, hend, ok_bind, cpComplete_gen hk, endAtScan_zero]
  rfl

/-- A dialogue serves its first response, with time for another. -/
theorem cpDialogue_response (h : Quiet s) (hw : Wide s) (dn : List BusRec) {p : Word} (hp : (primitiveOf p).pc = false)
    (hc : converse (cpId w) (.read (p.setWidth 32) :: es) cs = some cs') :
    ∃ cs₁ dn' k, converse (cpId w) es cs₁ = some cs' ∧ cpDialogue w (talking s cs dn) =
      concludes w (k + 1) (servePrimitive (cpKind w == .gen) w (primitiveOf p) (talking s cs₁ dn')) := by
  obtain ⟨cs₁, hpop, -⟩ := popAnswer_of_converse_cons hc
  have hleft : 0 < answersLeft (talking s cs dn).platform := Nat.add_pos_left (answers_of_popAnswer hpop) _
  obtain ⟨k, hfuel⟩ : ∃ k, dialogueFuel (talking s cs dn) = k + 1 + 1 := 
    ⟨(talking s cs dn).replay.length + (answersLeft (talking s cs dn).platform - 1), by rw [dialogueFuel]; omega⟩
  obtain ⟨cs₁, dn', hrest, hloop⟩ := serveLoop_response h hw dn hp hc (cpKind w == .gen) (k + 1)
  refine ⟨cs₁, dn', k, hrest, ?_⟩
  rw [cpDialogue, hfuel, hloop]
  rfl

section

variable (h : Quiet s) (hw : Wide s) {x : Word} {offset : Long} {o : BitVec 5} (ho : CirFits offset o 2) {p : Word}
  (hp : (primitiveOf p).pc = false)

include h hw ho hp

/-- An instruction that the service of its first response ends. -/
theorem cpStart_ends {f : State → State}
    (hc : converse (cpId w) (.write o 2 (x.setWidth 32) :: .read (p.setWidth 32) :: es) s.platform.coprocessors = some cs)
    (hserve : ∀ cs₁ dn, converse (cpId w) es cs₁ = some cs → ∃ dn',
      servePrimitive (cpKind w == .gen) w (primitiveOf p) (talking (scanning s) cs₁ dn) =
        .error (.next (f ((answered s cs 4).withDone dn')))) :
    ∃ dn, cpStart w offset x 4 s = .next (f ((answered s cs 4).withDone dn)) := by
  obtain ⟨cs₁, d1, hstart, hrest⟩ := cpStart_dialogue h hw ho hc
  obtain ⟨cs₂, d2, k, hlast, hdialogue⟩ := cpDialogue_response (s := scanning s) h hw d1 hp hrest
  obtain ⟨dn, hend⟩ := hserve cs₂ d2 hlast
  exact ⟨dn, by rw [hstart, hdialogue, hend, concludes_error]⟩

/-- A general instruction whose first response is followed by one that releases the processor. -/
theorem cpStart_goesOn (hk : cpKind w = .gen)
    (hc : converse (cpId w) [.write o 2 (x.setWidth 32), .read (p.setWidth 32), .read ((0x0802#16).setWidth 32)]
      s.platform.coprocessors = some cs)
    (hserve : ∀ cs₁ dn, servePrimitive true w (primitiveOf p) (talking (scanning s) cs₁ dn) =
      .ok (.again (talking (scanning s) cs₁ dn))) :
    CompletesAs (cpStart w offset x 4 s) { answered s cs 4 with pc := s.pc + 4#32 } := by
  obtain ⟨cs₁, d1, hstart, hrest⟩ := cpStart_dialogue h hw ho hc
  obtain ⟨cs₂, d2, k, hlast, hdialogue⟩ := cpDialogue_response (s := scanning s) h hw d1 hp hrest
  obtain ⟨cs₃, d3, hnil, hloop⟩ := serveLoop_response (s := scanning s) h hw d2 (by decide) hlast true k
  obtain rfl := eq_of_converse_nil hnil
  have hrelease : servePrimitive true w (primitiveOf 0x0802#16) (talking (scanning s) cs₃ d3) =
      .ok (.release false (talking (scanning s) cs₃ d3)) :=
    servePrimitive_releases (v := 0x0802#32) (by refine ⟨.inl ?_, ?_, ?_, ?_, fun _ => .inl ?_⟩ <;> decide) w
  refine ⟨d3, ?_⟩
  rw [hstart, hdialogue, hk, beq_self_eq_true, hserve]
  exact concludes_release (u := talking (scanning s) cs₃ d3) hk (by rw [ok_bind, goesOn, hloop, hrelease]; rfl)

end

end Sys2Proof.Proofs
end

section
/-! PROOFS. Coprocessor responses that end an instruction in an exception (R521, R530, R532, R544-R546, R550, R555). -/

namespace Sys2Proof.Proofs

open Sys2Proof Sys2Proof.Machine Sys2Proof.Laws

variable {s : State} {w : Word} {cs cs' : List Coprocessor}

/-! ## What serves each response -/

/-- The midinstruction frame of an instruction that began in `s` (R648, log 33). -/
def midFrame (s : State) (w : Word) : FrameBody :=
  .mid s.pc (0#13 ++ BitVec.ofBool s.eaValid ++ BitVec.ofBool s.trace.flow ++ BitVec.ofBool s.trace.pending) w
    (if s.eaValid then s.eaTmp else s.freeLong)

/-- The end of an instruction in an exception with the midinstruction frame (R545). -/
def endsMid (s : State) (w : Word) (vector : Byte) (t : State) : State :=
  takeEntry (clearTrace t.tick) { vector := vector, pc := s.pc + 4#32, level := none, body := midFrame s w }

theorem takeMid_talking (s : State) (cs : List Coprocessor) (dn : List BusRec) (w : Word) (vector : Byte) :
    takeMid (talking (scanning s) cs dn) w vector = .next (endsMid s w vector ((answered s cs 4).withDone dn)) := rfl

/-- A write to the control register (R470, R471, R544). -/
theorem cirWrite_control (h : Quiet s) (hw : Wide s) (dn : List BusRec) {d : Long} (hd : lowBits (8 * 2) d = d)
    (hc : converse (cpId w) [.write 2#5 2 d] cs = some cs') :
    ∃ dn', cirWrite (talking (scanning s) cs dn) w 2#32 2 d = .ok (talking (scanning s) cs' dn') := by
  obtain ⟨cs₁, dn', hwrite, hnil⟩ :=
    cirWrite_talking (s := scanning s) (w := w) h hw dn (offset := 2#32) ⟨rfl, by decide, by decide⟩ hd hc
  obtain rfl := eq_of_converse_nil hnil
  exact ⟨dn', hwrite⟩

/-- A take exception primitive is acknowledged first (R544). -/
theorem primTake_talking (h : Quiet s) (hw : Wide s) (dn : List BusRec)
    (hc : converse (cpId w) [.write 2#5 2 2#32] cs = some cs') (r : State → Res) :
    ∃ dn', primTake w (talking (scanning s) cs dn) r = .error (r (talking (scanning s) cs' dn')) := by
  obtain ⟨dn', hwrite⟩ := cirWrite_control h hw dn (by decide) hc
  exact ⟨dn', by rw [primTake, hwrite]; rfl⟩

/-- The supervisor check at user level aborts the instruction (R532). -/
theorem primSupervisor_user (h : Quiet s) (hw : Wide s) (hs : s.sr.s = false) (dn : List BusRec)
    (hc : converse (cpId w) [.write 2#5 2 1#32] cs = some cs') (ca : Bool) :
    ∃ dn', primSupervisor true w ca (talking (scanning s) cs dn) =
      .error (.next (abandoned ((answered s cs' 4).withDone dn') 8#8)) := by
  obtain ⟨dn', hwrite⟩ := cirWrite_control h hw dn (by decide) hc
  have huser : (talking (scanning s) cs dn).sr.s = false := hs
  refine ⟨dn', ?_⟩
  rw [← talking_scanning, primSupervisor, huser, abortTo, cpAbort, hwrite]
  rfl

/-- At supervisor level the check succeeds (R532). -/
theorem primSupervisor_super (hs : s.sr.s = true) (ca : Bool) : primSupervisor true w ca s = .ok (.again s) := by
  rw [primSupervisor, hs]
  rfl

/-- An interruptible point at which an interrupt is pending (R555). -/
theorem dialoguePoint_pending (hreplay : s.replay = []) (hlanding : s.landing = none) (hi : s.platform.inputs = [])
    (hp : (sampleIpl s).irq.pending = true) (w : Word) :
    dialoguePoint s w =
      .error (.next (takeInterrupt (clearTrace (sampleIpl s).tick) (midBody (sampleIpl s) w) s.scanPc)) := by
  have hpoll : pollInputs s = sampleIpl s := by rw [pollInputs, hi]
  have hreset : nextBatchResets s = false := by rw [nextBatchResets, hi]; rfl
  simp only [dialoguePoint, interruptPoint, hreplay, land_none hlanding, hpoll, hreset, hp, Bool.false_eq_true, if_false,
    if_true]

/-- Null with CA and IA set comes to an interruptible point (R531, R555). -/
theorem primNull_point (w : Word) (param : Byte) (r : Res) (hpoint : dialoguePoint s w = .error r) :
    primNull true w ⟨true, false, 9, param⟩ true s = .error r := by
  simp only [primNull, Bool.true_or, if_true, hpoint]
  rfl

theorem midBody_sampleIpl (s : State) (w : Word) : midBody (sampleIpl s) w = midBody s w := by
  have hfree : (sampleIpl s).freeLong = s.freeLong := rfl
  simp only [midBody, midWord, hfree]
  rfl

theorem midBody_scanning (s : State) (cs : List Coprocessor) (dn : List BusRec) (w : Word) :
    midBody (talking (scanning s) cs dn) w = midFrame s w := by
  have hfree : (talking (scanning s) cs dn).freeLong = s.freeLong := rfl
  simp only [midBody, midWord, hfree]
  rfl

theorem scanPc_scanning (s : State) (cs : List Coprocessor) (dn : List BusRec) :
    (talking (scanning s) cs dn).scanPc = s.pc + 4#32 := rfl

/-- Codes that no primitive has (R550). -/
theorem servePrimitive_none {c : Byte} (hc : c ∈ [0x00#8, 0x0B#8, 0x18#8, 0x1F#8, 0x2A#8, 0x3F#8]) (vector : Byte)
    (general : Bool) (w : Word) (s : State) :
    servePrimitive general w (primitiveOf (c ++ vector)) s = .error (takeMid s w 13#8) := by
  rw [primitiveOf_append]
  fin_cases hc <;> rfl

/-- Codes of primitives that only general instructions allow (R521). -/
def generalOnly : List Byte :=
  [0x01#8, 0x02#8, 0x03#8, 0x0A#8, 0x10#8, 0x17#8, 0x20#8, 0x21#8, 0x22#8, 0x23#8, 0x30#8, 0x37#8,
   0x81#8, 0x82#8, 0x83#8, 0x8A#8, 0x90#8, 0x97#8, 0xA0#8, 0xA1#8, 0xA2#8, 0xA3#8, 0xB0#8, 0xB7#8]

theorem servePrimitive_generalOnly {c : Byte} (hc : c ∈ generalOnly) (vector : Byte) (w : Word) (s : State) :
    servePrimitive false w (primitiveOf (c ++ vector)) s = .error (takeMid s w 13#8) := by
  rw [primitiveOf_append]
  fin_cases hc <;> rfl

/-! ## The instructions -/

theorem cirFits_command : CirFits 0x0A#32 0x0A#5 2 := ⟨rfl, by decide, by decide⟩

theorem cirFits_condition : CirFits 0x0E#32 0x0E#5 2 := ⟨rfl, by decide, by decide⟩

section

variable (h : Quiet s) (hw : Wide s) {id m r : BitVec 3} {x p : Word} {es : List CirEvent} {f : State → State}

include h hw

/-- A general instruction that its first response ends. -/
theorem cpGen_ends (hp : (primitiveOf p).pc = false)
    (hserve : ∀ cs₁ dn, converse (cpId (opword (.cpGen id m r x))) es cs₁ = some cs → ∃ dn',
      servePrimitive true (opword (.cpGen id m r x)) (primitiveOf p) (talking (scanning s) cs₁ dn) =
        .error (.next (f ((answered s cs 4).withDone dn'))))
    (hc : converse id (.write 0x0A#5 2 (x.setWidth 32) :: .read (p.setWidth 32) :: es) s.platform.coprocessors = some cs) :
    ∃ dn, exec (.cpGen id m r x) s = .next (f ((answered s cs 4).withDone dn)) := by
  have hid : cpId (opword (.cpGen id m r x)) = id := cpId_mkOp ..
  have hk : cpKind (opword (.cpGen id m r x)) = .gen := cpKind_general id m r
  refine cpStart_ends h hw cirFits_command hp (hid.symm ▸ hc) ?_
  rw [hk]
  exact hserve

/-- A general instruction that its first response neither ends nor releases. -/
theorem cpGen_goesOn (hp : (primitiveOf p).pc = false)
    (hserve : ∀ cs₁ dn, servePrimitive true (opword (.cpGen id m r x)) (primitiveOf p) (talking (scanning s) cs₁ dn) =
      .ok (.again (talking (scanning s) cs₁ dn)))
    (hc : converse id [.write 0x0A#5 2 (x.setWidth 32), .read (p.setWidth 32), .read ((0x0802#16).setWidth 32)]
      s.platform.coprocessors = some cs) :
    CompletesAs (exec (.cpGen id m r x) s) { answered s cs 4 with pc := s.pc + 4#32 } :=
  have hid : cpId (opword (.cpGen id m r x)) = id := cpId_mkOp ..
  cpStart_goesOn h hw cirFits_command hp (cpKind_general id m r) (hid.symm ▸ hc) hserve

end

/-- The supervisor check by its code. -/
theorem servePrimitive_check (w : Word) (s : State) (param : Byte) (ca : Bool) :
    servePrimitive true w ⟨ca, false, 4, param⟩ s = primSupervisor true w ca s := rfl

theorem servePrimitive_point (w : Word) (s : State) (param : Byte) (ca : Bool) :
    servePrimitive true w ⟨ca, false, 9, param⟩ s = primNull true w ⟨ca, false, 9, param⟩ true s := rfl

section

variable (h : Quiet s) (hw : Wide s) {id m r : BitVec 3} {x : Word}

include h hw

/-- Null with CA set, or a supervisor check that succeeds. -/
theorem cpGen_null (hc : converse id [.write 0x0A#5 2 (x.setWidth 32), .read ((0x8800#16).setWidth 32),
      .read ((0x0802#16).setWidth 32)] s.platform.coprocessors = some cs) :
    CompletesAs (exec (.cpGen id m r x) s) { answered s cs 4 with pc := s.pc + 4#32 } := by
  have hp : primitiveOf 0x8800#16 = ⟨true, false, 8, 0#8⟩ := by decide
  refine cpGen_goesOn h hw (hp ▸ rfl) (fun _ _ => ?_) hc
  rw [hp]
  rfl

theorem cpGen_check_super (hs : s.sr.s = true) (hc : converse id [.write 0x0A#5 2 (x.setWidth 32),
      .read ((0x8400#16).setWidth 32), .read ((0x0802#16).setWidth 32)] s.platform.coprocessors = some cs) :
    CompletesAs (exec (.cpGen id m r x) s) { answered s cs 4 with pc := s.pc + 4#32 } := by
  have hp : primitiveOf 0x8400#16 = ⟨true, false, 4, 0#8⟩ := by decide
  refine cpGen_goesOn h hw (hp ▸ rfl) (fun _ _ => ?_) hc
  rw [hp, servePrimitive_check]
  exact primSupervisor_super (s := talking (scanning s) _ _) hs true

theorem cpGen_check_user (hs : s.sr.s = false) (hc : converse id [.write 0x0A#5 2 (x.setWidth 32),
      .read ((0x8400#16).setWidth 32), .write 2#5 2 1#32] s.platform.coprocessors = some cs) :
    ∃ dn, exec (.cpGen id m r x) s = .next (abandoned ((answered s cs 4).withDone dn) 8#8) := by
  have hp : primitiveOf 0x8400#16 = ⟨true, false, 4, 0#8⟩ := by decide
  refine cpGen_ends h hw (f := fun t => abandoned t 8#8) (hp ▸ rfl) (fun _ dn hrest => ?_) hc
  rw [hp, servePrimitive_check]
  exact primSupervisor_user h hw hs dn hrest true

theorem cpGen_point (hi : s.platform.inputs = []) (hp : (sampleIpl s).irq.pending = true)
    (hc : converse id [.write 0x0A#5 2 (x.setWidth 32), .read ((0x8900#16).setWidth 32)] s.platform.coprocessors =
      some cs) :
    ∃ dn, exec (.cpGen id m r x) s =
      .next (takeInterrupt (clearTrace (sampleIpl ((answered s cs 4).withDone dn)).tick)
        (midFrame s (opword (.cpGen id m r x))) (s.pc + 4#32)) := by
  have ⟨⟨hreplay, hlanding, _, _⟩, _⟩ := h
  have hcode : primitiveOf 0x8900#16 = ⟨true, false, 9, 0#8⟩ := by decide
  refine cpGen_ends h hw (hcode ▸ rfl) (f := fun t => takeInterrupt (clearTrace (sampleIpl t).tick)
    (midFrame s (opword (.cpGen id m r x))) (s.pc + 4#32)) (fun cs₁ dn hnil => ⟨dn, ?_⟩) hc
  obtain rfl := eq_of_converse_nil hnil
  have hpending : (sampleIpl (talking (scanning s) cs₁ dn)).irq.pending = true :=
    (sampleIpl_pending _).2 ((sampleIpl_pending s).1 hp)
  have hpoint := dialoguePoint_pending (s := talking (scanning s) cs₁ dn) hreplay hlanding hi hpending
    (opword (.cpGen id m r x))
  rw [midBody_sampleIpl, midBody_scanning, scanPc_scanning] at hpoint
  rw [hcode, servePrimitive_point, primNull_point _ _ _ hpoint, talking_scanning]

/-- Busy leaves the instruction to be started again (R530, D21). -/
theorem cpGen_busy {p : Word} (hp : p ∈ [0x2400#16, 0xA400#16])
    (hc : converse id [.write 0x0A#5 2 (x.setWidth 32), .read (p.setWidth 32)] s.platform.coprocessors = some cs) :
    ∃ dn, exec (.cpGen id m r x) s = .next (clearTrace ((answered s cs 4).withDone dn)) := by
  have hcode : (primitiveOf p).code = 0x24 ∧ (primitiveOf p).pc = false := by
    fin_cases hp <;> decide
  obtain ⟨hbusy, hpc⟩ := hcode
  refine cpGen_ends h hw hpc (f := clearTrace) (fun cs₁ dn hnil => ⟨dn, ?_⟩) hc
  obtain rfl := eq_of_converse_nil hnil
  rw [servePrimitive, hbusy]
  rfl

/-- A take exception primitive (R544-R546). -/
theorem cpGen_take {c vector : Byte} {f : State → State} {r' : State → Res} (hbit : c.getLsbD 6 = false)
    (hserve : ∀ s, servePrimitive true (opword (.cpGen id m r x))
      ⟨c.getLsbD 7, c.getLsbD 6, (c.extractLsb' 0 6).toNat, vector⟩ s = primTake (opword (.cpGen id m r x)) s r')
    (hend : ∀ cs dn, r' (talking (scanning s) cs dn) = .next (f ((answered s cs 4).withDone dn)))
    (hc : converse id [.write 0x0A#5 2 (x.setWidth 32), .read (BitVec.setWidth 32 (c ++ vector : Word)),
      .write 2#5 2 2#32] s.platform.coprocessors = some cs) :
    ∃ dn, exec (.cpGen id m r x) s = .next (f ((answered s cs 4).withDone dn)) := by
  refine cpGen_ends h hw (by rw [primitiveOf_append, hbit]) (fun _ dn hrest => ?_) hc
  obtain ⟨dn', htake⟩ := primTake_talking h hw dn hrest r'
  exact ⟨dn', by rw [primitiveOf_append, hserve, htake, hend]⟩

theorem cpGen_none {c : Byte} (hc : c ∈ [0x00#8, 0x0B#8, 0x18#8, 0x1F#8, 0x2A#8, 0x3F#8]) (vector : Byte)
    (hs : converse id [.write 0x0A#5 2 (x.setWidth 32), .read (BitVec.setWidth 32 (c ++ vector : Word))]
      s.platform.coprocessors = some cs) :
    ∃ dn, exec (.cpGen id m r x) s =
      .next (endsMid s (opword (.cpGen id m r x)) 13#8 ((answered s cs 4).withDone dn)) := by
  have hbit : c.getLsbD 6 = false := by fin_cases hc <;> rfl
  refine cpGen_ends h hw (by rw [primitiveOf_append, hbit]) (fun cs₁ dn hnil => ⟨dn, ?_⟩) hs
  obtain rfl := eq_of_converse_nil hnil
  rw [servePrimitive_none hc, takeMid_talking]

theorem cpTrapcc_generalOnly {c : Byte} (hc : c ∈ generalOnly) (vector : Byte)
    (hs : converse id [.write 0x0E#5 2 (x.setWidth 32), .read (BitVec.setWidth 32 (c ++ vector : Word))]
      s.platform.coprocessors = some cs) :
    ∃ dn, exec (.cpTrapcc id x) s =
      .next (endsMid s (opword (.cpTrapcc id x)) 13#8 ((answered s cs 4).withDone dn)) := by
  have hid : cpId (opword (.cpTrapcc id x)) = id := cpId_mkOp ..
  have hk : cpKind (opword (.cpTrapcc id x)) = .trapcc 0 := (cpKind_trapcc id).1
  have hbit : c.getLsbD 6 = false := by fin_cases hc <;> rfl
  refine cpStart_ends h hw cirFits_condition (by rw [primitiveOf_append, hbit]) (hid.symm ▸ hs)
    fun cs₁ dn hnil => ⟨dn, ?_⟩
  obtain rfl := eq_of_converse_nil hnil
  rw [hk]
  exact (servePrimitive_generalOnly hc ..).trans (congrArg Except.error (takeMid_talking ..))

end

/-- Settles O58: each response by what serves it, after the write and the read that begin every dialogue. -/
theorem coprocessorExceptions : Obligations.CoprocessorExceptions := by
  unfold Obligations.CoprocessorExceptions
  intro s id m r x vector cs h hw
  exact ⟨fun hc => cpGen_null h hw hc, fun hs hc => cpGen_check_super h hw hs hc,
    fun hi hp hc => cpGen_point h hw hi hp hc, fun p hp hc => cpGen_busy h hw hp hc,
    fun hs hc => cpGen_check_user h hw hs hc,
    fun hc => cpGen_take h hw (f := fun t => abandoned t vector) rfl (fun _ => rfl) (fun _ _ => rfl) hc,
    fun hc => cpGen_take h hw (f := endsMid s (opword (.cpGen id m r x)) vector) 
      (r' := fun s => takeMid s (opword (.cpGen id m r x)) vector) rfl (fun _ => rfl)
      (fun cs dn => takeMid_talking s cs dn _ vector) hc,
    fun hc => cpGen_take h hw
      (f := fun t => takeEntry t { vector := vector, body := .six s.pc, pc := s.pc + 4#32, level := none }) rfl
      (fun _ => rfl) (fun _ _ => rfl) hc,
    fun c hc hs => cpGen_none h hw hc vector hs, fun c hc hs => cpTrapcc_generalOnly h hw hc vector hs⟩

end Sys2Proof.Proofs
end

section
/-! PROOFS. Services that move registers, the operation word and operands in memory (R533-R542, R566). -/

namespace Sys2Proof.Proofs

open Sys2Proof Sys2Proof.Machine Sys2Proof.Laws

variable {s t u : State} {w : Word} {cs cs' : List Coprocessor} {es : List CirEvent}

/-! ## A service and the release after it (R522) -/

/-- A response without CA asks for the service `f`. -/
def Asks (w : Word) (code : BitVec 6) (param : Byte) (f : State → Run State) : Prop :=
  ∀ s, servePrimitive true w ⟨false, false, code.toNat, param⟩ s = f s >>= fun s => .ok (afterService false s)

/-- A service that is no change of the platform, and after which no trace is pending. -/
def Calm (s t : State) : Prop := t.platform = s.platform ∧ t.trace.pending = false

/-- A general instruction whose only service leads to `t`. -/
theorem cpGen_serves (h : Quiet s) (hw : Wide s) {id m r : BitVec 3} {x : Word} {code : BitVec 6} {param : Byte}
    {f : State → Run State} (ha : Asks (opword (.cpGen id m r x)) code param f)
    (hf : Serves (opword (.cpGen id m r x)) es (scanning s) f t) (ht : Calm s t)
    (hc : converse id (.write 0x0A#5 2 (x.setWidth 32) :: .read ((0#2 ++ code ++ param : Word).setWidth 32) :: es)
      s.platform.coprocessors = some cs) :
    CompletesAs (exec (.cpGen id m r x) s)
      { t with pc := t.scanPc, platform := { s.platform with coprocessors := cs } } := by
  have hid : cpId (opword (.cpGen id m r x)) = id := cpId_mkOp ..
  have hk : cpKind (opword (.cpGen id m r x)) = .gen := cpKind_general id m r
  obtain ⟨hplatform, htrace⟩ := ht
  obtain ⟨cs₁, d1, hstart, hrest⟩ := cpStart_dialogue h hw cirFits_command (hid.symm ▸ hc)
  obtain ⟨cs₂, d2, k, hlast, hdialogue⟩ :=
    cpDialogue_response (s := scanning s) h hw d1 (by rw [primitiveOf_code]) hrest
  obtain ⟨dn, hserve⟩ := hf cs₂ cs d2 hlast
  have hafter : afterService false (talking t cs dn) = .release false (talking t cs dn) := by
    have htrace' : (talking t cs dn).trace.pending = false := htrace
    rw [afterService, htrace']
    rfl
  have hend : exec (.cpGen id m r x) s = .next { talking t cs dn with pc := t.scanPc } := by
    refine hstart.trans (hdialogue.trans ?_)
    rw [hk, beq_self_eq_true, primitiveOf_code, ha, hserve, ok_bind, hafter]
    exact concludes_release hk rfl
  exact ⟨dn, by rw [hend, ← hplatform]; rfl⟩

/-! ## Single accesses -/

/-- A service of one write. -/
theorem serves_write (h : Quiet s) (hw : Wide s) {offset v d : Long} {o : BitVec 5} {n : Nat} (ho : CirFits offset o n)
    (hd : lowBits (8 * n) v = d) : Serves w [.write o n d] s (fun s => cirWrite s w offset n v) s := by
  intro cs cs' dn hc
  obtain ⟨cs₁, dn', hwrite, hnil⟩ := cirWrite_talking h hw dn ho hd hc
  obtain rfl := eq_of_converse_nil hnil
  exact ⟨dn', hwrite⟩

/-! ## Registers (R533, R540, R542) -/

theorem cirFits_long : CirFits 0x10#32 0x10#5 4 := cirFits_operand (by decide) (by decide)

/-- A main processor register to the coprocessor, and what is left of the dialogue. -/
theorem primOneReg_out (h : Quiet s) (hw : Wide s) (dn : List BusRec) {rn : Rn}
    (hc : converse (cpId w) (.write 0x10#5 4 (s.rn rn) :: es) cs = some cs') :
    ∃ cs₁ dn', primOneReg w false rn (talking s cs dn) = .ok (talking s cs₁ dn') ∧ converse (cpId w) es cs₁ = some cs' :=
  cirWrite_talking h hw dn cirFits_long (lowBits_long _) hc

/-- A main processor register from the coprocessor, and what is left of the dialogue. -/
theorem primOneReg_in (h : Quiet s) (hw : Wide s) (dn : List BusRec) {rn : Rn} {v : Long}
    (hc : converse (cpId w) (.read v :: es) cs = some cs') :
    ∃ cs₁ dn', primOneReg w true rn (talking s cs dn) = .ok (talking (s.setRn rn v) cs₁ dn') ∧
      converse (cpId w) es cs₁ = some cs' := by
  obtain ⟨cs₁, dn', hread, hrest⟩ := cirRead_talking h hw dn cirFits_long hc
  rw [lowBits_long] at hread
  refine ⟨cs₁, dn', ?_, hrest⟩
  simp only [primOneReg, if_true, hread, ok_bind, setRn_talking]

/-- The registers of a list go to the coprocessor one by one. -/
theorem moveRegs_out (h : Quiet s) (hw : Wide s) (rs : List Rn) :
    Serves w (rs.map fun rn => .write 0x10#5 4 (s.rn rn)) s (moveRegs w false rs) s := by
  induction rs with
  | nil =>
    intro cs cs' dn hc
    obtain rfl := eq_of_converse_nil hc
    exact ⟨dn, rfl⟩
  | cons rn rs ih =>
    intro cs cs' dn hc
    obtain ⟨cs₁, d1, hmove, hrest⟩ := primOneReg_out h hw dn hc
    obtain ⟨d2, hmoves⟩ := ih cs₁ cs' d1 hrest
    exact ⟨d2, by rw [moveRegs, hmove, ok_bind, hmoves]⟩

/-- The state with registers written one by one. -/
def rnsSet (s : State) : List (Rn × Long) → State
  | [] => s
  | (rn, v) :: rs => rnsSet (s.setRn rn v) rs

theorem quiet_setRn (h : Quiet s) (rn : Rn) (v : Long) : Quiet (s.setRn rn v) := by
  rw [setRn_eq]
  exact quiet_congr h rfl rfl rfl

theorem wide_setRn (hw : Wide s) (rn : Rn) (v : Long) : Wide (s.setRn rn v) := by
  rw [setRn_eq]
  exact hw

/-- The registers of a list come from the coprocessor one by one. -/
theorem moveRegs_in (h : Quiet s) (hw : Wide s) (rs : List (Rn × Long)) :
    Serves w (rs.map fun r => .read r.2) s (moveRegs w true (rs.map (·.1))) (rnsSet s rs) := by
  induction rs generalizing s with
  | nil =>
    intro cs cs' dn hc
    obtain rfl := eq_of_converse_nil hc
    exact ⟨dn, rfl⟩
  | cons r rs ih =>
    intro cs cs' dn hc
    obtain ⟨cs₁, d1, hmove, hrest⟩ := primOneReg_in (rn := r.1) h hw dn hc
    obtain ⟨d2, hmoves⟩ := ih (quiet_setRn h r.1 r.2) (wide_setRn hw r.1 r.2) cs₁ cs' d1 hrest
    exact ⟨d2, by rw [List.map_cons, moveRegs, hmove, ok_bind, hmoves]; rfl⟩

theorem cirFits_select : CirFits 0x14#32 0x14#5 2 := ⟨rfl, by decide, by decide⟩

/-- A word of the register select CIR. -/
theorem cirRead_select (h : Quiet s) (hw : Wide s) (dn : List BusRec) {v : Long}
    (hc : converse (cpId w) (.read v :: es) cs = some cs') :
    ∃ cs₁ dn', cirRead (talking s cs dn) w 0x14#32 2 = .ok (lowBits (8 * 2) v, talking s cs₁ dn') ∧
      converse (cpId w) es cs₁ = some cs' :=
  cirRead_talking h hw dn cirFits_select hc

/-- Several registers, named by the select mask (R542). -/
theorem primRegs_serves (h : Quiet s) (hw : Wide s) {dr : Bool} {mask : Long} {rs : List Rn}
    (hmask : selectRegs ((lowBits (8 * 2) mask).setWidth 16) = rs) (hf : Serves w es s (moveRegs w dr rs) t) :
    Serves w (.read mask :: es) s (primRegs w dr) t := by
  intro cs cs' dn hc
  obtain ⟨cs₁, d1, hread, hrest⟩ := cirRead_select h hw dn hc
  obtain ⟨d2, hmoves⟩ := hf cs₁ cs' d1 hrest
  refine ⟨d2, ?_⟩
  simp only [primRegs, hread, ok_bind, hmask, hmoves]

/-! ## Control registers (R541) -/

theorem readCtl_talking (s : State) (cs : List Coprocessor) (dn : List BusRec) (code : BitVec 12) :
    readCtl (talking s cs dn) code = readCtl s code := rfl

/-- A write to a control register changes neither platform nor trace state. -/
theorem writeCtl_calm {code : BitVec 12} {v : Long} (ht : writeCtl s code v = some t) :
    t.platform = s.platform ∧ t.trace = s.trace ∧
      ∀ cs dn, writeCtl (talking s cs dn) code v = some (talking t cs dn) := by
  have hcacr : (writeCacr s v).platform = s.platform ∧ (writeCacr s v).trace = s.trace ∧
      ∀ cs dn, writeCacr (talking s cs dn) v = talking (writeCacr s v) cs dn := by
    unfold writeCacr
    cases v.getLsbD 2 <;> cases v.getLsbD 3 <;> exact ⟨rfl, rfl, fun _ _ => rfl⟩
  unfold writeCtl at ht ⊢
  split at ht
  case h_3 =>
    obtain rfl := Option.some.inj ht
    obtain ⟨hplatform, htrace, htalking⟩ := hcacr
    exact ⟨hplatform, htrace, fun cs dn => congrArg some (htalking cs dn)⟩
  case h_9 => exact nomatch ht
  all_goals
    obtain rfl := Option.some.inj ht
    exact ⟨rfl, rfl, fun _ _ => rfl⟩

/-- A control register that can be written can be read. -/
theorem readCtl_of_writeCtl {code : BitVec 12} {v : Long} (ht : writeCtl s code v = some t) :
    ∃ old, readCtl s code = some old := by
  by_cases hcode : code ∈ controlCodes
  · fin_cases hcode <;> exact ⟨_, rfl⟩
  · rw [writeCtl_none hcode] at ht
    exact nomatch ht

/-- A control register to the coprocessor. -/
theorem primCtlReg_out (h : Quiet s) (hw : Wide s) {x : Word} {c : Long} (hx : readCtl s (x.setWidth 12) = some c) :
    Serves w [.read (x.setWidth 32), .write 0x10#5 4 c] s (primCtlReg w false) s := by
  intro cs cs' dn hc
  obtain ⟨cs₁, d1, hread, hrest⟩ := cirRead_select h hw dn hc
  obtain ⟨cs₂, d2, hwrite, hnil⟩ := cirWrite_talking h hw d1 cirFits_long (lowBits_long c) hrest
  obtain rfl := eq_of_converse_nil hnil
  rw [lowBits_word] at hread
  refine ⟨d2, ?_⟩
  have hcode : (x.setWidth 32).setWidth 12 = x.setWidth 12 := BitVec.setWidth_setWidth_of_le x (by decide)
  simp only [primCtlReg, hread, ok_bind, hcode, readCtl_talking, hx, hwrite, Bool.false_eq_true, if_false]

/-- A control register from the coprocessor. -/
theorem primCtlReg_in (h : Quiet s) (hw : Wide s) {x : Word} {v : Long} (hx : writeCtl s (x.setWidth 12) v = some t) :
    Serves w [.read (x.setWidth 32), .read v] s (primCtlReg w true) t := by
  intro cs cs' dn hc
  obtain ⟨cs₁, d1, hread, hrest⟩ := cirRead_select h hw dn hc
  obtain ⟨cs₂, d2, hvalue, hnil⟩ := cirRead_talking h hw d1 cirFits_long hrest
  obtain rfl := eq_of_converse_nil hnil
  obtain ⟨-, -, hwrite⟩ := writeCtl_calm hx
  rw [lowBits_word] at hread
  rw [lowBits_long] at hvalue
  have hcode : (x.setWidth 32).setWidth 12 = x.setWidth 12 := BitVec.setWidth_setWidth_of_le x (by decide)
  obtain ⟨old, hold⟩ := readCtl_of_writeCtl hx
  refine ⟨d2, ?_⟩
  simp only [primCtlReg, hread, ok_bind, hcode, readCtl_talking, hold, if_true, hvalue, hwrite, Option.getD_some]

/-! ## The status register and the scanPC (R566) -/

theorem cirFits_operandWord : CirFits 0x10#32 0x10#5 2 := cirFits_operand (by decide) (by decide)

theorem cirFits_scan : CirFits 0x18#32 0x18#5 4 := ⟨rfl, by decide, by decide⟩

/-- The status register to the coprocessor, and before it the scanPC if that is asked for. -/
theorem primStatus_out (h : Quiet s) (hw : Wide s) :
    Serves w [.write 0x10#5 2 (s.sr.toWord.setWidth 32)] s (primStatus w false false) s ∧
      Serves w [.write 0x18#5 4 s.scanPc, .write 0x10#5 2 (s.sr.toWord.setWidth 32)] s (primStatus w false true) s := by
  have hstatus : ∀ cs cs' dn, converse (cpId w) [.write 0x10#5 2 (s.sr.toWord.setWidth 32)] cs = some cs' → ∃ dn',
      cirWrite (talking s cs dn) w 0x10#32 2 (s.sr.toWord.setWidth 32) = .ok (talking s cs' dn') :=
    serves_write h hw cirFits_operandWord (lowBits_word _)
  have hsr : ∀ cs dn, (talking s cs dn).sr = s.sr := fun _ _ => rfl
  refine ⟨fun cs cs' dn hc => ?_, fun cs cs' dn hc => ?_⟩
  · obtain ⟨d1, hwrite⟩ := hstatus cs cs' dn hc
    refine ⟨d1, ?_⟩
    simp only [primStatus, Bool.false_eq_true, if_false, ok_bind, hsr, hwrite]
  · obtain ⟨cs₁, d1, hscan, hrest⟩ := cirWrite_talking h hw dn cirFits_scan (lowBits_long _) hc
    obtain ⟨d2, hwrite⟩ := hstatus cs₁ cs' d1 hrest
    have hpc : (talking s cs dn).scanPc = s.scanPc := rfl
    refine ⟨d2, ?_⟩
    simp only [primStatus, Bool.false_eq_true, if_false, if_true, hpc, hscan, ok_bind, hsr, hwrite]

/-- Without a trace pending or flow changed, a write of SR leaves the trace state. -/
theorem writeSr_calm (hp : s.trace.pending = false) (hf : s.trace.flow = false) (x : Word) :
    writeSr s x = flush { s with sr := .ofWord x } := by
  have htrace : ({ s.trace with pending := s.trace.pending || s.trace.flow } : Trace) = s.trace := by
    rw [hp, hf, Bool.or_false, ← hp]
  exact congrArg (fun trace => flush { s with sr := .ofWord x, trace := trace }) htrace

/-- The status register from the coprocessor (R566). -/
theorem primStatus_in (h : Quiet s) (hw : Wide s) (hp : s.trace.pending = false) (hf : s.trace.flow = false) (x : Word) :
    Serves w [.read (x.setWidth 32)] s (primStatus w true false) (flush { s with sr := .ofWord x }) := by
  intro cs cs' dn hc
  obtain ⟨cs₁, d1, hread, hnil⟩ := cirRead_talking h hw dn cirFits_operandWord hc
  obtain rfl := eq_of_converse_nil hnil
  have hword : (x.setWidth 32).setWidth 16 = x := by
    rw [BitVec.setWidth_setWidth_of_le x (by decide), BitVec.setWidth_eq]
  rw [lowBits_word] at hread
  have hsr := writeSr_calm (s := talking s cs₁ d1) hp hf x
  refine ⟨d1, ?_⟩
  simp only [primStatus, if_true, hread, ok_bind, hword, hsr, Bool.false_eq_true, if_false]
  rfl

/-- The status register and an even scanPC from the coprocessor (R566). -/
theorem primStatus_in_scan (h : Quiet s) (hw : Wide s) (hp : s.trace.pending = false) (hf : s.trace.flow = false)
    (x : Word) {a : Long} (ha : a.getLsbD 0 = false) :
    Serves w [.read (x.setWidth 32), .read a] s (primStatus w true true)
      (flush { s with sr := .ofWord x, scanPc := a }) := by
  intro cs cs' dn hc
  obtain ⟨cs₁, d1, hread, hrest⟩ := cirRead_talking h hw dn cirFits_operandWord hc
  have hq : Quiet (flush { s with sr := .ofWord x }) := quiet_congr h rfl rfl rfl
  obtain ⟨cs₂, d2, hscan, hnil⟩ := cirRead_talking hq hw d1 cirFits_scan hrest
  obtain rfl := eq_of_converse_nil hnil
  have hword : (x.setWidth 32).setWidth 16 = x := by
    rw [BitVec.setWidth_setWidth_of_le x (by decide), BitVec.setWidth_eq]
  rw [lowBits_word] at hread
  rw [lowBits_long] at hscan
  have hsr : writeSr (talking s cs₁ d1) x = talking (flush { s with sr := .ofWord x }) cs₁ d1 :=
    writeSr_calm (s := talking s cs₁ d1) hp hf x
  refine ⟨d2, ?_⟩
  simp only [primStatus, if_true, hread, ok_bind, hword, hsr, hscan, ha, Bool.false_eq_true, if_false]
  rfl

end Sys2Proof.Proofs
end

section
/-! PROOFS. Services that move operands (R534-R539, R543). -/

namespace Sys2Proof.Proofs

open Sys2Proof Sys2Proof.Machine Sys2Proof.Laws

variable {s t u : State} {w : Word} {cs cs' : List Coprocessor} {es : List CirEvent} {n : Nat} {a v : Long}

/-! ## Operands in memory (R477, R537, R538) -/

/-- What one cycle moves is one part. -/
theorem chunks_cycle (hn : 1 ≤ n) (hn' : n ≤ 4) : chunks n = [n] := by
  interval_cases n <;> rfl

section

variable (h : Quiet s) (hw : Wide s) (hn : 1 ≤ n) (hn' : n ≤ 4)

include h hw hn hn'

/-- An operand to the coprocessor, and what is left of the dialogue. -/
theorem moveOperand_out_cons (dn : List BusRec)
    (hc : converse (cpId w) (.write 0x10#5 n (load s (dataFc s) a n) :: es) cs = some cs') :
    ∃ cs₁ dn', moveOperand w false false n (talking s cs dn) a = .ok (talking s cs₁ dn') ∧
      converse (cpId w) es cs₁ = some cs' := by
  obtain ⟨d1, hread⟩ := memRead_talking h cs dn a n
  obtain ⟨cs₁, d2, hwrite, hrest⟩ :=
    cirWrite_talking h hw d1 (cirFits_operand hn hn') (lowBits_load s (dataFc s) a n) hc
  have hspace : readFc (talking s cs dn) (spaceFc (talking s cs dn) false) a n =
      .ok (load s (dataFc s) a n, talking s cs d1) := hread
  refine ⟨cs₁, d2, ?_, hrest⟩
  simp only [moveOperand, Bool.false_eq_true, if_false, chunks_cycle hn hn', memToCp, hspace, ok_bind, hwrite]

/-- An operand from the coprocessor, and what is left of the dialogue. -/
theorem moveOperand_in_cons (dn : List BusRec) (hc : converse (cpId w) (.read v :: es) cs = some cs') :
    ∃ cs₁ dn', moveOperand w true false n (talking s cs dn) a = .ok (talking (store s (dataFc s) n a v) cs₁ dn') ∧
      converse (cpId w) es cs₁ = some cs' := by
  obtain ⟨cs₁, d1, hread, hrest⟩ := cirRead_talking h hw dn (cirFits_operand hn hn') hc
  obtain ⟨d2, hwrite⟩ := memWrite_talking h cs₁ d1 a n (lowBits (8 * n) v)
  rw [store_lowBits] at hwrite
  refine ⟨cs₁, d2, ?_, hrest⟩
  simp only [moveOperand, if_true, chunks_cycle hn hn', cpToMem, hread, ok_bind, hwrite]

theorem moveOperand_out :
    Serves w [.write 0x10#5 n (load s (dataFc s) a n)] s (fun x => moveOperand w false false n x a) s := by
  intro cs cs' dn hc
  obtain ⟨cs₁, dn', hmove, hnil⟩ := moveOperand_out_cons h hw hn hn' dn hc
  obtain rfl := eq_of_converse_nil hnil
  exact ⟨dn', hmove⟩

theorem moveOperand_in :
    Serves w [.read v] s (fun x => moveOperand w true false n x a) (store s (dataFc s) n a v) := by
  intro cs cs' dn hc
  obtain ⟨cs₁, dn', hmove, hnil⟩ := moveOperand_in_cons h hw hn hn' dn hc
  obtain rfl := eq_of_converse_nil hnil
  exact ⟨dn', hmove⟩

/-- Write to previously evaluated effective address (R537). -/
theorem primWriteEa_serves (hv : s.eaValid = true) :
    Serves w [.read v] s (primWriteEa w n) (store s (dataFc s) n s.eaTmp v) := by
  intro cs cs' dn hc
  have hvalid : (talking s cs dn).eaValid = true := hv
  obtain ⟨dn', hmove⟩ := moveOperand_in (w := w) (a := s.eaTmp) (v := v) h hw hn hn' cs cs' dn hc
  exact ⟨dn', by rw [primWriteEa, if_pos hvalid]; exact hmove⟩

end

theorem cirFits_address : CirFits 0x1C#32 0x1C#5 4 := ⟨rfl, by decide, by decide⟩

/-- Take address and transfer data (R538). -/
theorem primTakeAddr_serves (h : Quiet s) (hw : Wide s) {dr : Bool}
    (hf : Serves w es s (fun x => moveOperand w dr false n x a) t) :
    Serves w (.read a :: es) s (primTakeAddr w dr n) t := by
  intro cs cs' dn hc
  obtain ⟨cs₁, d1, hread, hrest⟩ := cirRead_talking h hw dn cirFits_address hc
  rw [lowBits_long] at hread
  obtain ⟨d2, hmove⟩ := hf cs₁ cs' d1 hrest
  exact ⟨d2, by rw [primTakeAddr, hread]; exact hmove⟩

/-! ## Effective addresses without extension words (R535, R536) -/

/-- The control mode without extension words. -/
theorem scanAddr_ind (hm : cpMode w = 2#3) : scanAddr s w = .ok (.mem false (s.a (cpReg w)), s) := by
  have hea : getEa .control .l (cpMode w) (cpReg w) [] = .ok (.ind (cpReg w), []) := by rw [hm]; rfl
  simp only [scanAddr, eaFuel, streamEa, hea, List.length_nil, Nat.mul_zero, BitVec.add_zero, ok_bind]
  rfl

/-- Evaluate and transfer effective address (R535). -/
theorem primEvalEa_ind (h : Quiet s) (hw : Wide s) (hm : cpMode w = 2#3) :
    Serves w [.write 0x1C#5 4 (s.a (cpReg w))] s (primEvalEa w) (setEaTmp s (s.a (cpReg w))) := by
  intro cs cs' dn hc
  have hmode : eaMode (cpMode w) (cpReg w) = some .ind := by rw [hm]; rfl
  obtain ⟨cs₁, dn', hwrite, hnil⟩ :=
    cirWrite_talking (s := setEaTmp s (s.a (cpReg w))) h hw dn cirFits_address (lowBits_long _) hc
  obtain rfl := eq_of_converse_nil hnil
  refine ⟨dn', ?_⟩
  rw [primEvalEa, hmode]
  simp only [scanAddr_ind hm]
  exact hwrite

/-- (An): the operand is at the address that An holds. -/
theorem primEaData_ind (hm : cpMode w = 2#3) (valid : BitVec 3) {dr : Bool}
    (hf : Serves w es (setEaTmp s (s.a (cpReg w))) (fun x => moveOperand w dr false n x (s.a (cpReg w))) t) :
    Serves w es s (primEaData w valid dr n) t := by
  intro cs cs' dn hc
  have hmode : eaMode (cpMode w) (cpReg w) = some .ind := by rw [hm]; rfl
  have hvalid : validEa valid .ind = true := by revert valid; decide
  obtain ⟨dn', hmove⟩ := hf cs cs' dn hc
  refine ⟨dn', ?_⟩
  rw [primEaData, hmode]
  simp only [hvalid, Bool.not_true, Bool.false_eq_true, if_false, EaMode.isAlterable, Bool.and_false,
    scanAddr_ind hm, ok_bind]
  exact hmove

/-! ## Sizes (R153, R154, R536) -/

theorem bytesOf_sizeOfLen (hn : n = 1 ∨ n = 2 ∨ n = 4) : bytesOf (sizeOfLen n) = n := by
  rcases hn with rfl | rfl | rfl <;> rfl

theorem cpStep_eq_incOf (hn : n = 1 ∨ n = 2 ∨ n = 4) (r : Reg) : cpStep n r = incOf (sizeOfLen n) r := by
  rcases hn with rfl | rfl | rfl
  · revert r
    decide
  · rfl
  · rfl

theorem lowBits_sizeOfLen (hn : n = 1 ∨ n = 2 ∨ n = 4) (v : Long) : lowBits (8 * n) v = trunc (sizeOfLen n) v := by
  rw [← lowBits_bytesOf, bytesOf_sizeOfLen hn]

/-- A write of a part of a register writes the low bits. -/
theorem insertLow_trunc (sz : Size) (old v : Long) : insertLow sz old (trunc sz v) = insertLow sz old v := by
  cases sz with
  | b | w => simp only [insertLow, trunc, BitVec.setWidth_setWidth_of_le, BitVec.setWidth_eq, Nat.reduceLeDiff]
  | l => rfl

theorem sext_trunc (sz : Size) (v : Long) : sext sz (trunc sz v) = sext sz v := by
  cases sz with
  | b | w => simp only [sext, trunc, BitVec.setWidth_setWidth_of_le, BitVec.setWidth_eq, Nat.reduceLeDiff]
  | l => rfl

/-! ## Stepped addresses (R536) -/

theorem a_setA_same (s : State) (r : Reg) (v : Long) : (s.setA r v).a r = v := (a_setA s r r v).trans (if_pos rfl)

/-- -(An): An is stepped first. -/
theorem primEaData_preDec (hm : cpMode w = 4#3) {valid : BitVec 3} (hvalid : valid ≠ 0#3) (hvalid' : valid ≠ 4#3)
    {dr : Bool} {a : Long} (ha : s.a (cpReg w) - cpStep n (cpReg w) = a)
    (hf : Serves w es (setEaTmp (s.setA (cpReg w) a) a) (fun x => moveOperand w dr false n x a) t) :
    Serves w es s (primEaData w valid dr n) t := by
  intro cs cs' dn hc
  have hmode : eaMode (cpMode w) (cpReg w) = some .preDec := by rw [hm]; rfl
  have hok : validEa valid .preDec = true := by revert valid; decide
  have hstepped := a_setA_same s (cpReg w) a
  have hsame : ∀ n, (talking (s.setA n a) cs dn).a n = (s.setA n a).a n := fun _ => rfl
  have hold : (talking s cs dn).a (cpReg w) = s.a (cpReg w) := rfl
  obtain ⟨dn', hmove⟩ := hf cs cs' dn hc
  refine ⟨dn', ?_⟩
  rw [primEaData, hmode]
  simp only [hok, Bool.not_true, Bool.false_eq_true, if_false, EaMode.isAlterable, Bool.and_false, hold, ha, setA_talking,
    hsame, hstepped]
  exact hmove

/-- (An)+: An is stepped last. -/
theorem primEaData_postInc (hm : cpMode w = 3#3) {valid : BitVec 3} (hvalid : valid ≠ 0#3) (hvalid' : valid ≠ 4#3)
    {dr : Bool} (hf : Serves w es (setEaTmp s (s.a (cpReg w)))
      (fun x => moveOperand w dr false n x (s.a (cpReg w))) t) :
    Serves w es s (primEaData w valid dr n) (t.setA (cpReg w) (t.a (cpReg w) + cpStep n (cpReg w))) := by
  intro cs cs' dn hc
  have hmode : eaMode (cpMode w) (cpReg w) = some .postInc := by rw [hm]; rfl
  have hok : validEa valid .postInc = true := by revert valid; decide
  obtain ⟨dn', hmove⟩ := hf cs cs' dn hc
  have hmove' : moveOperand w dr false n (setEaTmp (talking s cs dn) ((talking s cs dn).a (cpReg w)))
      ((talking s cs dn).a (cpReg w)) = .ok (talking t cs' dn') := hmove
  refine ⟨dn', ?_⟩
  rw [primEaData, hmode]
  simp only [hok, Bool.not_true, Bool.false_eq_true, if_false, EaMode.isAlterable, Bool.and_false, hmove', ok_bind,
    setA_talking]
  rfl

/-! ## Registers (R536) -/

section

variable (h : Quiet s) (hw : Wide s) (hn : n = 1 ∨ n = 2 ∨ n = 4)

include hn in
theorem cycle_of_size : 1 ≤ n ∧ n ≤ 4 := by omega

include h hw hn

/-- A register operand to the coprocessor. -/
theorem primRegister_out (rn : Rn) :
    Serves w [.write 0x10#5 n (trunc (sizeOfLen n) (s.rn rn))] s (primRegister w rn false n)
      { s with eaValid := false } := by
  obtain ⟨hlow, hhigh⟩ := cycle_of_size hn
  have hbits : lowBits (8 * n) (lowBits (8 * n) (s.rn rn)) = trunc (sizeOfLen n) (s.rn rn) := by
    rw [lowBits_idem, lowBits_sizeOfLen hn]
  exact serves_write (s := { s with eaValid := false }) h hw (cirFits_operand hlow hhigh) hbits

/-- A register operand from the coprocessor. -/
theorem primRegister_in (rn : Rn) (v : Long) :
    Serves w [.read v] s (primRegister w rn true n)
      (setRnSized { s with eaValid := false } (sizeOfLen n) rn (trunc (sizeOfLen n) v)) := by
  intro cs cs' dn hc
  obtain ⟨hlow, hhigh⟩ := cycle_of_size hn
  obtain ⟨cs₁, dn', hread, hnil⟩ :=
    cirRead_talking (s := { s with eaValid := false }) h hw dn (cirFits_operand hlow hhigh) hc
  obtain rfl := eq_of_converse_nil hnil
  have hset : setRnSized (talking { s with eaValid := false } cs₁ dn') (sizeOfLen n) rn (trunc (sizeOfLen n) v) =
      talking (setRnSized { s with eaValid := false } (sizeOfLen n) rn (trunc (sizeOfLen n) v)) cs₁ dn' := by
    unfold setRnSized
    split
    · exact setRn_talking ..
    · rfl
  rw [lowBits_sizeOfLen hn] at hread
  refine ⟨dn', ?_⟩
  rw [primRegister, ← hset]
  simp only [if_true]
  exact congrArg (fun r => r >>= fun r => Except.ok (setRnSized r.2 (sizeOfLen n) rn r.1)) hread

end

/-- Which register is the operand. -/
theorem primEaData_register (hn : n = 1 ∨ n = 2 ∨ n = 4) {valid : BitVec 3} {mode : EaMode}
    (hmode : eaMode (cpMode w) (cpReg w) = some mode) (hreg : mode = .dn ∨ mode = .an) (hok : validEa valid mode = true)
    (dr : Bool) (s : State) :
    primEaData w valid dr n s = primRegister w (BitVec.ofBool (mode == .an) ++ cpReg w) dr n s := by
  have hsize : (decide (n = 1) || decide (n = 2) || decide (n = 4)) = true := by simpa [or_assoc] using hn
  rw [primEaData, hmode]
  rcases hreg with rfl | rfl <;>
    simp only [hok, Bool.not_true, Bool.false_eq_true, if_false, EaMode.isAlterable, Bool.and_false, hsize, if_true]

/-- Dn as an operand. -/
theorem primEaData_dn (hn : n = 1 ∨ n = 2 ∨ n = 4) (hm : cpMode w = 0#3) {valid : BitVec 3}
    (hvalid : valid.getLsbD 0 = true) (dr : Bool) (s : State) :
    primEaData w valid dr n s = primRegister w (0#1 ++ cpReg w) dr n s :=
  primEaData_register hn (mode := .dn) (by rw [hm]; rfl) (.inl rfl) (by revert valid; decide) dr s

/-- An as an operand. -/
theorem primEaData_an (hn : n = 1 ∨ n = 2 ∨ n = 4) (hm : cpMode w = 1#3) {valid : BitVec 3}
    (hvalid : valid = 3#3 ∨ valid = 7#3) (dr : Bool) (s : State) :
    primEaData w valid dr n s = primRegister w (1#1 ++ cpReg w) dr n s :=
  primEaData_register hn (mode := .an) (by rw [hm]; rfl) (.inr rfl) (by revert valid; decide) dr s

theorem rnNumber_fields (r : Reg) :
    (0#1 ++ r : BitVec 4).getLsbD 3 = false ∧ (0#1 ++ r : BitVec 4).extractLsb' 0 3 = r ∧
      (1#1 ++ r : BitVec 4).getLsbD 3 = true ∧ (1#1 ++ r : BitVec 4).extractLsb' 0 3 = r := by
  revert r
  decide

theorem rn_data (s : State) (r : Reg) : s.rn (0#1 ++ r) = s.d r := by
  obtain ⟨hbit, hlow, -, -⟩ := rnNumber_fields r
  rw [State.rn, hbit, hlow]
  rfl

theorem rn_addr (s : State) (r : Reg) : s.rn (1#1 ++ r) = s.a r := by
  obtain ⟨-, -, hbit, hlow⟩ := rnNumber_fields r
  rw [State.rn, hbit, hlow]
  rfl

/-- Only the low bits of a data register are loaded. -/
theorem setRnSized_data (s : State) (sz : Size) (r : Reg) (v : Long) :
    setRnSized s sz (0#1 ++ r) (trunc sz v) = s.setDSized sz r v := by
  obtain ⟨hbit, hlow, -, -⟩ := rnNumber_fields r
  rw [setRnSized, isAn, hbit, hlow, State.setDSized, insertLow_trunc]
  rfl

/-- All of an address register is loaded. -/
theorem setRnSized_addr (s : State) (sz : Size) (r : Reg) (v : Long) :
    setRnSized s sz (1#1 ++ r) (trunc sz v) = s.setA r (sext sz v) := by
  obtain ⟨-, -, hbit, hlow⟩ := rnNumber_fields r
  rw [setRnSized, isAn, hbit, sext_trunc, if_pos rfl, State.setRn, hbit, hlow]
  rfl

/-! ## The stack (R539) -/

section

variable (h : Quiet s) (hw : Wide s) (hn : n = 1 ∨ n = 2 ∨ n = 4)

include h hw hn

/-- A pop to the coprocessor. -/
theorem primStack_out :
    Serves w [.write 0x10#5 n (load s (dataFc s) s.sp n)] s (primStack w false n)
      (s.setSp (s.sp + incOf (sizeOfLen n) 7#3)) := by
  intro cs cs' dn hc
  obtain ⟨hlow, hhigh⟩ := cycle_of_size hn
  have hsize : (decide (n = 1) || decide (n = 2) || decide (n = 4)) = true := by simpa [or_assoc] using hn
  have hsp : ∀ cs dn, (talking s cs dn).sp = s.sp := fun _ _ => rfl
  obtain ⟨d1, hread⟩ := memRead_talking h cs dn s.sp n
  obtain ⟨cs₁, d2, hwrite, hnil⟩ :=
    cirWrite_talking h hw d1 (cirFits_operand hlow hhigh) (lowBits_load s (dataFc s) s.sp n) hc
  obtain rfl := eq_of_converse_nil hnil
  refine ⟨d2, ?_⟩
  simp only [primStack, hsize, if_true, Bool.false_eq_true, if_false, hsp, hread, ok_bind, hwrite, cpStep_eq_incOf hn]
  rfl

/-- A push from the coprocessor. -/
theorem primStack_in (v : Long) :
    Serves w [.read v] s (primStack w true n)
      (store (s.setSp (s.sp - incOf (sizeOfLen n) 7#3)) (dataFc s) n (s.sp - incOf (sizeOfLen n) 7#3) v) := by
  intro cs cs' dn hc
  obtain ⟨hlow, hhigh⟩ := cycle_of_size hn
  have hsize : (decide (n = 1) || decide (n = 2) || decide (n = 4)) = true := by simpa [or_assoc] using hn
  have hsp : (talking s cs dn).setSp ((talking s cs dn).sp - incOf (sizeOfLen n) 7#3) =
      talking (s.setSp (s.sp - incOf (sizeOfLen n) 7#3)) cs dn := rfl
  generalize s.sp - incOf (sizeOfLen n) 7#3 = p at *
  have hq : Quiet (s.setSp p) := quiet_congr h rfl rfl rfl
  obtain ⟨cs₁, d1, hread, hnil⟩ := cirRead_talking hq hw dn (cirFits_operand hlow hhigh) hc
  obtain rfl := eq_of_converse_nil hnil
  obtain ⟨d2, hwrite⟩ := memWrite_talking hq cs₁ d1 p n (lowBits (8 * n) v)
  have hnew : (talking (s.setSp p) cs₁ d1).sp = p := sp_setSp s p
  rw [store_lowBits] at hwrite
  refine ⟨d2, ?_⟩
  simp only [primStack, hsize, if_true, cpStep_eq_incOf hn, hsp, hread, ok_bind, hnew, hwrite]
  rfl

end

/-! ## Several coprocessor registers (R543) -/

theorem a_talking (s : State) (cs : List Coprocessor) (dn : List BusRec) (r : Reg) : (talking s cs dn).a r = s.a r := rfl

theorem a_setEaTmp (s : State) (a : Long) (r : Reg) : (setEaTmp s a).a r = s.a r := rfl

theorem setEaTmp_talking (s : State) (cs : List Coprocessor) (dn : List BusRec) (a : Long) :
    setEaTmp (talking s cs dn) a = talking (setEaTmp s a) cs dn := rfl

theorem setEaTmp_setEaTmp (s : State) (a b : Long) : setEaTmp (setEaTmp s a) b = setEaTmp s b := rfl

theorem quiet_setEaTmp (h : Quiet s) (a : Long) : Quiet (setEaTmp s a) := quiet_congr h rfl rfl rfl

theorem setA_setEaTmp (s : State) (a : Long) (r : Reg) (v : Long) :
    (setEaTmp s a).setA r v = setEaTmp (s.setA r v) a := by
  unfold State.setA
  split <;> rfl

/-- Two registers are selected. -/
theorem onesIn_two : onesIn 3#16 = 2 := by decide

/-- The select mask of two registers. -/
theorem cirRead_two (h : Quiet s) (hw : Wide s) (dn : List BusRec)
    (hc : converse (cpId w) (.read 3#32 :: es) cs = some cs') :
    ∃ cs₁ dn', cirRead (talking s cs dn) w 0x14#32 2 = .ok (3#32, talking s cs₁ dn') ∧
      converse (cpId w) es cs₁ = some cs' :=
  cirRead_select h hw dn hc

/-- Two registers of four bytes, from ascending addresses. -/
theorem primCpRegs_out (h : Quiet s) (hw : Wide s) (hm : cpMode w = 3#3) :
    Serves w [.read 3#32, .write 0x10#5 4 (load s (dataFc s) (s.a (cpReg w)) 4),
        .write 0x10#5 4 (load s (dataFc s) (s.a (cpReg w) + 4#32) 4)] s (primCpRegs w false 4)
      (setEaTmp (s.setA (cpReg w) (s.a (cpReg w) + 8#32)) (s.a (cpReg w) + 8#32)) := by
  intro cs cs' dn hc
  have hmode : eaMode (cpMode w) (cpReg w) = some .postInc := by rw [hm]; rfl
  have hq := quiet_setEaTmp h (s.a (cpReg w))
  obtain ⟨cs₁, d1, hread, hrest⟩ := cirRead_two hq hw dn hc
  obtain ⟨cs₂, d2, hfirst, hrest⟩ := moveOperand_out_cons (s := setEaTmp s (s.a (cpReg w))) (n := 4) hq hw (by decide)
    (by decide) d1 hrest
  obtain ⟨cs₃, d3, hsecond, hnil⟩ := moveOperand_out_cons (s := setEaTmp s (s.a (cpReg w))) (n := 4) hq hw (by decide)
    (by decide) d2 hrest
  obtain rfl := eq_of_converse_nil hnil
  refine ⟨d3, ?_⟩
  rw [primCpRegs, hmode]
  simp only [Nat.reduceMod, Nat.reduceEqDiff, if_false, beq_self_eq_true, Bool.not_false, Bool.and_self, if_true, a_talking,
    setEaTmp_talking, hread, ok_bind, BitVec.reduceSetWidth, onesIn_two, moveUp, a_setEaTmp, hfirst, hsecond, setA_talking,
    setA_setEaTmp, a_setA_same, setEaTmp_setEaTmp]

theorem a_store (fc : Fc) (n : Nat) (a v : Long) (s : State) (r : Reg) : (store s fc n a v).a r = s.a r := by
  rw [store_eq]
  rfl

theorem store_setA (fc : Fc) (n : Nat) (a v : Long) (s : State) (r : Reg) (x : Long) :
    store (s.setA r x) fc n a v = (store s fc n a v).setA r x := by
  induction n generalizing s a with
  | zero => rfl
  | succ n ih =>
    have hbyte : setByteAt (s.setA r x) fc a (byteOf v n) = (setByteAt s fc a (byteOf v n)).setA r x := by
      unfold State.setA
      split <;> rfl
    rw [store, hbyte, ih, store]

theorem store_setEaTmp (fc : Fc) (n : Nat) (a v : Long) (s : State) (b : Long) :
    store (setEaTmp s b) fc n a v = setEaTmp (store s fc n a v) b := by
  induction n generalizing s a with
  | zero => rfl
  | succ n ih => exact ih _ (setByteAt s fc a (byteOf v n))

/-- A write of An is lost under a later one. -/
theorem setA_setA (s : State) (r : Reg) (v x : Long) : (s.setA r v).setA r x = s.setA r x := by
  by_cases hr : r.toNat < 7
  · simp only [State.setA, hr, dif_pos, Vector.set_set]
  · have hsp : ∀ (s : State) v, s.setA r v = s.setSp v := fun s v => dif_neg hr
    rw [hsp, hsp, hsp, setSp_setSp]

/-- The state after a register of four bytes has gone to the address below. -/
def pushedDown (s : State) (r : Reg) (v : Long) : State :=
  store (s.setA r (s.a r - 4#32)) (dataFc s) 4 (s.a r - 4#32) v

theorem quiet_pushedDown (h : Quiet s) (hw : Wide s) (r : Reg) (v : Long) :
    Quiet (pushedDown s r v) ∧ Wide (pushedDown s r v) :=
  ⟨quiet_store (quiet_setA h ..) .., fun ext => by rw [pushedDown, store_platform, setA_platform]; exact hw ext⟩

/-- The next coprocessor register goes to the address below. -/
theorem moveDown_step (h : Quiet s) (hw : Wide s) (dn : List BusRec) (r : Reg)
    (hc : converse (cpId w) (.read v :: es) cs = some cs') :
    ∃ cs₁ dn', (∀ k, moveDown w 4 (k + 1) (talking s cs dn) r = moveDown w 4 k (talking (pushedDown s r v) cs₁ dn') r) ∧
      converse (cpId w) es cs₁ = some cs' := by
  have hq : Quiet (s.setA r (s.a r - 4#32)) := quiet_setA h ..
  have hw' : Wide (s.setA r (s.a r - 4#32)) := fun ext => by rw [setA_platform]; exact hw ext
  obtain ⟨cs₁, dn', hmove, hrest⟩ :=
    moveOperand_in_cons (n := 4) (a := s.a r - 4#32) hq hw' (by decide) (by decide) dn hc
  have hold : (talking s cs dn).a r = s.a r := rfl
  have hkept : ∀ x, (talking (s.setA r x) cs dn).a r = x := fun x => a_setA_same s r x
  refine ⟨cs₁, dn', fun k => ?_, hrest⟩
  rw [dataFc_congr (setA_sr s ..)] at hmove
  rw [moveDown]
  simp only [hold, setA_talking, hkept]
  exact congrArg (fun x : Run State => x >>= fun s => moveDown w 4 k s r) hmove

theorem pushedDown_setEaTmp (s : State) (a : Long) (r : Reg) (v : Long) :
    pushedDown (setEaTmp s a) r v = setEaTmp (pushedDown s r v) a := by
  rw [pushedDown, a_setEaTmp, setA_setEaTmp, store_setEaTmp]
  rfl

/-- Two registers pushed. -/
theorem pushedDown_twice (s : State) (r : Reg) (v v' : Long) :
    pushedDown (pushedDown s r v) r v' =
      store (store (s.setA r (s.a r - 8#32)) (dataFc s) 4 (s.a r - 4#32) v) (dataFc s) 4 (s.a r - 8#32) v' := by
  have hfc : dataFc (pushedDown s r v) = dataFc s := (dataFc_store ..).trans (dataFc_congr (setA_sr s ..))
  have ha : (pushedDown s r v).a r - 4#32 = s.a r - 8#32 := by
    rw [pushedDown, a_store, a_setA_same]
    bv_omega
  rw [pushedDown, hfc, ha, pushedDown, ← store_setA, setA_setA]

/-- Two registers of four bytes, to descending addresses. -/
theorem primCpRegs_in (h : Quiet s) (hw : Wide s) (hm : cpMode w = 4#3) (v v' : Long) :
    Serves w [.read 3#32, .read v, .read v'] s (primCpRegs w true 4)
      (setEaTmp (store (store (s.setA (cpReg w) (s.a (cpReg w) - 8#32)) (dataFc s) 4 (s.a (cpReg w) - 4#32) v)
        (dataFc s) 4 (s.a (cpReg w) - 8#32) v') (s.a (cpReg w) - 8#32)) := by
  intro cs cs' dn hc
  have hmode : eaMode (cpMode w) (cpReg w) = some .preDec := by rw [hm]; rfl
  have hq := quiet_setEaTmp h (s.a (cpReg w))
  obtain ⟨cs₁, d1, hread, hrest⟩ := cirRead_two hq hw dn hc
  obtain ⟨cs₂, d2, hfirst, hrest⟩ := moveDown_step (s := setEaTmp s (s.a (cpReg w))) hq hw d1 (cpReg w) hrest
  obtain ⟨hq', hw'⟩ := quiet_pushedDown hq hw (cpReg w) v
  obtain ⟨cs₃, d3, hsecond, hnil⟩ := moveDown_step hq' hw' d2 (cpReg w) hrest
  obtain rfl := eq_of_converse_nil hnil
  have hmoves : moveDown w 4 2 (talking (setEaTmp s (s.a (cpReg w))) cs₁ d1) (cpReg w) =
      .ok (talking (setEaTmp (pushedDown (pushedDown s (cpReg w) v) (cpReg w) v') (s.a (cpReg w))) cs₃ d3) := by
    rw [hfirst, hsecond, pushedDown_setEaTmp, pushedDown_setEaTmp, moveDown]
  refine ⟨d3, ?_⟩
  rw [primCpRegs, hmode]
  simp only [Nat.reduceMod, Nat.reduceEqDiff, if_false, Bool.not_true, Bool.and_false, Bool.false_eq_true, a_talking,
    setEaTmp_talking, hread, ok_bind, BitVec.reduceSetWidth, onesIn_two, hmoves, beq_self_eq_true, Bool.and_true, if_true,
    pushedDown_twice, setEaTmp_setEaTmp, a_setEaTmp, a_store, a_setA_same]

/-! ## The instruction stream (R534) -/

/-- A fetch neither reads nor writes what the coprocessors have left, or the log. -/
theorem fetchLong_talking (h : Quiet s) (cs : List Coprocessor) (dn : List BusRec) (a : Long) :
    fetchLong (talking s cs dn) a = (fetchLong s a).map fun r => (r.1, talking r.2 cs dn) := by
  have hread := busRead_quiet h (progFc_ne s) (longBase a) 4
  have hread' := busRead_quiet (quiet_talking h cs dn) (progFc_ne s) (longBase a) 4
  have hhit : cacheHit (talking s cs dn) (progFc s) a = cacheHit s (progFc s) a := rfl
  have hfc : progFc (talking s cs dn) = progFc s := rfl
  have hhold : (talking s cs dn).holding = s.holding := rfl
  have hcache : cacheEnabled (talking s cs dn) = cacheEnabled s := rfl
  have hfrozen : (talking s cs dn).cacrF = s.cacrF := rfl
  simp only [fetchLong, hfc, hhit, hread, hread', load_talking, hhold, hcache, hfrozen]
  split
  · rfl
  · cases cacheHit s (progFc s) a with
    | some lw => rfl
    | none => cases cacheEnabled s && !s.cacrF <;> rfl

/-- A fetch that no bus cycle fails changes cache, holding register and pipe alone. -/
theorem fetchLong_unchanged (h : Quiet s) {v : Long} (hf : fetchLong s a = .ok (v, t)) :
    ∃ c x, t = { s with cache := c, holding := x } := by
  simp only [fetchLong, busRead_quiet h (progFc_ne s) (longBase a) 4] at hf
  split at hf
  · cases hf
    exact ⟨_, _, rfl⟩
  · split at hf
    · cases hf
      exact ⟨_, _, rfl⟩
    · cases hf
      cases cacheEnabled s && !s.cacrF <;> exact ⟨_, _, rfl⟩

theorem fetchWord_talking (h : Quiet s) {x : Word} (hf : fetchWord s a = .ok (x, t)) :
    (∃ c y p, t = { s with cache := c, holding := y, pipe := p }) ∧
      ∀ cs dn, fetchWord (talking s cs dn) a = .ok (x, talking t cs dn) := by
  have hpipe : ∀ cs dn, (talking s cs dn).pipe = s.pipe := fun _ _ => rfl
  rw [fetchWord] at hf
  split at hf
  case h_1 hp =>
    cases hf
    exact ⟨⟨_, _, _, rfl⟩, fun cs dn => by rw [fetchWord, hpipe, hp]⟩
  case h_2 hp =>
    split at hf
    case isTrue => exact nomatch hf
    case isFalse heven =>
      split at hf
      case h_1 lw y hl =>
        obtain ⟨c, z, rfl⟩ := fetchLong_unchanged h hl
        cases hf
        refine ⟨⟨_, _, _, rfl⟩, fun cs dn => ?_⟩
        rw [fetchWord, hpipe, hp, fetchLong_talking h, hl]
        exact if_neg heven
      case h_2 => exact nomatch hf

/-- A word of the instruction stream goes to the coprocessor. -/
theorem streamToCp_word (h : Quiet s) (hw : Wide s) {x : Word} (hf : fetchWord s s.scanPc = .ok (x, t)) :
    Serves w [.write 0x10#5 2 (x.setWidth 32)] s (streamToCp w (chunks 2)) { t with scanPc := s.scanPc + 2#32 } := by
  intro cs cs' dn hc
  obtain ⟨⟨c, y, p, rfl⟩, hfetch⟩ := fetchWord_talking h hf
  have hq : Quiet ({ s with cache := c, holding := y, pipe := p } : State) := quiet_congr h rfl rfl rfl
  have hstream : ∃ dn', streamWord (talking s cs dn) s.scanPc =
      .ok (x, talking { s with cache := c, holding := y, pipe := p } cs dn') := by
    obtain ⟨⟨hreplay, hlanding, -, -⟩, -⟩ := quiet_talking h cs dn
    simp only [streamWord, hreplay, land_none hlanding, hfetch]
    exact ⟨_, rfl⟩
  obtain ⟨d1, hword⟩ := hstream
  obtain ⟨cs₁, d2, hwrite, hnil⟩ := cirWrite_talking hq hw d1 cirFits_operandWord (lowBits_word x) hc
  obtain rfl := eq_of_converse_nil hnil
  have hscan : (talking s cs dn).scanPc = s.scanPc := rfl
  have hone : chunks 2 = [2] := rfl
  refine ⟨d2, ?_⟩
  simp only [hone, streamToCp, Nat.reduceEqDiff, if_false, hscan, hword, ok_bind, hwrite]
  rfl

end Sys2Proof.Proofs
end

section
/-! PROOFS. The services of a general instruction (R533-R543, R566). -/

namespace Sys2Proof.Proofs

open Sys2Proof Sys2Proof.Machine Sys2Proof.Laws

variable {s t : State} {w : Word} {es : List CirEvent} {param : Byte}

/-! ## What each response asks for (R520) -/

/-- A response without CA. -/
def ask (code : BitVec 6) (param : Byte) : CirEvent := .read ((0#2 ++ code ++ param : Word).setWidth 32)

theorem asks_opword : Asks w 0x07#6 param fun s => cirWrite s w 8#32 2 (w.setWidth 32) := fun _ => rfl

theorem asks_oneReg (rn : Rn) : Asks w 0x0C#6 (0#4 ++ rn) (primOneReg w false rn) ∧
    Asks w 0x2C#6 (0#4 ++ rn) (primOneReg w true rn) := by
  have hrn : (0#4 ++ rn : Byte).extractLsb' 0 4 = rn := extractLsb'_append_low _ _
  exact ⟨fun s => congrArg (fun rn => primOneReg w false rn s >>= fun s => Except.ok (afterService false s)) hrn,
    fun s => congrArg (fun rn => primOneReg w true rn s >>= fun s => Except.ok (afterService false s)) hrn⟩

theorem asks_regs : Asks w 0x06#6 param (primRegs w false) ∧ Asks w 0x26#6 param (primRegs w true) :=
  ⟨fun _ => rfl, fun _ => rfl⟩

theorem asks_ctlReg : Asks w 0x0D#6 param (primCtlReg w false) ∧ Asks w 0x2D#6 param (primCtlReg w true) :=
  ⟨fun _ => rfl, fun _ => rfl⟩

theorem asks_status : Asks w 0x02#6 param (primStatus w false false) ∧ Asks w 0x03#6 param (primStatus w false true) ∧
    Asks w 0x22#6 param (primStatus w true false) ∧ Asks w 0x23#6 param (primStatus w true true) :=
  ⟨fun _ => rfl, fun _ => rfl, fun _ => rfl, fun _ => rfl⟩

theorem asks_takeAddr : Asks w 0x05#6 param (primTakeAddr w false param.toNat) ∧
    Asks w 0x25#6 param (primTakeAddr w true param.toNat) := ⟨fun _ => rfl, fun _ => rfl⟩

theorem asks_writeEa : Asks w 0x20#6 param (primWriteEa w param.toNat) := fun _ => rfl

theorem asks_evalEa : Asks w 0x0A#6 param (primEvalEa w) := fun _ => rfl

theorem asks_stack : Asks w 0x0E#6 param (primStack w false param.toNat) ∧
    Asks w 0x2E#6 param (primStack w true param.toNat) := ⟨fun _ => rfl, fun _ => rfl⟩

theorem asks_cpRegs : Asks w 0x01#6 param (primCpRegs w false param.toNat) ∧
    Asks w 0x21#6 param (primCpRegs w true param.toNat) := ⟨fun _ => rfl, fun _ => rfl⟩

theorem asks_stream : Asks w 0x0F#6 2#8 (streamToCp w (chunks 2)) := fun _ => rfl

theorem mem_valid (valid : BitVec 3) : valid ∈ [0#3, 1#3, 2#3, 3#3, 4#3, 5#3, 6#3, 7#3] := by
  revert valid
  decide

theorem serviceGeneral_eaData (w : Word) (valid : BitVec 3) (param : Byte) (s : State) :
    serviceGeneral w ⟨false, false, (0b010#3 ++ valid).toNat, param⟩ s =
        some (primEaData w valid false param.toNat s) ∧
      serviceGeneral w ⟨false, false, (0b110#3 ++ valid).toNat, param⟩ s =
        some (primEaData w valid true param.toNat s) := by
  have hmem := mem_valid valid
  fin_cases hmem
  all_goals
    simp only [serviceGeneral]
    exact ⟨rfl, rfl⟩

/-- Evaluate effective address and transfer data is a service of general instructions. -/
theorem servePrimitive_eaData (w : Word) (valid : BitVec 3) {page : BitVec 3} (hpage : page = 0b010#3 ∨ page = 0b110#3)
    {param : Byte} {s : State} {r : Run State}
    (hr : serviceGeneral w ⟨false, false, (page ++ valid).toNat, param⟩ s = some r) :
    servePrimitive true w ⟨false, false, (page ++ valid).toNat, param⟩ s =
      r >>= fun s => .ok (afterService false s) := by
  have hmem := mem_valid valid
  rcases hpage with rfl | rfl
  all_goals
    fin_cases hmem
    all_goals
      simp only [servePrimitive, serviceBoth, hr]
      rfl

theorem asks_eaData (valid : BitVec 3) : Asks w (0b010#3 ++ valid) param (primEaData w valid false param.toNat) ∧
    Asks w (0b110#3 ++ valid) param (primEaData w valid true param.toNat) :=
  ⟨fun s => servePrimitive_eaData w valid (.inl rfl) (serviceGeneral_eaData w valid param s).1,
    fun s => servePrimitive_eaData w valid (.inr rfl) (serviceGeneral_eaData w valid param s).2⟩

/-! ## States after a service -/

namespace Calm

variable (h : Calm s t)

include h

theorem store (fc : Fc) (n : Nat) (a v : Long) : Calm s (Machine.store t fc n a v) := by
  rw [store_eq]
  exact h

theorem setA (r : Reg) (v : Long) : Calm s (t.setA r v) := by
  rw [setA_eq]
  exact h

theorem setRn (rn : Rn) (v : Long) : Calm s (t.setRn rn v) := by
  rw [setRn_eq]
  exact h

end Calm

/-! ## The services -/

/-- A general instruction with the dialogue `es` after its command leads to `t`, and on to its scanPC. -/
def EndsIn (s : State) (id m r : BitVec 3) (x : Word) (es : List CirEvent) (t : State) : Prop :=
  ∀ cs, converse id (.write 0x0A#5 2 (x.setWidth 32) :: es) s.platform.coprocessors = some cs →
    CompletesAs (exec (.cpGen id m r x) s)
      { t with pc := t.scanPc, platform := { s.platform with coprocessors := cs } }

section

variable (h : Quiet s) (hw : Wide s) (hp : s.trace.pending = false) {id m r : BitVec 3} {x : Word}

theorem calm_scanning (hp : s.trace.pending = false) : Calm s (scanning s) := ⟨rfl, hp⟩

include h hw in
theorem endsIn_of_serves {code : BitVec 6} {f : State → Run State} (ha : Asks (opword (.cpGen id m r x)) code param f)
    (hf : Serves (opword (.cpGen id m r x)) es (scanning s) f t) (ht : Calm s t) :
    EndsIn s id m r x (ask code param :: es) t := fun _ hc => cpGen_serves h hw ha hf ht hc

include h hw hp

/-- The operation word (R533). -/
theorem cpGen_opword :
    EndsIn s id m r x [ask 0x07#6 0#8, .write 8#5 2 ((opword (.cpGen id m r x)).setWidth 32)] (scanning s) :=
  endsIn_of_serves h hw asks_opword
    (serves_write (s := scanning s) h hw ⟨rfl, by decide, by decide⟩ (lowBits_word _)) (calm_scanning hp)

/-- A main processor register (R540). -/
theorem cpGen_oneReg (rn : Rn) (v : Long) :
    EndsIn s id m r x [ask 0x0C#6 (0#4 ++ rn), .write 0x10#5 4 ((scanning s).rn rn)] (scanning s) ∧
      EndsIn s id m r x [ask 0x2C#6 (0#4 ++ rn), .read v] ((scanning s).setRn rn v) := by
  obtain ⟨hout, hin⟩ := asks_oneReg (w := opword (.cpGen id m r x)) rn
  refine ⟨endsIn_of_serves h hw hout (fun cs cs' dn hc => ?_) (calm_scanning hp),
    endsIn_of_serves h hw hin (fun cs cs' dn hc => ?_) ((calm_scanning hp).setRn rn v)⟩
  · obtain ⟨_, dn', hmove, hnil⟩ := primOneReg_out (s := scanning s) h hw dn hc
    obtain rfl := eq_of_converse_nil hnil
    exact ⟨dn', hmove⟩
  · obtain ⟨_, dn', hmove, hnil⟩ := primOneReg_in (s := scanning s) h hw dn hc
    obtain rfl := eq_of_converse_nil hnil
    exact ⟨dn', hmove⟩

/-- Several main processor registers: the mask $8181 names D7, D0, A7, A0, and $0101 names D0, A0 (R542). -/
theorem cpGen_regs (v v' : Long) :
    EndsIn s id m r x [ask 0x06#6 0#8, .read 0x8181#32, .write 0x10#5 4 (s.d 7#3), .write 0x10#5 4 (s.d 0#3),
        .write 0x10#5 4 (s.a 7#3), .write 0x10#5 4 (s.a 0#3)] (scanning s) ∧
      EndsIn s id m r x [ask 0x26#6 0#8, .read 0x0101#32, .read v, .read v']
        (((scanning s).setD 0#3 v).setA 0#3 v') := by
  obtain ⟨hout, hin⟩ := asks_regs (w := opword (.cpGen id m r x)) (param := 0#8)
  refine ⟨endsIn_of_serves h hw hout ?_ (calm_scanning hp),
    endsIn_of_serves h hw hin ?_ (.setA (t := (scanning s).setD 0#3 v) (calm_scanning hp) 0#3 v')⟩
  · exact primRegs_serves (s := scanning s) h hw (rs := [7#4, 0#4, 15#4, 8#4]) (by decide)
      (moveRegs_out (s := scanning s) h hw [7#4, 0#4, 15#4, 8#4])
  · exact primRegs_serves (s := scanning s) h hw (rs := [0#4, 8#4]) (by decide)
      (moveRegs_in (s := scanning s) h hw [(0#4, v), (8#4, v')])


theorem cpGen_ctlReg_out {x' : Word} {c : Long} (hx : readCtl (scanning s) (x'.setWidth 12) = some c) :
    EndsIn s id m r x [ask 0x0D#6 0#8, .read (x'.setWidth 32), .write 0x10#5 4 c] (scanning s) :=
  endsIn_of_serves h hw asks_ctlReg.1 (primCtlReg_out (s := scanning s) h hw hx) (calm_scanning hp)

theorem cpGen_ctlReg_in {x' : Word} {v : Long} (hx : writeCtl (scanning s) (x'.setWidth 12) v = some t) :
    EndsIn s id m r x [ask 0x2D#6 0#8, .read (x'.setWidth 32), .read v] t := by
  obtain ⟨hplatform, htrace, -⟩ := writeCtl_calm hx
  exact endsIn_of_serves h hw asks_ctlReg.2 (primCtlReg_in (s := scanning s) h hw hx)
    ⟨hplatform, htrace ▸ hp⟩

/-- The status register, and the scanPC with it, to the coprocessor (R566). -/
theorem cpGen_status_out :
    EndsIn s id m r x [ask 0x02#6 0#8, .write 0x10#5 2 (s.sr.toWord.setWidth 32)] (scanning s) ∧
      EndsIn s id m r x [ask 0x03#6 0#8, .write 0x18#5 4 (s.pc + 4#32), .write 0x10#5 2 (s.sr.toWord.setWidth 32)]
        (scanning s) := by
  obtain ⟨hask, hask', -, -⟩ := asks_status (w := opword (.cpGen id m r x)) (param := 0#8)
  obtain ⟨hstatus, hscan⟩ := primStatus_out (s := scanning s) (w := opword (.cpGen id m r x)) h hw
  exact ⟨endsIn_of_serves h hw hask hstatus (calm_scanning hp), endsIn_of_serves h hw hask' hscan (calm_scanning hp)⟩

/-- The status register, and the scanPC with it, from the coprocessor (R566). -/
theorem cpGen_status_in (hf : s.trace.flow = false) (x' : Word) :
    EndsIn s id m r x [ask 0x22#6 0#8, .read (x'.setWidth 32)] (flush { scanning s with sr := .ofWord x' }) ∧
      ∀ a : Long, a.getLsbD 0 = false → EndsIn s id m r x [ask 0x23#6 0#8, .read (x'.setWidth 32), .read a]
        (flush { s with sr := .ofWord x', scanPc := a }) := by
  obtain ⟨-, -, hask, hask'⟩ := asks_status (w := opword (.cpGen id m r x)) (param := 0#8)
  exact ⟨endsIn_of_serves h hw hask (primStatus_in (s := scanning s) h hw hp hf x') ⟨rfl, hp⟩, fun a ha =>
    endsIn_of_serves h hw hask' (primStatus_in_scan (s := scanning s) h hw hp hf x' ha) ⟨rfl, hp⟩⟩

/-- The word of the instruction stream at the scanPC (R534). -/
theorem cpGen_stream {x' : Word} (hf : fetchWord (scanning s) (s.pc + 4#32) = .ok (x', t)) :
    EndsIn s id m r x [ask 0x0F#6 2#8, .write 0x10#5 2 (x'.setWidth 32)] { t with scanPc := s.pc + 6#32 } := by
  have hsix : s.pc + 4#32 + 2#32 = s.pc + 6#32 := BitVec.add_assoc ..
  obtain ⟨⟨c, y, p, rfl⟩, -⟩ := fetchWord_talking (s := scanning s) h hf
  rw [← hsix]
  exact endsIn_of_serves h hw asks_stream (streamToCp_word (s := scanning s) h hw hf) ⟨rfl, hp⟩

section

variable {n : Byte} (hn : 1 ≤ n.toNat) (hn' : n.toNat ≤ 4) (v a : Long)

include hn hn'

/-- An operand at an address from the coprocessor (R538). -/
theorem cpGen_takeAddr :
    EndsIn s id m r x [ask 0x05#6 n, .read a, .write 0x10#5 n.toNat (load (scanning s) (dataFc s) a n.toNat)]
        (scanning s) ∧
      EndsIn s id m r x [ask 0x25#6 n, .read a, .read v] (store (scanning s) (dataFc s) n.toNat a v) :=
  ⟨endsIn_of_serves h hw asks_takeAddr.1
      (primTakeAddr_serves (s := scanning s) h hw (moveOperand_out (s := scanning s) h hw hn hn')) (calm_scanning hp),
    endsIn_of_serves h hw asks_takeAddr.2
      (primTakeAddr_serves (s := scanning s) h hw (moveOperand_in (s := scanning s) h hw hn hn'))
      ((calm_scanning hp).store ..)⟩

/-- An operand at the address evaluated before (R537). -/
theorem cpGen_writeEa (hv : s.eaValid = true) :
    EndsIn s id m r x [ask 0x20#6 n, .read v] (store (scanning s) (dataFc s) n.toNat s.eaTmp v) :=
  endsIn_of_serves h hw asks_writeEa (primWriteEa_serves (s := scanning s) h hw hn hn' hv) ((calm_scanning hp).store ..)

end

/-- The address that An holds (R535). -/
theorem cpGen_evalEa :
    EndsIn s id 2#3 r x [ask 0x0A#6 0#8, .write 0x1C#5 4 (s.a r)] (setEaTmp (scanning s) (s.a r)) := by
  obtain ⟨-, hmode, hreg⟩ := fields_mkOp 15 id 0 2 r
  have hserves := primEvalEa_ind (s := scanning s) (w := opword (.cpGen id 2 r x)) h hw hmode
  have hr : cpReg (opword (.cpGen id 2 r x)) = r := hreg
  rw [hr] at hserves
  exact endsIn_of_serves h hw asks_evalEa hserves (calm_scanning hp)

end

end Sys2Proof.Proofs
end

section
/-! PROOFS. The services of a general instruction that transfer the operand of its effective address, the top of the
stack, or several coprocessor registers (R536, R539, R543). -/

namespace Sys2Proof.Proofs

open Sys2Proof Sys2Proof.Machine Sys2Proof.Laws

variable {s t : State} {w : Word} {es : List CirEvent}

section

variable (h : Quiet s) (hw : Wide s) (hp : s.trace.pending = false) {id m r : BitVec 3} {x : Word} {n : Byte} (v : Long)

/-- The operation word of a general instruction names its effective address. -/
theorem opword_cpGen (id m r : BitVec 3) (x : Word) :
    cpMode (opword (.cpGen id m r x)) = m ∧ cpReg (opword (.cpGen id m r x)) = r := by
  obtain ⟨-, hmode, hreg⟩ := fields_mkOp 15 id 0 m r
  exact ⟨hmode, hreg⟩

/-- The temporary register is no memory. -/
theorem load_setEaTmp (s : State) (b : Long) (fc : Fc) (a : Long) (n : Nat) :
    load (setEaTmp s b) fc a n = load s fc a n := load_congr (s := s) (t := setEaTmp s b) rfl rfl fc a n

/-- An operand whose value is known, to the coprocessor. -/
theorem moveOperand_out_of (h : Quiet s) (hw : Wide s) {n : Nat} (hn : 1 ≤ n) (hn' : n ≤ 4) {a v : Long}
    (hv : load s (dataFc s) a n = v) :
    Serves w [.write 0x10#5 n v] s (fun x => moveOperand w false false n x a) s :=
  hv ▸ moveOperand_out h hw hn hn'

theorem a_scanning (s : State) (r : Reg) : (scanning s).a r = s.a r := rfl

include h hw hp

/-- (An), at the address that An holds (R536). -/
theorem cpGen_ind (hn : 1 ≤ n.toNat) (hn' : n.toNat ≤ 4) (valid : BitVec 3) :
    EndsIn s id 2#3 r x
        [ask (0b010#3 ++ valid) n, .write 0x10#5 n.toNat (load (scanning s) (dataFc s) (s.a r) n.toNat)]
        (setEaTmp (scanning s) (s.a r)) ∧
      EndsIn s id 2#3 r x [ask (0b110#3 ++ valid) n, .read v]
        (store (setEaTmp (scanning s) (s.a r)) (dataFc s) n.toNat (s.a r) v) := by
  obtain ⟨hmode, hreg⟩ := opword_cpGen id 2 r x
  obtain ⟨hout, hin⟩ := asks_eaData (w := opword (.cpGen id 2 r x)) (param := n) valid
  have hea : ∀ {dr es t}, Serves (opword (.cpGen id 2 r x)) es (setEaTmp (scanning s) (s.a r))
        (fun y => moveOperand (opword (.cpGen id 2 r x)) dr false n.toNat y (s.a r)) t →
      Serves (opword (.cpGen id 2 r x)) es (scanning s) (primEaData (opword (.cpGen id 2 r x)) valid dr n.toNat) t :=
    fun hf => primEaData_ind hmode valid (by rw [hreg]; exact hf)
  exact ⟨endsIn_of_serves h hw hout
      (hea (moveOperand_out_of (s := setEaTmp (scanning s) (s.a r)) h hw hn hn' (load_setEaTmp ..)))
      (calm_scanning hp),
    endsIn_of_serves h hw hin (hea (moveOperand_in (s := setEaTmp (scanning s) (s.a r)) h hw hn hn'))
      (.store (t := setEaTmp (scanning s) (s.a r)) (calm_scanning hp) ..)⟩

/-- Two coprocessor registers of four bytes, by (An)+ and -(An) (R543). -/
theorem cpGen_cpRegs (v' : Long) :
    EndsIn s id 3#3 r x [ask 0x01#6 4#8, .read 3#32, .write 0x10#5 4 (load (scanning s) (dataFc s) (s.a r) 4),
        .write 0x10#5 4 (load (scanning s) (dataFc s) (s.a r + 4#32) 4)]
        (setEaTmp ((scanning s).setA r (s.a r + 8#32)) (s.a r + 8#32)) ∧
      EndsIn s id 4#3 r x [ask 0x21#6 4#8, .read 3#32, .read v, .read v']
        (setEaTmp (store (store ((scanning s).setA r (s.a r - 8#32)) (dataFc s) 4 (s.a r - 4#32) v)
          (dataFc s) 4 (s.a r - 8#32) v') (s.a r - 8#32)) := by
  have hout : Serves (opword (.cpGen id 3#3 r x)) _ (scanning s) _ _ :=
    primCpRegs_out (s := scanning s) h hw (opword_cpGen id 3#3 r x).1
  have hin : Serves (opword (.cpGen id 4#3 r x)) _ (scanning s) _ _ :=
    primCpRegs_in (s := scanning s) h hw (opword_cpGen id 4#3 r x).1 v v'
  rw [(opword_cpGen id 3#3 r x).2, a_scanning] at hout
  rw [(opword_cpGen id 4#3 r x).2, a_scanning] at hin
  exact ⟨endsIn_of_serves h hw asks_cpRegs.1 hout ((calm_scanning hp).setA ..),
    endsIn_of_serves h hw asks_cpRegs.2 hin ((((calm_scanning hp).setA ..).store ..).store ..)⟩

variable (hn : n.toNat = 1 ∨ n.toNat = 2 ∨ n.toNat = 4)

include hn

/-- The stack (R539). -/
theorem cpGen_stack :
    EndsIn s id m r x [ask 0x0E#6 n, .write 0x10#5 n.toNat (load (scanning s) (dataFc s) s.sp n.toNat)]
        ((scanning s).setSp (s.sp + incOf (sizeOfLen n.toNat) 7#3)) ∧
      EndsIn s id m r x [ask 0x2E#6 n, .read v]
        (store ((scanning s).setSp (s.sp - incOf (sizeOfLen n.toNat) 7#3)) (dataFc s) n.toNat
          (s.sp - incOf (sizeOfLen n.toNat) 7#3) v) :=
  ⟨endsIn_of_serves h hw asks_stack.1 (primStack_out (s := scanning s) h hw hn) (calm_scanning hp),
    endsIn_of_serves h hw asks_stack.2 (primStack_in (s := scanning s) h hw hn v)
      (.store (t := (scanning s).setSp (s.sp - incOf (sizeOfLen n.toNat) 7#3)) (calm_scanning hp) ..)⟩

/-- A data register as the operand (R536). -/
theorem cpGen_dn {valid : BitVec 3} (hvalid : valid.getLsbD 0 = true) :
    EndsIn s id 0#3 r x [ask (0b010#3 ++ valid) n, .write 0x10#5 n.toNat (trunc (sizeOfLen n.toNat) (s.d r))]
        { scanning s with eaValid := false } ∧
      EndsIn s id 0#3 r x [ask (0b110#3 ++ valid) n, .read v]
        (State.setDSized { scanning s with eaValid := false } (sizeOfLen n.toNat) r v) := by
  obtain ⟨hmode, hreg⟩ := opword_cpGen id 0 r x
  obtain ⟨haskOut, haskIn⟩ := asks_eaData (w := opword (.cpGen id 0 r x)) (param := n) valid
  have hout : Serves (opword (.cpGen id 0 r x)) _ (scanning s) _ _ :=
    primRegister_out (s := scanning s) h hw hn (0#1 ++ r)
  have hin : Serves (opword (.cpGen id 0 r x)) _ (scanning s) _ _ :=
    primRegister_in (s := scanning s) h hw hn (0#1 ++ r) v
  have hea : ∀ dr, primEaData (opword (.cpGen id 0 r x)) valid dr n.toNat =
      primRegister (opword (.cpGen id 0 r x)) (0#1 ++ r) dr n.toNat := fun dr => funext fun s => by
    rw [primEaData_dn hn hmode hvalid, hreg]
  rw [rn_data, ← hea] at hout
  rw [setRnSized_data, ← hea] at hin
  exact ⟨endsIn_of_serves h hw haskOut hout (calm_scanning hp), endsIn_of_serves h hw haskIn hin (calm_scanning hp)⟩

/-- An address register as the operand (R536). -/
theorem cpGen_an {valid : BitVec 3} (hvalid : valid = 3#3 ∨ valid = 7#3) :
    EndsIn s id 1#3 r x [ask (0b010#3 ++ valid) n, .write 0x10#5 n.toNat (trunc (sizeOfLen n.toNat) (s.a r))]
        { scanning s with eaValid := false } ∧
      EndsIn s id 1#3 r x [ask (0b110#3 ++ valid) n, .read v]
        (State.setA { scanning s with eaValid := false } r (sext (sizeOfLen n.toNat) v)) := by
  obtain ⟨hmode, hreg⟩ := opword_cpGen id 1 r x
  obtain ⟨haskOut, haskIn⟩ := asks_eaData (w := opword (.cpGen id 1 r x)) (param := n) valid
  have hout : Serves (opword (.cpGen id 1 r x)) _ (scanning s) _ _ :=
    primRegister_out (s := scanning s) h hw hn (1#1 ++ r)
  have hin : Serves (opword (.cpGen id 1 r x)) _ (scanning s) _ _ :=
    primRegister_in (s := scanning s) h hw hn (1#1 ++ r) v
  have hea : ∀ dr, primEaData (opword (.cpGen id 1 r x)) valid dr n.toNat =
      primRegister (opword (.cpGen id 1 r x)) (1#1 ++ r) dr n.toNat := fun dr => funext fun s => by
    rw [primEaData_an hn hmode hvalid, hreg]
  rw [rn_addr, ← hea] at hout
  rw [setRnSized_addr, ← hea] at hin
  exact ⟨endsIn_of_serves h hw haskOut hout (calm_scanning hp),
    endsIn_of_serves h hw haskIn hin (.setA (t := { scanning s with eaValid := false }) (calm_scanning hp) ..)⟩

/-- (An)+: An is stepped by the operand's size (R536). -/
theorem cpGen_postInc {valid : BitVec 3} (hvalid : valid ≠ 0#3) (hvalid' : valid ≠ 4#3) :
    EndsIn s id 3#3 r x
        [ask (0b010#3 ++ valid) n, .write 0x10#5 n.toNat (load (scanning s) (dataFc s) (s.a r) n.toNat)]
        ((setEaTmp (scanning s) (s.a r)).setA r (s.a r + incOf (sizeOfLen n.toNat) r)) ∧
      EndsIn s id 3#3 r x [ask (0b110#3 ++ valid) n, .read v]
        ((store (setEaTmp (scanning s) (s.a r)) (dataFc s) n.toNat (s.a r) v).setA r
          (s.a r + incOf (sizeOfLen n.toNat) r)) := by
  obtain ⟨hmode, hreg⟩ := opword_cpGen id 3 r x
  obtain ⟨hlow, hhigh⟩ := cycle_of_size hn
  obtain ⟨haskOut, haskIn⟩ := asks_eaData (w := opword (.cpGen id 3 r x)) (param := n) valid
  have hea : ∀ {dr es t}, Serves (opword (.cpGen id 3 r x)) es (setEaTmp (scanning s) (s.a r))
        (fun y => moveOperand (opword (.cpGen id 3 r x)) dr false n.toNat y (s.a r)) t → t.a r = s.a r →
      Serves (opword (.cpGen id 3 r x)) es (scanning s) (primEaData (opword (.cpGen id 3 r x)) valid dr n.toNat)
        (t.setA r (s.a r + incOf (sizeOfLen n.toNat) r)) := fun {dr es t} hf ha => by
    have hpost := primEaData_postInc (s := scanning s) (n := n.toNat) (t := t) (es := es) (dr := dr) hmode hvalid hvalid'
    rw [hreg, ha, cpStep_eq_incOf hn] at hpost
    exact hpost hf
  exact ⟨endsIn_of_serves h hw haskOut
      (hea (moveOperand_out_of (s := setEaTmp (scanning s) (s.a r)) h hw hlow hhigh (load_setEaTmp ..)) rfl)
      (.setA (t := setEaTmp (scanning s) (s.a r)) (calm_scanning hp) ..),
    endsIn_of_serves h hw haskIn
      (hea (moveOperand_in (s := setEaTmp (scanning s) (s.a r)) h hw hlow hhigh) (a_store ..))
      (.setA (.store (t := setEaTmp (scanning s) (s.a r)) (calm_scanning hp) ..) ..)⟩

/-- -(An): An is stepped by the operand's size (R536). -/
theorem cpGen_preDec {valid : BitVec 3} (hvalid : valid ≠ 0#3) (hvalid' : valid ≠ 4#3) {down : Long}
    (hdown : s.a r - incOf (sizeOfLen n.toNat) r = down) :
    EndsIn s id 4#3 r x
        [ask (0b010#3 ++ valid) n, .write 0x10#5 n.toNat (load (scanning s) (dataFc s) down n.toNat)]
        ((setEaTmp (scanning s) down).setA r down) ∧
      EndsIn s id 4#3 r x [ask (0b110#3 ++ valid) n, .read v]
        (store ((setEaTmp (scanning s) down).setA r down) (dataFc s) n.toNat down v) := by
  obtain ⟨hmode, hreg⟩ := opword_cpGen id 4 r x
  obtain ⟨hlow, hhigh⟩ := cycle_of_size hn
  obtain ⟨haskOut, haskIn⟩ := asks_eaData (w := opword (.cpGen id 4 r x)) (param := n) valid
  have hstep : (setEaTmp (scanning s) down).setA r down = setEaTmp ((scanning s).setA r down) down := setA_setEaTmp ..
  have hq : Quiet (setEaTmp ((scanning s).setA r down) down) := quiet_setEaTmp (quiet_setA (s := scanning s) h r down) down
  have hw' : Wide (setEaTmp ((scanning s).setA r down) down) := fun ext =>
    (congrArg (fun p => portBytes p 7#3 ext) (setA_platform (scanning s) r down)).trans (hw ext)
  have hfc : dataFc (setEaTmp ((scanning s).setA r down) down) = dataFc s := dataFc_congr (setA_sr (scanning s) r down)
  have hcalm : Calm s (setEaTmp ((scanning s).setA r down) down) := (calm_scanning hp).setA r down
  have hload : load (setEaTmp ((scanning s).setA r down) down) (dataFc (setEaTmp ((scanning s).setA r down) down)) down
      n.toNat = load (scanning s) (dataFc s) down n.toNat := by rw [hfc, load_setEaTmp, load_setA]
  have hea : ∀ {dr es t}, Serves (opword (.cpGen id 4 r x)) es (setEaTmp ((scanning s).setA r down) down)
        (fun y => moveOperand (opword (.cpGen id 4 r x)) dr false n.toNat y down) t →
      Serves (opword (.cpGen id 4 r x)) es (scanning s) (primEaData (opword (.cpGen id 4 r x)) valid dr n.toNat) t :=
    fun {dr es t} hf => by
      have hpre := primEaData_preDec (s := scanning s) (n := n.toNat) (t := t) (es := es) (dr := dr) (a := down) hmode
        hvalid hvalid'
      rw [hreg, cpStep_eq_incOf hn] at hpre
      exact hpre hdown hf
  rw [hstep]
  refine ⟨endsIn_of_serves h hw haskOut (hea (moveOperand_out_of hq hw' hlow hhigh hload)) hcalm,
    endsIn_of_serves h hw haskIn (hea ?_) (hcalm.store ..)⟩
  rw [← hfc]
  exact moveOperand_in hq hw' hlow hhigh

end

/-- Settles O57: each service by the theorem about it, at the state behind the command word. -/
theorem coprocessorServices : Obligations.CoprocessorServices := by
  unfold Obligations.CoprocessorServices
  intro s u id m r x x' n rn v v' a valid cs h hw hp hf
  refine ⟨⟨cpGen_opword h hw hp cs, (cpGen_oneReg h hw hp rn v).1 cs, (cpGen_oneReg h hw hp rn v).2 cs,
      (cpGen_regs h hw hp v v').1 cs, (cpGen_regs h hw hp v v').2 cs, fun c hx => cpGen_ctlReg_out h hw hp hx cs,
      fun t hx => cpGen_ctlReg_in h hw hp hx cs, (cpGen_status_out h hw hp).1 cs, (cpGen_status_out h hw hp).2 cs,
      (cpGen_status_in h hw hp hf x').1 cs, fun ha => (cpGen_status_in h hw hp hf x').2 a ha cs⟩,
    fun hn hn' => ⟨(cpGen_takeAddr h hw hp hn hn' v a).1 cs, (cpGen_takeAddr h hw hp hn hn' v a).2 cs,
      fun hv => cpGen_writeEa h hw hp hn hn' v hv cs, ?_⟩, fun hn => ⟨(cpGen_stack h hw hp v hn).1 cs,
      (cpGen_stack h hw hp v hn).2 cs, ?_, ?_, ?_, ?_⟩, ⟨?_, ?_⟩, fun hx => cpGen_stream h hw hp hx cs⟩
  · rintro rfl
    exact ⟨cpGen_evalEa h hw hp cs, (cpGen_ind h hw hp v hn hn' valid).1 cs, (cpGen_ind h hw hp v hn hn' valid).2 cs⟩
  · rintro rfl hvalid
    exact ⟨(cpGen_dn h hw hp v hn hvalid).1 cs, (cpGen_dn h hw hp v hn hvalid).2 cs⟩
  · rintro rfl hvalid
    exact ⟨(cpGen_an h hw hp v hn hvalid).1 cs, (cpGen_an h hw hp v hn hvalid).2 cs⟩
  · rintro rfl hvalid hvalid'
    exact ⟨(cpGen_postInc h hw hp v hn hvalid hvalid').1 cs, (cpGen_postInc h hw hp v hn hvalid hvalid').2 cs⟩
  · rintro rfl hvalid hvalid'
    exact ⟨(cpGen_preDec h hw hp v hn hvalid hvalid' rfl).1 cs, (cpGen_preDec h hw hp v hn hvalid hvalid' rfl).2 cs⟩
  · rintro rfl
    exact (cpGen_cpRegs h hw hp v v').1 cs
  · rintro rfl
    exact (cpGen_cpRegs h hw hp v v').2 cs

end Sys2Proof.Proofs
end
